-- ==== Sys2Proof/Word.lean ====
section
/-! DEFINITION. The word types of the machine (00_scope.md R6, R8, R12): the unit of memory, of the registers
and of every bus transfer is a 16-bit word. Bit 0 of the manual is the most significant bit; the accessors that
follow the manual's numbering stand in `Sys2Proof/Machine/Bits.lean`. -/

namespace Sys2Proof

/-- A 16-bit word (R12). -/
abbrev Word := BitVec 16

/-- Half a word (R89). -/
abbrev Byte := BitVec 8

/-- A double word: a 32-bit integer or a single float (R12). -/
abbrev Long := BitVec 32

/-- Three words: an extended float (R12). -/
abbrev Triple := BitVec 48

/-- A physical word address: 23 bits and D/I (20_memory.md R86 to R88). -/
abbrev Phys := BitVec 24

/-- A general register number, R0 to R15 (10_state.md R20). -/
abbrev Reg := Fin 16

end Sys2Proof
end

