-- ==== Sys2Proof/Config.lean ====
section
/-! DEFINITION. What the system around the F9450 fixes (00_scope.md R7), what the environment does during a
step, and the free values: results the spec leaves open (93_implementation_defined.md). -/

namespace Sys2Proof

/-- The values the spec leaves open, numbered in the order in which a run meets them (U2, U4, U6, U10, U12 of
93_implementation_defined.md). There is no body: nothing can be proved of any of them (log 10). -/
opaque Config.freeWord : Nat → Word

/-- What examining the instruction register returns at the four console addresses 2C to 2F (49_console.md R627, N6):
not stated, a function of IR and of the two low address bits (log 30). -/
opaque Config.examineIr : Word → BitVec 2 → Word

/-- What can be wrong with a physical memory address (00_scope.md R7 `MEM_VALID`). -/
inductive MemoryFlaw where
  /-- No memory answers: EXT ADR ER. -/
  | absent
  /-- A read draws PAR ER. -/
  | readParity
  /-- A write draws PAR ER. -/
  | writeParity
deriving DecidableEq, Repr

/-- What can be wrong with an I/O address (00_scope.md R7 `IO_DEVICE`, 47_io.md R502). -/
inductive IoFlaw where
  /-- No device answers: EXT ADR ER. -/
  | illegal
  /-- The cycle draws PAR ER. -/
  | parity
deriving DecidableEq, Repr

/-- The physical word addresses `first` to `last` have a flaw. -/
structure MemoryRange where
  first : Phys
  last : Phys
  flaw : MemoryFlaw
deriving DecidableEq, Repr

/-- The I/O addresses `first` to `last` have a flaw. -/
structure IoRange where
  first : Word
  last : Word
  flaw : IoFlaw
deriving DecidableEq, Repr

/-- The parameters of the system (00_scope.md R7), as plain data carried by the state and never changed. -/
structure Platform where
  /-- `SCR_VALUE`: the answer to an I/O read of 8410. -/
  scrValue : Word
  /-- `SELFTEST_OK` (70_reset_and_hazards.md R741). -/
  selftestOk : Bool
  /-- The set E of fault inputs active during self-test, as FT bits (R741). -/
  selftestFaults : Word
  /-- An F9451 is attached; it acts when SCR bit 0 is 1 too (20_memory.md R85). -/
  mmuAttached : Bool
  /-- `MMU_PPA_BITS` = 11 instead of 8. -/
  ppa11 : Bool
  /-- `GLOBPRT_EFFECT` = block (48_mmu_bpu.md R606). -/
  globprtBlocks : Bool
  /-- The memory system decodes the D/I line (20_memory.md R82, R87, R88). -/
  diDecoded : Bool
  /-- Floating operands that are neither normalized nor zero go through the register transfer description of
  41_float.md R262 instead of giving free results (U4). -/
  unnormalizedByRtl : Bool
  /-- Other bus masters drive AS, AK and D/I to the F9451, so that their cycles are translated and checked (48_mmu_bpu.md
  R585, R597); DMA cycles never are (60_exceptions.md R716). -/
  mastersTranslated : Bool
  /-- CONREQ reaches the CPU only where SCR bit 2 says that a console is present (00_scope.md R13 (5)); the pin is not said to
  be gated by that bit (49_console.md R620, log 54). -/
  conreqGated : Bool
  /-- `MEM_VALID`. -/
  memFaults : List MemoryRange
  /-- The legality part of `IO_DEVICE`. -/
  ioFaults : List IoRange
deriving DecidableEq, Repr

/-- The system after which `State.reset` is built (log 6): no companion chip, self-test passed, every address
present. -/
def Platform.standard : Platform :=
  { scrValue := 0, selftestOk := true, selftestFaults := 0, mmuAttached := true, ppa11 := false,
    globprtBlocks := true, diDecoded := false, unnormalizedByRtl := false, mastersTranslated := false,
    conreqGated := true, memFaults := [], ioFaults := [] }

/-- One memory write of another bus master (00_scope.md R13 (4), 60_exceptions.md R716). -/
structure MasterWrite where
  /-- DMA ACK is high: a DMA controller, which needs DMAEN; else another CPU or a coprocessor. -/
  dma : Bool
  /-- The physical address; of a cycle that the F9451 translates, the low 16 bits are the logical address. -/
  addr : Phys
  /-- The address state and the access key the master drives, where they are looked at. -/
  as : BitVec 4
  key : BitVec 4
  data : Word
deriving DecidableEq, Repr

/-- The fault inputs that no cycle of this CPU causes (60_exceptions.md R665). -/
structure FaultInputs where
  /-- A positive edge on SYSFLT0 (R665 (c)). -/
  sysflt0 : Bool
  /-- A positive edge on SYSFLT1 (R665 (d)). -/
  sysflt1 : Bool
  /-- MEM PRT ER on a bus cycle that is not the CPU's (R665 (a)). -/
  busProtect : Bool
  /-- PAR ER on a bus cycle that is not the CPU's (R665 (b)). -/
  busParity : Bool
deriving DecidableEq, Repr

/-- No fault input is active. -/
def FaultInputs.none : FaultInputs := { sysflt0 := false, sysflt1 := false, busProtect := false, busParity := false }

/-- What happens outside between two bus cycles of one step, where this CPU has not locked the bus (20_memory.md R91, R95,
R101, log 60). Whether an I/O write of another master reaches the F9451 and F9452 the spec does not say (20_memory.md R105); that
none does, so that the others change memory only, is the model's choice (DESIGN CHOICE, log 66). -/
structure Turn where
  /-- What other masters write, in order. -/
  writes : List MasterWrite
  faults : FaultInputs
  /-- RESET is driven low: what the CPU was doing is abandoned here (70_reset_and_hazards.md R740). -/
  reset : Bool
deriving DecidableEq, Repr

/-- What the outside does at the end of one step (00_scope.md R13, log 7); of other masters, memory writes only (log 66). -/
structure Env where
  /-- RESET is driven low before the step's first cycle: the step is the reset sequence (70_reset_and_hazards.md R740). -/
  reset : Bool
  /-- The interrupt pins at the step's end, bit n of the manual's numbering for level n (60_exceptions.md R673). -/
  pins : Word
  /-- TIMER CLK periods that passed (10_state.md R38). -/
  timerClk : Nat
  faults : FaultInputs
  /-- What other masters write after the step's last cycle, in order. -/
  writes : List MasterWrite
  /-- CONREQ is asserted (49_console.md R621). -/
  conreq : Bool
  /-- CONREQ is still asserted when it is sampled again after a CONTINUE (49_console.md R624). -/
  conreqHeld : Bool
deriving DecidableEq, Repr

/-- Nothing happens outside; the pins keep the level `pins`. -/
def Env.quiet (pins : Word) : Env :=
  { reset := false, pins := pins, timerClk := 0, faults := FaultInputs.none, writes := [], conreq := false,
    conreqHeld := false }

end Sys2Proof
end

