-- ==== Sys2Proof/Machine/Bits.lean ====
section
/-! DEFINITION. Bit-field helpers in the manual's numbering: bit 0 is the most significant bit (00_scope.md R8). -/

namespace Sys2Proof.Machine

/-- Bit `n` of a word, bit 0 the most significant (R8). -/
def bitOf (w : Word) (n : Nat) : Bool := w.getLsbD (15 - n)

/-- The word whose only 1 is bit `n`. -/
def oneBit (n : Nat) : Word := (0x8000 : Word) >>> n

/-- `w` with bit `n` set to `v`. -/
def setBitTo (w : Word) (n : Nat) (v : Bool) : Word := if v then w ||| oneBit n else w &&& ~~~ oneBit n

/-- The CS field C P Z N, bits 0 to 3 of a status word (10_state.md R26). -/
def csField (sw : Word) : BitVec 4 := sw.extractLsb' 12 4

/-- The access key AK, bits 8 to 11 of a status word (R26). -/
def akField (sw : Word) : BitVec 4 := sw.extractLsb' 4 4

/-- The address state AS, bits 12 to 15 of a status word (R26). -/
def asField (sw : Word) : BitVec 4 := sw.extractLsb' 0 4

/-- What SW holds after a load of `w`: bits 4 to 7 are zero-filled (10_state.md R26, R28). DEDUCED: the mask FF0F printed in
46_control.md R475, 47_io.md R511, 49_console.md R631 and 60_exceptions.md R680 would clear AK instead (log 53). -/
def maskSw (w : Word) : Word := w &&& 0xF0FF

/-- A status word with another CS field. -/
def withCs (sw : Word) (cs : BitVec 4) : Word := cs ++ sw.extractLsb' 0 12

/-- The upper byte of a word, bits 0 to 7 (20_memory.md R89). -/
def upperByte (w : Word) : Byte := w.extractLsb' 8 8

/-- The lower byte of a word, bits 8 to 15 (R89). -/
def lowerByte (w : Word) : Byte := w.extractLsb' 0 8

/-- The more significant word of a double word (10_state.md R22). -/
def highWord (v : Long) : Word := v.extractLsb' 16 16

/-- The less significant word of a double word. -/
def lowWord (v : Long) : Word := v.extractLsb' 0 16

/-- The three words of an extended operand, most significant first (10_state.md R22). -/
def word0 (v : Triple) : Word := v.extractLsb' 32 16

/-- The middle word. -/
def word1 (v : Triple) : Word := v.extractLsb' 16 16

/-- The least significant word. -/
def word2 (v : Triple) : Word := v.extractLsb' 0 16

/-- The page number, bits 0 to 3 of a logical address (20_memory.md R86). -/
def pageOf (addr : Word) : Fin 16 := ⟨(addr.extractLsb' 12 4).toNat, (addr.extractLsb' 12 4).isLt⟩

/-- A four-bit field as an index. -/
def index4 (f : BitVec 4) : Fin 16 := ⟨f.toNat, f.isLt⟩

end Sys2Proof.Machine
end

