-- ==== Sys2Proof/Machine/Memory.lean ====
section
/-! DEFINITION. Physical memory as plain data: bytes by address, in one canonical form. The word at physical address
`p` is the bytes at `2 p` (bits 0 to 7) and `2 p + 1` (bits 8 to 15) (20_memory.md R80, R89, log 1). A byte that nothing
has written reads as 0 (log 2), and no listed byte is 0. -/

namespace Sys2Proof.Machine

/-- The bytes that do not read as 0, by rising address. -/
abbrev Memory := List Host.Cell

/-- What an unlisted byte reads as (log 2). -/
def Memory.blank : Byte := 0

/-- The byte at `a`. -/
def Memory.readByte : Memory → Nat → Byte
  | [], _ => Memory.blank
  | (k, b) :: m, a => if k = a then b else Memory.readByte m a

/-- The memory with `v` at `a`. -/
def Memory.writeByte : Memory → Nat → Byte → Memory
  | [], a, v => if v = Memory.blank then [] else [(a, v)]
  | (k, b) :: m, a, v =>
    if a < k then (if v = Memory.blank then (k, b) :: m else (a, v) :: (k, b) :: m)
    else if a = k then (if v = Memory.blank then m else (k, v) :: m)
    else (k, b) :: Memory.writeByte m a v

/-- How many byte addresses there are: two for each of 2^24 words. -/
def Memory.size : Nat := 2 ^ 25

/-- The canonical form of a list whose addresses are `lo` or more: addresses strictly rising and below the size, no
byte equal to what an unlisted one reads as. -/
def Memory.wfFrom : Nat → Memory → Bool
  | _, [] => true
  | lo, (k, b) :: m => lo ≤ k && k < Memory.size && b != Memory.blank && Memory.wfFrom (k + 1) m

/-- The canonical form. -/
def Memory.wf (m : Memory) : Bool := Memory.wfFrom 0 m

/-- The word at physical address `p` (20_memory.md R89). -/
def Memory.readWord (m : Memory) (p : Phys) : Word := m.readByte (2 * p.toNat) ++ m.readByte (2 * p.toNat + 1)

/-- The memory with the word `w` at physical address `p`. -/
def Memory.writeWord (m : Memory) (p : Phys) (w : Word) : Memory :=
  (m.writeByte (2 * p.toNat) (w.extractLsb' 8 8)).writeByte (2 * p.toNat + 1) (w.extractLsb' 0 8)

end Sys2Proof.Machine
end

