-- ==== Sys2Proof/Machine/State.lean ====
section
/-! DEFINITION. The state of the machine (10_state.md), the reasons a step can stop, and the machine after reset
(70_reset_and_hazards.md R741, R742). -/

namespace Sys2Proof.Machine

/-- Why the machine stops with a fault. Both are places where the spec says that what the hardware does is not known
and that a model refuses to go on; stopping there is safe. -/
inductive Fault where
  /-- An instruction fetch drew a fault while MK bit 1 is 0 (60_exceptions.md R663, U9). Raised by the step. Safe. -/
  | fetchFaultMasked
  /-- A memory cycle inside the interrupt sequence of this level drew a fault (60_exceptions.md R682 (b), U11). Raised by
  the interrupt sequence. Safe. -/
  | sequenceFault (level : Fin 16)
deriving DecidableEq, Repr

/-- Why an instruction or a console command has no meaning. -/
inductive Refusal where
  /-- The meaning of this instruction is not written yet. Raised by `exec`. Safe. -/
  | notModelled (mnemonic : String)
  /-- The first word violates a constant field of its format box (30_encoding.md R158, U3). Raised by the step. Safe. -/
  | reservedEncoding (word : Word)
  /-- A console EXAMINE or DEPOSIT REGISTER of an address that the register table does not give it (49_console.md R625,
  R628, U7). Raised by the console. Safe. -/
  | consoleRegister (address : BitVec 6)
deriving DecidableEq, Repr

/-- A delayed effect: the instruction after the one that armed it is the last to run without it (47_io.md R508, R509,
60_exceptions.md R678). `armed` while the arming instruction has not passed its boundary, `due` after. -/
inductive Delay where
  | idle
  | armed
  | due
deriving DecidableEq, Repr

/-- What the CPU shows outside besides its memory cycles: I/O cycles (20_memory.md R94, 47_io.md R502, R503) and output
pulses (10_state.md R44, 60_exceptions.md R672). -/
inductive BusEvent where
  | ioRead (addr data : Word)
  | ioWrite (addr data : Word)
  | trigoRst
  | majEr
  | unrcvEr
deriving DecidableEq, Repr

/-- The registers only the console reaches, and IR (10_state.md R45). -/
structure Scratch where
  a1 : Word
  a2 : Word
  q1 : Word
  q2 : Word
  do0 : Word
  do1 : Word
  ir : Word
deriving DecidableEq, Repr

/-- Everything the machine holds. -/
structure State where
  /-- R0 to R15 (10_state.md R20 to R22). -/
  regs : Vector Word 16
  /-- The instruction counter (R24). -/
  ic : Word
  /-- The status word (R26 to R30). -/
  sw : Word
  /-- The pending interrupt register (R32, R33). -/
  pir : Word
  /-- MK, the interrupt mask register (R34). -/
  mask : Word
  /-- The fault register (R35 to R37). -/
  ft : Word
  /-- The system configuration register (R31). -/
  scr : Word
  /-- Timer A (R38 to R40). -/
  ta : Word
  /-- Timer B. -/
  tb : Word
  taRun : Bool
  tbRun : Bool
  /-- The phase of Timer B's divide-by-ten (R39, U13, log 5). -/
  tbPhase : Fin 10
  /-- The interrupt enable latch (R41). -/
  inten : Bool
  /-- ENBL_PENDING (47_io.md R504, R509). -/
  enbl : Delay
  /-- SPI_PENDING (47_io.md R504, R508). -/
  spi : Delay
  /-- The DMA enable discrete (R42). -/
  dmaen : Bool
  /-- The normal power-up discrete (R43). -/
  nmlpwrup : Bool
  /-- A1, A2, Q1, Q2, DO0, DO1 and IR (R45). -/
  scratch : Scratch
  /-- CONSOLE_MODE (R46). -/
  consoleMode : Bool
  /-- The DISABLE wait state (49_console.md R622). -/
  waiting : Bool
  /-- Register deposits are inhibited after a fault in console mode (49_console.md R636). -/
  depositLocked : Bool
  /-- A MOV that has moved words and has more to move (45_multiple.md R446, 60_exceptions.md R689, log 17). -/
  moving : Option (Reg × Reg)
  /-- The instruction page registers of the F9451, by group and register (48_mmu_bpu.md R582). -/
  ipr : Vector (Vector Word 16) 16
  /-- The operand page registers. -/
  opr : Vector (Vector Word 16) 16
  /-- The protect RAM of the F9452 (48_mmu_bpu.md R601). -/
  bpuRam : Vector Word 128
  /-- The global protect latch of the F9452 (48_mmu_bpu.md R606). -/
  globprt : Bool
  /-- The interrupt pins at the previous sample (60_exceptions.md R674). -/
  pinPrev : Word
  /-- Physical memory (20_memory.md R82). -/
  mem : Memory
  /-- The model's own: the system's parameters (log 6). -/
  platform : Platform
  /-- The model's own: what the outside does at each coming step (log 7). -/
  env : List Env
  /-- The model's own: what happens outside between the coming bus cycles (log 60). -/
  turns : List Turn
  /-- The model's own: RESET has come between two bus cycles, so that the step ends in the reset sequence (log 43). -/
  resetting : Bool
  /-- The model's own: the words external devices will answer to I/O reads (log 8). -/
  ioIn : List Word
  /-- The model's own: what was shown outside, newest first (log 9). -/
  trace : List BusEvent
  /-- The model's own: the number of the next free value (log 10). -/
  free : Nat
deriving DecidableEq, Repr

/-! ## Reset -/

/-- Register r of every page-register group maps page r onto itself, lock 0, nothing protected (48_mmu_bpu.md R598). -/
def identityGroup : Vector Word 16 := #v[0, 1, 2, 3, 4, 5, 6, 7, 8, 9, 10, 11, 12, 13, 14, 15]

/-- The FT bits that a fault input can leave during self-test: MEM PRT ER, PAR ER, EXT ADR ER, SYSFLT0, SYSFLT1
(70_reset_and_hazards.md R741). -/
def selftestMask : Word := 0xE585

/-- Does the platform answer this I/O address with this flaw? -/
def ioFlawAt (p : Platform) (flaw : IoFlaw) (addr : Word) : Bool :=
  p.ioFaults.any fun r => decide (r.flaw = flaw) && decide (r.first.toNat ≤ addr.toNat) &&
    decide (addr.toNat ≤ r.last.toNat)

/-- The page-register and protect-RAM writes of the initialisation, address and data, last first (70_reset_and_hazards.md
R743 (4), log 9). -/
def resetWrites (p : Platform) : List (Word × Word) :=
  (if bitOf p.scrValue 1 then (List.range 128).reverse.map fun k => (0x5000 + BitVec.ofNat 16 k, 0) else []) ++
  (if bitOf p.scrValue 0 then
    ((List.range 256).reverse.map fun k => (0x5200 + BitVec.ofNat 16 k, BitVec.ofNat 16 (k % 16))) ++
    ((List.range 256).reverse.map fun k => (0x5100 + BitVec.ofNat 16 k, BitVec.ofNat 16 (k % 16)))
   else [])

/-- The addresses of the I/O cycles of the initialisation. -/
def resetAddresses (p : Platform) : List Word := 0x8410 :: (resetWrites p).map Prod.fst

/-- FT when the first instruction is about to run: self-test failure, faults during self-test, and what the I/O cycles of the
initialisation drew (70_reset_and_hazards.md R741, R743, 60_exceptions.md R666; that it takes in the writes of R743 (4), on
which that rule is silent, is log 58). -/
def resetFt (p : Platform) : Word :=
  (if p.selftestOk then 0 else 0x0004) ||| (p.selftestFaults &&& selftestMask) |||
    (if (resetAddresses p).any (ioFlawAt p .illegal) then 0x0400 else 0) |||
    (if (resetAddresses p).any (ioFlawAt p .parity) then 0x2000 else 0)

/-- What the read of 8410 adds to the trace of the initialisation, last first: EXT ADR ER on it is a major error, so MAJ ER
pulses (60_exceptions.md R666, R672; 70_reset_and_hazards.md R743 names FT bit 5 and PIR bit 1 only, log 58). -/
def resetReadEvents (p : Platform) : List BusEvent :=
  (if ioFlawAt p .illegal 0x8410 then [.majEr] else []) ++ [.ioRead 0x8410 p.scrValue]

/-- The state after the reset sequence on a system `p`, memory blank (70_reset_and_hazards.md R742). -/
def State.resetWith (p : Platform) : State :=
  { regs := Vector.replicate 16 0
    ic := 0
    sw := 0
    pir := if resetFt p = 0 then 0 else 0x4000
    mask := 0
    ft := resetFt p
    scr := p.scrValue
    ta := 0
    tb := 0
    taRun := true
    tbRun := true
    tbPhase := 0
    inten := false
    enbl := .idle
    spi := .idle
    dmaen := false
    nmlpwrup := p.selftestOk
    scratch := { a1 := 0, a2 := 0, q1 := 0, q2 := 0, do0 := 0, do1 := 0, ir := 0 }
    consoleMode := false
    waiting := false
    depositLocked := false
    moving := none
    ipr := Vector.replicate 16 identityGroup
    opr := Vector.replicate 16 identityGroup
    bpuRam := Vector.replicate 128 0
    globprt := true
    pinPrev := 0
    mem := []
    platform := p
    env := []
    turns := []
    resetting := false
    ioIn := []
    trace := ((resetWrites p).map fun w => .ioWrite w.1 w.2) ++ resetReadEvents p ++ [.trigoRst]
    free := 0 }

/-- The machine right after reset. -/
def State.reset : State := State.resetWith Platform.standard

end Sys2Proof.Machine
end

