-- ==== Sys2Proof/Machine/Ops.lean ====
section
/-! DEFINITION. The operations every meaning is built from: registers, faults, memory cycles with translation and
protection (20_memory.md, 48_mmu_bpu.md), I/O cycles (47_io.md R502), the abort of an instruction (60_exceptions.md
R664), and the interrupt sequence (60_exceptions.md R680). -/

namespace Sys2Proof.Machine

/-- What a step or a meaning answers. -/
abbrev Result := Host.Outcome State Fault Refusal

/-! ## Registers -/

/-- R[r] (00_scope.md R10). -/
def State.reg (s : State) (r : Reg) : Word := s.regs[r.val]

/-- RR[r] = R[r] || R[r+1], the register number modulo 16 (10_state.md R22). -/
def State.pair (s : State) (r : Reg) : Long := s.reg r ++ s.reg (r + 1)

/-- RRR[r] = R[r] || R[r+1] || R[r+2] (10_state.md R22). -/
def State.triple (s : State) (r : Reg) : Triple := s.reg r ++ s.reg (r + 1) ++ s.reg (r + 2)

/-- R[r] <- v. -/
def State.setReg (s : State) (r : Reg) (v : Word) : State := { s with regs := s.regs.set r.val v }

/-- RR[r] <- v. -/
def State.setPair (s : State) (r : Reg) (v : Long) : State := (s.setReg r (highWord v)).setReg (r + 1) (lowWord v)

/-- RRR[r] <- v. -/
def State.setTriple (s : State) (r : Reg) (v : Triple) : State :=
  ((s.setReg r (word0 v)).setReg (r + 1) (word1 v)).setReg (r + 2) (word2 v)

/-- IC <- v. -/
def State.setIc (s : State) (v : Word) : State := { s with ic := v }

/-- CS <- cs, the rest of SW unchanged (10_state.md R27). -/
def State.setCs (s : State) (cs : BitVec 4) : State := { s with sw := withCs s.sw cs }

/-- SW <- w, bits 4 to 7 zero-filled (10_state.md R28). -/
def State.setSw (s : State) (w : Word) : State := { s with sw := maskSw w }

/-- MK <- w. -/
def State.setMask (s : State) (w : Word) : State := { s with mask := w }

/-- PIR <- w. -/
def State.setPir (s : State) (w : Word) : State := { s with pir := w }

/-- `raise Interrupt(n)`: PIR[n] <- 1 (00_scope.md R10). -/
def State.pend (s : State) (n : Nat) : State := { s with pir := s.pir ||| oneBit n }

/-- Memory is `m`. -/
def State.setMem (s : State) (m : Memory) : State := { s with mem := m }

/-- One more event outside. -/
def State.emit (s : State) (e : BusEvent) : State := { s with trace := e :: s.trace }

/-- The next `k` free values are used up. -/
def State.useFree (s : State) (k : Nat) : State := { s with free := s.free + k }

/-! ## Faults -/

/-- The severity classes that pulse an output (60_exceptions.md R661, R672, log 44). -/
inductive Severity where
  | unrecoverable
  | major
  | unclassified
deriving DecidableEq, Repr

/-- The pulse of a class (60_exceptions.md R672). -/
def Severity.pulse : Severity → List BusEvent
  | .unrecoverable => [.unrcvEr]
  | .major => [.majEr]
  | .unclassified => []

/-- `raise Fault(k)` for every k that is 1 in `bits`: FT accumulates and PIR bit 1 is set (60_exceptions.md R662). -/
def State.raise (s : State) (bits : Word) (severity : Severity) : State :=
  { s with ft := s.ft ||| bits, pir := s.pir ||| 0x4000, trace := severity.pulse ++ s.trace }

/-- Fault(9): an effective NOP of `len` words (60_exceptions.md R667). -/
def State.illegalInstruction (s : State) (len : Word) : State :=
  { s.raise 0x0040 .unrecoverable with ic := s.ic + len }

/-- Fault(10): an effective NOP of the two words of XIO, VIO, LST and LSTI (60_exceptions.md R669). -/
def State.privilegeViolation (s : State) : State := { s.raise 0x0020 .major with ic := s.ic + 2 }

/-- Fault(11) (60_exceptions.md R668). -/
def State.addressStateFault (s : State) : State := s.raise 0x0010 .unrecoverable

/-- AK is 0: privileged instructions execute (60_exceptions.md R700). -/
def State.privileged (s : State) : Bool := akField s.sw = 0

/-- A load of `w` into SW is refused: a non-zero AS while SCR bit 0 is 0 (60_exceptions.md R668). -/
def State.refusesStatus (s : State) (w : Word) : Bool := !bitOf s.scr 0 && asField w != 0

/-! ## Memory cycles -/

/-- The kinds of memory cycle (20_memory.md R84). A fetch is in the instruction space, the others are in the operand
space. -/
inductive CycleKind where
  | fetch
  | read
  | write
deriving DecidableEq, Repr

/-- An F9451 translates (20_memory.md R85, 48_mmu_bpu.md R580). -/
def State.mmuPresent (s : State) : Bool := bitOf s.scr 0 && s.platform.mmuAttached

/-- An F9452 checks writes (48_mmu_bpu.md R600, R609). -/
def State.bpuPresent (s : State) : Bool := bitOf s.scr 1

/-- The page register of a cycle: the group is the address state, the set is the space, the register is bits 0 to 3 of
the address (48_mmu_bpu.md R582). -/
def State.pageRegister (s : State) (kind : CycleKind) (as : BitVec 4) (addr : Word) : Word :=
  match kind with
  | .fetch => (s.ipr[(index4 as).val])[(pageOf addr).val]
  | .read | .write => (s.opr[(index4 as).val])[(pageOf addr).val]

/-- The D/I line as an address bit, where the memory system decodes it (20_memory.md R81, R82). -/
def State.dataLine (s : State) (kind : CycleKind) : BitVec 1 :=
  if s.platform.diDecoded && kind != .fetch then 1 else 0

/-- The physical address of a cycle (20_memory.md R85 to R88, 48_mmu_bpu.md R584, log 13). -/
def State.physical (s : State) (kind : CycleKind) (as : BitVec 4) (addr : Word) : Phys :=
  if s.mmuPresent then
    if s.platform.ppa11 then
      s.dataLine kind ++ (s.pageRegister kind as addr).extractLsb' 0 11 ++ addr.extractLsb' 0 12
    else (0 : BitVec 4) ++ (s.pageRegister kind as addr).extractLsb' 0 8 ++ addr.extractLsb' 0 12
  else if bitOf s.scr 0 then (0 : BitVec 3) ++ (if kind = .fetch then (0 : BitVec 1) else 1) ++ as ++ addr
  else (0 : BitVec 7) ++ s.dataLine kind ++ addr

/-- Lock and key (48_mmu_bpu.md R590). -/
def keyOk (key lock : BitVec 4) : Bool := lock = 0xF || key = 0 || key = lock

/-- The MMU asserts MEM PRT ER: a key that does not open the lock, a fetch from an execute-protected page, a write to a
write-protected one (48_mmu_bpu.md R593). `key` is none where lock and key are ignored (R594). -/
def State.mmuViolation (s : State) (kind : CycleKind) (as : BitVec 4) (key : Option (BitVec 4)) (addr : Word) : Bool :=
  s.mmuPresent &&
    ((match key with
      | some k => !keyOk k ((s.pageRegister kind as addr).extractLsb' 12 4)
      | none => false) ||
     (kind != .read && bitOf (s.pageRegister kind as addr) 4))

/-- The 20-bit address the BPU sees: the D/I line is not among its inputs (48_mmu_bpu.md R604, log 14). -/
def State.bpuAddress (s : State) (p : Phys) : BitVec 20 :=
  if bitOf s.scr 0 then p.extractLsb' 0 20 else (0 : BitVec 4) ++ p.extractLsb' 0 16

/-- The BPU asserts MEM PRT ER for a write at this address: the table is on once GLOBPRT is 0, words 64 to 127 serve DMA
(48_mmu_bpu.md R604, R606). -/
def State.bpuViolation (s : State) (dma : Bool) (p : BitVec 20) : Bool :=
  s.bpuPresent && !s.globprt &&
    bitOf (s.bpuRam[(if dma then 64 else 0) + (p.extractLsb' 14 6).toNat]'(by
      have := (p.extractLsb' 14 6).isLt; split <;> omega)) (p.extractLsb' 10 4).toNat

/-- Every write is silently dropped: a BPU whose global protect latch the memory uses (48_mmu_bpu.md R606, log 34). -/
def State.writesBlocked (s : State) : Bool := s.bpuPresent && s.globprt && s.platform.globprtBlocks

/-- Does the platform give this physical address this flaw (00_scope.md R7 `MEM_VALID`)? -/
def memFlawAt (p : Platform) (flaw : MemoryFlaw) (addr : Phys) : Bool :=
  p.memFaults.any fun r => decide (r.flaw = flaw) && decide (r.first.toNat ≤ addr.toNat) &&
    decide (addr.toNat ≤ r.last.toNat)

/-- What a memory cycle draws (48_mmu_bpu.md R610). -/
structure Cycle where
  phys : Phys
  /-- MEM PRT ER. -/
  protect : Bool
  /-- PAR ER. -/
  parity : Bool
  /-- EXT ADR ER. -/
  absent : Bool
deriving DecidableEq, Repr

/-- The memory cycle of this kind, address state, key and logical address (20_memory.md R84, R96). -/
def State.cycle (s : State) (kind : CycleKind) (as : BitVec 4) (key : Option (BitVec 4)) (addr : Word) : Cycle :=
  { phys := s.physical kind as addr
    protect := s.mmuViolation kind as key addr ||
      (kind = .write && s.bpuViolation false (s.bpuAddress (s.physical kind as addr)))
    parity := memFlawAt s.platform (if kind = .write then .writeParity else .readParity) (s.physical kind as addr)
    absent := memFlawAt s.platform .absent (s.physical kind as addr) }

/-- The cycle draws no fault. -/
def Cycle.clean (c : Cycle) : Bool := !c.protect && !c.parity && !c.absent

/-- The FT bits of a cycle: 0, 2 and 8 (20_memory.md R96). -/
def Cycle.bits (c : Cycle) : Word :=
  (if c.protect then 0x8000 else 0) ||| (if c.parity then 0x2000 else 0) ||| (if c.absent then 0x0080 else 0)

/-- A cycle of the running program: AS and AK of SW (20_memory.md R84). -/
def State.ownCycle (s : State) (kind : CycleKind) (addr : Word) : Cycle :=
  s.cycle kind (asField s.sw) (some (akField s.sw)) addr

/-- A cycle of the interrupt sequence: lock and key are ignored (48_mmu_bpu.md R594). -/
def State.keylessCycle (s : State) (kind : CycleKind) (as : BitVec 4) (addr : Word) : Cycle := s.cycle kind as none addr

/-- Does the write of this cycle reach the memory array (20_memory.md R97, 48_mmu_bpu.md R606)? -/
def State.lands (s : State) (c : Cycle) : Bool := !c.protect && !c.absent && !s.writesBlocked

/-! ## Other bus masters, and RESET between cycles -/

/-- The FT bits of the fault inputs (60_exceptions.md R665). -/
def outsideFaults (f : FaultInputs) : Word :=
  (if f.busProtect then 0x4000 else 0) ||| (if f.busParity then 0x2000 else 0) |||
    (if f.sysflt0 then 0x0100 else 0) ||| (if f.sysflt1 then 0x0005 else 0)

/-- External faults, if there are any. -/
def State.externalFaults (s : State) (bits : Word) : State := if bits = 0 then s else s.raise bits .unclassified

/-- Is this master's cycle translated and checked by the F9451? A DMA cycle never is (60_exceptions.md R716); for the other
masters it is a parameter of the platform (48_mmu_bpu.md R585, R597, log 61). -/
def State.translatesMasters (s : State) (w : MasterWrite) : Bool :=
  !w.dma && s.platform.mastersTranslated && s.mmuPresent

/-- The cycle of this write: an F9451 that serves other masters translates and checks it, an F9452 checks it in the DMA half
of its table where DMA ACK is high (48_mmu_bpu.md R585, R604, 60_exceptions.md R716). -/
def State.masterCycle (s : State) (w : MasterWrite) : Cycle :=
  let a := w.addr.extractLsb' 0 16
  let p := if s.translatesMasters w then s.physical .write w.as a else w.addr
  { phys := p
    protect := (s.translatesMasters w && s.mmuViolation .write w.as (some w.key) a) || s.bpuViolation w.dma (s.bpuAddress p)
    parity := memFlawAt s.platform .writeParity p
    absent := memFlawAt s.platform .absent p }

/-- The FT bits of another master's cycle: 1 for MEM PRT ER, 2 for PAR ER (60_exceptions.md R665 (a), (b)). -/
def Cycle.masterBits (c : Cycle) : Word := (if c.protect then 0x4000 else 0) ||| (if c.parity then 0x2000 else 0)

/-- One write of another master; a DMA controller may use the bus while DMAEN is 1 (10_state.md R42, log 33). -/
def State.masterWrite (s : State) (w : MasterWrite) : State :=
  if w.dma && !s.dmaen then s
  else
    let c := s.masterCycle w
    let t := s.externalFaults c.masterBits
    if s.lands c then t.setMem (t.mem.writeWord c.phys w.data) else t

/-- The writes of other masters, in order. -/
def State.masters (s : State) (ws : List MasterWrite) : State := ws.foldl State.masterWrite s

/-- RESET comes at the next turn of the others. -/
def State.resetComes (s : State) : Bool :=
  match s.turns with
  | t :: _ => t.reset
  | [] => false

/-- Between two of this CPU's bus cycles the others have their turn (20_memory.md R91, R101, 60_exceptions.md R665, R716). Inside a
bus-locked read-modify-write (R95) no meaning calls this (log 60). -/
def State.turn (s : State) : State :=
  match s.turns with
  | t :: rest =>
    let u := ({ s with turns := rest }.externalFaults (outsideFaults t.faults)).masters t.writes
    { u with resetting := u.resetting || t.reset }
  | [] => s

/-! ## An instruction on its way -/

/-- The state an instruction has reached, whether a major error has aborted it (60_exceptions.md R664), and whether RESET has
halted it: then it makes no more cycles (70_reset_and_hazards.md R740). -/
structure Run where
  s : State
  aborted : Bool
  halted : Bool
deriving DecidableEq, Repr

/-- A value an instruction has got, and where that left it. -/
structure Got (α : Type) where
  val : α
  run : Run

/-- The start of an instruction. -/
def State.start (s : State) : Run := { s := s, aborted := false, halted := false }

/-- The others have their turn between two cycles of the instruction; a RESET there halts it. -/
def Run.turn (r : Run) : Run :=
  if r.halted then r
  else { s := r.s.turn, aborted := r.aborted || r.s.resetComes, halted := r.s.resetComes }

/-- A change of CPU, MMU or BPU state: an aborted instruction makes none (60_exceptions.md R664, 48_mmu_bpu.md R595). -/
def Run.update (r : Run) (f : State → State) : Run := if r.aborted then r else { r with s := f r.s }

/-- R[q] <- v, unless aborted. -/
def Run.setReg (r : Run) (q : Reg) (v : Word) : Run := r.update fun s => s.setReg q v

/-- RR[q] <- v, unless aborted. -/
def Run.setPair (r : Run) (q : Reg) (v : Long) : Run := r.update fun s => s.setPair q v

/-- RRR[q] <- v, unless aborted. -/
def Run.setTriple (r : Run) (q : Reg) (v : Triple) : Run := r.update fun s => s.setTriple q v

/-- CS <- cs, unless aborted. -/
def Run.setCs (r : Run) (cs : BitVec 4) : Run := r.update fun s => s.setCs cs

/-- PIR[n] <- 1 where `c` holds, unless aborted (60_exceptions.md R664, R675). -/
def Run.pendIf (r : Run) (c : Bool) (n : Nat) : Run := if c then r.update fun s => s.pend n else r

/-- A value the spec leaves open. -/
def Run.freeWord (r : Run) : Got Word :=
  { val := Config.freeWord r.s.free, run := { r with s := r.s.useFree 1 } }

/-- One operand read cycle. One that draws a fault aborts the instruction and returns an open value (60_exceptions.md
R664, U12). -/
def Run.read (r : Run) (addr : Word) : Got Word :=
  let c := r.s.ownCycle .read addr
  if r.halted then r.freeWord
  else if c.clean then { val := r.s.mem.readWord c.phys, run := r }
  else Run.freeWord { r with s := r.s.raise c.bits .major, aborted := true }

/-- One operand write cycle. MEM PRT ER and PAR ER abort; EXT ADR ER sets FT bit 8 and no more. What an aborted
instruction writes is open (60_exceptions.md R664, U10, log 15). -/
def Run.write (r : Run) (addr v : Word) : Run :=
  let c := r.s.ownCycle .write addr
  let s1 := if c.clean then r.s else r.s.raise c.bits (if c.protect || c.parity then .major else .unclassified)
  let aborted := r.aborted || c.protect || c.parity
  if r.halted then r
  else if !r.s.lands c then { r with s := s1, aborted := aborted }
  else if aborted then
    { r with s := (s1.setMem (s1.mem.writeWord c.phys (Config.freeWord s1.free))).useFree 1, aborted := aborted }
  else { r with s := s1.setMem (s1.mem.writeWord c.phys v), aborted := aborted }

/-- `MemRead(addr, 2)`: ascending addresses modulo 2^16, the others between them (20_memory.md R89, R91). -/
def Run.read2 (r : Run) (addr : Word) : Got Long :=
  let g0 := r.read addr
  let g1 := g0.run.turn.read (addr + 1)
  { val := g0.val ++ g1.val, run := g1.run }

/-- `MemRead(addr, 3)`. -/
def Run.read3 (r : Run) (addr : Word) : Got Triple :=
  let g0 := r.read addr
  let g1 := g0.run.turn.read (addr + 1)
  let g2 := g1.run.turn.read (addr + 2)
  { val := g0.val ++ g1.val ++ g2.val, run := g2.run }

/-- `MemWrite(addr, 2, v)`. -/
def Run.write2 (r : Run) (addr : Word) (v : Long) : Run := (r.write addr (highWord v)).turn.write (addr + 1) (lowWord v)

/-- `MemWrite(addr, 3, v)`. -/
def Run.write3 (r : Run) (addr : Word) (v : Triple) : Run :=
  ((r.write addr (word0 v)).turn.write (addr + 1) (word1 v)).turn.write (addr + 2) (word2 v)

/-- The instruction ends: IC <- IC0 + L (46_control.md R460). -/
def Run.next (r : Run) (len : Word) : Result := .next (r.s.setIc (r.s.ic + len))

/-- The instruction ends with a jump; an aborted one does not jump (60_exceptions.md R664). -/
def Run.jump (r : Run) (len target : Word) : Result :=
  .next (r.s.setIc (if r.aborted then r.s.ic + len else target))

/-! ## I/O cycles -/

/-- PAR ER of an I/O cycle at this address, which is sampled on all bus cycles: FT bit 2 (20_memory.md R96, log 45). -/
def State.ioParity (s : State) (addr : Word) : State :=
  if ioFlawAt s.platform .parity addr then s.raise 0x2000 .unclassified else s

/-- One I/O write cycle. EXT ADR ER sets FT bit 5, PAR ER sets FT bit 2; neither aborts (47_io.md R502, 60_exceptions.md
R666, log 45). -/
def State.ioWrite (s : State) (addr data : Word) : State :=
  let s1 := s.emit (.ioWrite addr data)
  (if ioFlawAt s.platform .illegal addr then s1.raise 0x0400 .unclassified else s1).ioParity addr

/-- The protect RAM word that a command 50XX or D0XX names: its low seven bits (48_mmu_bpu.md R603). -/
def ramIndex (cmd : Word) : Fin 128 := ⟨(cmd.extractLsb' 0 7).toNat, (cmd.extractLsb' 0 7).isLt⟩

/-- The group X of a command 51XY, 52XY, D1XY or D2XY (47_io.md R542). -/
def groupIndex (cmd : Word) : Fin 16 := index4 (cmd.extractLsb' 4 4)

/-- The register Y of such a command. -/
def registerIndex (cmd : Word) : Fin 16 := index4 (cmd.extractLsb' 0 4)

/-- What an I/O write changes in the companion chips, which decode it from the bus: MPEN, LMP, WIPR and WOPR (47_io.md
R503, R521, R540, R542, R543). -/
def State.chipWrite (s : State) (addr data : Word) : State :=
  match (addr.extractLsb' 8 8).toNat with
  | 0x40 => if addr = 0x4003 && s.bpuPresent then { s with globprt := false } else s
  | 0x50 => if s.bpuPresent then { s with bpuRam := s.bpuRam.set (ramIndex addr).val data } else s
  | 0x51 =>
    if s.mmuPresent then
      { s with ipr := s.ipr.set (groupIndex addr).val
                ((s.ipr[(groupIndex addr).val]).set (registerIndex addr).val data) }
    else s
  | 0x52 =>
    if s.mmuPresent then
      { s with opr := s.opr.set (groupIndex addr).val
                ((s.opr[(groupIndex addr).val]).set (registerIndex addr).val data) }
    else s
  | _ => s

/-- What the companion chips answer to an I/O read: RMP, RIPR and ROPR (47_io.md R541, R544, R545). -/
def State.chipRead (s : State) (addr : Word) : Option Word :=
  match (addr.extractLsb' 8 8).toNat with
  | 0xD0 => if s.bpuPresent then some s.bpuRam[(ramIndex addr).val] else none
  | 0xD1 => if s.mmuPresent then some (s.ipr[(groupIndex addr).val])[(registerIndex addr).val] else none
  | 0xD2 => if s.mmuPresent then some (s.opr[(groupIndex addr).val])[(registerIndex addr).val] else none
  | _ => none

/-- One I/O write cycle that every chip on the bus sees. -/
def State.busWrite (s : State) (addr data : Word) : State := (s.chipWrite addr data).ioWrite addr data

/-- One I/O write cycle of an instruction; after an abort its data is open and the companion chips hold still
(60_exceptions.md R664, 48_mmu_bpu.md R595). -/
def Run.ioWrite (r : Run) (addr data : Word) : Run :=
  if r.halted then r
  else if r.aborted then { r with s := (r.s.ioWrite addr (Config.freeWord r.s.free)).useFree 1 }
  else { r with s := r.s.busWrite addr data }

/-- One I/O write cycle whose data is not stated (47_io.md R503, U6, log 38). -/
def Run.ioWriteOpen (r : Run) (addr : Word) : Run :=
  if r.halted then r
  else
    { r with s := (if r.aborted then r.s.ioWrite addr (Config.freeWord r.s.free)
                   else r.s.busWrite addr (Config.freeWord r.s.free)).useFree 1 }

/-- What the bus answers: the platform at 8410 (70_reset_and_hazards.md R746), the companion chips at their addresses, else
the next word of `ioIn`, else an open value (log 8). -/
def State.ioAnswer (s : State) (addr : Word) : Word × State :=
  if addr = 0x8410 then (s.platform.scrValue, s)
  else
    match s.chipRead addr with
    | some v => (v, s)
    | none =>
      match s.ioIn with
      | v :: rest => (v, { s with ioIn := rest })
      | [] => (Config.freeWord s.free, s.useFree 1)

/-- One I/O read cycle. EXT ADR ER sets FT bit 5 and aborts (47_io.md R502, 60_exceptions.md R666); PAR ER sets FT
bit 2, with it or alone (60_exceptions.md R662, log 45). -/
def Run.ioRead (r : Run) (addr : Word) : Got Word :=
  if r.halted then r.freeWord
  else if ioFlawAt r.s.platform .illegal addr then
    Run.freeWord
      { r with
        s := ((r.s.emit (.ioRead addr (Config.freeWord r.s.free))).raise 0x0400 .major).ioParity addr
        aborted := true }
  else
    let a := r.s.ioAnswer addr
    { val := a.1, run := { r with s := (a.2.emit (.ioRead addr a.1)).ioParity addr } }

/-! ## Taking an exception -/

/-- The pending level n can be taken (60_exceptions.md R676). -/
def State.recognisable (s : State) (n : Fin 16) : Bool :=
  bitOf s.pir n.val && (n = 0 || n = 5 || bitOf s.mask n.val) && (n = 0 || n = 1 || n = 5 || s.inten)

/-- The levels by falling priority (60_exceptions.md R677). -/
def levels : List (Fin 16) := [0, 1, 2, 3, 4, 5, 6, 7, 8, 9, 10, 11, 12, 13, 14, 15]

/-- The level an interrupt sequence would run for (60_exceptions.md R677). -/
def State.nextLevel (s : State) : Option (Fin 16) := levels.find? s.recognisable

/-- The address of linkage pointer n; the service pointer follows it (60_exceptions.md R679). -/
def linkage (n : Fin 16) : Word := 0x0020 + 2 * BitVec.ofNat 16 n.val

/-- What the interrupt sequence reads: the new MK, SW and IC, and the linkage pointer. -/
structure NewStatus where
  mask : Word
  sw : Word
  ic : Word
  lp : Word
deriving DecidableEq, Repr

/-- A read of the interrupt sequence: address state 0, lock and key ignored, the others after it; none where the cycle draws a
fault (60_exceptions.md R680, R682). -/
def Run.sequenceRead (r : Run) (addr : Word) : Option (Got Word) :=
  let c := r.s.keylessCycle .read 0 addr
  if r.halted then some r.freeWord
  else if c.clean then some { val := r.s.mem.readWord c.phys, run := r.turn }
  else none

/-- A store of the interrupt sequence in address state `as`, the others after it; none where the cycle draws a fault. -/
def Run.sequenceWrite (r : Run) (as : BitVec 4) (addr v : Word) : Option Run :=
  let c := r.s.keylessCycle .write as addr
  if r.halted then some r
  else if c.clean then
    some (if r.s.lands c then { r with s := r.s.setMem (r.s.mem.writeWord c.phys v) } else r).turn
  else none

/-- The five reads of the sequence for level n, in order; the new IC is entry number `entry` (60_exceptions.md R680,
R685). -/
def Run.newStatus (r : Run) (n : Fin 16) (entry : Word) : Option (Got NewStatus) :=
  (r.sequenceRead (linkage n + 1)).bind fun svp =>
  (svp.run.sequenceRead svp.val).bind fun mask =>
  (mask.run.sequenceRead (svp.val + 1)).bind fun sw =>
  (sw.run.sequenceRead (svp.val + 2 + entry)).bind fun ic =>
  (ic.run.sequenceRead (linkage n)).map fun lp =>
    { val := { mask := mask.val, sw := sw.val, ic := ic.val, lp := lp.val }, run := lp.run }

/-- The three stores of the old MK, SW and IC (60_exceptions.md R680). -/
def Run.saveStatus (r : Run) (as : BitVec 4) (lp mask sw ic : Word) : Option Run :=
  (r.sequenceWrite as lp mask).bind fun r1 =>
  (r1.sequenceWrite as (lp + 1) sw).bind fun r2 =>
  r2.sequenceWrite as (lp + 2) ic

/-- How an interrupt sequence ends. -/
inductive Sequence where
  /-- RESET has come between two of its cycles. -/
  | reset (s : State)
  /-- The handler is entered. -/
  | entered (s : State)
  /-- The new SW was refused: FT bit 11 and PIR bit 1 are set, nothing else changed (60_exceptions.md R682 (a)). -/
  | abandoned (s : State)
  /-- A memory cycle drew a fault (60_exceptions.md R682 (b), U11). -/
  | failed (f : Fault)
deriving DecidableEq, Repr

/-- TAKING AN EXCEPTION: the interrupt sequence for level n (60_exceptions.md R680). `s.ic` is the address to come back to;
`entry` is 0 but for BEX N (R685). MK, SW and IC are replaced from the service area, the old ones are stored where the
linkage pointer says in the new address state, interrupts are disabled, PIR[n] is cleared and the acknowledge is written
to 1000 (R681). -/
def State.interrupt (s : State) (n : Fin 16) (entry : Word) : Sequence :=
  match s.start.newStatus n entry with
  | none => .failed (.sequenceFault n)
  | some g =>
    if g.run.halted then .reset g.run.s
    else if s.refusesStatus g.val.sw then .abandoned g.run.s.addressStateFault
    else
      let t := g.run.update fun u =>
        { u with inten := false, enbl := .idle, mask := g.val.mask, sw := maskSw g.val.sw, ic := g.val.ic }
      match t.saveStatus (asField g.val.sw) g.val.lp s.mask s.sw s.ic with
      | none => .failed (.sequenceFault n)
      | some r =>
        if r.halted then .reset r.s
        else .entered ((r.s.setPir (r.s.pir &&& ~~~ oneBit n.val)).ioWrite 0x1000 (~~~ oneBit n.val))

/-- The answer of a step or a meaning that ends in this sequence. -/
def Sequence.result : Sequence → Result
  | .entered s => .next s
  | .abandoned s => .next s
  | .reset s => .next s
  | .failed f => .fault f

/-- RETURNING FROM AN EXCEPTION: the load of MK, SW and IC that LST and LSTI end in (60_exceptions.md R684, 46_control.md
R475, R476). A refused SW loads nothing and IC goes past the instruction (60_exceptions.md R668). DESIGN CHOICE: an LST that
a faulted read has aborted makes no address-state check, so FT bit 11 is not added; R664, R668 and R720 (6) leave that open
(log 55). -/
def Run.loadStatus (r : Run) (mask sw ic : Word) : Result :=
  if r.aborted then r.next 2
  else if r.s.refusesStatus sw then .next (r.s.addressStateFault.setIc (r.s.ic + 2))
  else .next (((r.s.setMask mask).setSw sw).setIc ic)

end Sys2Proof.Machine
end

