-- ==== Sys2Proof/Machine/Operands.lean ====
section
/-! DEFINITION. The addressing modes (30_encoding.md R125 to R133). A derived address is computed from the registers at
the start of the instruction (R133); an operand comes with what its read cycles did. -/

namespace Sys2Proof.Machine

/-! ## Derived addresses -/

/-- `base` if RX = 0, else `(base + R[RX]) mod 2^16` (30_encoding.md R124, R126). -/
def State.indexed (s : State) (base : Word) (rx : Reg) : Word := if rx = 0 then base else base + s.reg rx

/-- D and DX: the derived address (R126). -/
def State.directAddress (s : State) (rx : Reg) (a : Word) : Word := s.indexed a rx

/-- B: the derived address (R131). -/
def State.baseAddress (s : State) (br : Reg) (du : Byte) : Word := s.reg br + du.zeroExtend 16

/-- BX: the derived address (R132). -/
def State.baseIndexedAddress (s : State) (br rx : Reg) : Word := s.indexed (s.reg br) rx

/-- I and IX: the cycle that reads the derived address, in the operand space at the pre-indexed address (R127). -/
def State.pointer (s : State) (rx : Reg) (a : Word) : Got Word := s.start.read (s.indexed a rx)

/-- I and IX: the derived address, the others having had their turn before the operand's cycles (20_memory.md R101): the
pointer cycle of a locked instruction is outside its lock (R95, D3, log 46). -/
def State.indirectAddress (s : State) (rx : Reg) (a : Word) : Got Word :=
  let p := s.pointer rx a
  { p with run := p.run.turn }

/-- ICR: the derived address (R130). -/
def State.relativeAddress (s : State) (d : Byte) : Word := s.ic + d.signExtend 16

/-! ## Derived operands -/

/-- An operand that needs no cycle: a register or an immediate (R125, R128, R129). -/
def State.given {α : Type} (s : State) (v : α) : Got α := { val := v, run := s.start }

/-- D, DX: one word (R126). -/
def State.direct1 (s : State) (rx : Reg) (a : Word) : Got Word := s.start.read (s.directAddress rx a)

/-- D, DX: two words. -/
def State.direct2 (s : State) (rx : Reg) (a : Word) : Got Long := s.start.read2 (s.directAddress rx a)

/-- D, DX: three words. -/
def State.direct3 (s : State) (rx : Reg) (a : Word) : Got Triple := s.start.read3 (s.directAddress rx a)

/-- I, IX: one word (R127). -/
def State.indirect1 (s : State) (rx : Reg) (a : Word) : Got Word :=
  let p := s.indirectAddress rx a
  p.run.read p.val

/-- I, IX: two words. -/
def State.indirect2 (s : State) (rx : Reg) (a : Word) : Got Long :=
  let p := s.indirectAddress rx a
  p.run.read2 p.val

/-- B: one word (R131). -/
def State.base1 (s : State) (br : Reg) (du : Byte) : Got Word := s.start.read (s.baseAddress br du)

/-- B: two words. -/
def State.base2 (s : State) (br : Reg) (du : Byte) : Got Long := s.start.read2 (s.baseAddress br du)

/-- BX: one word (R132). -/
def State.baseIndexed1 (s : State) (br rx : Reg) : Got Word := s.start.read (s.baseIndexedAddress br rx)

/-- BX: two words. -/
def State.baseIndexed2 (s : State) (br rx : Reg) : Got Long := s.start.read2 (s.baseIndexedAddress br rx)

/-- ISP: +N (R129). -/
def shortPositive (n : Nat) : Word := BitVec.ofNat 16 n

/-- ISN: -N (R129). -/
def shortNegative (n : Nat) : Word := -BitVec.ofNat 16 n

end Sys2Proof.Machine
end

