-- ==== Sys2Proof/Machine/Multiple.lean ====
section
/-! DEFINITION. Push, pop, load and store multiple, and the block move (45_multiple.md). -/

namespace Sys2Proof.Machine

/-! ## Register lists -/

/-- The registers from `ra` up to `rb`, past R15 to R0 where `ra` is the greater (R442). -/
def registerRange (ra rb : Reg) : List Reg :=
  (List.range ((rb - ra).val + 1)).map fun k => ra + Fin.ofNat 16 k

/-- One push: the pointer steps down, then the register is stored where it points, then the others have their turn (R440,
R441, 20_memory.md R101). -/
def pushAll : List Reg → Word → Run → Run
  | [], _, r => r
  | q :: qs, sp, r =>
    let t := r.setReg 15 (sp - 1)
    pushAll qs (sp - 1) (t.write (sp - 1) (t.s.reg q)).turn

/-- One pop: the register is loaded from where the pointer points, then the pointer steps up; the word of R15 is skipped
without a read (R442, D19). -/
def popAll : List Reg → Word → Run → Run
  | [], _, r => r
  | q :: qs, sp, r =>
    if q = 15 then popAll qs (sp + 1) (r.setReg 15 (sp + 1))
    else
      let g := r.read sp
      popAll qs (sp + 1) ((g.run.setReg q g.val).setReg 15 (sp + 1)).turn

/-- R[q] <- [a], R[q+1] <- [a+1], ... for `k` words (R443). -/
def loadAll : Nat → Reg → Word → Run → Run
  | 0, _, _, r => r
  | k + 1, q, a, r =>
    let g := r.read a
    loadAll k (q + 1) (a + 1) (g.run.setReg q g.val).turn

/-- [a] <- R[q], [a+1] <- R[q+1], ... for `k` words (R444). -/
def storeAll : Nat → Reg → Word → Run → Run
  | 0, _, _, r => r
  | k + 1, q, a, r => storeAll k (q + 1) (a + 1) (r.write a (r.s.reg q)).turn

/-! ## Block move -/

/-- The registers after a word has moved: both addresses up, the count in R[ra+1] down (R446). -/
def State.moveRegisters (s : State) (ra rb : Reg) : State :=
  let s1 := s.setReg ra (s.reg ra + 1)
  let s2 := s1.setReg rb (s1.reg rb + 1)
  s2.setReg (ra + 1) (s2.reg (ra + 1) - 1)

/-- The cycles an aborted MOV still issues: `k` words, at the addresses the registers would have held, `shadow` being
the state that holds them (60_exceptions.md R664, log 19). -/
def moveDiscarded (ra rb : Reg) : Nat → State → Run → Run
  | 0, _, r => r
  | k + 1, shadow, r =>
    moveDiscarded ra rb k (shadow.moveRegisters ra rb)
      ((r.turn.read (shadow.reg rb)).run.turn.write (shadow.reg ra) 0)

/-- Where a MOV stands after one step. -/
inductive MovePlan where
  /-- The instruction is complete. -/
  | finished (r : Run)
  /-- A word has moved and more are to come. -/
  | more (s : State)
  /-- It is suspended: an interrupt has been taken with IC at the MOV (60_exceptions.md R689), or RESET has come. -/
  | suspended (s : State)
  /-- The interrupt sequence drew a fault. -/
  | failed (f : Fault)
deriving DecidableEq, Repr

/-- One word: one read, a turn of the others, one write; an abort ends the instruction (R446, 60_exceptions.md R664), a RESET in
the turn halts it. How many words remain after an abort where RB = RA + 1, pointer and count being one register, is the model's
choice: the count at the abort less one (DESIGN CHOICE, log 65). -/
def State.moveWord (s : State) (ra rb : Reg) : MovePlan :=
  let g := s.start.read (s.reg rb)
  let w := g.run.turn.write (s.reg ra) g.val
  if w.halted then .suspended w.s
  else if w.aborted then
    .finished (moveDiscarded ra rb ((s.reg (ra + 1)).toNat - 1) (s.moveRegisters ra rb) w)
  else
    let t := w.s.moveRegisters ra rb
    if t.reg (ra + 1) = 0 then .finished t.start else .more t

/-- The interrupt looked for before each word. A simulated interrupt whose delay still covers the MOV holds recognition off
(60_exceptions.md R689, log 18). That it is looked for before the first word too where the MOV is the first instruction of a
handler is the model's choice (DESIGN CHOICE, log 64). -/
def State.moveInterrupt (s : State) : Option Sequence :=
  if s.spi = .idle then s.nextLevel.map fun n => s.interrupt n 0 else none

/-- One step of MOV (R446). A sequence that is abandoned for its address state lets the word move
(60_exceptions.md R682 (a)). -/
def State.movePlan (s : State) (ra rb : Reg) : MovePlan :=
  if s.reg (ra + 1) = 0 then .finished s.start
  else
    match s.moveInterrupt with
    | some (.entered t) | some (.reset t) => .suspended t
    | some (.failed f) => .failed f
    | some (.abandoned t) => t.moveWord ra rb
    | none => s.moveWord ra rb

/-- The answer of MOV: IC stays at the MOV until it is complete. -/
def MovePlan.result : MovePlan → Result
  | .finished r => r.next 1
  | .more s => .next s
  | .suspended s => .next s
  | .failed f => .fault f

/-! ## Instructions -/

/-- PSHM: push registers RB down to RA (R441). -/
def execPshm (ra rb : Reg) (s : State) : Result :=
  (pushAll (registerRange ra rb).reverse (s.reg 15) s.start).next 1

/-- POPM: pop registers RA up to RB (R442). -/
def execPopm (ra rb : Reg) (s : State) : Result := (popAll (registerRange ra rb) (s.reg 15) s.start).next 1

/-- LM: load R0 to RN (R443). -/
def execLm (n : Fin 16) (rx : Reg) (a : Word) (s : State) : Result :=
  (loadAll (n.val + 1) 0 (s.directAddress rx a) s.start).next 2

/-- STM: store R0 to RN (R444). -/
def execStm (n : Fin 16) (rx : Reg) (a : Word) (s : State) : Result :=
  (storeAll (n.val + 1) 0 (s.directAddress rx a) s.start).next 2

/-- MOV: move R[RA+1] words from R[RB] to R[RA]; one word a step, interruptible between words (R446, 60_exceptions.md
R689, log 17). -/
def execMov (ra rb : Reg) (s : State) : Result := (s.movePlan ra rb).result

end Sys2Proof.Machine
end

