-- ==== Sys2Proof/Syntax.lean ====
section
/-! DEFINITION. The instructions: one constructor per row of spec/opcode_table.json, named by the row's mnemonic in
lower case (30_encoding.md R123, R150 to R155). Operands are those of the assembler (R160): a base register is the
register number 12 to 15, a count that the encoding stores as N - 1 is the written N (1 to 16).
`rx` = 0 means no indexing (R124). -/

namespace Sys2Proof

/-- An F9450 instruction. -/
inductive Instr where
  -- Integer arithmetic and logic (40_integer.md)
  /-- AB, format B (7a) (R178). -/
  | ab (br : Reg) (du : Byte)
  /-- SBB, format B (7a) (R186). -/
  | sbb (br : Reg) (du : Byte)
  /-- MB, format B (7a) (R201). -/
  | mb (br : Reg) (du : Byte)
  /-- DB, format B (7a) (R213). -/
  | db (br : Reg) (du : Byte)
  /-- ORB, format B (7a) (R224). -/
  | orb (br : Reg) (du : Byte)
  /-- ANDB, format B (7a) (R229). -/
  | andb (br : Reg) (du : Byte)
  /-- CB, format B (7a) (R240). -/
  | cb (br : Reg) (du : Byte)
  /-- ABX, format BX (7b) (R179). -/
  | abx (br rx : Reg)
  /-- SBBX, format BX (7b) (R187). -/
  | sbbx (br rx : Reg)
  /-- MBX, format BX (7b) (R202). -/
  | mbx (br rx : Reg)
  /-- DBX, format BX (7b) (R214). -/
  | dbx (br rx : Reg)
  /-- CBX, format BX (7b) (R241). -/
  | cbx (br rx : Reg)
  /-- ANDX, format BX (7b) (R230). -/
  | andx (br rx : Reg)
  /-- ORBX, format BX (7b) (R225). -/
  | orbx (br rx : Reg)
  /-- A, format D, DX (2) (R176). -/
  | a (ra rx : Reg) (a : Word)
  /-- AR, format R (1) (R177). -/
  | ar (ra rb : Reg)
  /-- AISP, format ISP (5a) (R180). -/
  | aisp (ra : Reg) (n : Nat)
  /-- INCM, format D, DX (2) (R218). -/
  | incm (n : Nat) (rx : Reg) (a : Word)
  /-- ABS, format R (1) (R220). -/
  | abs (ra rb : Reg)
  /-- DABS, format R (1) (R221). -/
  | dabs (ra rb : Reg)
  /-- DA, format D, DX (2) (R182). -/
  | da (ra rx : Reg) (a : Word)
  /-- DAR, format R (1) (R183). -/
  | dar (ra rb : Reg)
  /-- S, format D, DX (2) (R184). -/
  | s (ra rx : Reg) (a : Word)
  /-- SR, format R (1) (R185). -/
  | sr (ra rb : Reg)
  /-- SISP, format ISP (5a) (R188). -/
  | sisp (ra : Reg) (n : Nat)
  /-- DECM, format D, DX (2) (R219). -/
  | decm (n : Nat) (rx : Reg) (a : Word)
  /-- NEG, format R (1) (R192). -/
  | neg (ra rb : Reg)
  /-- DNEG, format R (1) (R193). -/
  | dneg (ra rb : Reg)
  /-- DS, format D, DX (2) (R190). -/
  | ds (ra rx : Reg) (a : Word)
  /-- DSR, format R (1) (R191). -/
  | dsr (ra rb : Reg)
  /-- MS, format D, DX (2) (R194). -/
  | ms (ra rx : Reg) (a : Word)
  /-- MSR, format R (1) (R195). -/
  | msr (ra rb : Reg)
  /-- MISP, format ISP (5a) (R196). -/
  | misp (ra : Reg) (n : Nat)
  /-- MISN, format ISN (5b) (R197). -/
  | misn (ra : Reg) (n : Nat)
  /-- M, format D, DX (2) (R199). -/
  | m (ra rx : Reg) (a : Word)
  /-- MR, format R (1) (R200). -/
  | mr (ra rb : Reg)
  /-- DM, format D, DX (2) (R204). -/
  | dm (ra rx : Reg) (a : Word)
  /-- DMR, format R (1) (R205). -/
  | dmr (ra rb : Reg)
  /-- DV, format D, DX (2) (R206). -/
  | dv (ra rx : Reg) (a : Word)
  /-- DVR, format R (1) (R207). -/
  | dvr (ra rb : Reg)
  /-- DISP, format ISP (5a) (R208). -/
  | disp (ra : Reg) (n : Nat)
  /-- DISN, format ISN (5b) (R209). -/
  | disn (ra : Reg) (n : Nat)
  /-- D, format D, DX (2) (R211). -/
  | d (ra rx : Reg) (a : Word)
  /-- DR, format R (1) (R212). -/
  | dr (ra rb : Reg)
  /-- DD, format D, DX (2) (R216). -/
  | dd (ra rx : Reg) (a : Word)
  /-- DDR, format R (1) (R217). -/
  | ddr (ra rb : Reg)
  /-- OR, format D, DX (2) (R222). -/
  | or (ra rx : Reg) (a : Word)
  /-- ORR, format R (1) (R223). -/
  | orr (ra rb : Reg)
  /-- AND, format D, DX (2) (R227). -/
  | and (ra rx : Reg) (a : Word)
  /-- ANDR, format R (1) (R228). -/
  | andr (ra rb : Reg)
  /-- XOR, format D, DX (2) (R232). -/
  | xor (ra rx : Reg) (a : Word)
  /-- XORR, format R (1) (R233). -/
  | xorr (ra rb : Reg)
  /-- N, format D, DX (2) (R235). -/
  | n (ra rx : Reg) (a : Word)
  /-- NR, format R (1) (R236). -/
  | nr (ra rb : Reg)
  /-- C, format D, DX (2) (R238). -/
  | c (ra rx : Reg) (a : Word)
  /-- CR, format R (1) (R239). -/
  | cr (ra rb : Reg)
  /-- CISP, format ISP (5a) (R242). -/
  | cisp (ra : Reg) (n : Nat)
  /-- CISN, format ISN (5b) (R243). -/
  | cisn (ra : Reg) (n : Nat)
  /-- CBL, format D, DX (2) (R247). -/
  | cbl (ra rx : Reg) (a : Word)
  /-- DC, format D, DX (2) (R245). -/
  | dc (ra rx : Reg) (a : Word)
  /-- DCR, format R (1) (R246). -/
  | dcr (ra rb : Reg)
  /-- AIM, format IM (4a) (R181). -/
  | aim (ra : Reg) (data : Word)
  /-- SIM, format IM (4a) (R189). -/
  | sim (ra : Reg) (data : Word)
  /-- MIM, format IM (4a) (R203). -/
  | mim (ra : Reg) (data : Word)
  /-- MSIM, format IM (4a) (R198). -/
  | msim (ra : Reg) (data : Word)
  /-- DIM, format IM (4a) (R215). -/
  | dim (ra : Reg) (data : Word)
  /-- DVIM, format IM (4a) (R210). -/
  | dvim (ra : Reg) (data : Word)
  /-- ANDM, format IM (4a) (R231). -/
  | andm (ra : Reg) (data : Word)
  /-- ORIM, format IM (4a) (R226). -/
  | orim (ra : Reg) (data : Word)
  /-- XORM, format IM (4a) (R234). -/
  | xorm (ra : Reg) (data : Word)
  /-- CIM, format IM (4a) (R244). -/
  | cim (ra : Reg) (data : Word)
  /-- NIM, format IM (4a) (R237). -/
  | nim (ra : Reg) (data : Word)
  -- Floating point (41_float.md)
  /-- FAB, format B (7a) (R272). -/
  | fab (br : Reg) (du : Byte)
  /-- FSB, format B (7a) (R279). -/
  | fsb (br : Reg) (du : Byte)
  /-- FMB, format B (7a) (R286). -/
  | fmb (br : Reg) (du : Byte)
  /-- FDB, format B (7a) (R292). -/
  | fdb (br : Reg) (du : Byte)
  /-- FCB, format B (7a) (R298). -/
  | fcb (br : Reg) (du : Byte)
  /-- FABX, format BX (7b) (R273). -/
  | fabx (br rx : Reg)
  /-- FSBX, format BX (7b) (R280). -/
  | fsbx (br rx : Reg)
  /-- FMBX, format BX (7b) (R287). -/
  | fmbx (br rx : Reg)
  /-- FDBX, format BX (7b) (R293). -/
  | fdbx (br rx : Reg)
  /-- FCBX, format BX (7b) (R299). -/
  | fcbx (br rx : Reg)
  /-- FA, format D, DX (2) (R270). -/
  | fa (ra rx : Reg) (a : Word)
  /-- FAR, format R (1) (R271). -/
  | far (ra rb : Reg)
  /-- EFA, format D, DX (2) (R274). -/
  | efa (ra rx : Reg) (a : Word)
  /-- EFAR, format R (1) (R275). -/
  | efar (ra rb : Reg)
  /-- FABS, format R (1) (R276). -/
  | fabs (ra rb : Reg)
  /-- FS, format D, DX (2) (R277). -/
  | fs (ra rx : Reg) (a : Word)
  /-- FSR, format R (1) (R278). -/
  | fsr (ra rb : Reg)
  /-- EFS, format D, DX (2) (R281). -/
  | efs (ra rx : Reg) (a : Word)
  /-- EFSR, format R (1) (R282). -/
  | efsr (ra rb : Reg)
  /-- FNEG, format R (1) (R283). -/
  | fneg (ra rb : Reg)
  /-- FM, format D, DX (2) (R284). -/
  | fm (ra rx : Reg) (a : Word)
  /-- FMR, format R (1) (R285). -/
  | fmr (ra rb : Reg)
  /-- EFM, format D, DX (2) (R288). -/
  | efm (ra rx : Reg) (a : Word)
  /-- EFMR, format R (1) (R289). -/
  | efmr (ra rb : Reg)
  /-- FD, format D, DX (2) (R290). -/
  | fd (ra rx : Reg) (a : Word)
  /-- FDR, format R (1) (R291). -/
  | fdr (ra rb : Reg)
  /-- EFD, format D, DX (2) (R294). -/
  | efd (ra rx : Reg) (a : Word)
  /-- EFDR, format R (1) (R295). -/
  | efdr (ra rb : Reg)
  /-- FIX, format R (1) (R302). -/
  | fix (ra rb : Reg)
  /-- FLT, format R (1) (R303). -/
  | flt (ra rb : Reg)
  /-- EFIX, format R (1) (R304). -/
  | efix (ra rb : Reg)
  /-- EFLT, format R (1) (R305). -/
  | eflt (ra rb : Reg)
  /-- FC, format D, DX (2) (R296). -/
  | fc (ra rx : Reg) (a : Word)
  /-- FCR, format R (1) (R297). -/
  | fcr (ra rb : Reg)
  /-- EFC, format D, DX (2) (R300). -/
  | efc (ra rx : Reg) (a : Word)
  /-- EFCR, format R (1) (R301). -/
  | efcr (ra rb : Reg)
  -- Bit (42_bit.md)
  /-- SB, format D, DX (2) (R321). -/
  | sb (n : Fin 16) (rx : Reg) (a : Word)
  /-- SBR, format R (1) (R322). -/
  | sbr (n : Fin 16) (rb : Reg)
  /-- SBI, format I, IX (3) (R323). -/
  | sbi (n : Fin 16) (rx : Reg) (a : Word)
  /-- RB, format D, DX (2) (R324). -/
  | rb (n : Fin 16) (rx : Reg) (a : Word)
  /-- RBR, format R (1) (R325). -/
  | rbr (n : Fin 16) (rb : Reg)
  /-- RBI, format I, IX (3) (R326). -/
  | rbi (n : Fin 16) (rx : Reg) (a : Word)
  /-- TB, format D, DX (2) (R327). -/
  | tb (n : Fin 16) (rx : Reg) (a : Word)
  /-- TBR, format R (1) (R328). -/
  | tbr (n : Fin 16) (rb : Reg)
  /-- TBI, format I, IX (3) (R329). -/
  | tbi (n : Fin 16) (rx : Reg) (a : Word)
  /-- TSB, format D, DX (2) (R330). -/
  | tsb (n : Fin 16) (rx : Reg) (a : Word)
  /-- SVBR, format R (1) (R331). -/
  | svbr (ra rb : Reg)
  /-- RVBR, format R (1) (R332). -/
  | rvbr (ra rb : Reg)
  /-- TVBR, format R (1) (R333). -/
  | tvbr (ra rb : Reg)
  -- Shift (43_shift.md)
  /-- SLL, format R (1) (R356). -/
  | sll (n : Nat) (rb : Reg)
  /-- SRL, format R (1) (R357). -/
  | srl (n : Nat) (rb : Reg)
  /-- SRA, format R (1) (R358). -/
  | sra (n : Nat) (rb : Reg)
  /-- SLC, format R (1) (R359). -/
  | slc (n : Nat) (rb : Reg)
  /-- DSLL, format R (1) (R360). -/
  | dsll (n : Nat) (rb : Reg)
  /-- DSRL, format R (1) (R361). -/
  | dsrl (n : Nat) (rb : Reg)
  /-- DSRA, format R (1) (R362). -/
  | dsra (n : Nat) (rb : Reg)
  /-- DSLC, format R (1) (R363). -/
  | dslc (n : Nat) (rb : Reg)
  /-- SLR, format R (1) (R364). -/
  | slr (ra rb : Reg)
  /-- SAR, format R (1) (R365). -/
  | sar (ra rb : Reg)
  /-- SCR, format R (1) (R366). -/
  | scr (ra rb : Reg)
  /-- DSLR, format R (1) (R367). -/
  | dslr (ra rb : Reg)
  /-- DSAR, format R (1) (R368). -/
  | dsar (ra rb : Reg)
  /-- DSCR, format R (1) (R369). -/
  | dscr (ra rb : Reg)
  -- Load, store and exchange (44_load_store.md)
  /-- LB, format B (7a) (R383). -/
  | lb (br : Reg) (du : Byte)
  /-- DLB, format B (7a) (R391). -/
  | dlb (br : Reg) (du : Byte)
  /-- STB, format B (7a) (R401). -/
  | stb (br : Reg) (du : Byte)
  /-- DSTB, format B (7a) (R408). -/
  | dstb (br : Reg) (du : Byte)
  /-- LBX, format BX (7b) (R384). -/
  | lbx (br rx : Reg)
  /-- DLBX, format BX (7b) (R392). -/
  | dlbx (br rx : Reg)
  /-- STBX, format BX (7b) (R402). -/
  | stbx (br rx : Reg)
  /-- DSTX, format BX (7b) (R409). -/
  | dstx (br rx : Reg)
  /-- L, format D, DX (2) (R381). -/
  | l (ra rx : Reg) (a : Word)
  /-- LR, format R (1) (R382). -/
  | lr (ra rb : Reg)
  /-- LISP, format ISP (5a) (R387). -/
  | lisp (ra : Reg) (n : Nat)
  /-- LISN, format ISN (5b) (R388). -/
  | lisn (ra : Reg) (n : Nat)
  /-- LI, format I, IX (3) (R385). -/
  | li (ra rx : Reg) (a : Word)
  /-- LIM, format IM, IMX (4b) (R386). -/
  | lim (ra rx : Reg) (data : Word)
  /-- DL, format D, DX (2) (R389). -/
  | dl (ra rx : Reg) (a : Word)
  /-- DLR, format R (1) (R390). -/
  | dlr (ra rb : Reg)
  /-- DLI, format I, IX (3) (R393). -/
  | dli (ra rx : Reg) (a : Word)
  /-- EFL, format D, DX (2) (R394). -/
  | efl (ra rx : Reg) (a : Word)
  /-- LUB, format D, DX (2) (R396). -/
  | lub (ra rx : Reg) (a : Word)
  /-- LLB, format D, DX (2) (R398). -/
  | llb (ra rx : Reg) (a : Word)
  /-- LUBI, format I, IX (3) (R397). -/
  | lubi (ra rx : Reg) (a : Word)
  /-- LLBI, format I, IX (3) (R399). -/
  | llbi (ra rx : Reg) (a : Word)
  /-- ST, format D, DX (2) (R400). -/
  | st (ra rx : Reg) (a : Word)
  /-- STC, format D, DX (2) (R404). -/
  | stc (n : Fin 16) (rx : Reg) (a : Word)
  /-- STCI, format I, IX (3) (R405). -/
  | stci (n : Fin 16) (rx : Reg) (a : Word)
  /-- STI, format I, IX (3) (R403). -/
  | sti (ra rx : Reg) (a : Word)
  /-- DST, format D, DX (2) (R407). -/
  | dst (ra rx : Reg) (a : Word)
  /-- SRM, format D, DX (2) (R411). -/
  | srm (ra rx : Reg) (a : Word)
  /-- DSTI, format I, IX (3) (R410). -/
  | dsti (ra rx : Reg) (a : Word)
  /-- EFST, format D, DX (2) (R412). -/
  | efst (ra rx : Reg) (a : Word)
  /-- STUB, format D, DX (2) (R414). -/
  | stub (ra rx : Reg) (a : Word)
  /-- STLB, format D, DX (2) (R416). -/
  | stlb (ra rx : Reg) (a : Word)
  /-- SUBI, format I, IX (3) (R415). -/
  | subi (ra rx : Reg) (a : Word)
  /-- SLBI, format I, IX (3) (R417). -/
  | slbi (ra rx : Reg) (a : Word)
  /-- XBR, format S (R418). -/
  | xbr (ra : Reg)
  /-- XWR, format R (1) (R419). -/
  | xwr (ra rb : Reg)
  -- Multiple load and store, block move (45_multiple.md)
  /-- LM, format D, DX (2) (R443). -/
  | lm (n : Fin 16) (rx : Reg) (a : Word)
  /-- POPM, format S (R442). -/
  | popm (ra rb : Reg)
  /-- MOV, format S (R446). -/
  | mov (ra rb : Reg)
  /-- STM, format D, DX (2) (R444). -/
  | stm (n : Fin 16) (rx : Reg) (a : Word)
  /-- PSHM, format S (R441). -/
  | pshm (ra rb : Reg)
  -- Program control (46_control.md)
  /-- JC, format D, DX (2) (R462). -/
  | jc (c : BitVec 4) (rx : Reg) (a : Word)
  /-- JCI, format I, IX (3) (R464). -/
  | jci (c : BitVec 4) (rx : Reg) (a : Word)
  /-- JS, format D, DX (2) (R463). -/
  | js (ra rx : Reg) (a : Word)
  /-- SOJ, format D, DX (2) (R465). -/
  | soj (ra rx : Reg) (a : Word)
  /-- BR, format ICR (6) (R467). -/
  | br (d : Byte)
  /-- BEZ, format ICR (6) (R468). -/
  | bez (d : Byte)
  /-- BLT, format ICR (6) (R469). -/
  | blt (d : Byte)
  /-- BEX, format S (R474). -/
  | bex (n : Fin 16)
  /-- BLE, format ICR (6) (R470). -/
  | ble (d : Byte)
  /-- BGT, format ICR (6) (R471). -/
  | bgt (d : Byte)
  /-- BNZ, format ICR (6) (R472). -/
  | bnz (d : Byte)
  /-- BGE, format ICR (6) (R473). -/
  | bge (d : Byte)
  /-- LSTI, format I, IX (3) (R476). -/
  | lsti (rx : Reg) (a : Word)
  /-- LST, format D, DX (2) (R475). -/
  | lst (rx : Reg) (a : Word)
  /-- SJS, format D, DX (2) (R477). -/
  | sjs (ra rx : Reg) (a : Word)
  /-- URS, format S (R478). -/
  | urs (ra : Reg)
  /-- BIF, format BIF; `three` is bit 9, which must be 1: the form without it has two words, no `a2`, and is illegal
  (R490, 30_encoding.md R157). -/
  | bif (three : Bool) (cp : Fin 4) (rx : Reg) (a1 a2 : Word)
  /-- BIFI, format BIF, `three` as for BIF (R491). -/
  | bifi (three : Bool) (cp : Fin 4) (rx : Reg) (a1 a2 : Word)
  /-- NOP, format S (R479). -/
  | nop
  /-- BPT, format S (R488). -/
  | bpt
  -- Input and output (47_io.md)
  /-- XIO, format IM, IMX (4b) (R500). -/
  | xio (ra rx : Reg) (data : Word)
  /-- VIO, format D, DX (2) (R570). -/
  | vio (ra rx : Reg) (a : Word)
deriving DecidableEq, Repr

end Sys2Proof
end

