-- ==== Sys2Proof/Machine/Boundary.lean ====
section
/-! DEFINITION. What happens between instructions: the delayed effects, what the outside did, recognition of interrupts and
of the console (60_exceptions.md R673 to R678, R689), and RESET (70_reset_and_hazards.md R740 to R747). -/

namespace Sys2Proof.Machine

/-! ## What the outside did -/

/-- The outside during this step (log 7). -/
def State.outside (s : State) : Env :=
  match s.env with
  | e :: _ => e
  | [] => Env.quiet s.pinPrev

/-- `n` TIMER CLK periods pass: Timer A ticks at each, Timer B at every tenth, a roll-over sets PIR bit 7 or 9
(10_state.md R38, R39, log 5). -/
def State.tick (s : State) (n : Nat) : State :=
  let nb := (s.tbPhase.val + n) / 10
  let rollA := s.taRun && decide (2 ^ 16 ≤ s.ta.toNat + n)
  let rollB := s.tbRun && decide (2 ^ 16 ≤ s.tb.toNat + nb)
  { s with
    tbPhase := Fin.ofNat 10 (s.tbPhase.val + n)
    ta := if s.taRun then s.ta + BitVec.ofNat 16 n else s.ta
    tb := if s.tbRun then s.tb + BitVec.ofNat 16 nb else s.tb
    pir := s.pir ||| (if rollA then oneBit 7 else 0) ||| (if rollB then oneBit 9 else 0) }

/-- The interrupt pins are sampled: bits 0, 2, 8, 10, 11, 13 and 15 on a rising edge or, with SCR bit 4, on a level; bits 12
and 14 on a level (60_exceptions.md R674). -/
def State.samplePins (s : State) (pins : Word) : State :=
  { s with
    pir := s.pir ||| ((if bitOf s.scr 4 then pins else pins &&& ~~~ s.pinPrev) &&& 0xA0B5) ||| (pins &&& 0x000A)
    pinPrev := pins }

/-- Everything the outside did arrives; the timers ran if `clock` (60_exceptions.md R678 step 2, log 28). -/
def State.arrive (s : State) (e : Env) (clock : Bool) : State :=
  let s1 := { s with env := s.env.tail }
  let s2 := if clock then s1.tick e.timerClk else s1
  ((s2.externalFaults (outsideFaults e.faults)).masters e.writes).samplePins e.pins

/-! ## RESET -/

/-- The reset sequence: nothing survives but memory and what the outside holds (70_reset_and_hazards.md R742, R747,
log 43). -/
def State.restart (s : State) : State :=
  { State.resetWith s.platform with
    mem := s.mem
    env := s.env
    turns := s.turns
    ioIn := s.ioIn
    trace := (State.resetWith s.platform).trace ++ s.trace
    free := s.free }

/-- RESET before the end of a step: the rest of the step is abandoned, what it has already written to memory stays, and
what the outside would have done at its end is over (70_reset_and_hazards.md R740, log 43). -/
def State.halt (s : State) : State := { s with env := s.env.tail }.restart

/-- A RESET that came between two cycles of the interrupt sequence at the end of a step. -/
def closeReset : Result → Result
  | .next t => .next (if t.resetting then t.restart else t)
  | .fault f => .fault f
  | .refused r => .refused r

/-! ## Recognition -/

/-- CONREQ reaches the CPU. DESIGN CHOICE: whether SCR bit 2 gates it is a parameter of the platform, since 00_scope.md R13 (5)
says so and 49_console.md R620 that the pin is not said to be gated; the standard platform gates it (log 54). -/
def State.asked (s : State) (conreq : Bool) : Bool := conreq && (bitOf s.scr 2 || !s.platform.conreqGated)

/-- Step 1 of the boundary: an ENBL of the previous instruction takes effect (60_exceptions.md R678, 47_io.md R509). -/
def State.enableStep (s : State) : State :=
  match s.enbl with
  | .due => { s with inten := true, enbl := .idle }
  | .armed => { s with enbl := .due }
  | .idle => s

/-- Step 4: one interrupt sequence, else the console (60_exceptions.md R677, R678, 49_console.md R621). -/
def State.recognise (s : State) (conreq : Bool) : Result :=
  match s.nextLevel with
  | some n => (s.interrupt n 0).result
  | none => .next (if conreq then { s with consoleMode := true, depositLocked := false } else s)

/-- The boundary after a completed instruction (60_exceptions.md R678). A BPT that has entered console mode is followed by
no recognition (10_state.md R46). -/
def State.boundary (s : State) (e : Env) : Result :=
  let s2 := s.enableStep.arrive e true
  match s2.spi with
  | .armed => .next { s2 with spi := .due }
  | .due | .idle =>
    if s2.consoleMode then .next { s2 with spi := .idle } else { s2 with spi := .idle }.recognise (s2.asked e.conreq)

/-! ## Endings of an instruction -/

/-- What follows an instruction. -/
inductive Ending where
  /-- The ordinary boundary. -/
  | boundary
  /-- A MOV between two words: the outside arrives, no more (60_exceptions.md R689). -/
  | between (ra rb : Reg)
  /-- A MOV that was suspended: its interrupt sequence has run. -/
  | taken
deriving DecidableEq, Repr

/-- What follows `i` begun in `s`. -/
def State.ending (s : State) (i : Instr) : Ending :=
  match i with
  | .mov ra rb =>
    match s.movePlan ra rb with
    | .finished _ => .boundary
    | .more _ => .between ra rb
    | .suspended _ => .taken
    | .failed _ => .taken
  | _ => .boundary

/-- The registers only the console sees hold anything after an instruction (10_state.md R45, U2). -/
def State.scramble (s : State) : State :=
  { s with
    scratch :=
      { a1 := Config.freeWord s.free, a2 := Config.freeWord (s.free + 1), q1 := Config.freeWord (s.free + 2),
        q2 := Config.freeWord (s.free + 3), do0 := Config.freeWord (s.free + 4), do1 := Config.freeWord (s.free + 5),
        ir := Config.freeWord (s.free + 6) }
    free := s.free + 7 }

/-- What follows an instruction that has reached the state `t`, RESET apart. -/
def State.follow (t : State) (e : Env) : Ending → Result
  | .boundary => { t.scramble with moving := none }.boundary e
  | .between ra rb => .next ({ t.scramble with moving := some (ra, rb) }.arrive e true)
  | .taken => .next ({ t.scramble with moving := none }.arrive e true)

/-- The end of the step in which an instruction reached the state `t`. -/
def State.finish (t : State) (e : Env) (ending : Ending) : Result :=
  if t.resetting then .next t.halt else closeReset (t.follow e ending)

/-- A fetch that drew a fault: level 1 is entered at once with IC at the instruction (60_exceptions.md R663); with MK bit 1
at 0 nothing is defined (U9, log 20). -/
def State.fetchFault (s : State) (bits : Word) (e : Env) : Result :=
  if bitOf s.mask 1 then closeReset (((s.raise bits .unrecoverable).arrive e true).interrupt 1 0).result
  else .fault .fetchFaultMasked

/-- The wait that DISABLE leaves: an interrupt ends it, else the console does (49_console.md R622). -/
def State.wait (s : State) (e : Env) : Result :=
  let t := s.arrive e true
  match t.nextLevel with
  | some n => closeReset ({ t with waiting := false }.interrupt n 0).result
  | none => .next (if t.asked e.conreq then { t with waiting := false, consoleMode := true, depositLocked := false } else t)

/-- The end of a step in console mode: the timers stand still (49_console.md R621). -/
def arriveInConsole (t : Result) (e : Env) : Result :=
  match t with
  | .next t => .next (if t.resetting then t.halt else t.arrive e false)
  | .fault f => .fault f
  | .refused r => .refused r

end Sys2Proof.Machine
end

