-- ==== Sys2Proof/Machine/Console.lean ====
section
/-! DEFINITION. The console (49_console.md). A console command is carried out like an instruction: once a cycle has drawn a
major error, no register changes (R636). Between its cycles the others have their turn (20_memory.md R101). -/

namespace Sys2Proof.Machine

/-! ## Cycles of the console -/

/-- The cycle at this I/O address draws EXT ADR ER or PAR ER. -/
def State.ioFaulty (s : State) (addr : Word) : Bool :=
  ioFlawAt s.platform .illegal addr || ioFlawAt s.platform .parity addr

/-- After an external fault of a console cycle register deposits are inhibited until CONTINUE or DISABLE (R636, log 32). That
a fault of another master's cycle does not inhibit them is the model's choice (DESIGN CHOICE, log 63). -/
def Run.lockIf (r : Run) (c : Bool) : Run := if c then { r with s := { r.s with depositLocked := true } } else r

/-- A word read from an I/O address: the command from 8400, the switches from 8401 (R620). -/
def Run.consoleTake (r : Run) (addr : Word) : Got Word :=
  let g := r.ioRead addr
  { g with run := g.run.lockIf (r.s.ioFaulty addr) }

/-- A word written to an I/O address. -/
def Run.consolePut (r : Run) (addr v : Word) : Run := (r.ioWrite addr v).lockIf (r.s.ioFaulty addr)

/-- A word shown on the display (R620). -/
def Run.consoleShow (r : Run) (v : Word) : Run := r.consolePut 0x0400 v

/-- A memory word, in the operand space of SW's address state and key (R620). -/
def Run.consoleLoad (r : Run) (addr : Word) : Got Word :=
  let g := r.read addr
  { g with run := g.run.lockIf (!(r.s.ownCycle .read addr).clean) }

/-- A memory word deposited. -/
def Run.consoleStore (r : Run) (addr v : Word) : Run :=
  (r.write addr v).lockIf (!(r.s.ownCycle .write addr).clean)

/-! ## Registers by their console address -/

/-- The registers the console names (R626). -/
inductive ConsoleRegister where
  | general (r : Reg)
  | a1 | a2 | q1 | q2 | do0 | do1
  | pir | mk | ft | sw | ta | tb | ic
  /-- The four addresses of IR, by their two low bits. -/
  | ir (low : BitVec 2)
deriving DecidableEq, Repr

/-- The register table (R626): Rn stands at `(n mod 2) * 0x10 + n div 2`. -/
def consoleRegister (a : BitVec 6) : Option ConsoleRegister :=
  match a.toNat with
  | 0x08 => some .a2
  | 0x18 => some .a1
  | 0x09 => some .q2
  | 0x19 => some .q1
  | 0x0A => some .do0
  | 0x1A => some .do1
  | 0x0B => some .pir
  | 0x1B => some .mk
  | 0x0C => some .ft
  | 0x0D => some .sw
  | 0x0E => some .ta
  | 0x1E => some .tb
  | 0x25 => some .ic
  | 0x2C | 0x2D | 0x2E | 0x2F => some (.ir (a.extractLsb' 0 2))
  | n =>
    if n < 8 then some (.general (Fin.ofNat 16 (2 * n)))
    else if 0x10 ≤ n ∧ n < 0x18 then some (.general (Fin.ofNat 16 (2 * (n - 0x10) + 1)))
    else none

/-- What EXAMINE REGISTER shows (R627). -/
def State.examine (s : State) : ConsoleRegister → Word
  | .general r => s.reg r
  | .a1 => s.scratch.a1
  | .a2 => s.scratch.a2
  | .q1 => s.scratch.q1
  | .q2 => s.scratch.q2
  | .do0 => s.scratch.do0
  | .do1 => s.scratch.do1
  | .pir => s.pir
  | .mk => s.mask
  | .ft => s.ft
  | .sw => s.sw
  | .ta => s.ta
  | .tb => s.tb
  | .ic => s.ic
  | .ir low => Config.examineIr s.scratch.ir low

/-- DEPOSIT REGISTER applies to every register but SW, IC and IR (R628). -/
def ConsoleRegister.depositable : ConsoleRegister → Bool
  | .sw | .ic | .ir _ => false
  | .general _ | .a1 | .a2 | .q1 | .q2 | .do0 | .do1 | .pir | .mk | .ft | .ta | .tb => true

/-- The register is one of R0 to R15 and the six temporary registers, which a fault locks (R636). -/
def ConsoleRegister.lockable : ConsoleRegister → Bool
  | .general _ | .a1 | .a2 | .q1 | .q2 | .do0 | .do1 => true
  | .pir | .mk | .ft | .sw | .ta | .tb | .ic | .ir _ => false

/-- A deposit into FT: bits 9, 10, 11 and 13, in inverted polarity (R629). -/
def depositFt (ft d : Word) : Word := (ft &&& 0xFF8B) ||| (~~~ d &&& 0x0074)

/-- What DEPOSIT REGISTER changes (R628, R629). -/
def State.deposit (s : State) (q : ConsoleRegister) (d : Word) : State :=
  match q with
  | .general r => s.setReg r d
  | .a1 => { s with scratch := { s.scratch with a1 := d } }
  | .a2 => { s with scratch := { s.scratch with a2 := d } }
  | .q1 => { s with scratch := { s.scratch with q1 := d } }
  | .q2 => { s with scratch := { s.scratch with q2 := d } }
  | .do0 => { s with scratch := { s.scratch with do0 := d } }
  | .do1 => { s with scratch := { s.scratch with do1 := d } }
  | .pir => s.setPir d
  | .mk => s.setMask d
  | .ft => { s with ft := depositFt s.ft d }
  | .ta => { s with ta := d }
  | .tb => { s with tb := d }
  | .sw | .ic | .ir _ => s

/-! ## Commands -/

/-- DEPOSIT REGISTER; a locked register keeps its value (R628, R636). -/
def Run.depositRegister (r : Run) (q : ConsoleRegister) : Run :=
  let d := r.consoleTake 0x8401
  if d.run.s.depositLocked && q.lockable then d.run else d.run.update fun s => s.deposit q d.val

/-- DEPOSIT STATUS WORD (R631). That no address-state check is made where the read of 8401 has drawn EXT ADR ER is the
model's choice (DESIGN CHOICE, log 55). -/
def Run.depositStatus (r : Run) : Run :=
  let d := r.consoleTake 0x8401
  if !d.run.aborted && d.run.s.refusesStatus d.val then { d.run with s := d.run.s.addressStateFault }
  else d.run.update fun s => s.setSw d.val

/-- IC <- IC + 1 (R634, R635). -/
def Run.nextAddress (r : Run) : Run := r.update fun s => s.setIc (s.ic + 1)

/-- A1 <- A1 + 1 (R642, R643), but where the temporary registers are locked (R636, log 32). -/
def Run.nextPort (r : Run) : Run :=
  r.update fun s => if s.depositLocked then s else { s with scratch := { s.scratch with a1 := s.scratch.a1 + 1 } }

/-- The word at IC is shown. -/
def Run.showMemory (r : Run) : Run :=
  let v := r.consoleLoad r.s.ic
  v.run.turn.consoleShow v.val

/-- The switches are stored at IC (R633). -/
def Run.depositMemory (r : Run) : Run :=
  let d := r.consoleTake 0x8401
  d.run.turn.consoleStore d.run.s.ic d.val

/-- The word at I/O address A1 is shown (R640). -/
def Run.showPort (r : Run) : Run :=
  let v := r.consoleTake r.s.scratch.a1
  v.run.turn.consoleShow v.val

/-- The switches are written to I/O address A1 (R641). -/
def Run.depositPort (r : Run) : Run :=
  let d := r.consoleTake 0x8401
  d.run.turn.consolePut d.run.s.scratch.a1 d.val

/-- EXAMINE MEMORY: the switches go to IC (R632). DESIGN CHOICE: where their read draws EXT ADR ER the load of IC is
inhibited, so IC stays and the word at that IC is read; 60_exceptions.md R664 calls the address of such a cycle unspecified
(log 62). -/
def Run.examineMemory (r : Run) : Run :=
  let a := r.consoleTake 0x8401
  (a.run.update fun s => s.setIc a.val).turn.showMemory

/-- The command `c`; `held` says that CONREQ is still asserted when a CONTINUE samples it (R622, R624 to R643). -/
def consoleCommand (c : Word) (held : Bool) (r : Run) : Result :=
  match (c.extractLsb' 8 8).toNat with
  | 0x74 => .next { r.s with consoleMode := false, waiting := true, depositLocked := false }
  | 0x75 => .next { r.s with consoleMode := held, depositLocked := false }
  | 0x60 =>
    match consoleRegister (c.extractLsb' 0 6) with
    | some q => .next (r.consoleShow (r.s.examine q)).s
    | none => .refused (.consoleRegister (c.extractLsb' 0 6))
  | 0x61 =>
    match consoleRegister (c.extractLsb' 0 6) with
    | some q =>
      if q.depositable then .next (r.depositRegister q).s else .refused (.consoleRegister (c.extractLsb' 0 6))
    | none => .refused (.consoleRegister (c.extractLsb' 0 6))
  | 0x62 => .next ((r.consoleShow r.s.ft).update fun s => { s with ft := 0 }).s
  | 0x63 => .next r.depositStatus.s
  | 0x66 => .next r.examineMemory.s
  | 0x67 => .next r.depositMemory.s
  | 0x6A => .next r.nextAddress.showMemory.s
  | 0x6B => .next r.nextAddress.depositMemory.s
  | 0x6C => .next r.showPort.s
  | 0x6D => .next r.depositPort.s
  | 0x6E => .next r.nextPort.showPort.s
  | 0x6F => .next r.nextPort.depositPort.s
  | _ => .next r.s

/-- One console request: the command is read and carried out; a command word that draws EXT ADR ER is none (R621, log
32). A RESET after that read comes before the command. -/
def State.console (s : State) (held : Bool) : Result :=
  let c := s.start.consoleTake 0x8400
  let r := c.run.turn
  if r.aborted then .next r.s else consoleCommand c.val held r

end Sys2Proof.Machine
end

