-- ==== Sys2Proof/Machine/Flags.lean ====
section
/-! DEFINITION. The condition status and the fixed-point functions of 40_integer.md R171 to R175. -/

namespace Sys2Proof.Machine

/-- `set_cs_pzn`: 0010 for zero, 0001 for negative, 0100 for positive (00_scope.md R10, 10_state.md R27). -/
def pzn {w : Nat} (v : BitVec w) : BitVec 4 := if v = 0 then 0b0010 else if v.msb then 0b0001 else 0b0100

/-- `set_cs_cpzn`: the same with the carry in front. -/
def cpzn {w : Nat} (c : Bool) (v : BitVec w) : BitVec 4 := pzn v ||| (if c then 0b1000 else 0)

/-- A compare: 0010 if x = y, 0001 if x < y, 0100 if x > y (40_integer.md R175, R238). -/
def order (x y : Int) : BitVec 4 := if x = y then 0b0010 else if x < y then 0b0001 else 0b0100

/-- A sum or difference, the carry out of the sign position, and overflow (40_integer.md R171). -/
structure Sum (w : Nat) where
  r : BitVec w
  c : Bool
  v : Bool
deriving DecidableEq, Repr

/-- `addN` (R171). -/
def addC {w : Nat} (a b : BitVec w) : Sum w :=
  { r := a + b
    c := decide (2 ^ w ≤ a.toNat + b.toNat)
    v := a.msb == b.msb && (a + b).msb != a.msb }

/-- `subN`: the complement addition, carry 1 when there is no borrow (R171). -/
def subC {w : Nat} (a b : BitVec w) : Sum w :=
  { r := a - b
    c := decide (2 ^ w ≤ a.toNat + (~~~b).toNat + 1)
    v := a.msb != b.msb && (a - b).msb == b.msb }

/-- The exact product of two signed 16-bit words (R173). -/
def product16 (x y : Word) : Long := BitVec.ofInt 32 (x.toInt * y.toInt)

/-- The exact product of two signed double words (R173). -/
def product32 (x y : Long) : BitVec 64 := BitVec.ofInt 64 (x.toInt * y.toInt)

/-- The overflow condition of a multiplication that keeps the low half (R173), from the signs of the operands, the high
half and the sign of the low half. -/
def productOverflow {w : Nat} (x y hi lo : BitVec w) : Bool :=
  x != 0 && y != 0 &&
    ((x.msb == y.msb && (hi != 0 || lo.msb)) || (x.msb != y.msb && (hi != BitVec.allOnes w || !lo.msb)))

/-- A quotient and a remainder as integers, truncated toward zero, the remainder with the sign of the dividend
(R174). -/
structure Quotient where
  q : Int
  rem : Int
  /-- The divisor is zero or the quotient does not fit. -/
  overflow : Bool
deriving DecidableEq, Repr

/-- Division of `n` by `d` into a signed quotient of `w` bits; a zero divisor clears both results (R174, D10). -/
def divide (w : Nat) (n d : Int) : Quotient :=
  if d = 0 then { q := 0, rem := 0, overflow := true }
  else
    { q := n.tdiv d
      rem := n.tmod d
      overflow := decide (n.tdiv d ≥ 2 ^ (w - 1)) || decide (n.tdiv d < -2 ^ (w - 1)) }

end Sys2Proof.Machine
end

