-- ==== Sys2Proof/Machine/Bit.lean ====
section
/-! DEFINITION. Bit instructions (42_bit.md). Bit N of a word is the one with mask 8000h >> N (R320). -/

namespace Sys2Proof.Machine

/-! ## Shared operations -/

/-- The word with bit N set. -/
def setBit (n : Nat) (w : Word) : Word := w ||| oneBit n

/-- The word with bit N cleared. -/
def resetBit (n : Nat) (w : Word) : Word := w &&& ~~~ oneBit n

/-- CS of a test of bit N: as if the bit stood alone in its word (R320). -/
def testBits (n : Nat) (w : Word) : BitVec 4 := if !bitOf w n then 0b0010 else if n = 0 then 0b0001 else 0b0100

/-- N of the variable forms: the least significant four bits of R[RA] (R320). -/
def State.variableBit (s : State) (ra : Reg) : Nat := (s.reg ra).toNat % 16

/-- The word at `da` is read, changed by `f` and written back. The bus is locked meanwhile: no turn of the others falls
between the two cycles (20_memory.md R92, R95, log 46). -/
def Run.modify (r : Run) (da : Word) (f : Word → Word) : Run :=
  let w := r.read da
  w.run.write da (f w.val)

/-- R[rb] <- f R[rb], CS unchanged. -/
def modifyReg (f : Word → Word) (rb : Reg) (s : State) : Result := (s.start.setReg rb (f (s.reg rb))).next 1

/-- CS from bit N of a word. -/
def testInto (n : Nat) (o : Got Word) (len : Word) : Result := (o.run.setCs (testBits n o.val)).next len

/-! ## Instructions -/

/-- SB: set bit, memory direct (R321). -/
def execSb (n : Fin 16) (rx : Reg) (a : Word) (s : State) : Result :=
  (s.start.modify (s.directAddress rx a) (setBit n.val)).next 2

/-- SBR: set bit, register (R322). -/
def execSbr (n : Fin 16) (rb : Reg) (s : State) : Result :=
  modifyReg (setBit n.val) rb s

/-- SBI: set bit, memory indirect (R323). -/
def execSbi (n : Fin 16) (rx : Reg) (a : Word) (s : State) : Result :=
  let p := s.indirectAddress rx a
  (p.run.modify p.val (setBit n.val)).next 2

/-- RB: reset bit, memory direct (R324). -/
def execRb (n : Fin 16) (rx : Reg) (a : Word) (s : State) : Result :=
  (s.start.modify (s.directAddress rx a) (resetBit n.val)).next 2

/-- RBR: reset bit, register (R325). -/
def execRbr (n : Fin 16) (rb : Reg) (s : State) : Result :=
  modifyReg (resetBit n.val) rb s

/-- RBI: reset bit, memory indirect (R326). -/
def execRbi (n : Fin 16) (rx : Reg) (a : Word) (s : State) : Result :=
  let p := s.indirectAddress rx a
  (p.run.modify p.val (resetBit n.val)).next 2

/-- TB: test bit, memory direct (R327). -/
def execTb (n : Fin 16) (rx : Reg) (a : Word) (s : State) : Result :=
  testInto n.val (s.direct1 rx a) 2

/-- TBR: test bit, register (R328). -/
def execTbr (n : Fin 16) (rb : Reg) (s : State) : Result :=
  testInto n.val (s.given (s.reg rb)) 1

/-- TBI: test bit, memory indirect (R329). -/
def execTbi (n : Fin 16) (rx : Reg) (a : Word) (s : State) : Result :=
  testInto n.val (s.indirect1 rx a) 2

/-- TSB: test and set bit: CS is from the bit as it was, the write is always made (D16), the bus is locked meanwhile (R330).
DESIGN CHOICE: CS is set before the write, as the operation of R330 has it, so that a write that draws MEM PRT ER leaves it
set; R720 (7) has results after all cycles (log 57). -/
def execTsb (n : Fin 16) (rx : Reg) (a : Word) (s : State) : Result :=
  let w := s.direct1 rx a
  ((w.run.setCs (testBits n.val w.val)).write (s.directAddress rx a) (setBit n.val w.val)).next 2

/-- SVBR: set variable bit (R331). -/
def execSvbr (ra rb : Reg) (s : State) : Result :=
  modifyReg (setBit (s.variableBit ra)) rb s

/-- RVBR: reset variable bit (R332). -/
def execRvbr (ra rb : Reg) (s : State) : Result :=
  modifyReg (resetBit (s.variableBit ra)) rb s

/-- TVBR: test variable bit (R333). -/
def execTvbr (ra rb : Reg) (s : State) : Result :=
  testInto (s.variableBit ra) (s.given (s.reg rb)) 1

end Sys2Proof.Machine
end

