-- ==== Sys2Proof/Machine/Control.lean ====
section
/-! DEFINITION. Program control: jumps, branches, executive call, status load, stack linkage, breakpoint, built-in function
(46_control.md). -/

namespace Sys2Proof.Machine

/-! ## Shared operations -/

/-- The condition field matches CS (R461). -/
def conditionHolds (c cs : BitVec 4) : Bool := c = 7 || c = 0xF || c &&& cs != 0

/-- An IC-relative branch taken where `c` holds (R466). -/
def branchIf (c : Bool) (d : Byte) (s : State) : Result :=
  if c then s.start.jump 1 (s.relativeAddress d) else s.start.next 1

/-- P, Z and N of CS, bits 1 to 3 of SW (10_state.md R26). -/
def State.flagP (s : State) : Bool := bitOf s.sw 1

/-- Z, bit 2 of SW. -/
def State.flagZ (s : State) : Bool := bitOf s.sw 2

/-- N, bit 3 of SW. -/
def State.flagN (s : State) : Bool := bitOf s.sw 3

/-- Load MK, SW and IC from the three words at an address, privileged (R475). -/
def loadStatusFrom (p : Got Word) : Result :=
  let w := p.run.read3 p.val
  w.run.loadStatus (word0 w.val) (word1 w.val) (word2 w.val)

/-- The I/O address of coprocessor `cp` (R490). -/
def coprocessorPort (cp : Fin 4) : Word := 0x0800 + 0x0100 * BitVec.ofNat 16 cp.val

/-- The two I/O writes that hand a command to coprocessor `cp`, a turn of the others between them (R490). -/
def handOver (cp : Fin 4) (command data : Word) (r : Run) : Result :=
  ((r.ioWrite (coprocessorPort cp) command).turn.ioWrite (coprocessorPort cp + 1) data).next 3

/-! ## Instructions -/

/-- JC: jump on condition, memory direct (R462). -/
def execJc (c : BitVec 4) (rx : Reg) (a : Word) (s : State) : Result :=
  if conditionHolds c (csField s.sw) then s.start.jump 2 (s.directAddress rx a) else s.start.next 2

/-- JCI: jump on condition, memory indirect; the pointer is read only when the jump is taken (D22) (R464). -/
def execJci (c : BitVec 4) (rx : Reg) (a : Word) (s : State) : Result :=
  if conditionHolds c (csField s.sw) then
    let p := s.pointer rx a
    p.run.jump 2 p.val
  else s.start.next 2

/-- JS: jump to subroutine (R463). -/
def execJs (ra rx : Reg) (a : Word) (s : State) : Result :=
  (s.start.setReg ra (s.ic + 2)).jump 2 (s.directAddress rx a)

/-- SOJ: subtract one and jump (R465). -/
def execSoj (ra rx : Reg) (a : Word) (s : State) : Result :=
  let v := s.reg ra - 1
  let r := (s.start.setReg ra v).setCs (pzn v)
  if v = 0 then r.next 2 else r.jump 2 (s.directAddress rx a)

/-- BR: branch (R467). -/
def execBr (d : Byte) (s : State) : Result :=
  branchIf true d s

/-- BEZ: branch if zero (R468). -/
def execBez (d : Byte) (s : State) : Result :=
  branchIf s.flagZ d s

/-- BLT: branch if less (R469). -/
def execBlt (d : Byte) (s : State) : Result :=
  branchIf s.flagN d s

/-- BEX: branch to executive: the interrupt sequence of level 5 with new-IC entry N, whatever MK and INTEN are (R685, D23) (R474). -/
def execBex (n : Fin 16) (s : State) : Result :=
  ({ s.pend 5 with ic := s.ic + 1 }.interrupt 5 (BitVec.ofNat 16 n.val)).result

/-- BLE: branch if less or equal (R470). -/
def execBle (d : Byte) (s : State) : Result :=
  branchIf (s.flagZ || s.flagN) d s

/-- BGT: branch if greater (R471). -/
def execBgt (d : Byte) (s : State) : Result :=
  branchIf s.flagP d s

/-- BNZ: branch if not zero (R472). -/
def execBnz (d : Byte) (s : State) : Result :=
  branchIf (s.flagP || s.flagN) d s

/-- BGE: branch if greater or equal (R473). -/
def execBge (d : Byte) (s : State) : Result :=
  branchIf (s.flagP || s.flagZ) d s

/-- LST: load status, memory direct, privileged (R475). -/
def execLst (rx : Reg) (a : Word) (s : State) : Result :=
  if s.privileged then loadStatusFrom (s.given (s.directAddress rx a)) else .next s.privilegeViolation

/-- LSTI: load status, memory indirect, privileged (R476). -/
def execLsti (rx : Reg) (a : Word) (s : State) : Result :=
  if s.privileged then loadStatusFrom (s.indirectAddress rx a) else .next s.privilegeViolation

/-- SJS: stack IC and jump to subroutine (R477). -/
def execSjs (ra rx : Reg) (a : Word) (s : State) : Result :=
  let sp := s.reg ra - 1
  ((s.start.setReg ra sp).write sp (s.ic + 2)).jump 2 (s.directAddress rx a)

/-- URS: unstack IC and return (R478). -/
def execUrs (ra : Reg) (s : State) : Result :=
  let t := s.start.read (s.reg ra)
  (t.run.setReg ra (s.reg ra + 1)).jump 1 t.val

/-- NOP: no operation (R479). -/
def execNop (s : State) : Result :=
  s.start.next 1

/-- BPT: breakpoint: SCR is read again, console mode is entered where a console is present (R488). -/
def execBpt (s : State) : Result :=
  let c := s.start.ioRead 0x8410
  let r := c.run.update fun s =>
    { s with scr := c.val, consoleMode := bitOf c.val 2, depositLocked := false }
  r.next 1

/-- BIF: built-in function, immediate command; illegal without a coprocessor and in the two-word form (R490,
60_exceptions.md R667). -/
def execBif (three : Bool) (cp : Fin 4) (rx : Reg) (a1 a2 : Word) (s : State) : Result :=
  if three && bitOf s.scr 3 then handOver cp (s.indexed a1 rx) a2 s.start
  else .next (s.illegalInstruction (if three then 3 else 2))

/-- BIFI: built-in function, command from memory; illegal as BIF is (R491, 60_exceptions.md R667). -/
def execBifi (three : Bool) (cp : Fin 4) (rx : Reg) (a1 a2 : Word) (s : State) : Result :=
  if three && bitOf s.scr 3 then
    let command := s.start.read (s.indexed a1 rx)
    handOver cp command.val a2 command.run.turn
  else .next (s.illegalInstruction (if three then 3 else 2))

end Sys2Proof.Machine
end

