-- ==== Sys2Proof/Machine/FloatOps.lean ====
section
/-! DEFINITION. The floating-point functions of 41_float.md R260 to R268, on exact integers: a mantissa of `w` bits (24 or
40) read as a signed integer, and an exponent that may leave the eight bits it will be stored in. Bits shifted out
are lost (log 25). -/

namespace Sys2Proof.Machine

/-- A mantissa and an exponent: the value is `m * 2^(e - (w - 1))` (R260, R261). -/
structure FloatNum where
  m : Int
  e : Int
deriving DecidableEq, Repr

/-- A result and the exceptions it raises (R264). -/
structure FloatResult where
  m : Int
  e : Int
  /-- Interrupt(3). -/
  overflow : Bool
  /-- Interrupt(6). -/
  underflow : Bool
deriving DecidableEq, Repr

/-! ## Formats -/

/-- `unpackF` (R263). -/
def unpackF (v : Long) : FloatNum := { m := (v.extractLsb' 8 24).toInt, e := (v.extractLsb' 0 8).toInt }

/-- `packF` (R263). -/
def packF (m e : Int) : Long := BitVec.ofInt 24 m ++ BitVec.ofInt 8 e

/-- `unpackX` (R263): mantissa bits 24 to 39 stand in the third word. -/
def unpackX (v : Triple) : FloatNum :=
  { m := (v.extractLsb' 24 24 ++ v.extractLsb' 0 16).toInt, e := (v.extractLsb' 16 8).toInt }

/-- `packX` (R263). -/
def packX (m e : Int) : Triple :=
  (BitVec.ofInt 40 m).extractLsb' 16 24 ++ BitVec.ofInt 8 e ++ (BitVec.ofInt 40 m).extractLsb' 0 16

/-- Mantissa bits 0 and 1 differ (R262). -/
def normalized (w : Nat) (m : Int) : Bool := decide (2 ^ (w - 2) ≤ m) || decide (m < -2 ^ (w - 2))

/-- A normalized number or floating-point zero (R262). -/
def FloatNum.valid (w : Nat) (x : FloatNum) : Bool := (x.m = 0 && x.e = 0) || normalized w x.m

/-! ## Results -/

/-- Shift left until bits 0 and 1 differ; `fuel` is the width (R262). -/
def normalizeSteps (w : Nat) : Nat → Int → Int → FloatNum
  | 0, m, e => { m := m, e := e }
  | fuel + 1, m, e => if normalized w m then { m := m, e := e } else normalizeSteps w fuel (2 * m) (e - 1)

/-- `normalize_W`; a zero mantissa gives the all-zero number (R262, D15). -/
def normalize (w : Nat) (m e : Int) : FloatNum := if m = 0 then { m := 0, e := 0 } else normalizeSteps w w m e

/-- The overflow result of a sign: the largest absolute value (R264). -/
def overflowed (w : Nat) (positive : Bool) : FloatResult :=
  { m := if positive then 2 ^ (w - 1) - 1 else -2 ^ (w - 1), e := 127, overflow := true, underflow := false }

/-- The underflow result: zero (R264). -/
def underflowed : FloatResult := { m := 0, e := 0, overflow := false, underflow := true }

/-- A result without an exception. -/
def exactly (m e : Int) : FloatResult := { m := m, e := e, overflow := false, underflow := false }

/-- A normalized number, or underflow (R264). -/
def finishNormal (x : FloatNum) : FloatResult := if x.e < -128 then underflowed else exactly x.m x.e

/-- `finish_W` (R264). -/
def finish (w : Nat) (m e : Int) : FloatResult :=
  if e > 127 then overflowed w (m ≥ 0) else finishNormal (normalize w m e)

/-! ## Arithmetic -/

/-- `x asr k`: the floor of x / 2^k (R265). -/
def asr (x : Int) (k : Nat) : Int := x / 2 ^ k

/-- The sum of two aligned mantissas; on mantissa overflow it is shifted right one position (R265). -/
def sumMantissas (w : Nat) (sum e : Int) : FloatResult :=
  if sum < -2 ^ (w - 1) || sum > 2 ^ (w - 1) - 1 then finish w (asr sum 1) (e + 1) else finish w sum e

/-- `fadd_W`; `subtract` selects the operation on the mantissas (R265, D12). -/
def fadd (w : Nat) (subtract : Bool) (a o : FloatNum) : FloatResult :=
  let n := a.e - o.e
  let op := fun x y : Int => if subtract then x - y else x + y
  if a.m = 0 then sumMantissas w (op a.m o.m) o.e
  else if n > 0 then sumMantissas w (op a.m (asr o.m n.toNat)) a.e
  else if n < 0 && o.m != 0 then sumMantissas w (op (asr a.m (-n).toNat) o.m) o.e
  else sumMantissas w (op a.m o.m) a.e

/-- `fmul_W`: the low half of the product is dropped (R266). -/
def fmul (w : Nat) (a o : FloatNum) : FloatResult :=
  let n := a.e + o.e
  if n > 127 then overflowed w (decide (a.m < 0) == decide (o.m < 0))
  else if n < -128 then underflowed
  else
    let p := 2 * (a.m * o.m)
    let mp := if p = 2 ^ (2 * w - 1) then 2 ^ (2 * w - 2) else p
    let k := if p = 2 ^ (2 * w - 1) then n + 1 else n
    if k > 127 then overflowed w (mp ≥ 0)
    else
      let x := normalize (2 * w) mp k
      finishNormal { m := asr x.m w, e := x.e }

/-- The quotient mantissa kept in `w` bits: the floor of the quotient of the fractions, halved where it is 1.0 or more
(R267, D13). -/
def quotientMantissa (w : Nat) (ma mo : Int) : Int :=
  (BitVec.ofInt w (Int.fdiv (ma * 2 ^ (w - 1)) (if ma.natAbs ≥ mo.natAbs then 2 * mo else mo))).toInt

/-- `fdiv_W` (R267). -/
def fdiv (w : Nat) (a o : FloatNum) : FloatResult :=
  let n := if a.m = 0 then 0 else a.e - o.e
  if n > 127 || o.m = 0 then overflowed w (decide (a.m < 0) == decide (o.m < 0))
  else if n < -128 then underflowed
  else
    let mq := quotientMantissa w a.m o.m
    let k := if a.m.natAbs ≥ o.m.natAbs then n + 1 else n
    if k > 127 then overflowed w (mq ≥ 0) else finishNormal (normalize w mq k)

/-- `m * 2^e` scaled by the power of two that makes both operands of a compare integers (R268, D14). -/
def scaled (x : FloatNum) : Int := x.m * 2 ^ (x.e + 128).toNat

/-- The compare of two values (R268). -/
def floatOrder (a o : FloatNum) : BitVec 4 := order (scaled a) (scaled o)

/-- The absolute value (R276). -/
def fabs (o : FloatNum) : FloatResult :=
  if o.m = -2 ^ 23 then (if o.e + 1 > 127 then overflowed 24 true else exactly (2 ^ 22) (o.e + 1))
  else if o.m < 0 then exactly (-o.m) o.e
  else exactly o.m o.e

/-- The negative (R283). -/
def fneg (o : FloatNum) : FloatResult :=
  if o.m = -2 ^ 23 && o.e = 127 then overflowed 24 true
  else if o.m = 2 ^ 22 && o.e = -128 then underflowed
  else if o.m = -2 ^ 23 then exactly (2 ^ 22) (o.e + 1)
  else if o.m = 2 ^ 22 then exactly (-2 ^ 23) (o.e - 1)
  else exactly (-o.m) o.e

/-- The integer part of `m * 2^(e - (w - 1))`, truncated toward zero (R302, R304). -/
def integerPart (w : Nat) (x : FloatNum) : Int :=
  if x.e ≥ w - 1 then x.m * 2 ^ (x.e - (w - 1)).toNat else x.m.tdiv (2 ^ ((w - 1 : Int) - x.e).toNat)

/-- An integer as a mantissa of `w` bits whose first exponent is `e` (R303, R305). -/
def floatOf (w : Nat) (v : Int) (e : Int) : FloatNum := normalize w (v * 2 ^ 8) e

/-! ## Operands whose result is open -/

/-- The operand has a stated result: it is valid, or the system's choice is the register transfer description (R262, U4,
log 24). -/
def State.acceptsFloat (s : State) (w : Nat) (x : FloatNum) : Bool := s.platform.unnormalizedByRtl || x.valid w

/-- The interrupts a floating-point instruction can raise: levels 3, 4 and 6. -/
def floatLevels : Word := 0x1A00

/-- Open CS and open interrupts, from free values number `k` and `k + 1` (U4). -/
def State.openStatus (s : State) (k : Nat) : State :=
  { (s.setCs ((Config.freeWord k).extractLsb' 0 4)) with
    pir := s.pir ||| (Config.freeWord (k + 1) &&& floatLevels) }

/-- Open result in one register (U4). -/
def State.openWord (s : State) (ra : Reg) : State :=
  ((s.setReg ra (Config.freeWord s.free)).openStatus (s.free + 1)).useFree 3

/-- Open result in two registers (U4). -/
def State.openPair (s : State) (ra : Reg) : State :=
  ((s.setPair ra (Config.freeWord s.free ++ Config.freeWord (s.free + 1))).openStatus (s.free + 2)).useFree 4

/-- Open result in three registers (U4). -/
def State.openTriple (s : State) (ra : Reg) : State :=
  ((s.setTriple ra (Config.freeWord s.free ++ Config.freeWord (s.free + 1) ++ Config.freeWord (s.free + 2))).openStatus
    (s.free + 3)).useFree 5

/-- Open CS of a compare (U4). -/
def State.openCs (s : State) : State := (s.setCs ((Config.freeWord s.free).extractLsb' 0 4)).useFree 1

/-! ## Shared operations of the instructions -/

/-- RR[ra] <- a result, with its exceptions and CS (R264). -/
def Run.putFloat (r : Run) (ra : Reg) (x : FloatResult) : Run :=
  (((r.setPair ra (packF x.m x.e)).pendIf x.overflow 3).pendIf x.underflow 6).setCs (order x.m 0)

/-- RRR[ra] <- a result, with its exceptions and CS (R264). -/
def Run.putExtended (r : Run) (ra : Reg) (x : FloatResult) : Run :=
  (((r.setTriple ra (packX x.m x.e)).pendIf x.overflow 3).pendIf x.underflow 6).setCs (order x.m 0)

/-- RR[ra] <- f RR[ra] DO (R270). -/
def float32 (f : FloatNum → FloatNum → FloatResult) (ra : Reg) (o : Got Long) (len : Word) : Result :=
  let a := unpackF (o.run.s.pair ra)
  let d := unpackF o.val
  if o.run.s.acceptsFloat 24 a && o.run.s.acceptsFloat 24 d then (o.run.putFloat ra (f a d)).next len
  else (o.run.update fun s => s.openPair ra).next len

/-- RRR[ra] <- f RRR[ra] DO (R274). -/
def float48 (f : FloatNum → FloatNum → FloatResult) (ra : Reg) (o : Got Triple) (len : Word) : Result :=
  let a := unpackX (o.run.s.triple ra)
  let d := unpackX o.val
  if o.run.s.acceptsFloat 40 a && o.run.s.acceptsFloat 40 d then (o.run.putExtended ra (f a d)).next len
  else (o.run.update fun s => s.openTriple ra).next len

/-- CS from the order of RR[ra] and DO (R296). -/
def compareFloat32 (ra : Reg) (o : Got Long) (len : Word) : Result :=
  let a := unpackF (o.run.s.pair ra)
  let d := unpackF o.val
  if o.run.s.acceptsFloat 24 a && o.run.s.acceptsFloat 24 d then (o.run.setCs (floatOrder a d)).next len
  else (o.run.update State.openCs).next len

/-- CS from the order of RRR[ra] and DO (R300). -/
def compareFloat48 (ra : Reg) (o : Got Triple) (len : Word) : Result :=
  let a := unpackX (o.run.s.triple ra)
  let d := unpackX o.val
  if o.run.s.acceptsFloat 40 a && o.run.s.acceptsFloat 40 d then (o.run.setCs (floatOrder a d)).next len
  else (o.run.update State.openCs).next len

/-- RR[ra] <- f RR[rb]: FABS, FNEG. -/
def floatUnary (f : FloatNum → FloatResult) (ra rb : Reg) (s : State) : Result :=
  let d := unpackF (s.pair rb)
  if s.acceptsFloat 24 d then (s.start.putFloat ra (f d)).next 1
  else (s.start.update fun s => s.openPair ra).next 1

end Sys2Proof.Machine
end

