-- ==== Sys2Proof/Machine/Float.lean ====
section
/-! DEFINITION. Floating-point instructions (41_float.md), each one line over the shared operations of
`Sys2Proof/Machine/FloatOps.lean`. -/

namespace Sys2Proof.Machine

/-- FA: floating add, memory direct (R270). -/
def execFa (ra rx : Reg) (a : Word) (s : State) : Result :=
  float32 (fadd 24 false) ra (s.direct2 rx a) 2

/-- FAR: floating add, register (R271). -/
def execFar (ra rb : Reg) (s : State) : Result :=
  float32 (fadd 24 false) ra (s.given (s.pair rb)) 1

/-- FAB: floating add, base relative (R272). -/
def execFab (br : Reg) (du : Byte) (s : State) : Result :=
  float32 (fadd 24 false) 0 (s.base2 br du) 1

/-- FABX: floating add, base relative indexed (R273). -/
def execFabx (br rx : Reg) (s : State) : Result :=
  float32 (fadd 24 false) 0 (s.baseIndexed2 br rx) 1

/-- EFA: floating add, extended, memory direct (R274). -/
def execEfa (ra rx : Reg) (a : Word) (s : State) : Result :=
  float48 (fadd 40 false) ra (s.direct3 rx a) 2

/-- EFAR: floating add, extended, register (R275). -/
def execEfar (ra rb : Reg) (s : State) : Result :=
  float48 (fadd 40 false) ra (s.given (s.triple rb)) 1

/-- FABS: floating absolute value (R276). -/
def execFabs (ra rb : Reg) (s : State) : Result :=
  floatUnary fabs ra rb s

/-- FS: floating subtract, memory direct (R277). -/
def execFs (ra rx : Reg) (a : Word) (s : State) : Result :=
  float32 (fadd 24 true) ra (s.direct2 rx a) 2

/-- FSR: floating subtract, register (R278). -/
def execFsr (ra rb : Reg) (s : State) : Result :=
  float32 (fadd 24 true) ra (s.given (s.pair rb)) 1

/-- FSB: floating subtract, base relative (R279). -/
def execFsb (br : Reg) (du : Byte) (s : State) : Result :=
  float32 (fadd 24 true) 0 (s.base2 br du) 1

/-- FSBX: floating subtract, base relative indexed (R280). -/
def execFsbx (br rx : Reg) (s : State) : Result :=
  float32 (fadd 24 true) 0 (s.baseIndexed2 br rx) 1

/-- EFS: floating subtract, extended, memory direct (R281). -/
def execEfs (ra rx : Reg) (a : Word) (s : State) : Result :=
  float48 (fadd 40 true) ra (s.direct3 rx a) 2

/-- EFSR: floating subtract, extended, register (R282). -/
def execEfsr (ra rb : Reg) (s : State) : Result :=
  float48 (fadd 40 true) ra (s.given (s.triple rb)) 1

/-- FNEG: floating negate (R283). -/
def execFneg (ra rb : Reg) (s : State) : Result :=
  floatUnary fneg ra rb s

/-- FM: floating multiply, memory direct (R284). -/
def execFm (ra rx : Reg) (a : Word) (s : State) : Result :=
  float32 (fmul 24) ra (s.direct2 rx a) 2

/-- FMR: floating multiply, register (R285). -/
def execFmr (ra rb : Reg) (s : State) : Result :=
  float32 (fmul 24) ra (s.given (s.pair rb)) 1

/-- FMB: floating multiply, base relative (R286). -/
def execFmb (br : Reg) (du : Byte) (s : State) : Result :=
  float32 (fmul 24) 0 (s.base2 br du) 1

/-- FMBX: floating multiply, base relative indexed (R287). -/
def execFmbx (br rx : Reg) (s : State) : Result :=
  float32 (fmul 24) 0 (s.baseIndexed2 br rx) 1

/-- EFM: floating multiply, extended, memory direct (R288). -/
def execEfm (ra rx : Reg) (a : Word) (s : State) : Result :=
  float48 (fmul 40) ra (s.direct3 rx a) 2

/-- EFMR: floating multiply, extended, register (R289). -/
def execEfmr (ra rb : Reg) (s : State) : Result :=
  float48 (fmul 40) ra (s.given (s.triple rb)) 1

/-- FD: floating divide, memory direct (R290). -/
def execFd (ra rx : Reg) (a : Word) (s : State) : Result :=
  float32 (fdiv 24) ra (s.direct2 rx a) 2

/-- FDR: floating divide, register (R291). -/
def execFdr (ra rb : Reg) (s : State) : Result :=
  float32 (fdiv 24) ra (s.given (s.pair rb)) 1

/-- FDB: floating divide, base relative (R292). -/
def execFdb (br : Reg) (du : Byte) (s : State) : Result :=
  float32 (fdiv 24) 0 (s.base2 br du) 1

/-- FDBX: floating divide, base relative indexed (R293). -/
def execFdbx (br rx : Reg) (s : State) : Result :=
  float32 (fdiv 24) 0 (s.baseIndexed2 br rx) 1

/-- EFD: floating divide, extended, memory direct (R294). -/
def execEfd (ra rx : Reg) (a : Word) (s : State) : Result :=
  float48 (fdiv 40) ra (s.direct3 rx a) 2

/-- EFDR: floating divide, extended, register (R295). -/
def execEfdr (ra rb : Reg) (s : State) : Result :=
  float48 (fdiv 40) ra (s.given (s.triple rb)) 1

/-- FC: floating compare, memory direct (R296). -/
def execFc (ra rx : Reg) (a : Word) (s : State) : Result :=
  compareFloat32 ra (s.direct2 rx a) 2

/-- FCR: floating compare, register (R297). -/
def execFcr (ra rb : Reg) (s : State) : Result :=
  compareFloat32 ra (s.given (s.pair rb)) 1

/-- FCB: floating compare, base relative (R298). -/
def execFcb (br : Reg) (du : Byte) (s : State) : Result :=
  compareFloat32 0 (s.base2 br du) 1

/-- FCBX: floating compare, base relative indexed (R299). -/
def execFcbx (br rx : Reg) (s : State) : Result :=
  compareFloat32 0 (s.baseIndexed2 br rx) 1

/-- EFC: floating compare, extended, memory direct (R300). -/
def execEfc (ra rx : Reg) (a : Word) (s : State) : Result :=
  compareFloat48 ra (s.direct3 rx a) 2

/-- EFCR: floating compare, extended, register (R301). -/
def execEfcr (ra rb : Reg) (s : State) : Result :=
  compareFloat48 ra (s.given (s.triple rb)) 1

/-- FIX: convert to a 16-bit integer; above exponent 0F the register stays, with fixed-point overflow (R302). -/
def execFix (ra rb : Reg) (s : State) : Result :=
  let d := unpackF (s.pair rb)
  if !s.acceptsFloat 24 d then (s.start.update fun s => s.openWord ra).next 1
  else if d.e > 15 then ((s.start.pendIf true 4).setCs (pzn (s.reg ra))).next 1
  else
    let v : Word := BitVec.ofInt 16 (integerPart 24 d)
    ((s.start.setReg ra v).setCs (pzn v)).next 1

/-- FLT: convert from a 16-bit integer (R303). -/
def execFlt (ra rb : Reg) (s : State) : Result :=
  let x := floatOf 24 (s.reg rb).toInt 15
  (s.start.putFloat ra (exactly x.m x.e)).next 1

/-- EFIX: convert to a 32-bit integer (R304). -/
def execEfix (ra rb : Reg) (s : State) : Result :=
  let d := unpackX (s.triple rb)
  if !s.acceptsFloat 40 d then (s.start.update fun s => s.openPair ra).next 1
  else if d.e > 31 then ((s.start.pendIf true 4).setCs (pzn (s.pair ra))).next 1
  else
    let v : Long := BitVec.ofInt 32 (integerPart 40 d)
    ((s.start.setPair ra v).setCs (pzn v)).next 1

/-- EFLT: convert from a 32-bit integer (R305). -/
def execEflt (ra rb : Reg) (s : State) : Result :=
  let x := floatOf 40 (s.pair rb).toInt 31
  (s.start.putExtended ra (exactly x.m x.e)).next 1

end Sys2Proof.Machine
end

