-- ==== Sys2Proof/Machine/Integer.lean ====
section
/-! DEFINITION. Integer arithmetic, logic and compares (40_integer.md). The shared operations take the accumulator, the
operand with what its cycles did, and the length of the instruction. -/

namespace Sys2Proof.Machine

/-! ## Shared operations -/

/-- R[ra] <- R[ra] + DO with carry and overflow (40_integer.md R171, R172, R176). -/
def add16 (ra : Reg) (o : Got Word) (len : Word) : Result :=
  let t := addC (o.run.s.reg ra) o.val
  (((o.run.setReg ra t.r).pendIf t.v 4).setCs (cpzn t.c t.r)).next len

/-- RR[ra] <- RR[ra] + DO (R182). -/
def add32 (ra : Reg) (o : Got Long) (len : Word) : Result :=
  let t := addC (o.run.s.pair ra) o.val
  (((o.run.setPair ra t.r).pendIf t.v 4).setCs (cpzn t.c t.r)).next len

/-- R[ra] <- R[ra] - DO (R184). -/
def sub16 (ra : Reg) (o : Got Word) (len : Word) : Result :=
  let t := subC (o.run.s.reg ra) o.val
  (((o.run.setReg ra t.r).pendIf t.v 4).setCs (cpzn t.c t.r)).next len

/-- RR[ra] <- RR[ra] - DO (R190). -/
def sub32 (ra : Reg) (o : Got Long) (len : Word) : Result :=
  let t := subC (o.run.s.pair ra) o.val
  (((o.run.setPair ra t.r).pendIf t.v 4).setCs (cpzn t.c t.r)).next len

/-- R[ra] <- the low half of R[ra] * DO, with overflow (R173, R194). -/
def mulShort (ra : Reg) (o : Got Word) (len : Word) : Result :=
  let p := product16 (o.run.s.reg ra) o.val
  let v := productOverflow (o.run.s.reg ra) o.val (highWord p) (lowWord p)
  (((o.run.setReg ra (lowWord p)).pendIf v 4).setCs (pzn (lowWord p))).next len

/-- RR[ra] <- R[ra] * DO, exact (R199). -/
def mul16 (ra : Reg) (o : Got Word) (len : Word) : Result :=
  let p := product16 (o.run.s.reg ra) o.val
  ((o.run.setPair ra p).setCs (pzn p)).next len

/-- RR[ra] <- the low half of RR[ra] * DO, with overflow (R173, R204). -/
def mul32 (ra : Reg) (o : Got Long) (len : Word) : Result :=
  let p := product32 (o.run.s.pair ra) o.val
  let hi : Long := p.extractLsb' 32 32
  let lo : Long := p.extractLsb' 0 32
  (((o.run.setPair ra lo).pendIf (productOverflow (o.run.s.pair ra) o.val hi lo) 4).setCs (pzn lo)).next len

/-- R[ra] <- quotient, R[ra+1] <- remainder of the dividend `n` by DO (R174, R206, R211). -/
def divInto (ra : Reg) (n : Int) (o : Got Word) (len : Word) : Result :=
  let t := divide 16 n o.val.toInt
  let q : Word := BitVec.ofInt 16 t.q
  (((o.run.setPair ra (q ++ BitVec.ofInt 16 t.rem)).pendIf t.overflow 4).setCs (pzn q)).next len

/-- The divide with a 16-bit dividend (R206). -/
def divShort (ra : Reg) (o : Got Word) (len : Word) : Result := divInto ra (o.run.s.reg ra).toInt o len

/-- The divide with a 32-bit dividend (R211). -/
def div16 (ra : Reg) (o : Got Word) (len : Word) : Result := divInto ra (o.run.s.pair ra).toInt o len

/-- RR[ra] <- RR[ra] / DO; the remainder is lost (R216). -/
def div32 (ra : Reg) (o : Got Long) (len : Word) : Result :=
  let t := divide 32 (o.run.s.pair ra).toInt o.val.toInt
  let q : Long := BitVec.ofInt 32 t.q
  (((o.run.setPair ra q).pendIf t.overflow 4).setCs (pzn q)).next len

/-- R[ra] <- v, CS from v, fixed-point overflow where `o` holds (R192, R220). -/
def put16 (ra : Reg) (v : Word) (overflow : Bool) (r : Run) (len : Word) : Result :=
  (((r.setReg ra v).pendIf overflow 4).setCs (pzn v)).next len

/-- RR[ra] <- v, CS from v, fixed-point overflow where `o` holds (R193, R221). -/
def put32 (ra : Reg) (v : Long) (overflow : Bool) (r : Run) (len : Word) : Result :=
  (((r.setPair ra v).pendIf overflow 4).setCs (pzn v)).next len

/-- R[ra] <- f R[ra] DO, a logical operation (R222). -/
def logic16 (f : Word → Word → Word) (ra : Reg) (o : Got Word) (len : Word) : Result :=
  put16 ra (f (o.run.s.reg ra) o.val) false o.run len

/-- Not (x and y) (R235). -/
def nand (x y : Word) : Word := ~~~(x &&& y)

/-- CS from the signed order of R[ra] and DO (R238). -/
def compare16 (ra : Reg) (o : Got Word) (len : Word) : Result :=
  (o.run.setCs (order (o.run.s.reg ra).toInt o.val.toInt)).next len

/-- CS from the signed order of RR[ra] and DO (R245). -/
def compare32 (ra : Reg) (o : Got Long) (len : Word) : Result :=
  (o.run.setCs (order (o.run.s.pair ra).toInt o.val.toInt)).next len

/-- The word at `da` is replaced by the sum `f` makes of it: INCM, DECM (R218). -/
def updateMemory (f : Word → Sum 16) (da : Word) (s : State) : Result :=
  let m := s.start.read da
  let t := f m.val
  (((m.run.write da t.r).pendIf t.v 4).setCs (cpzn t.c t.r)).next 2

/-- The CS of a compare between limits (R247). -/
def between (x lo hi : Int) : BitVec 4 :=
  if lo > hi then 0b1000 else if x < lo then 0b0001 else if x > hi then 0b0100 else 0b0010

/-! ## Instructions -/

/-- A: add, memory direct (R176). -/
def execA (ra rx : Reg) (a : Word) (s : State) : Result :=
  add16 ra (s.direct1 rx a) 2

/-- AR: add, register (R177). -/
def execAr (ra rb : Reg) (s : State) : Result :=
  add16 ra (s.given (s.reg rb)) 1

/-- AB: add, base relative (R178). -/
def execAb (br : Reg) (du : Byte) (s : State) : Result :=
  add16 2 (s.base1 br du) 1

/-- ABX: add, base relative indexed (R179). -/
def execAbx (br rx : Reg) (s : State) : Result :=
  add16 2 (s.baseIndexed1 br rx) 1

/-- AISP: add, immediate short positive (R180). -/
def execAisp (ra : Reg) (n : Nat) (s : State) : Result :=
  add16 ra (s.given (shortPositive n)) 1

/-- AIM: add, immediate long (R181). -/
def execAim (ra : Reg) (data : Word) (s : State) : Result :=
  add16 ra (s.given data) 2

/-- DA: double add, memory direct (R182). -/
def execDa (ra rx : Reg) (a : Word) (s : State) : Result :=
  add32 ra (s.direct2 rx a) 2

/-- DAR: double add, register (R183). -/
def execDar (ra rb : Reg) (s : State) : Result :=
  add32 ra (s.given (s.pair rb)) 1

/-- S: subtract, memory direct (R184). -/
def execS (ra rx : Reg) (a : Word) (s : State) : Result :=
  sub16 ra (s.direct1 rx a) 2

/-- SR: subtract, register (R185). -/
def execSr (ra rb : Reg) (s : State) : Result :=
  sub16 ra (s.given (s.reg rb)) 1

/-- SBB: subtract, base relative (R186). -/
def execSbb (br : Reg) (du : Byte) (s : State) : Result :=
  sub16 2 (s.base1 br du) 1

/-- SBBX: subtract, base relative indexed (R187). -/
def execSbbx (br rx : Reg) (s : State) : Result :=
  sub16 2 (s.baseIndexed1 br rx) 1

/-- SISP: subtract, immediate short positive (R188). -/
def execSisp (ra : Reg) (n : Nat) (s : State) : Result :=
  sub16 ra (s.given (shortPositive n)) 1

/-- SIM: subtract, immediate long (R189). -/
def execSim (ra : Reg) (data : Word) (s : State) : Result :=
  sub16 ra (s.given data) 2

/-- DS: double subtract, memory direct (R190). -/
def execDs (ra rx : Reg) (a : Word) (s : State) : Result :=
  sub32 ra (s.direct2 rx a) 2

/-- DSR: double subtract, register (R191). -/
def execDsr (ra rb : Reg) (s : State) : Result :=
  sub32 ra (s.given (s.pair rb)) 1

/-- NEG: negate (R192). -/
def execNeg (ra rb : Reg) (s : State) : Result :=
  put16 ra (-s.reg rb) (s.reg rb = 0x8000) s.start 1

/-- DNEG: double negate (R193). -/
def execDneg (ra rb : Reg) (s : State) : Result :=
  put32 ra (-s.pair rb) (s.pair rb = 0x80000000) s.start 1

/-- MS: multiply, 16-bit product, memory direct (R194). -/
def execMs (ra rx : Reg) (a : Word) (s : State) : Result :=
  mulShort ra (s.direct1 rx a) 2

/-- MSR: multiply, 16-bit product, register (R195). -/
def execMsr (ra rb : Reg) (s : State) : Result :=
  mulShort ra (s.given (s.reg rb)) 1

/-- MISP: multiply, 16-bit product, immediate short positive (R196). -/
def execMisp (ra : Reg) (n : Nat) (s : State) : Result :=
  mulShort ra (s.given (shortPositive n)) 1

/-- MISN: multiply, 16-bit product, immediate short negative (R197). -/
def execMisn (ra : Reg) (n : Nat) (s : State) : Result :=
  mulShort ra (s.given (shortNegative n)) 1

/-- MSIM: multiply, 16-bit product, immediate long (R198). -/
def execMsim (ra : Reg) (data : Word) (s : State) : Result :=
  mulShort ra (s.given data) 2

/-- M: multiply, 32-bit product, memory direct (R199). -/
def execM (ra rx : Reg) (a : Word) (s : State) : Result :=
  mul16 ra (s.direct1 rx a) 2

/-- MR: multiply, 32-bit product, register (R200). -/
def execMr (ra rb : Reg) (s : State) : Result :=
  mul16 ra (s.given (s.reg rb)) 1

/-- MB: multiply, 32-bit product, base relative (R201). -/
def execMb (br : Reg) (du : Byte) (s : State) : Result :=
  mul16 2 (s.base1 br du) 1

/-- MBX: multiply, 32-bit product, base relative indexed (R202). -/
def execMbx (br rx : Reg) (s : State) : Result :=
  mul16 2 (s.baseIndexed1 br rx) 1

/-- MIM: multiply, 32-bit product, immediate long (R203). -/
def execMim (ra : Reg) (data : Word) (s : State) : Result :=
  mul16 ra (s.given data) 2

/-- DM: double multiply, memory direct (R204). -/
def execDm (ra rx : Reg) (a : Word) (s : State) : Result :=
  mul32 ra (s.direct2 rx a) 2

/-- DMR: double multiply, register (R205). -/
def execDmr (ra rb : Reg) (s : State) : Result :=
  mul32 ra (s.given (s.pair rb)) 1

/-- DV: divide, 16-bit dividend, memory direct (R206). -/
def execDv (ra rx : Reg) (a : Word) (s : State) : Result :=
  divShort ra (s.direct1 rx a) 2

/-- DVR: divide, 16-bit dividend, register (R207). -/
def execDvr (ra rb : Reg) (s : State) : Result :=
  divShort ra (s.given (s.reg rb)) 1

/-- DISP: divide, 16-bit dividend, immediate short positive (R208). -/
def execDisp (ra : Reg) (n : Nat) (s : State) : Result :=
  divShort ra (s.given (shortPositive n)) 1

/-- DISN: divide, 16-bit dividend, immediate short negative (R209). -/
def execDisn (ra : Reg) (n : Nat) (s : State) : Result :=
  divShort ra (s.given (shortNegative n)) 1

/-- DVIM: divide, 16-bit dividend, immediate long (R210). -/
def execDvim (ra : Reg) (data : Word) (s : State) : Result :=
  divShort ra (s.given data) 2

/-- D: divide, 32-bit dividend, memory direct (R211). -/
def execD (ra rx : Reg) (a : Word) (s : State) : Result :=
  div16 ra (s.direct1 rx a) 2

/-- DR: divide, 32-bit dividend, register (R212). -/
def execDr (ra rb : Reg) (s : State) : Result :=
  div16 ra (s.given (s.reg rb)) 1

/-- DB: divide, 32-bit dividend, base relative (R213). -/
def execDb (br : Reg) (du : Byte) (s : State) : Result :=
  div16 2 (s.base1 br du) 1

/-- DBX: divide, 32-bit dividend, base relative indexed (R214). -/
def execDbx (br rx : Reg) (s : State) : Result :=
  div16 2 (s.baseIndexed1 br rx) 1

/-- DIM: divide, 32-bit dividend, immediate long (R215). -/
def execDim (ra : Reg) (data : Word) (s : State) : Result :=
  div16 ra (s.given data) 2

/-- DD: double divide, memory direct (R216). -/
def execDd (ra rx : Reg) (a : Word) (s : State) : Result :=
  div32 ra (s.direct2 rx a) 2

/-- DDR: double divide, register (R217). -/
def execDdr (ra rb : Reg) (s : State) : Result :=
  div32 ra (s.given (s.pair rb)) 1

/-- INCM: increment memory by N (R218). -/
def execIncm (n : Nat) (rx : Reg) (a : Word) (s : State) : Result :=
  updateMemory (fun m => addC m (BitVec.ofNat 16 n)) (s.directAddress rx a) s

/-- DECM: decrement memory by N (R219). -/
def execDecm (n : Nat) (rx : Reg) (a : Word) (s : State) : Result :=
  updateMemory (fun m => subC m (BitVec.ofNat 16 n)) (s.directAddress rx a) s

/-- ABS: absolute value (R220). -/
def execAbs (ra rb : Reg) (s : State) : Result :=
  put16 ra (if (s.reg rb).msb then -s.reg rb else s.reg rb) (s.reg rb = 0x8000) s.start 1

/-- DABS: double absolute value (R221). -/
def execDabs (ra rb : Reg) (s : State) : Result :=
  put32 ra (if (s.pair rb).msb then -s.pair rb else s.pair rb) (s.pair rb = 0x80000000) s.start 1

/-- OR: inclusive or, memory direct (R222). -/
def execOr (ra rx : Reg) (a : Word) (s : State) : Result :=
  logic16 (· ||| ·) ra (s.direct1 rx a) 2

/-- ORR: inclusive or, register (R223). -/
def execOrr (ra rb : Reg) (s : State) : Result :=
  logic16 (· ||| ·) ra (s.given (s.reg rb)) 1

/-- ORB: inclusive or, base relative (R224). -/
def execOrb (br : Reg) (du : Byte) (s : State) : Result :=
  logic16 (· ||| ·) 2 (s.base1 br du) 1

/-- ORBX: inclusive or, base relative indexed (R225). -/
def execOrbx (br rx : Reg) (s : State) : Result :=
  logic16 (· ||| ·) 2 (s.baseIndexed1 br rx) 1

/-- ORIM: inclusive or, immediate long (R226). -/
def execOrim (ra : Reg) (data : Word) (s : State) : Result :=
  logic16 (· ||| ·) ra (s.given data) 2

/-- AND: and, memory direct (R227). -/
def execAnd (ra rx : Reg) (a : Word) (s : State) : Result :=
  logic16 (· &&& ·) ra (s.direct1 rx a) 2

/-- ANDR: and, register (R228). -/
def execAndr (ra rb : Reg) (s : State) : Result :=
  logic16 (· &&& ·) ra (s.given (s.reg rb)) 1

/-- ANDB: and, base relative (R229). -/
def execAndb (br : Reg) (du : Byte) (s : State) : Result :=
  logic16 (· &&& ·) 2 (s.base1 br du) 1

/-- ANDX: and, base relative indexed (R230). -/
def execAndx (br rx : Reg) (s : State) : Result :=
  logic16 (· &&& ·) 2 (s.baseIndexed1 br rx) 1

/-- ANDM: and, immediate long (R231). -/
def execAndm (ra : Reg) (data : Word) (s : State) : Result :=
  logic16 (· &&& ·) ra (s.given data) 2

/-- XOR: exclusive or, memory direct (R232). -/
def execXor (ra rx : Reg) (a : Word) (s : State) : Result :=
  logic16 (· ^^^ ·) ra (s.direct1 rx a) 2

/-- XORR: exclusive or, register (R233). -/
def execXorr (ra rb : Reg) (s : State) : Result :=
  logic16 (· ^^^ ·) ra (s.given (s.reg rb)) 1

/-- XORM: exclusive or, immediate long (R234). -/
def execXorm (ra : Reg) (data : Word) (s : State) : Result :=
  logic16 (· ^^^ ·) ra (s.given data) 2

/-- N: not and, memory direct (R235). -/
def execN (ra rx : Reg) (a : Word) (s : State) : Result :=
  logic16 nand ra (s.direct1 rx a) 2

/-- NR: not and, register (R236). -/
def execNr (ra rb : Reg) (s : State) : Result :=
  logic16 nand ra (s.given (s.reg rb)) 1

/-- NIM: not and, immediate long (R237). -/
def execNim (ra : Reg) (data : Word) (s : State) : Result :=
  logic16 nand ra (s.given data) 2

/-- C: compare, memory direct (R238). -/
def execC (ra rx : Reg) (a : Word) (s : State) : Result :=
  compare16 ra (s.direct1 rx a) 2

/-- CR: compare, register (R239). -/
def execCr (ra rb : Reg) (s : State) : Result :=
  compare16 ra (s.given (s.reg rb)) 1

/-- CB: compare, base relative (R240). -/
def execCb (br : Reg) (du : Byte) (s : State) : Result :=
  compare16 2 (s.base1 br du) 1

/-- CBX: compare, base relative indexed (R241). -/
def execCbx (br rx : Reg) (s : State) : Result :=
  compare16 2 (s.baseIndexed1 br rx) 1

/-- CISP: compare, immediate short positive (R242). -/
def execCisp (ra : Reg) (n : Nat) (s : State) : Result :=
  compare16 ra (s.given (shortPositive n)) 1

/-- CISN: compare, immediate short negative (R243). -/
def execCisn (ra : Reg) (n : Nat) (s : State) : Result :=
  compare16 ra (s.given (shortNegative n)) 1

/-- CIM: compare, immediate long (R244). -/
def execCim (ra : Reg) (data : Word) (s : State) : Result :=
  compare16 ra (s.given data) 2

/-- DC: double compare, memory direct (R245). -/
def execDc (ra rx : Reg) (a : Word) (s : State) : Result :=
  compare32 ra (s.direct2 rx a) 2

/-- DCR: double compare, register (R246). -/
def execDcr (ra rb : Reg) (s : State) : Result :=
  compare32 ra (s.given (s.pair rb)) 1

/-- CBL: compare between limits (R247). -/
def execCbl (ra rx : Reg) (a : Word) (s : State) : Result :=
  let o := s.direct2 rx a
  (o.run.setCs (between (s.reg ra).toInt (highWord o.val).toInt (lowWord o.val).toInt)).next 2

end Sys2Proof.Machine
end

