-- ==== Sys2Proof/Machine/Io.lean ====
section
/-! DEFINITION. XIO, VIO and the I/O commands (47_io.md). The commands of the F9451 and F9452 act in `State.chipWrite`
and `State.chipRead`, since those chips decode the bus cycle (R503). -/

namespace Sys2Proof.Machine

/-! ## Commands -/

/-- The I/O commands the F9450 itself knows, and the two kinds it only puts on the bus (R500, R501, R567). -/
inductive IoCommand where
  | smk | clir | enbl | dsbl | rpi | spi | rns | wsw | co | dmae | dmad | go | tas | tah | ota | tbs | tbh | otb | mpen
  | rmk | rpir | rsw | rcfr | ita | itb
  /-- Bit 0 of the command is 0 (R501). -/
  | busOutput
  /-- Bit 0 of the command is 1. -/
  | busInput
deriving DecidableEq, Repr

/-- The command map (R567). -/
def ioCommand (cmd : Word) : IoCommand :=
  match cmd.toNat with
  | 0x2000 => .smk
  | 0x2001 => .clir
  | 0x2002 => .enbl
  | 0x2003 => .dsbl
  | 0x2004 => .rpi
  | 0x2005 => .spi
  | 0x200A => .rns
  | 0x200E => .wsw
  | 0x4000 => .co
  | 0x4003 => .mpen
  | 0x4006 => .dmae
  | 0x4007 => .dmad
  | 0x4008 => .tas
  | 0x4009 => .tah
  | 0x400A => .ota
  | 0x400B => .go
  | 0x400C => .tbs
  | 0x400D => .tbh
  | 0x400E => .otb
  | 0xA000 => .rmk
  | 0xA004 => .rpir
  | 0xA00E => .rsw
  | 0xA00F => .rcfr
  | 0xC00A => .ita
  | 0xC00E => .itb
  | _ => if bitOf cmd 0 then .busInput else .busOutput

/-- The direction of a command: bit 0 is 1 for an input (R501). -/
def isInput (cmd : Word) : Bool := bitOf cmd 0

/-- CLIR: PIR and FT all zero (R506). -/
def State.clearRequests (s : State) : State := { s with pir := 0, ft := 0 }

/-- RPI: the pending bit whose number stands in the low four bits, and FT with level 1 (R507). -/
def State.resetPending (s : State) (code : Word) : State :=
  { s with
    pir := s.pir &&& ~~~ oneBit (code.extractLsb' 0 4).toNat
    ft := if code.extractLsb' 0 4 = 1 then 0 else s.ft }

/-- SPI: more pending bits, looked at one instruction later (R508). -/
def State.setPending (s : State) (bits : Word) : State := { s with pir := s.pir ||| bits, spi := .armed }

/-- ENBL: the enable waits for the next instruction to complete; one that is already due stays due (R509, log 26). -/
def State.enableLater (s : State) : State :=
  { s with enbl := match s.enbl with
                   | .due => .due
                   | .idle | .armed => .armed }

/-- DSBL: interrupts are disabled at once and a pending enable is cancelled (R510). -/
def State.disable (s : State) : State := { s with inten := false, enbl := .idle }

/-- RCFR: FT is cleared, PIR bit 1 too (R515). -/
def State.clearFaults (s : State) : State := { s with ft := 0, pir := s.pir &&& ~~~ oneBit 1 }

/-- WSW: SW is loaded unless the address state refuses it; an aborted instruction loads nothing (R511, 60_exceptions.md
R668). DESIGN CHOICE: the UNRCV ER of a refused WSW in a VIO chain does not abort the elements after it, so they still
change the map; 48_mmu_bpu.md R595 leaves that open (log 56). -/
def Run.writeStatus (r : Run) (cmd data : Word) : Run :=
  if !r.aborted && r.s.refusesStatus data then { r with s := r.s.addressStateFault }
  else (r.update fun s => s.setSw data).ioWrite cmd data

/-- GO: TRIGO RST pulses (R524). -/
def Run.goPulse (r : Run) : Run := if r.halted then r else { r with s := r.s.emit .trigoRst }

/-- An output command with data word `data`: its effect, then its bus cycle (R500, R503, R505 to R511, R520 to R537,
R550). -/
def Run.output (r : Run) (cmd data : Word) : Run :=
  match ioCommand cmd with
  | .smk => (r.update fun s => s.setMask data).ioWrite cmd data
  | .clir => (r.update State.clearRequests).ioWriteOpen cmd
  | .enbl => (r.update State.enableLater).ioWriteOpen cmd
  | .dsbl => (r.update State.disable).ioWriteOpen cmd
  | .rpi => (r.update fun s => s.resetPending data).ioWrite cmd data
  | .spi => (r.update fun s => s.setPending data).ioWrite cmd data
  | .rns => (r.update fun s => { s with nmlpwrup := false }).ioWriteOpen cmd
  | .wsw => r.writeStatus cmd data
  | .co => if bitOf r.s.scr 2 then r.ioWrite cmd data else r
  | .mpen => r.ioWriteOpen cmd
  | .dmae => (r.update fun s => { s with dmaen := true }).ioWriteOpen cmd
  | .dmad => (r.update fun s => { s with dmaen := false }).ioWriteOpen cmd
  | .tas => (r.update fun s => { s with taRun := true }).ioWriteOpen cmd
  | .tah => (r.update fun s => { s with taRun := false }).ioWriteOpen cmd
  | .ota => (r.update fun s => { s with ta := data, taRun := true }).ioWrite cmd data
  | .go => (r.goPulse).ioWriteOpen cmd
  | .tbs => (r.update fun s => { s with tbRun := true }).ioWriteOpen cmd
  | .tbh => (r.update fun s => { s with tbRun := false }).ioWriteOpen cmd
  | .otb => (r.update fun s => { s with tb := data, tbRun := true }).ioWrite cmd data
  | .rmk | .rpir | .rsw | .rcfr | .ita | .itb | .busInput | .busOutput => r.ioWrite cmd data

/-- An internal input command: the value, echoed on the bus (R503). -/
def Run.echo (r : Run) (cmd v : Word) : Got Word := { val := v, run := r.ioWrite cmd v }

/-- An input command: what it supplies, and its bus cycle (R500, R503, R512 to R515, R534, R538, R550). -/
def Run.input (r : Run) (cmd : Word) : Got Word :=
  match ioCommand cmd with
  | .rmk => r.echo cmd r.s.mask
  | .rpir => r.echo cmd r.s.pir
  | .rsw => r.echo cmd r.s.sw
  | .rcfr =>
    let g := r.echo cmd r.s.ft
    { g with run := g.run.update State.clearFaults }
  | .ita => r.echo cmd r.s.ta
  | .itb => r.echo cmd r.s.tb
  | .smk | .clir | .enbl | .dsbl | .rpi | .spi | .rns | .wsw | .co | .dmae | .dmad | .go | .tas | .tah | .ota | .tbs
  | .tbh | .otb | .mpen | .busOutput | .busInput => r.ioRead cmd

/-! ## VIO -/

/-- The command puts a cycle on the bus: not CO without a console, not a refused WSW (R557, R511). -/
def State.issues (s : State) (aborted : Bool) (cmd data : Word) : Bool :=
  match ioCommand cmd with
  | .co => bitOf s.scr 2
  | .wsw => aborted || !s.refusesStatus data
  | .smk | .clir | .enbl | .dsbl | .rpi | .spi | .rns | .dmae | .dmad | .go | .tas | .tah | .ota | .tbs | .tbh | .otb
  | .mpen | .rmk | .rpir | .rsw | .rcfr | .ita | .itb | .busOutput | .busInput => true

/-- A chain on its way: `stopped` once a cycle drew EXT ADR ER, or RESET has come. -/
structure Chain where
  run : Run
  stopped : Bool

/-- What a command puts on the bus as its data, where that is stated: the word of an output that has one, the value an
internal input supplies (R503). -/
def Run.busData (r : Run) (cmd data : Word) : Option Word :=
  match ioCommand cmd with
  | .smk | .rpi | .spi | .wsw | .co | .ota | .otb | .busOutput => some data
  | .clir | .enbl | .dsbl | .rns | .mpen | .dmae | .dmad | .tas | .tah | .go | .tbs | .tbh | .busInput => none
  | .rmk => some r.s.mask
  | .rpir => some r.s.pir
  | .rsw => some r.s.sw
  | .rcfr => some r.s.ft
  | .ita => some r.s.ta
  | .itb => some r.s.tb

/-- An I/O write cycle that nothing takes notice of: the companion chips hold still; data that an abort or R503 leaves open
is a free value. -/
def Run.ioWriteIgnored (r : Run) (cmd : Word) (data : Option Word) : Run :=
  match data with
  | some v =>
    if r.aborted then { r with s := (r.s.ioWrite cmd (Config.freeWord r.s.free)).useFree 1 }
    else { r with s := r.s.ioWrite cmd v }
  | none => { r with s := (r.s.ioWrite cmd (Config.freeWord r.s.free)).useFree 1 }

/-- An illegal command in a chain, one whose I/O cycle draws EXT ADR ER: it is a NOP but for that cycle, which sets FT bit 5
and PIR bit 1, and the chain ends (R570, log 37). That neither the CPU nor a companion chip acts on it is log 59. -/
def Run.illegalElement (r : Run) (cmd data : Word) : Chain :=
  if r.halted then { run := r, stopped := true }
  else
    match ioCommand cmd with
    | .busInput => { run := (r.ioRead cmd).run, stopped := true }
    | .smk | .clir | .enbl | .dsbl | .rpi | .spi | .rns | .wsw | .co | .dmae | .dmad | .go | .tas | .tah | .ota | .tbs
    | .tbh | .otb | .mpen | .rmk | .rpir | .rsw | .rcfr | .ita | .itb | .busOutput =>
      { run := r.ioWriteIgnored cmd (r.busData cmd data), stopped := true }

/-- One element of a chain, command `cmd`, its data word at `addr`: the others have their turn before each of its cycles
(R570, D28, log 37). -/
def Run.element (r : Run) (cmd addr : Word) : Chain :=
  let r0 := r.turn
  if isInput cmd then
    if ioFlawAt r0.s.platform .illegal cmd then r0.illegalElement cmd 0
    else
      let g := r0.input cmd
      let w := g.run.turn.write addr g.val
      { run := w, stopped := w.halted }
  else
    let d := r0.read addr
    let r1 := d.run.turn
    if ioFlawAt r1.s.platform .illegal cmd && r1.s.issues r1.aborted cmd d.val then r1.illegalElement cmd d.val
    else
      let w := r1.output cmd d.val
      { run := w, stopped := w.halted }

/-- The elements of the bits `n` of `bits`: `cmd` is the base, `stride` the multiplier, `addr` the next data word
(R570). -/
def chain (cmd stride sel : Word) : List Nat → Word → Run → Run
  | [], _, r => r
  | n :: bits, addr, r =>
    if bitOf sel n then
      let e := r.element (cmd + BitVec.ofNat 16 n * stride) addr
      if e.stopped then e.run else chain cmd stride sel bits (addr + 1) e.run
    else chain cmd stride sel bits addr r

/-! ## Instructions -/

/-- XIO: execute input/output, privileged (R500). -/
def execXio (ra rx : Reg) (data : Word) (s : State) : Result :=
  if s.privileged then
    let cmd := s.indexed data rx
    if isInput cmd then
      let g := s.start.input cmd
      (g.run.setReg ra g.val).next 2
    else (s.start.output cmd (s.reg ra)).next 2
  else .next s.privilegeViolation

/-- VIO: vectored input/output, privileged (R570). -/
def execVio (ra rx : Reg) (a : Word) (s : State) : Result :=
  if s.privileged then
    let da := s.directAddress rx a
    let cmd := s.start.read da
    let sel := cmd.run.turn.read (da + 1)
    (chain cmd.val (s.reg ra) sel.val (List.range 16) (da + 2) sel.run).next 2
  else .next s.privilegeViolation

end Sys2Proof.Machine
end

