-- ==== Sys2Proof/Machine/LoadStore.lean ====
section
/-! DEFINITION. Loads, stores and exchanges (44_load_store.md). Loads set CS from the destination, stores leave it
(R380). -/

namespace Sys2Proof.Machine

/-! ## Shared operations -/

/-- R[ra] <- DO, CS from it (R380). -/
def load16 (ra : Reg) (o : Got Word) (len : Word) : Result := ((o.run.setReg ra o.val).setCs (pzn o.val)).next len

/-- RR[ra] <- DO, CS from it. -/
def load32 (ra : Reg) (o : Got Long) (len : Word) : Result := ((o.run.setPair ra o.val).setCs (pzn o.val)).next len

/-- RRR[ra] <- DO, CS from it. -/
def load48 (ra : Reg) (o : Got Triple) (len : Word) : Result :=
  ((o.run.setTriple ra o.val).setCs (pzn o.val)).next len

/-- The lower byte of R[ra] <- b, CS from the whole register (R395). -/
def loadByte (ra : Reg) (b : Byte) (r : Run) : Result :=
  let v : Word := upperByte (r.s.reg ra) ++ b
  ((r.setReg ra v).setCs (pzn v)).next 2

/-- The word with another upper byte (R413). -/
def withUpper (b : Byte) (w : Word) : Word := b ++ lowerByte w

/-- The word with another lower byte (R413). -/
def withLower (b : Byte) (w : Word) : Word := upperByte w ++ b

/-- The bits of `q` where the mask is 0 and those of `v` where it is 1 (R411). -/
def throughMask (v m q : Word) : Word := (q &&& ~~~m) ||| (v &&& m)

/-! ## Instructions -/

/-- L: load, memory direct (R381). -/
def execL (ra rx : Reg) (a : Word) (s : State) : Result :=
  load16 ra (s.direct1 rx a) 2

/-- LR: load, register (R382). -/
def execLr (ra rb : Reg) (s : State) : Result :=
  load16 ra (s.given (s.reg rb)) 1

/-- LB: load, base relative (R383). -/
def execLb (br : Reg) (du : Byte) (s : State) : Result :=
  load16 2 (s.base1 br du) 1

/-- LBX: load, base relative indexed (R384). -/
def execLbx (br rx : Reg) (s : State) : Result :=
  load16 2 (s.baseIndexed1 br rx) 1

/-- LI: load, memory indirect (R385). -/
def execLi (ra rx : Reg) (a : Word) (s : State) : Result :=
  load16 ra (s.indirect1 rx a) 2

/-- LIM: load, immediate long (R386). -/
def execLim (ra rx : Reg) (data : Word) (s : State) : Result :=
  load16 ra (s.given (s.indexed data rx)) 2

/-- LISP: load, immediate short positive (R387). -/
def execLisp (ra : Reg) (n : Nat) (s : State) : Result :=
  load16 ra (s.given (shortPositive n)) 1

/-- LISN: load, immediate short negative (R388). -/
def execLisn (ra : Reg) (n : Nat) (s : State) : Result :=
  load16 ra (s.given (shortNegative n)) 1

/-- DL: double load, memory direct (R389). -/
def execDl (ra rx : Reg) (a : Word) (s : State) : Result :=
  load32 ra (s.direct2 rx a) 2

/-- DLR: double load, register; both source words are read first (D18) (R390). -/
def execDlr (ra rb : Reg) (s : State) : Result :=
  load32 ra (s.given (s.pair rb)) 1

/-- DLB: double load, base relative (R391). -/
def execDlb (br : Reg) (du : Byte) (s : State) : Result :=
  load32 0 (s.base2 br du) 1

/-- DLBX: double load, base relative indexed (R392). -/
def execDlbx (br rx : Reg) (s : State) : Result :=
  load32 0 (s.baseIndexed2 br rx) 1

/-- DLI: double load, memory indirect (R393). -/
def execDli (ra rx : Reg) (a : Word) (s : State) : Result :=
  load32 ra (s.indirect2 rx a) 2

/-- EFL: extended load, memory direct (R394). -/
def execEfl (ra rx : Reg) (a : Word) (s : State) : Result :=
  load48 ra (s.direct3 rx a) 2

/-- LUB: load from upper byte, memory direct (R396). -/
def execLub (ra rx : Reg) (a : Word) (s : State) : Result :=
  let w := s.direct1 rx a
  loadByte ra (upperByte w.val) w.run

/-- LUBI: load from upper byte, memory indirect (R397). -/
def execLubi (ra rx : Reg) (a : Word) (s : State) : Result :=
  let w := s.indirect1 rx a
  loadByte ra (upperByte w.val) w.run

/-- LLB: load from lower byte, memory direct (R398). -/
def execLlb (ra rx : Reg) (a : Word) (s : State) : Result :=
  let w := s.direct1 rx a
  loadByte ra (lowerByte w.val) w.run

/-- LLBI: load from lower byte, memory indirect (R399). -/
def execLlbi (ra rx : Reg) (a : Word) (s : State) : Result :=
  let w := s.indirect1 rx a
  loadByte ra (lowerByte w.val) w.run

/-- ST: store, memory direct (R400). -/
def execSt (ra rx : Reg) (a : Word) (s : State) : Result :=
  (s.start.write (s.directAddress rx a) (s.reg ra)).next 2

/-- STB: store, base relative (R401). -/
def execStb (br : Reg) (du : Byte) (s : State) : Result :=
  (s.start.write (s.baseAddress br du) (s.reg 2)).next 1

/-- STBX: store, base relative indexed (R402). -/
def execStbx (br rx : Reg) (s : State) : Result :=
  (s.start.write (s.baseIndexedAddress br rx) (s.reg 2)).next 1

/-- STI: store, memory indirect (R403). -/
def execSti (ra rx : Reg) (a : Word) (s : State) : Result :=
  let p := s.indirectAddress rx a
  (p.run.write p.val (s.reg ra)).next 2

/-- STC: store a constant, memory direct (R404). -/
def execStc (n : Fin 16) (rx : Reg) (a : Word) (s : State) : Result :=
  (s.start.write (s.directAddress rx a) (BitVec.ofNat 16 n.val)).next 2

/-- STCI: store a constant, memory indirect (R405). -/
def execStci (n : Fin 16) (rx : Reg) (a : Word) (s : State) : Result :=
  let p := s.indirectAddress rx a
  (p.run.write p.val (BitVec.ofNat 16 n.val)).next 2

/-- DST: double store, memory direct (R407). -/
def execDst (ra rx : Reg) (a : Word) (s : State) : Result :=
  (s.start.write2 (s.directAddress rx a) (s.pair ra)).next 2

/-- DSTB: double store, base relative (R408). -/
def execDstb (br : Reg) (du : Byte) (s : State) : Result :=
  (s.start.write2 (s.baseAddress br du) (s.pair 0)).next 1

/-- DSTX: double store, base relative indexed (R409). -/
def execDstx (br rx : Reg) (s : State) : Result :=
  (s.start.write2 (s.baseIndexedAddress br rx) (s.pair 0)).next 1

/-- DSTI: double store, memory indirect (R410). -/
def execDsti (ra rx : Reg) (a : Word) (s : State) : Result :=
  let p := s.indirectAddress rx a
  (p.run.write2 p.val (s.pair ra)).next 2

/-- SRM: store register through mask (R411). -/
def execSrm (ra rx : Reg) (a : Word) (s : State) : Result :=
  (s.start.modify (s.directAddress rx a) (throughMask (s.reg ra) (s.reg (ra + 1)))).next 2

/-- EFST: extended store, memory direct (R412). -/
def execEfst (ra rx : Reg) (a : Word) (s : State) : Result :=
  (s.start.write3 (s.directAddress rx a) (s.triple ra)).next 2

/-- STUB: store into upper byte, memory direct (R414). -/
def execStub (ra rx : Reg) (a : Word) (s : State) : Result :=
  (s.start.modify (s.directAddress rx a) (withUpper (lowerByte (s.reg ra)))).next 2

/-- SUBI: store into upper byte, memory indirect (R415). -/
def execSubi (ra rx : Reg) (a : Word) (s : State) : Result :=
  let p := s.indirectAddress rx a
  (p.run.modify p.val (withUpper (lowerByte (s.reg ra)))).next 2

/-- STLB: store into lower byte, memory direct (R416). -/
def execStlb (ra rx : Reg) (a : Word) (s : State) : Result :=
  (s.start.modify (s.directAddress rx a) (withLower (lowerByte (s.reg ra)))).next 2

/-- SLBI: store into lower byte, memory indirect (R417). -/
def execSlbi (ra rx : Reg) (a : Word) (s : State) : Result :=
  let p := s.indirectAddress rx a
  (p.run.modify p.val (withLower (lowerByte (s.reg ra)))).next 2

/-- XBR: exchange bytes (R418). -/
def execXbr (ra : Reg) (s : State) : Result :=
  let v : Word := lowerByte (s.reg ra) ++ upperByte (s.reg ra)
  ((s.start.setReg ra v).setCs (pzn v)).next 1

/-- XWR: exchange words; CS from the new content of RA (R419). -/
def execXwr (ra rb : Reg) (s : State) : Result :=
  (((s.start.setReg ra (s.reg rb)).setReg rb (s.reg ra)).setCs (pzn (s.reg rb))).next 1

end Sys2Proof.Machine
end

