-- ==== Sys2Proof/Machine/Shift.lean ====
section
/-! DEFINITION. Shifts (43_shift.md): by a constant 1 to 16, or by the signed count in a register. -/

namespace Sys2Proof.Machine

/-! ## Shift functions (R350) -/

/-- `sll_W`. -/
def sll {w : Nat} (v : BitVec w) (k : Nat) : BitVec w := v <<< k

/-- `srl_W`. -/
def srl {w : Nat} (v : BitVec w) (k : Nat) : BitVec w := v >>> k

/-- `sra_W`. -/
def sra {w : Nat} (v : BitVec w) (k : Nat) : BitVec w := v.sshiftRight k

/-- `slc_W`, for k up to W. -/
def slc {w : Nat} (v : BitVec w) (k : Nat) : BitVec w := (v <<< k) ||| (v >>> (w - k))

/-- `src_W`. -/
def src {w : Nat} (v : BitVec w) (k : Nat) : BitVec w := slc v ((w - k) % w)

/-- `ovf_W`: the sign bit changes at one of the n one-position steps to the left (R354). -/
def signChanges {w : Nat} (v : BitVec w) (n : Nat) : Bool :=
  (List.range n).any fun j => (v <<< (j + 1)).msb != (v <<< j).msb

/-- A shift by a signed count: the result, and fixed-point overflow. Out of range nothing is shifted (R352, R353);
`arithmetic` adds the overflow of a sign change (R354). -/
def shiftBy {w : Nat} (left right : BitVec w → Nat → BitVec w) (arithmetic : Bool) (v : BitVec w) (n : Int) :
    BitVec w × Bool :=
  if n > w || n < -(w : Int) then (v, true)
  else if n > 0 then (left v n.toNat, arithmetic && signChanges v n.toNat)
  else if n < 0 then (right v (-n).toNat, false)
  else (v, false)

/-! ## Shared operations -/

/-- R[rb] <- f R[rb] N, CS from the result (R351, R355). -/
def shiftConst (f : Word → Nat → Word) (n : Nat) (rb : Reg) (s : State) : Result :=
  ((s.start.setReg rb (f (s.reg rb) n)).setCs (pzn (f (s.reg rb) n))).next 1

/-- RR[rb] <- f RR[rb] N, CS from the result. -/
def shiftConst2 (f : Long → Nat → Long) (n : Nat) (rb : Reg) (s : State) : Result :=
  ((s.start.setPair rb (f (s.pair rb) n)).setCs (pzn (f (s.pair rb) n))).next 1

/-- R[ra] shifted by the signed count R[rb], read before any write (R352). -/
def shiftReg (left right : Word → Nat → Word) (arithmetic : Bool) (ra rb : Reg) (s : State) : Result :=
  let t := shiftBy left right arithmetic (s.reg ra) (s.reg rb).toInt
  (((s.start.setReg ra t.1).pendIf t.2 4).setCs (pzn t.1)).next 1

/-- RR[ra] shifted by the signed count R[rb], read before any write. -/
def shiftReg2 (left right : Long → Nat → Long) (arithmetic : Bool) (ra rb : Reg) (s : State) : Result :=
  let t := shiftBy left right arithmetic (s.pair ra) (s.reg rb).toInt
  (((s.start.setPair ra t.1).pendIf t.2 4).setCs (pzn t.1)).next 1

/-! ## Instructions -/

/-- SLL: shift left logical (R356). -/
def execSll (n : Nat) (rb : Reg) (s : State) : Result :=
  shiftConst sll n rb s

/-- SRL: shift right logical (R357). -/
def execSrl (n : Nat) (rb : Reg) (s : State) : Result :=
  shiftConst srl n rb s

/-- SRA: shift right arithmetic (R358). -/
def execSra (n : Nat) (rb : Reg) (s : State) : Result :=
  shiftConst sra n rb s

/-- SLC: shift left cyclic (R359). -/
def execSlc (n : Nat) (rb : Reg) (s : State) : Result :=
  shiftConst slc n rb s

/-- DSLL: double shift left logical (R360). -/
def execDsll (n : Nat) (rb : Reg) (s : State) : Result :=
  shiftConst2 sll n rb s

/-- DSRL: double shift right logical (R361). -/
def execDsrl (n : Nat) (rb : Reg) (s : State) : Result :=
  shiftConst2 srl n rb s

/-- DSRA: double shift right arithmetic (R362). -/
def execDsra (n : Nat) (rb : Reg) (s : State) : Result :=
  shiftConst2 sra n rb s

/-- DSLC: double shift left cyclic (R363). -/
def execDslc (n : Nat) (rb : Reg) (s : State) : Result :=
  shiftConst2 slc n rb s

/-- SLR: shift logical, count in register (R364). -/
def execSlr (ra rb : Reg) (s : State) : Result :=
  shiftReg sll srl false ra rb s

/-- SAR: shift arithmetic, count in register (R365). -/
def execSar (ra rb : Reg) (s : State) : Result :=
  shiftReg sll sra true ra rb s

/-- SCR: shift cyclic, count in register (R366). -/
def execScr (ra rb : Reg) (s : State) : Result :=
  shiftReg slc src false ra rb s

/-- DSLR: double shift logical, count in register (R367). -/
def execDslr (ra rb : Reg) (s : State) : Result :=
  shiftReg2 sll srl false ra rb s

/-- DSAR: double shift arithmetic, count in register (R368). -/
def execDsar (ra rb : Reg) (s : State) : Result :=
  shiftReg2 sll sra true ra rb s

/-- DSCR: double shift cyclic, count in register (R369). -/
def execDscr (ra rb : Reg) (s : State) : Result :=
  shiftReg2 slc src false ra rb s

end Sys2Proof.Machine
end

