-- ==== Sys2Proof/Machine/Dispatch.lean ====
section
/-! DEFINITION. The meaning of every instruction: one arm per constructor. -/

namespace Sys2Proof.Machine

def exec (i : Instr) (s : State) : Host.Outcome State Fault Refusal :=
  match i with
  | .ab br du => Sys2Proof.Machine.execAb br du s
  | .sbb br du => Sys2Proof.Machine.execSbb br du s
  | .mb br du => Sys2Proof.Machine.execMb br du s
  | .db br du => Sys2Proof.Machine.execDb br du s
  | .orb br du => Sys2Proof.Machine.execOrb br du s
  | .andb br du => Sys2Proof.Machine.execAndb br du s
  | .cb br du => Sys2Proof.Machine.execCb br du s
  | .abx br rx => Sys2Proof.Machine.execAbx br rx s
  | .sbbx br rx => Sys2Proof.Machine.execSbbx br rx s
  | .mbx br rx => Sys2Proof.Machine.execMbx br rx s
  | .dbx br rx => Sys2Proof.Machine.execDbx br rx s
  | .cbx br rx => Sys2Proof.Machine.execCbx br rx s
  | .andx br rx => Sys2Proof.Machine.execAndx br rx s
  | .orbx br rx => Sys2Proof.Machine.execOrbx br rx s
  | .a ra rx a => Sys2Proof.Machine.execA ra rx a s
  | .ar ra rb => Sys2Proof.Machine.execAr ra rb s
  | .aisp ra n => Sys2Proof.Machine.execAisp ra n s
  | .incm n rx a => Sys2Proof.Machine.execIncm n rx a s
  | .abs ra rb => Sys2Proof.Machine.execAbs ra rb s
  | .dabs ra rb => Sys2Proof.Machine.execDabs ra rb s
  | .da ra rx a => Sys2Proof.Machine.execDa ra rx a s
  | .dar ra rb => Sys2Proof.Machine.execDar ra rb s
  | .s ra rx a => Sys2Proof.Machine.execS ra rx a s
  | .sr ra rb => Sys2Proof.Machine.execSr ra rb s
  | .sisp ra n => Sys2Proof.Machine.execSisp ra n s
  | .decm n rx a => Sys2Proof.Machine.execDecm n rx a s
  | .neg ra rb => Sys2Proof.Machine.execNeg ra rb s
  | .dneg ra rb => Sys2Proof.Machine.execDneg ra rb s
  | .ds ra rx a => Sys2Proof.Machine.execDs ra rx a s
  | .dsr ra rb => Sys2Proof.Machine.execDsr ra rb s
  | .ms ra rx a => Sys2Proof.Machine.execMs ra rx a s
  | .msr ra rb => Sys2Proof.Machine.execMsr ra rb s
  | .misp ra n => Sys2Proof.Machine.execMisp ra n s
  | .misn ra n => Sys2Proof.Machine.execMisn ra n s
  | .m ra rx a => Sys2Proof.Machine.execM ra rx a s
  | .mr ra rb => Sys2Proof.Machine.execMr ra rb s
  | .dm ra rx a => Sys2Proof.Machine.execDm ra rx a s
  | .dmr ra rb => Sys2Proof.Machine.execDmr ra rb s
  | .dv ra rx a => Sys2Proof.Machine.execDv ra rx a s
  | .dvr ra rb => Sys2Proof.Machine.execDvr ra rb s
  | .disp ra n => Sys2Proof.Machine.execDisp ra n s
  | .disn ra n => Sys2Proof.Machine.execDisn ra n s
  | .d ra rx a => Sys2Proof.Machine.execD ra rx a s
  | .dr ra rb => Sys2Proof.Machine.execDr ra rb s
  | .dd ra rx a => Sys2Proof.Machine.execDd ra rx a s
  | .ddr ra rb => Sys2Proof.Machine.execDdr ra rb s
  | .or ra rx a => Sys2Proof.Machine.execOr ra rx a s
  | .orr ra rb => Sys2Proof.Machine.execOrr ra rb s
  | .and ra rx a => Sys2Proof.Machine.execAnd ra rx a s
  | .andr ra rb => Sys2Proof.Machine.execAndr ra rb s
  | .xor ra rx a => Sys2Proof.Machine.execXor ra rx a s
  | .xorr ra rb => Sys2Proof.Machine.execXorr ra rb s
  | .n ra rx a => Sys2Proof.Machine.execN ra rx a s
  | .nr ra rb => Sys2Proof.Machine.execNr ra rb s
  | .c ra rx a => Sys2Proof.Machine.execC ra rx a s
  | .cr ra rb => Sys2Proof.Machine.execCr ra rb s
  | .cisp ra n => Sys2Proof.Machine.execCisp ra n s
  | .cisn ra n => Sys2Proof.Machine.execCisn ra n s
  | .cbl ra rx a => Sys2Proof.Machine.execCbl ra rx a s
  | .dc ra rx a => Sys2Proof.Machine.execDc ra rx a s
  | .dcr ra rb => Sys2Proof.Machine.execDcr ra rb s
  | .aim ra data => Sys2Proof.Machine.execAim ra data s
  | .sim ra data => Sys2Proof.Machine.execSim ra data s
  | .mim ra data => Sys2Proof.Machine.execMim ra data s
  | .msim ra data => Sys2Proof.Machine.execMsim ra data s
  | .dim ra data => Sys2Proof.Machine.execDim ra data s
  | .dvim ra data => Sys2Proof.Machine.execDvim ra data s
  | .andm ra data => Sys2Proof.Machine.execAndm ra data s
  | .orim ra data => Sys2Proof.Machine.execOrim ra data s
  | .xorm ra data => Sys2Proof.Machine.execXorm ra data s
  | .cim ra data => Sys2Proof.Machine.execCim ra data s
  | .nim ra data => Sys2Proof.Machine.execNim ra data s
  | .fab br du => Sys2Proof.Machine.execFab br du s
  | .fsb br du => Sys2Proof.Machine.execFsb br du s
  | .fmb br du => Sys2Proof.Machine.execFmb br du s
  | .fdb br du => Sys2Proof.Machine.execFdb br du s
  | .fcb br du => Sys2Proof.Machine.execFcb br du s
  | .fabx br rx => Sys2Proof.Machine.execFabx br rx s
  | .fsbx br rx => Sys2Proof.Machine.execFsbx br rx s
  | .fmbx br rx => Sys2Proof.Machine.execFmbx br rx s
  | .fdbx br rx => Sys2Proof.Machine.execFdbx br rx s
  | .fcbx br rx => Sys2Proof.Machine.execFcbx br rx s
  | .fa ra rx a => Sys2Proof.Machine.execFa ra rx a s
  | .far ra rb => Sys2Proof.Machine.execFar ra rb s
  | .efa ra rx a => Sys2Proof.Machine.execEfa ra rx a s
  | .efar ra rb => Sys2Proof.Machine.execEfar ra rb s
  | .fabs ra rb => Sys2Proof.Machine.execFabs ra rb s
  | .fs ra rx a => Sys2Proof.Machine.execFs ra rx a s
  | .fsr ra rb => Sys2Proof.Machine.execFsr ra rb s
  | .efs ra rx a => Sys2Proof.Machine.execEfs ra rx a s
  | .efsr ra rb => Sys2Proof.Machine.execEfsr ra rb s
  | .fneg ra rb => Sys2Proof.Machine.execFneg ra rb s
  | .fm ra rx a => Sys2Proof.Machine.execFm ra rx a s
  | .fmr ra rb => Sys2Proof.Machine.execFmr ra rb s
  | .efm ra rx a => Sys2Proof.Machine.execEfm ra rx a s
  | .efmr ra rb => Sys2Proof.Machine.execEfmr ra rb s
  | .fd ra rx a => Sys2Proof.Machine.execFd ra rx a s
  | .fdr ra rb => Sys2Proof.Machine.execFdr ra rb s
  | .efd ra rx a => Sys2Proof.Machine.execEfd ra rx a s
  | .efdr ra rb => Sys2Proof.Machine.execEfdr ra rb s
  | .fix ra rb => Sys2Proof.Machine.execFix ra rb s
  | .flt ra rb => Sys2Proof.Machine.execFlt ra rb s
  | .efix ra rb => Sys2Proof.Machine.execEfix ra rb s
  | .eflt ra rb => Sys2Proof.Machine.execEflt ra rb s
  | .fc ra rx a => Sys2Proof.Machine.execFc ra rx a s
  | .fcr ra rb => Sys2Proof.Machine.execFcr ra rb s
  | .efc ra rx a => Sys2Proof.Machine.execEfc ra rx a s
  | .efcr ra rb => Sys2Proof.Machine.execEfcr ra rb s
  | .sb n rx a => Sys2Proof.Machine.execSb n rx a s
  | .sbr n rb => Sys2Proof.Machine.execSbr n rb s
  | .sbi n rx a => Sys2Proof.Machine.execSbi n rx a s
  | .rb n rx a => Sys2Proof.Machine.execRb n rx a s
  | .rbr n rb => Sys2Proof.Machine.execRbr n rb s
  | .rbi n rx a => Sys2Proof.Machine.execRbi n rx a s
  | .tb n rx a => Sys2Proof.Machine.execTb n rx a s
  | .tbr n rb => Sys2Proof.Machine.execTbr n rb s
  | .tbi n rx a => Sys2Proof.Machine.execTbi n rx a s
  | .tsb n rx a => Sys2Proof.Machine.execTsb n rx a s
  | .svbr ra rb => Sys2Proof.Machine.execSvbr ra rb s
  | .rvbr ra rb => Sys2Proof.Machine.execRvbr ra rb s
  | .tvbr ra rb => Sys2Proof.Machine.execTvbr ra rb s
  | .sll n rb => Sys2Proof.Machine.execSll n rb s
  | .srl n rb => Sys2Proof.Machine.execSrl n rb s
  | .sra n rb => Sys2Proof.Machine.execSra n rb s
  | .slc n rb => Sys2Proof.Machine.execSlc n rb s
  | .dsll n rb => Sys2Proof.Machine.execDsll n rb s
  | .dsrl n rb => Sys2Proof.Machine.execDsrl n rb s
  | .dsra n rb => Sys2Proof.Machine.execDsra n rb s
  | .dslc n rb => Sys2Proof.Machine.execDslc n rb s
  | .slr ra rb => Sys2Proof.Machine.execSlr ra rb s
  | .sar ra rb => Sys2Proof.Machine.execSar ra rb s
  | .scr ra rb => Sys2Proof.Machine.execScr ra rb s
  | .dslr ra rb => Sys2Proof.Machine.execDslr ra rb s
  | .dsar ra rb => Sys2Proof.Machine.execDsar ra rb s
  | .dscr ra rb => Sys2Proof.Machine.execDscr ra rb s
  | .lb br du => Sys2Proof.Machine.execLb br du s
  | .dlb br du => Sys2Proof.Machine.execDlb br du s
  | .stb br du => Sys2Proof.Machine.execStb br du s
  | .dstb br du => Sys2Proof.Machine.execDstb br du s
  | .lbx br rx => Sys2Proof.Machine.execLbx br rx s
  | .dlbx br rx => Sys2Proof.Machine.execDlbx br rx s
  | .stbx br rx => Sys2Proof.Machine.execStbx br rx s
  | .dstx br rx => Sys2Proof.Machine.execDstx br rx s
  | .l ra rx a => Sys2Proof.Machine.execL ra rx a s
  | .lr ra rb => Sys2Proof.Machine.execLr ra rb s
  | .lisp ra n => Sys2Proof.Machine.execLisp ra n s
  | .lisn ra n => Sys2Proof.Machine.execLisn ra n s
  | .li ra rx a => Sys2Proof.Machine.execLi ra rx a s
  | .lim ra rx data => Sys2Proof.Machine.execLim ra rx data s
  | .dl ra rx a => Sys2Proof.Machine.execDl ra rx a s
  | .dlr ra rb => Sys2Proof.Machine.execDlr ra rb s
  | .dli ra rx a => Sys2Proof.Machine.execDli ra rx a s
  | .efl ra rx a => Sys2Proof.Machine.execEfl ra rx a s
  | .lub ra rx a => Sys2Proof.Machine.execLub ra rx a s
  | .llb ra rx a => Sys2Proof.Machine.execLlb ra rx a s
  | .lubi ra rx a => Sys2Proof.Machine.execLubi ra rx a s
  | .llbi ra rx a => Sys2Proof.Machine.execLlbi ra rx a s
  | .st ra rx a => Sys2Proof.Machine.execSt ra rx a s
  | .stc n rx a => Sys2Proof.Machine.execStc n rx a s
  | .stci n rx a => Sys2Proof.Machine.execStci n rx a s
  | .sti ra rx a => Sys2Proof.Machine.execSti ra rx a s
  | .dst ra rx a => Sys2Proof.Machine.execDst ra rx a s
  | .srm ra rx a => Sys2Proof.Machine.execSrm ra rx a s
  | .dsti ra rx a => Sys2Proof.Machine.execDsti ra rx a s
  | .efst ra rx a => Sys2Proof.Machine.execEfst ra rx a s
  | .stub ra rx a => Sys2Proof.Machine.execStub ra rx a s
  | .stlb ra rx a => Sys2Proof.Machine.execStlb ra rx a s
  | .subi ra rx a => Sys2Proof.Machine.execSubi ra rx a s
  | .slbi ra rx a => Sys2Proof.Machine.execSlbi ra rx a s
  | .xbr ra => Sys2Proof.Machine.execXbr ra s
  | .xwr ra rb => Sys2Proof.Machine.execXwr ra rb s
  | .lm n rx a => Sys2Proof.Machine.execLm n rx a s
  | .popm ra rb => Sys2Proof.Machine.execPopm ra rb s
  | .mov ra rb => Sys2Proof.Machine.execMov ra rb s
  | .stm n rx a => Sys2Proof.Machine.execStm n rx a s
  | .pshm ra rb => Sys2Proof.Machine.execPshm ra rb s
  | .jc c rx a => Sys2Proof.Machine.execJc c rx a s
  | .jci c rx a => Sys2Proof.Machine.execJci c rx a s
  | .js ra rx a => Sys2Proof.Machine.execJs ra rx a s
  | .soj ra rx a => Sys2Proof.Machine.execSoj ra rx a s
  | .br d => Sys2Proof.Machine.execBr d s
  | .bez d => Sys2Proof.Machine.execBez d s
  | .blt d => Sys2Proof.Machine.execBlt d s
  | .bex n => Sys2Proof.Machine.execBex n s
  | .ble d => Sys2Proof.Machine.execBle d s
  | .bgt d => Sys2Proof.Machine.execBgt d s
  | .bnz d => Sys2Proof.Machine.execBnz d s
  | .bge d => Sys2Proof.Machine.execBge d s
  | .lsti rx a => Sys2Proof.Machine.execLsti rx a s
  | .lst rx a => Sys2Proof.Machine.execLst rx a s
  | .sjs ra rx a => Sys2Proof.Machine.execSjs ra rx a s
  | .urs ra => Sys2Proof.Machine.execUrs ra s
  | .bif three cp rx a1 a2 => Sys2Proof.Machine.execBif three cp rx a1 a2 s
  | .bifi three cp rx a1 a2 => Sys2Proof.Machine.execBifi three cp rx a1 a2 s
  | .nop => Sys2Proof.Machine.execNop s
  | .bpt => Sys2Proof.Machine.execBpt s
  | .xio ra rx data => Sys2Proof.Machine.execXio ra rx data s
  | .vio ra rx a => Sys2Proof.Machine.execVio ra rx a s

end Sys2Proof.Machine
end

