-- ==== Sys2Proof/WellFormed.lean ====
section
/-! DEFINITION. Which instructions have an encoding: a base register is R12 to R15 (30_encoding.md R123, R131), a count
is 1 to 16 (R129, R160), and the two-word form of BIF and BIFI has no third word (R157). Every other operand is bounded by its type. -/

namespace Sys2Proof

/-- A base register (30_encoding.md R123: `BR = BR' + 12`). -/
def Reg.isBase (br : Reg) : Bool := 12 ≤ br.val

/-- A count the encoding stores as N - 1 in four bits (30_encoding.md R129, 43_shift.md R350). -/
def isCount (n : Nat) : Bool := 1 ≤ n && n ≤ 16

/-- The operands of an instruction that its type does not bound are in the range the encoding admits. -/
def Instr.wf : Instr → Bool
  | .lb base _ => base.isBase
  | .dlb base _ => base.isBase
  | .stb base _ => base.isBase
  | .dstb base _ => base.isBase
  | .ab base _ => base.isBase
  | .sbb base _ => base.isBase
  | .mb base _ => base.isBase
  | .db base _ => base.isBase
  | .fab base _ => base.isBase
  | .fsb base _ => base.isBase
  | .fmb base _ => base.isBase
  | .fdb base _ => base.isBase
  | .orb base _ => base.isBase
  | .andb base _ => base.isBase
  | .cb base _ => base.isBase
  | .fcb base _ => base.isBase
  | .lbx base _ => base.isBase
  | .dlbx base _ => base.isBase
  | .stbx base _ => base.isBase
  | .dstx base _ => base.isBase
  | .abx base _ => base.isBase
  | .sbbx base _ => base.isBase
  | .mbx base _ => base.isBase
  | .dbx base _ => base.isBase
  | .fabx base _ => base.isBase
  | .fsbx base _ => base.isBase
  | .fmbx base _ => base.isBase
  | .fdbx base _ => base.isBase
  | .cbx base _ => base.isBase
  | .fcbx base _ => base.isBase
  | .andx base _ => base.isBase
  | .orbx base _ => base.isBase
  | .xio _ _ _ => true
  | .vio _ _ _ => true
  | .sb _ _ _ => true
  | .sbr _ _ => true
  | .sbi _ _ _ => true
  | .rb _ _ _ => true
  | .rbr _ _ => true
  | .rbi _ _ _ => true
  | .tb _ _ _ => true
  | .tbr _ _ => true
  | .tbi _ _ _ => true
  | .tsb _ _ _ => true
  | .svbr _ _ => true
  | .rvbr _ _ => true
  | .tvbr _ _ => true
  | .sll count _ => isCount count
  | .srl count _ => isCount count
  | .sra count _ => isCount count
  | .slc count _ => isCount count
  | .dsll count _ => isCount count
  | .dsrl count _ => isCount count
  | .dsra count _ => isCount count
  | .dslc count _ => isCount count
  | .slr _ _ => true
  | .sar _ _ => true
  | .scr _ _ => true
  | .dslr _ _ => true
  | .dsar _ _ => true
  | .dscr _ _ => true
  | .jc _ _ _ => true
  | .jci _ _ _ => true
  | .js _ _ _ => true
  | .soj _ _ _ => true
  | .br _ => true
  | .bez _ => true
  | .blt _ => true
  | .bex _ => true
  | .ble _ => true
  | .bgt _ => true
  | .bnz _ => true
  | .bge _ => true
  | .lsti _ _ => true
  | .lst _ _ => true
  | .sjs _ _ _ => true
  | .urs _ => true
  | .l _ _ _ => true
  | .lr _ _ => true
  | .lisp _ count => isCount count
  | .lisn _ count => isCount count
  | .li _ _ _ => true
  | .lim _ _ _ => true
  | .dl _ _ _ => true
  | .dlr _ _ => true
  | .dli _ _ _ => true
  | .lm _ _ _ => true
  | .efl _ _ _ => true
  | .lub _ _ _ => true
  | .llb _ _ _ => true
  | .lubi _ _ _ => true
  | .llbi _ _ _ => true
  | .popm _ _ => true
  | .st _ _ _ => true
  | .stc _ _ _ => true
  | .stci _ _ _ => true
  | .mov _ _ => true
  | .sti _ _ _ => true
  | .dst _ _ _ => true
  | .srm _ _ _ => true
  | .dsti _ _ _ => true
  | .stm _ _ _ => true
  | .efst _ _ _ => true
  | .stub _ _ _ => true
  | .stlb _ _ _ => true
  | .subi _ _ _ => true
  | .slbi _ _ _ => true
  | .pshm _ _ => true
  | .a _ _ _ => true
  | .ar _ _ => true
  | .aisp _ count => isCount count
  | .incm count _ _ => isCount count
  | .abs _ _ => true
  | .dabs _ _ => true
  | .da _ _ _ => true
  | .dar _ _ => true
  | .fa _ _ _ => true
  | .far _ _ => true
  | .efa _ _ _ => true
  | .efar _ _ => true
  | .fabs _ _ => true
  | .s _ _ _ => true
  | .sr _ _ => true
  | .sisp _ count => isCount count
  | .decm count _ _ => isCount count
  | .neg _ _ => true
  | .dneg _ _ => true
  | .ds _ _ _ => true
  | .dsr _ _ => true
  | .fs _ _ _ => true
  | .fsr _ _ => true
  | .efs _ _ _ => true
  | .efsr _ _ => true
  | .fneg _ _ => true
  | .ms _ _ _ => true
  | .msr _ _ => true
  | .misp _ count => isCount count
  | .misn _ count => isCount count
  | .m _ _ _ => true
  | .mr _ _ => true
  | .dm _ _ _ => true
  | .dmr _ _ => true
  | .fm _ _ _ => true
  | .fmr _ _ => true
  | .efm _ _ _ => true
  | .efmr _ _ => true
  | .dv _ _ _ => true
  | .dvr _ _ => true
  | .disp _ count => isCount count
  | .disn _ count => isCount count
  | .d _ _ _ => true
  | .dr _ _ => true
  | .dd _ _ _ => true
  | .ddr _ _ => true
  | .fd _ _ _ => true
  | .fdr _ _ => true
  | .efd _ _ _ => true
  | .efdr _ _ => true
  | .or _ _ _ => true
  | .orr _ _ => true
  | .and _ _ _ => true
  | .andr _ _ => true
  | .xor _ _ _ => true
  | .xorr _ _ => true
  | .n _ _ _ => true
  | .nr _ _ => true
  | .fix _ _ => true
  | .flt _ _ => true
  | .efix _ _ => true
  | .eflt _ _ => true
  | .xbr _ => true
  | .xwr _ _ => true
  | .c _ _ _ => true
  | .cr _ _ => true
  | .cisp _ count => isCount count
  | .cisn _ count => isCount count
  | .cbl _ _ _ => true
  | .dc _ _ _ => true
  | .dcr _ _ => true
  | .fc _ _ _ => true
  | .fcr _ _ => true
  | .efc _ _ _ => true
  | .efcr _ _ => true
  | .aim _ _ => true
  | .sim _ _ => true
  | .mim _ _ => true
  | .msim _ _ => true
  | .dim _ _ => true
  | .dvim _ _ => true
  | .andm _ _ => true
  | .orim _ _ => true
  | .xorm _ _ => true
  | .cim _ _ => true
  | .nim _ _ => true
  | .bif three _ _ _ a2 => three || a2 = 0
  | .bifi three _ _ _ a2 => three || a2 = 0
  | .nop => true
  | .bpt => true

/-- `i` has an encoding. -/
abbrev Instr.WellFormed (i : Instr) : Prop := i.wf = true

end Sys2Proof
end

