-- ==== Sys2Proof/Decode.lean ====
section
/-! DEFINITION. Decoding and encoding (30_encoding.md). `decode` reads an instruction from the words at the
instruction counter; it is total, and what it does not read as an instruction it rejects by name: an unassigned
opcode (R156), a reserved encoding (R158), or a list of words that ends too early. The groups of opcodes follow
the rows of the operation code matrix (R150). `encode` writes the words of an instruction from the same tables. -/

namespace Sys2Proof

/-- What the words at the instruction counter are. -/
inductive Decoded where
  /-- An instruction, and the words after it. -/
  | instr (i : Instr) (rest : List Word)
  /-- The instruction is longer than the words given: fetch one more. -/
  | more
  /-- An unassigned opcode or extension: it raises the illegal-instruction fault and IC advances one word (R156,
  60_exceptions.md R667, D9). -/
  | illegal
  /-- An encoding whose printed constant field is violated: no meaning (R158, 93_implementation_defined.md U3). -/
  | reserved
deriving DecidableEq, Repr

/-! ## Fields -/

/-- Bits 0 to 7 of the first word: the operation code (R123). -/
def opField (w : Word) : Byte := w.extractLsb' 8 8

/-- Bits 8 to 11 of the first word (R123). -/
def hiField (w : Word) : BitVec 4 := w.extractLsb' 4 4

/-- Bits 12 to 15 of the first word (R123). -/
def loField (w : Word) : BitVec 4 := w.extractLsb' 0 4

/-- A four-bit field as a register number, a bit number or a constant (R124). -/
def reg (f : BitVec 4) : Reg := ⟨f.toNat, f.isLt⟩

/-- A four-bit field that holds N - 1 (R129). -/
def count (f : BitVec 4) : Nat := f.toNat + 1

/-- `BR = BR' + 12`, BR' in bits 6 and 7 (R123). -/
def baseReg (op : Byte) : Reg := ⟨12 + op.toNat % 4, by omega⟩

/-! ## Shapes of instruction -/

/-- A one-word instruction. -/
def one (i : Instr) (rest : List Word) : Decoded := .instr i rest

/-- A two-word instruction, whose second word is an address or an immediate (R123). -/
def two (k : Word → Instr) : List Word → Decoded
  | a :: rest => .instr (k a) rest
  | [] => .more

/-- A three-word instruction (R153). -/
def three (k : Word → Word → Instr) : List Word → Decoded
  | a :: b :: rest => .instr (k a b) rest
  | _ => .more

/-- A field the format box prints as 0000 (R158). -/
def ifZero (f : BitVec 4) (d : Decoded) : Decoded := if f = 0 then d else .reserved

/-! ## The rows of the matrix -/

/-- Opcodes 00 to 3F, format 7a: bits 0 to 5 select the instruction (R150). -/
def decodeBase (op : Byte) (hi lo : BitVec 4) (rest : List Word) : Decoded :=
  match op.toNat / 4 with
  | 0 => one (.lb (baseReg op) (hi ++ lo)) rest
  | 1 => one (.dlb (baseReg op) (hi ++ lo)) rest
  | 2 => one (.stb (baseReg op) (hi ++ lo)) rest
  | 3 => one (.dstb (baseReg op) (hi ++ lo)) rest
  | 4 => one (.ab (baseReg op) (hi ++ lo)) rest
  | 5 => one (.sbb (baseReg op) (hi ++ lo)) rest
  | 6 => one (.mb (baseReg op) (hi ++ lo)) rest
  | 7 => one (.db (baseReg op) (hi ++ lo)) rest
  | 8 => one (.fab (baseReg op) (hi ++ lo)) rest
  | 9 => one (.fsb (baseReg op) (hi ++ lo)) rest
  | 10 => one (.fmb (baseReg op) (hi ++ lo)) rest
  | 11 => one (.fdb (baseReg op) (hi ++ lo)) rest
  | 12 => one (.orb (baseReg op) (hi ++ lo)) rest
  | 13 => one (.andb (baseReg op) (hi ++ lo)) rest
  | 14 => one (.cb (baseReg op) (hi ++ lo)) rest
  | 15 => one (.fcb (baseReg op) (hi ++ lo)) rest
  | _ => .illegal

/-- Opcodes 40 to 43, format 7b: bits 8 to 11 select the instruction (R151). -/
def decodeBrx (op : Byte) (hi lo : BitVec 4) (rest : List Word) : Decoded :=
  match hi.toNat with
  | 0 => one (.lbx (baseReg op) (reg lo)) rest
  | 1 => one (.dlbx (baseReg op) (reg lo)) rest
  | 2 => one (.stbx (baseReg op) (reg lo)) rest
  | 3 => one (.dstx (baseReg op) (reg lo)) rest
  | 4 => one (.abx (baseReg op) (reg lo)) rest
  | 5 => one (.sbbx (baseReg op) (reg lo)) rest
  | 6 => one (.mbx (baseReg op) (reg lo)) rest
  | 7 => one (.dbx (baseReg op) (reg lo)) rest
  | 8 => one (.fabx (baseReg op) (reg lo)) rest
  | 9 => one (.fsbx (baseReg op) (reg lo)) rest
  | 10 => one (.fmbx (baseReg op) (reg lo)) rest
  | 11 => one (.fdbx (baseReg op) (reg lo)) rest
  | 12 => one (.cbx (baseReg op) (reg lo)) rest
  | 13 => one (.fcbx (baseReg op) (reg lo)) rest
  | 14 => one (.andx (baseReg op) (reg lo)) rest
  | 15 => one (.orbx (baseReg op) (reg lo)) rest
  | _ => .illegal

/-- Opcode 4A, format 4a: bits 12 to 15 select the instruction (R152). -/
def decodeImml (hi lo : BitVec 4) (rest : List Word) : Decoded :=
  match lo.toNat with
  | 1 => two (.aim (reg hi)) rest
  | 2 => two (.sim (reg hi)) rest
  | 3 => two (.mim (reg hi)) rest
  | 4 => two (.msim (reg hi)) rest
  | 5 => two (.dim (reg hi)) rest
  | 6 => two (.dvim (reg hi)) rest
  | 7 => two (.andm (reg hi)) rest
  | 8 => two (.orim (reg hi)) rest
  | 9 => two (.xorm (reg hi)) rest
  | 10 => two (.cim (reg hi)) rest
  | 11 => two (.nim (reg hi)) rest
  | _ => .illegal

/-- The coprocessor number in bits 10 and 11 (R153). -/
def coprocessor (hi : BitVec 4) : Fin 4 := ⟨hi.toNat % 4, by omega⟩

/-- Opcode 4F (R153): bit 8 tells BIFI from BIF, bit 9 marks the three-word form. The two-word form is read too; its
meaning is the illegal-instruction fault (60_exceptions.md R667). -/
def decodeBif (hi lo : BitVec 4) (rest : List Word) : Decoded :=
  match hi.toNat / 4 with
  | 0 => two (fun a1 => .bif false (coprocessor hi) (reg lo) a1 0) rest
  | 1 => three (.bif true (coprocessor hi) (reg lo)) rest
  | 2 => two (fun a1 => .bifi false (coprocessor hi) (reg lo) a1 0) rest
  | 3 => three (.bifi true (coprocessor hi) (reg lo)) rest
  | _ => .illegal

/-- Opcodes 40 to 4F. -/
def decode4 (op : Byte) (hi lo : BitVec 4) (rest : List Word) : Decoded :=
  match op.toNat % 16 with
  | 0 | 1 | 2 | 3 => decodeBrx op hi lo rest
  | 8 => two (.xio (reg hi) (reg lo)) rest
  | 9 => two (.vio (reg hi) (reg lo)) rest
  | 10 => decodeImml hi lo rest
  | 15 => decodeBif hi lo rest
  | _ => .illegal

/-- Opcodes 50 to 5F. -/
def decode5 (op : Byte) (hi lo : BitVec 4) (rest : List Word) : Decoded :=
  match op.toNat % 16 with
  | 0 => two (.sb (reg hi) (reg lo)) rest
  | 1 => one (.sbr (reg hi) (reg lo)) rest
  | 2 => two (.sbi (reg hi) (reg lo)) rest
  | 3 => two (.rb (reg hi) (reg lo)) rest
  | 4 => one (.rbr (reg hi) (reg lo)) rest
  | 5 => two (.rbi (reg hi) (reg lo)) rest
  | 6 => two (.tb (reg hi) (reg lo)) rest
  | 7 => one (.tbr (reg hi) (reg lo)) rest
  | 8 => two (.tbi (reg hi) (reg lo)) rest
  | 9 => two (.tsb (reg hi) (reg lo)) rest
  | 10 => one (.svbr (reg hi) (reg lo)) rest
  | 12 => one (.rvbr (reg hi) (reg lo)) rest
  | 14 => one (.tvbr (reg hi) (reg lo)) rest
  | _ => .illegal

/-- Opcodes 60 to 6F. -/
def decode6 (op : Byte) (hi lo : BitVec 4) (rest : List Word) : Decoded :=
  match op.toNat % 16 with
  | 0 => one (.sll (count hi) (reg lo)) rest
  | 1 => one (.srl (count hi) (reg lo)) rest
  | 2 => one (.sra (count hi) (reg lo)) rest
  | 3 => one (.slc (count hi) (reg lo)) rest
  | 5 => one (.dsll (count hi) (reg lo)) rest
  | 6 => one (.dsrl (count hi) (reg lo)) rest
  | 7 => one (.dsra (count hi) (reg lo)) rest
  | 8 => one (.dslc (count hi) (reg lo)) rest
  | 10 => one (.slr (reg hi) (reg lo)) rest
  | 11 => one (.sar (reg hi) (reg lo)) rest
  | 12 => one (.scr (reg hi) (reg lo)) rest
  | 13 => one (.dslr (reg hi) (reg lo)) rest
  | 14 => one (.dsar (reg hi) (reg lo)) rest
  | 15 => one (.dscr (reg hi) (reg lo)) rest
  | _ => .illegal

/-- Opcodes 70 to 7F. -/
def decode7 (op : Byte) (hi lo : BitVec 4) (rest : List Word) : Decoded :=
  match op.toNat % 16 with
  | 0 => two (.jc hi (reg lo)) rest
  | 1 => two (.jci hi (reg lo)) rest
  | 2 => two (.js (reg hi) (reg lo)) rest
  | 3 => two (.soj (reg hi) (reg lo)) rest
  | 4 => one (.br (hi ++ lo)) rest
  | 5 => one (.bez (hi ++ lo)) rest
  | 6 => one (.blt (hi ++ lo)) rest
  | 7 => ifZero hi (one (.bex (reg lo)) rest)
  | 8 => one (.ble (hi ++ lo)) rest
  | 9 => one (.bgt (hi ++ lo)) rest
  | 10 => one (.bnz (hi ++ lo)) rest
  | 11 => one (.bge (hi ++ lo)) rest
  | 12 => ifZero hi (two (.lsti (reg lo)) rest)
  | 13 => ifZero hi (two (.lst (reg lo)) rest)
  | 14 => two (.sjs (reg hi) (reg lo)) rest
  | 15 => ifZero lo (one (.urs (reg hi)) rest)
  | _ => .illegal

/-- Opcodes 80 to 8F. -/
def decode8 (op : Byte) (hi lo : BitVec 4) (rest : List Word) : Decoded :=
  match op.toNat % 16 with
  | 0 => two (.l (reg hi) (reg lo)) rest
  | 1 => one (.lr (reg hi) (reg lo)) rest
  | 2 => one (.lisp (reg hi) (count lo)) rest
  | 3 => one (.lisn (reg hi) (count lo)) rest
  | 4 => two (.li (reg hi) (reg lo)) rest
  | 5 => two (.lim (reg hi) (reg lo)) rest
  | 6 => two (.dl (reg hi) (reg lo)) rest
  | 7 => one (.dlr (reg hi) (reg lo)) rest
  | 8 => two (.dli (reg hi) (reg lo)) rest
  | 9 => two (.lm (reg hi) (reg lo)) rest
  | 10 => two (.efl (reg hi) (reg lo)) rest
  | 11 => two (.lub (reg hi) (reg lo)) rest
  | 12 => two (.llb (reg hi) (reg lo)) rest
  | 13 => two (.lubi (reg hi) (reg lo)) rest
  | 14 => two (.llbi (reg hi) (reg lo)) rest
  | 15 => one (.popm (reg hi) (reg lo)) rest
  | _ => .illegal

/-- Opcodes 90 to 9F. -/
def decode9 (op : Byte) (hi lo : BitVec 4) (rest : List Word) : Decoded :=
  match op.toNat % 16 with
  | 0 => two (.st (reg hi) (reg lo)) rest
  | 1 => two (.stc (reg hi) (reg lo)) rest
  | 2 => two (.stci (reg hi) (reg lo)) rest
  | 3 => one (.mov (reg hi) (reg lo)) rest
  | 4 => two (.sti (reg hi) (reg lo)) rest
  | 6 => two (.dst (reg hi) (reg lo)) rest
  | 7 => two (.srm (reg hi) (reg lo)) rest
  | 8 => two (.dsti (reg hi) (reg lo)) rest
  | 9 => two (.stm (reg hi) (reg lo)) rest
  | 10 => two (.efst (reg hi) (reg lo)) rest
  | 11 => two (.stub (reg hi) (reg lo)) rest
  | 12 => two (.stlb (reg hi) (reg lo)) rest
  | 13 => two (.subi (reg hi) (reg lo)) rest
  | 14 => two (.slbi (reg hi) (reg lo)) rest
  | 15 => one (.pshm (reg hi) (reg lo)) rest
  | _ => .illegal

/-- Opcodes A0 to AF. -/
def decodeA (op : Byte) (hi lo : BitVec 4) (rest : List Word) : Decoded :=
  match op.toNat % 16 with
  | 0 => two (.a (reg hi) (reg lo)) rest
  | 1 => one (.ar (reg hi) (reg lo)) rest
  | 2 => one (.aisp (reg hi) (count lo)) rest
  | 3 => two (.incm (count hi) (reg lo)) rest
  | 4 => one (.abs (reg hi) (reg lo)) rest
  | 5 => one (.dabs (reg hi) (reg lo)) rest
  | 6 => two (.da (reg hi) (reg lo)) rest
  | 7 => one (.dar (reg hi) (reg lo)) rest
  | 8 => two (.fa (reg hi) (reg lo)) rest
  | 9 => one (.far (reg hi) (reg lo)) rest
  | 10 => two (.efa (reg hi) (reg lo)) rest
  | 11 => one (.efar (reg hi) (reg lo)) rest
  | 12 => one (.fabs (reg hi) (reg lo)) rest
  | _ => .illegal

/-- Opcodes B0 to BF. -/
def decodeB (op : Byte) (hi lo : BitVec 4) (rest : List Word) : Decoded :=
  match op.toNat % 16 with
  | 0 => two (.s (reg hi) (reg lo)) rest
  | 1 => one (.sr (reg hi) (reg lo)) rest
  | 2 => one (.sisp (reg hi) (count lo)) rest
  | 3 => two (.decm (count hi) (reg lo)) rest
  | 4 => one (.neg (reg hi) (reg lo)) rest
  | 5 => one (.dneg (reg hi) (reg lo)) rest
  | 6 => two (.ds (reg hi) (reg lo)) rest
  | 7 => one (.dsr (reg hi) (reg lo)) rest
  | 8 => two (.fs (reg hi) (reg lo)) rest
  | 9 => one (.fsr (reg hi) (reg lo)) rest
  | 10 => two (.efs (reg hi) (reg lo)) rest
  | 11 => one (.efsr (reg hi) (reg lo)) rest
  | 12 => one (.fneg (reg hi) (reg lo)) rest
  | _ => .illegal

/-- Opcodes C0 to CF. -/
def decodeC (op : Byte) (hi lo : BitVec 4) (rest : List Word) : Decoded :=
  match op.toNat % 16 with
  | 0 => two (.ms (reg hi) (reg lo)) rest
  | 1 => one (.msr (reg hi) (reg lo)) rest
  | 2 => one (.misp (reg hi) (count lo)) rest
  | 3 => one (.misn (reg hi) (count lo)) rest
  | 4 => two (.m (reg hi) (reg lo)) rest
  | 5 => one (.mr (reg hi) (reg lo)) rest
  | 6 => two (.dm (reg hi) (reg lo)) rest
  | 7 => one (.dmr (reg hi) (reg lo)) rest
  | 8 => two (.fm (reg hi) (reg lo)) rest
  | 9 => one (.fmr (reg hi) (reg lo)) rest
  | 10 => two (.efm (reg hi) (reg lo)) rest
  | 11 => one (.efmr (reg hi) (reg lo)) rest
  | _ => .illegal

/-- Opcodes D0 to DF. -/
def decodeD (op : Byte) (hi lo : BitVec 4) (rest : List Word) : Decoded :=
  match op.toNat % 16 with
  | 0 => two (.dv (reg hi) (reg lo)) rest
  | 1 => one (.dvr (reg hi) (reg lo)) rest
  | 2 => one (.disp (reg hi) (count lo)) rest
  | 3 => one (.disn (reg hi) (count lo)) rest
  | 4 => two (.d (reg hi) (reg lo)) rest
  | 5 => one (.dr (reg hi) (reg lo)) rest
  | 6 => two (.dd (reg hi) (reg lo)) rest
  | 7 => one (.ddr (reg hi) (reg lo)) rest
  | 8 => two (.fd (reg hi) (reg lo)) rest
  | 9 => one (.fdr (reg hi) (reg lo)) rest
  | 10 => two (.efd (reg hi) (reg lo)) rest
  | 11 => one (.efdr (reg hi) (reg lo)) rest
  | _ => .illegal

/-- Opcodes E0 to EF. -/
def decodeE (op : Byte) (hi lo : BitVec 4) (rest : List Word) : Decoded :=
  match op.toNat % 16 with
  | 0 => two (.or (reg hi) (reg lo)) rest
  | 1 => one (.orr (reg hi) (reg lo)) rest
  | 2 => two (.and (reg hi) (reg lo)) rest
  | 3 => one (.andr (reg hi) (reg lo)) rest
  | 4 => two (.xor (reg hi) (reg lo)) rest
  | 5 => one (.xorr (reg hi) (reg lo)) rest
  | 6 => two (.n (reg hi) (reg lo)) rest
  | 7 => one (.nr (reg hi) (reg lo)) rest
  | 8 => one (.fix (reg hi) (reg lo)) rest
  | 9 => one (.flt (reg hi) (reg lo)) rest
  | 10 => one (.efix (reg hi) (reg lo)) rest
  | 11 => one (.eflt (reg hi) (reg lo)) rest
  | 12 => ifZero lo (one (.xbr (reg hi)) rest)
  | 13 => one (.xwr (reg hi) (reg lo)) rest
  | _ => .illegal

/-- Opcodes F0 to FF. -/
def decodeF (op : Byte) (hi lo : BitVec 4) (rest : List Word) : Decoded :=
  match op.toNat % 16 with
  | 0 => two (.c (reg hi) (reg lo)) rest
  | 1 => one (.cr (reg hi) (reg lo)) rest
  | 2 => one (.cisp (reg hi) (count lo)) rest
  | 3 => one (.cisn (reg hi) (count lo)) rest
  | 4 => two (.cbl (reg hi) (reg lo)) rest
  | 6 => two (.dc (reg hi) (reg lo)) rest
  | 7 => one (.dcr (reg hi) (reg lo)) rest
  | 8 => two (.fc (reg hi) (reg lo)) rest
  | 9 => one (.fcr (reg hi) (reg lo)) rest
  | 10 => two (.efc (reg hi) (reg lo)) rest
  | 11 => one (.efcr (reg hi) (reg lo)) rest
  | 15 =>
    if hi ++ lo = (0x00 : Byte) then one .nop rest
    else if hi ++ lo = (0xFF : Byte) then one .bpt rest
    else .reserved
  | _ => .illegal

/-- The operation code matrix (R150). -/
def decodeFirst (op : Byte) (hi lo : BitVec 4) (rest : List Word) : Decoded :=
  match op.toNat / 16 with
  | 0 | 1 | 2 | 3 => decodeBase op hi lo rest
  | 4 => decode4 op hi lo rest
  | 5 => decode5 op hi lo rest
  | 6 => decode6 op hi lo rest
  | 7 => decode7 op hi lo rest
  | 8 => decode8 op hi lo rest
  | 9 => decode9 op hi lo rest
  | 10 => decodeA op hi lo rest
  | 11 => decodeB op hi lo rest
  | 12 => decodeC op hi lo rest
  | 13 => decodeD op hi lo rest
  | 14 => decodeE op hi lo rest
  | 15 => decodeF op hi lo rest
  | _ => .illegal

/-- The instruction at the head of a list of words (R120, R121). -/
def decode : List Word → Decoded
  | [] => .more
  | w :: rest => decodeFirst (opField w) (hiField w) (loField w) rest

/-! ## Bytes -/

/-- The two bytes of a word as the model's memory holds them: the upper byte first (20_memory.md R89, log 1). -/
def wordBytes (w : Word) : List Byte := [w.extractLsb' 8 8, w.extractLsb' 0 8]

/-- The words of a list of bytes. -/
def bytesWords : List Byte → List Word
  | u :: l :: rest => (u ++ l) :: bytesWords rest
  | _ => []

/-- The instruction at the head of a list of bytes. -/
def decodeBytes (bytes : List Byte) : Decoded := decode (bytesWords bytes)

/-- The three words whose bits, numbered from the first word's least significant bit, are `w`; every bit above
`nbits` is 0. -/
def tableWords (nbits w : Nat) : List Word :=
  [BitVec.ofNat 16 (w % 2 ^ nbits), BitVec.ofNat 16 (w % 2 ^ nbits / 2 ^ 16), BitVec.ofNat 16 (w % 2 ^ nbits / 2 ^ 32)]

/-- The instruction the decoder reads from an instruction whose bits are `w`. -/
def decodeTableWord (nbits w : Nat) : Option Instr :=
  match decodeBytes ((tableWords nbits w).flatMap wordBytes) with
  | .instr i _ => some i
  | _ => none

/-! ## Encoding -/

/-- A register number, a bit number or a constant as a four-bit field (R124). -/
def regBits (r : Fin 16) : BitVec 4 := BitVec.ofNat 4 r.val

/-- A count 1 to 16 as the field N - 1 (R129). -/
def countBits (n : Nat) : BitVec 4 := BitVec.ofNat 4 (n - 1)

/-- An opcode whose bits 6 and 7 hold BR' = BR - 12 (R123). -/
def baseOp (op : Byte) (br : Reg) : Byte := op + BitVec.ofNat 8 (br.val - 12)

/-- A first word from its opcode and its two four-bit fields (R123). -/
def firstWord (op : Byte) (hi lo : BitVec 4) : Word := op ++ hi ++ lo

/-- A first word whose bits 8 to 15 are one field (R123, formats 6 and 7a). -/
def firstWord8 (op : Byte) (f : Byte) : Word := op ++ f

/-- Bits 8 to 11 of BIF and BIFI: the direct bit, the three-word bit, the coprocessor number (R153). -/
def bifBits (direct three : Bool) (cp : Fin 4) : BitVec 4 :=
  BitVec.ofBool direct ++ BitVec.ofBool three ++ BitVec.ofNat 2 cp.val

/-- BIF and BIFI: the two-word form has no `a2` (R153). -/
def bifWords (direct three : Bool) (cp : Fin 4) (rx : Reg) (a1 a2 : Word) : List Word :=
  firstWord 0x4F (bifBits direct three cp) (regBits rx) :: a1 :: (if three then [a2] else [])

/-- The words of an instruction. -/
def encode : Instr → List Word
  | .lb br du => [firstWord8 (baseOp 0x00 br) du]
  | .dlb br du => [firstWord8 (baseOp 0x04 br) du]
  | .stb br du => [firstWord8 (baseOp 0x08 br) du]
  | .dstb br du => [firstWord8 (baseOp 0x0C br) du]
  | .ab br du => [firstWord8 (baseOp 0x10 br) du]
  | .sbb br du => [firstWord8 (baseOp 0x14 br) du]
  | .mb br du => [firstWord8 (baseOp 0x18 br) du]
  | .db br du => [firstWord8 (baseOp 0x1C br) du]
  | .fab br du => [firstWord8 (baseOp 0x20 br) du]
  | .fsb br du => [firstWord8 (baseOp 0x24 br) du]
  | .fmb br du => [firstWord8 (baseOp 0x28 br) du]
  | .fdb br du => [firstWord8 (baseOp 0x2C br) du]
  | .orb br du => [firstWord8 (baseOp 0x30 br) du]
  | .andb br du => [firstWord8 (baseOp 0x34 br) du]
  | .cb br du => [firstWord8 (baseOp 0x38 br) du]
  | .fcb br du => [firstWord8 (baseOp 0x3C br) du]
  | .lbx br rx => [firstWord (baseOp 0x40 br) 0x0 (regBits rx)]
  | .dlbx br rx => [firstWord (baseOp 0x40 br) 0x1 (regBits rx)]
  | .stbx br rx => [firstWord (baseOp 0x40 br) 0x2 (regBits rx)]
  | .dstx br rx => [firstWord (baseOp 0x40 br) 0x3 (regBits rx)]
  | .abx br rx => [firstWord (baseOp 0x40 br) 0x4 (regBits rx)]
  | .sbbx br rx => [firstWord (baseOp 0x40 br) 0x5 (regBits rx)]
  | .mbx br rx => [firstWord (baseOp 0x40 br) 0x6 (regBits rx)]
  | .dbx br rx => [firstWord (baseOp 0x40 br) 0x7 (regBits rx)]
  | .fabx br rx => [firstWord (baseOp 0x40 br) 0x8 (regBits rx)]
  | .fsbx br rx => [firstWord (baseOp 0x40 br) 0x9 (regBits rx)]
  | .fmbx br rx => [firstWord (baseOp 0x40 br) 0xA (regBits rx)]
  | .fdbx br rx => [firstWord (baseOp 0x40 br) 0xB (regBits rx)]
  | .cbx br rx => [firstWord (baseOp 0x40 br) 0xC (regBits rx)]
  | .fcbx br rx => [firstWord (baseOp 0x40 br) 0xD (regBits rx)]
  | .andx br rx => [firstWord (baseOp 0x40 br) 0xE (regBits rx)]
  | .orbx br rx => [firstWord (baseOp 0x40 br) 0xF (regBits rx)]
  | .xio ra rx data => [firstWord 0x48 (regBits ra) (regBits rx), data]
  | .vio ra rx a => [firstWord 0x49 (regBits ra) (regBits rx), a]
  | .sb k rx a => [firstWord 0x50 (regBits k) (regBits rx), a]
  | .sbr k rb => [firstWord 0x51 (regBits k) (regBits rb)]
  | .sbi k rx a => [firstWord 0x52 (regBits k) (regBits rx), a]
  | .rb k rx a => [firstWord 0x53 (regBits k) (regBits rx), a]
  | .rbr k rb => [firstWord 0x54 (regBits k) (regBits rb)]
  | .rbi k rx a => [firstWord 0x55 (regBits k) (regBits rx), a]
  | .tb k rx a => [firstWord 0x56 (regBits k) (regBits rx), a]
  | .tbr k rb => [firstWord 0x57 (regBits k) (regBits rb)]
  | .tbi k rx a => [firstWord 0x58 (regBits k) (regBits rx), a]
  | .tsb k rx a => [firstWord 0x59 (regBits k) (regBits rx), a]
  | .svbr ra rb => [firstWord 0x5A (regBits ra) (regBits rb)]
  | .rvbr ra rb => [firstWord 0x5C (regBits ra) (regBits rb)]
  | .tvbr ra rb => [firstWord 0x5E (regBits ra) (regBits rb)]
  | .sll k rb => [firstWord 0x60 (countBits k) (regBits rb)]
  | .srl k rb => [firstWord 0x61 (countBits k) (regBits rb)]
  | .sra k rb => [firstWord 0x62 (countBits k) (regBits rb)]
  | .slc k rb => [firstWord 0x63 (countBits k) (regBits rb)]
  | .dsll k rb => [firstWord 0x65 (countBits k) (regBits rb)]
  | .dsrl k rb => [firstWord 0x66 (countBits k) (regBits rb)]
  | .dsra k rb => [firstWord 0x67 (countBits k) (regBits rb)]
  | .dslc k rb => [firstWord 0x68 (countBits k) (regBits rb)]
  | .slr ra rb => [firstWord 0x6A (regBits ra) (regBits rb)]
  | .sar ra rb => [firstWord 0x6B (regBits ra) (regBits rb)]
  | .scr ra rb => [firstWord 0x6C (regBits ra) (regBits rb)]
  | .dslr ra rb => [firstWord 0x6D (regBits ra) (regBits rb)]
  | .dsar ra rb => [firstWord 0x6E (regBits ra) (regBits rb)]
  | .dscr ra rb => [firstWord 0x6F (regBits ra) (regBits rb)]
  | .jc c rx a => [firstWord 0x70 c (regBits rx), a]
  | .jci c rx a => [firstWord 0x71 c (regBits rx), a]
  | .js ra rx a => [firstWord 0x72 (regBits ra) (regBits rx), a]
  | .soj ra rx a => [firstWord 0x73 (regBits ra) (regBits rx), a]
  | .br d => [firstWord8 0x74 d]
  | .bez d => [firstWord8 0x75 d]
  | .blt d => [firstWord8 0x76 d]
  | .bex k => [firstWord 0x77 0 (regBits k)]
  | .ble d => [firstWord8 0x78 d]
  | .bgt d => [firstWord8 0x79 d]
  | .bnz d => [firstWord8 0x7A d]
  | .bge d => [firstWord8 0x7B d]
  | .lsti rx a => [firstWord 0x7C 0 (regBits rx), a]
  | .lst rx a => [firstWord 0x7D 0 (regBits rx), a]
  | .sjs ra rx a => [firstWord 0x7E (regBits ra) (regBits rx), a]
  | .urs ra => [firstWord 0x7F (regBits ra) 0]
  | .l ra rx a => [firstWord 0x80 (regBits ra) (regBits rx), a]
  | .lr ra rb => [firstWord 0x81 (regBits ra) (regBits rb)]
  | .lisp ra k => [firstWord 0x82 (regBits ra) (countBits k)]
  | .lisn ra k => [firstWord 0x83 (regBits ra) (countBits k)]
  | .li ra rx a => [firstWord 0x84 (regBits ra) (regBits rx), a]
  | .lim ra rx data => [firstWord 0x85 (regBits ra) (regBits rx), data]
  | .dl ra rx a => [firstWord 0x86 (regBits ra) (regBits rx), a]
  | .dlr ra rb => [firstWord 0x87 (regBits ra) (regBits rb)]
  | .dli ra rx a => [firstWord 0x88 (regBits ra) (regBits rx), a]
  | .lm k rx a => [firstWord 0x89 (regBits k) (regBits rx), a]
  | .efl ra rx a => [firstWord 0x8A (regBits ra) (regBits rx), a]
  | .lub ra rx a => [firstWord 0x8B (regBits ra) (regBits rx), a]
  | .llb ra rx a => [firstWord 0x8C (regBits ra) (regBits rx), a]
  | .lubi ra rx a => [firstWord 0x8D (regBits ra) (regBits rx), a]
  | .llbi ra rx a => [firstWord 0x8E (regBits ra) (regBits rx), a]
  | .popm ra rb => [firstWord 0x8F (regBits ra) (regBits rb)]
  | .st ra rx a => [firstWord 0x90 (regBits ra) (regBits rx), a]
  | .stc k rx a => [firstWord 0x91 (regBits k) (regBits rx), a]
  | .stci k rx a => [firstWord 0x92 (regBits k) (regBits rx), a]
  | .mov ra rb => [firstWord 0x93 (regBits ra) (regBits rb)]
  | .sti ra rx a => [firstWord 0x94 (regBits ra) (regBits rx), a]
  | .dst ra rx a => [firstWord 0x96 (regBits ra) (regBits rx), a]
  | .srm ra rx a => [firstWord 0x97 (regBits ra) (regBits rx), a]
  | .dsti ra rx a => [firstWord 0x98 (regBits ra) (regBits rx), a]
  | .stm k rx a => [firstWord 0x99 (regBits k) (regBits rx), a]
  | .efst ra rx a => [firstWord 0x9A (regBits ra) (regBits rx), a]
  | .stub ra rx a => [firstWord 0x9B (regBits ra) (regBits rx), a]
  | .stlb ra rx a => [firstWord 0x9C (regBits ra) (regBits rx), a]
  | .subi ra rx a => [firstWord 0x9D (regBits ra) (regBits rx), a]
  | .slbi ra rx a => [firstWord 0x9E (regBits ra) (regBits rx), a]
  | .pshm ra rb => [firstWord 0x9F (regBits ra) (regBits rb)]
  | .a ra rx a => [firstWord 0xA0 (regBits ra) (regBits rx), a]
  | .ar ra rb => [firstWord 0xA1 (regBits ra) (regBits rb)]
  | .aisp ra k => [firstWord 0xA2 (regBits ra) (countBits k)]
  | .incm k rx a => [firstWord 0xA3 (countBits k) (regBits rx), a]
  | .abs ra rb => [firstWord 0xA4 (regBits ra) (regBits rb)]
  | .dabs ra rb => [firstWord 0xA5 (regBits ra) (regBits rb)]
  | .da ra rx a => [firstWord 0xA6 (regBits ra) (regBits rx), a]
  | .dar ra rb => [firstWord 0xA7 (regBits ra) (regBits rb)]
  | .fa ra rx a => [firstWord 0xA8 (regBits ra) (regBits rx), a]
  | .far ra rb => [firstWord 0xA9 (regBits ra) (regBits rb)]
  | .efa ra rx a => [firstWord 0xAA (regBits ra) (regBits rx), a]
  | .efar ra rb => [firstWord 0xAB (regBits ra) (regBits rb)]
  | .fabs ra rb => [firstWord 0xAC (regBits ra) (regBits rb)]
  | .s ra rx a => [firstWord 0xB0 (regBits ra) (regBits rx), a]
  | .sr ra rb => [firstWord 0xB1 (regBits ra) (regBits rb)]
  | .sisp ra k => [firstWord 0xB2 (regBits ra) (countBits k)]
  | .decm k rx a => [firstWord 0xB3 (countBits k) (regBits rx), a]
  | .neg ra rb => [firstWord 0xB4 (regBits ra) (regBits rb)]
  | .dneg ra rb => [firstWord 0xB5 (regBits ra) (regBits rb)]
  | .ds ra rx a => [firstWord 0xB6 (regBits ra) (regBits rx), a]
  | .dsr ra rb => [firstWord 0xB7 (regBits ra) (regBits rb)]
  | .fs ra rx a => [firstWord 0xB8 (regBits ra) (regBits rx), a]
  | .fsr ra rb => [firstWord 0xB9 (regBits ra) (regBits rb)]
  | .efs ra rx a => [firstWord 0xBA (regBits ra) (regBits rx), a]
  | .efsr ra rb => [firstWord 0xBB (regBits ra) (regBits rb)]
  | .fneg ra rb => [firstWord 0xBC (regBits ra) (regBits rb)]
  | .ms ra rx a => [firstWord 0xC0 (regBits ra) (regBits rx), a]
  | .msr ra rb => [firstWord 0xC1 (regBits ra) (regBits rb)]
  | .misp ra k => [firstWord 0xC2 (regBits ra) (countBits k)]
  | .misn ra k => [firstWord 0xC3 (regBits ra) (countBits k)]
  | .m ra rx a => [firstWord 0xC4 (regBits ra) (regBits rx), a]
  | .mr ra rb => [firstWord 0xC5 (regBits ra) (regBits rb)]
  | .dm ra rx a => [firstWord 0xC6 (regBits ra) (regBits rx), a]
  | .dmr ra rb => [firstWord 0xC7 (regBits ra) (regBits rb)]
  | .fm ra rx a => [firstWord 0xC8 (regBits ra) (regBits rx), a]
  | .fmr ra rb => [firstWord 0xC9 (regBits ra) (regBits rb)]
  | .efm ra rx a => [firstWord 0xCA (regBits ra) (regBits rx), a]
  | .efmr ra rb => [firstWord 0xCB (regBits ra) (regBits rb)]
  | .dv ra rx a => [firstWord 0xD0 (regBits ra) (regBits rx), a]
  | .dvr ra rb => [firstWord 0xD1 (regBits ra) (regBits rb)]
  | .disp ra k => [firstWord 0xD2 (regBits ra) (countBits k)]
  | .disn ra k => [firstWord 0xD3 (regBits ra) (countBits k)]
  | .d ra rx a => [firstWord 0xD4 (regBits ra) (regBits rx), a]
  | .dr ra rb => [firstWord 0xD5 (regBits ra) (regBits rb)]
  | .dd ra rx a => [firstWord 0xD6 (regBits ra) (regBits rx), a]
  | .ddr ra rb => [firstWord 0xD7 (regBits ra) (regBits rb)]
  | .fd ra rx a => [firstWord 0xD8 (regBits ra) (regBits rx), a]
  | .fdr ra rb => [firstWord 0xD9 (regBits ra) (regBits rb)]
  | .efd ra rx a => [firstWord 0xDA (regBits ra) (regBits rx), a]
  | .efdr ra rb => [firstWord 0xDB (regBits ra) (regBits rb)]
  | .or ra rx a => [firstWord 0xE0 (regBits ra) (regBits rx), a]
  | .orr ra rb => [firstWord 0xE1 (regBits ra) (regBits rb)]
  | .and ra rx a => [firstWord 0xE2 (regBits ra) (regBits rx), a]
  | .andr ra rb => [firstWord 0xE3 (regBits ra) (regBits rb)]
  | .xor ra rx a => [firstWord 0xE4 (regBits ra) (regBits rx), a]
  | .xorr ra rb => [firstWord 0xE5 (regBits ra) (regBits rb)]
  | .n ra rx a => [firstWord 0xE6 (regBits ra) (regBits rx), a]
  | .nr ra rb => [firstWord 0xE7 (regBits ra) (regBits rb)]
  | .fix ra rb => [firstWord 0xE8 (regBits ra) (regBits rb)]
  | .flt ra rb => [firstWord 0xE9 (regBits ra) (regBits rb)]
  | .efix ra rb => [firstWord 0xEA (regBits ra) (regBits rb)]
  | .eflt ra rb => [firstWord 0xEB (regBits ra) (regBits rb)]
  | .xbr ra => [firstWord 0xEC (regBits ra) 0]
  | .xwr ra rb => [firstWord 0xED (regBits ra) (regBits rb)]
  | .c ra rx a => [firstWord 0xF0 (regBits ra) (regBits rx), a]
  | .cr ra rb => [firstWord 0xF1 (regBits ra) (regBits rb)]
  | .cisp ra k => [firstWord 0xF2 (regBits ra) (countBits k)]
  | .cisn ra k => [firstWord 0xF3 (regBits ra) (countBits k)]
  | .cbl ra rx a => [firstWord 0xF4 (regBits ra) (regBits rx), a]
  | .dc ra rx a => [firstWord 0xF6 (regBits ra) (regBits rx), a]
  | .dcr ra rb => [firstWord 0xF7 (regBits ra) (regBits rb)]
  | .fc ra rx a => [firstWord 0xF8 (regBits ra) (regBits rx), a]
  | .fcr ra rb => [firstWord 0xF9 (regBits ra) (regBits rb)]
  | .efc ra rx a => [firstWord 0xFA (regBits ra) (regBits rx), a]
  | .efcr ra rb => [firstWord 0xFB (regBits ra) (regBits rb)]
  | .aim ra data => [firstWord 0x4A (regBits ra) 0x1, data]
  | .sim ra data => [firstWord 0x4A (regBits ra) 0x2, data]
  | .mim ra data => [firstWord 0x4A (regBits ra) 0x3, data]
  | .msim ra data => [firstWord 0x4A (regBits ra) 0x4, data]
  | .dim ra data => [firstWord 0x4A (regBits ra) 0x5, data]
  | .dvim ra data => [firstWord 0x4A (regBits ra) 0x6, data]
  | .andm ra data => [firstWord 0x4A (regBits ra) 0x7, data]
  | .orim ra data => [firstWord 0x4A (regBits ra) 0x8, data]
  | .xorm ra data => [firstWord 0x4A (regBits ra) 0x9, data]
  | .cim ra data => [firstWord 0x4A (regBits ra) 0xA, data]
  | .nim ra data => [firstWord 0x4A (regBits ra) 0xB, data]
  | .bif three cp rx a1 a2 => bifWords false three cp rx a1 a2
  | .bifi three cp rx a1 a2 => bifWords true three cp rx a1 a2
  | .nop => [0xFF00]
  | .bpt => [0xFFFF]

end Sys2Proof
end

