-- ==== Sys2Proof/Machine/Fetch.lean ====
section
/-! DEFINITION. Fetching an instruction (20_memory.md R103, 60_exceptions.md R663, R720): word by word, as far as the words
fetched need a further one. After each word the others have their turn (20_memory.md R101, log 60). -/

namespace Sys2Proof.Machine

/-- What a fetch gives. -/
inductive Fetched where
  /-- What the words are, the first of them, and the state the fetch has left. -/
  | word (d : Decoded) (first : Word) (s : State)
  /-- A cycle drew these FT bits. -/
  | faulted (bits : Word) (s : State)
  /-- RESET has come. -/
  | stopped (s : State)
deriving DecidableEq, Repr

/-- One fetch cycle: the word, or the FT bits it drew (20_memory.md R81, R84, 60_exceptions.md R663). -/
def State.fetchCycle (s : State) (addr : Word) : Except Word Word :=
  let c := s.ownCycle .fetch addr
  if c.clean then .ok (s.mem.readWord c.phys) else .error c.bits

/-- A word has been fetched: the others have their turn, then the fetch goes on with `k`. -/
def State.fetchTurn (s : State) (k : State → Fetched) : Fetched :=
  if s.turn.resetting then .stopped s.turn else k s.turn

/-- The third word, where the first two need it. -/
def State.fetchThird (w0 w1 : Word) (s : State) : Fetched :=
  match s.fetchCycle (s.ic + 2) with
  | .error bits => .faulted bits s
  | .ok w2 => s.fetchTurn (.word (decode [w0, w1, w2]) w0)

/-- The second word, where the first needs it. -/
def State.fetchSecond (w0 : Word) (s : State) : Fetched :=
  match s.fetchCycle (s.ic + 1) with
  | .error bits => .faulted bits s
  | .ok w1 =>
    match decode [w0, w1] with
    | .more => s.fetchTurn (State.fetchThird w0 w1)
    | d => s.fetchTurn (.word d w0)

/-- The instruction at IC. -/
def State.fetch (s : State) : Fetched :=
  match s.fetchCycle s.ic with
  | .error bits => .faulted bits s
  | .ok w0 =>
    match decode [w0] with
    | .more => s.fetchTurn (State.fetchSecond w0)
    | d => s.fetchTurn (.word d w0)

/-- The word `v` stored where a fetch from `addr` reads it. -/
def State.storeFetched (s : State) (addr v : Word) : State :=
  s.setMem (s.mem.writeWord (s.ownCycle .fetch addr).phys v)

/-- These words stored where fetches from `addr` on read them. -/
def State.storeProgram (s : State) (addr : Word) : List Word → State
  | [] => s
  | v :: rest => (s.storeFetched addr v).storeProgram (addr + 1) rest

end Sys2Proof.Machine
end

