-- ==== Sys2Proof/Machine/Step.lean ====
section
/-! DEFINITION. The step function: RESET, a console request, the DISABLE wait, one word of a MOV in progress, or one
instruction with the boundary after it (00_scope.md R13, 60_exceptions.md R678). -/

namespace Sys2Proof.Machine

/-- Instruction `i` runs, and what follows it. -/
def State.runInstr (s : State) (e : Env) (i : Instr) : Result :=
  match exec i s with
  | .next t => t.finish e (s.ending i)
  | .fault f => .fault f
  | .refused r => .refused r

/-- An instruction is fetched and runs (60_exceptions.md R720). -/
def State.fetchRun (s : State) (e : Env) : Result :=
  match s.fetch with
  | .stopped t => .next t.halt
  | .faulted bits t => t.fetchFault bits e
  | .word (.instr i _) _ t => t.runInstr e i
  | .word .illegal _ t => (t.illegalInstruction 1).finish e .boundary
  | .word .reserved w _ => .refused (.reservedEncoding w)
  | .word .more w _ => .refused (.reservedEncoding w)

/-- One step of the machine. -/
def step (s : State) : Result :=
  let e := s.outside
  if e.reset || s.resetting then .next s.halt
  else if s.consoleMode then
    if s.asked e.conreq then arriveInConsole (s.console (s.asked e.conreqHeld)) e else .next (s.arrive e false)
  else if s.waiting then s.wait e
  else
    match s.moving with
    | some (ra, rb) => s.runInstr e (.mov ra rb)
    | none => s.fetchRun e

/-- The instruction whose bits are `w` stored where the next step fetches it (log 42). -/
def State.withFetchWord (s : State) (nbits w : Nat) : State := s.storeProgram s.ic (tableWords nbits w)

end Sys2Proof.Machine
end

