-- ==== Sys2Proof/Safety.lean ====
section
/-! DEFINITION. The terms in which statements about the machine are made: operands whose cycles draw no fault, results
written as a change of the state, memory after stores, the invariant that every step keeps. -/

namespace Sys2Proof.Machine

/-! ## Cycles that draw no fault -/

/-- An operand read at `addr` draws no fault (20_memory.md R96). -/
def State.readable (s : State) (addr : Word) : Bool := (s.ownCycle .read addr).clean

/-- An operand write at `addr` draws no fault and reaches memory (20_memory.md R97, 48_mmu_bpu.md R606). -/
def State.writable (s : State) (addr : Word) : Bool := (s.ownCycle .write addr).clean && !s.writesBlocked

/-- Nothing happens outside between the coming bus cycles. An operand of more than one cycle is what memory held at the start
only then (20_memory.md R91); what it is else `Obligations.Load`, `Obligations.Store` and `Obligations.OutsideInputs` say. -/
def State.alone (s : State) : Bool := s.turns.isEmpty

/-- `n` words from `addr` on can be read, with nothing from outside between them. -/
def State.readableSpan (s : State) (addr : Word) (n : Nat) : Bool :=
  ((List.range n).all fun k => s.readable (addr + BitVec.ofNat 16 k)) && (decide (n ≤ 1) || s.alone)

/-- `n` words from `addr` on can be written, with nothing from outside between them. -/
def State.writableSpan (s : State) (addr : Word) (n : Nat) : Bool :=
  ((List.range n).all fun k => s.writable (addr + BitVec.ofNat 16 k)) && (decide (n ≤ 1) || s.alone)

/-- The word an operand read at `addr` brings. -/
def State.loaded (s : State) (addr : Word) : Word := s.mem.readWord (s.ownCycle .read addr).phys

/-- Two words, the first the more significant (20_memory.md R91). -/
def State.loaded2 (s : State) (addr : Word) : Long := s.loaded addr ++ s.loaded (addr + 1)

/-- Three words. -/
def State.loaded3 (s : State) (addr : Word) : Triple := s.loaded addr ++ s.loaded (addr + 1) ++ s.loaded (addr + 2)

/-- Where in physical memory an operand write at `addr` goes. -/
def State.place (s : State) (addr : Word) : Phys := (s.ownCycle .write addr).phys

/-! ## Operands by addressing mode (30_encoding.md R125 to R132) -/

/-- Where an instruction finds its operand. -/
inductive Source where
  | register (r : Reg)
  | literal (w : Word)
  | direct (rx : Reg) (a : Word)
  | indirect (rx : Reg) (a : Word)
  | base (br : Reg) (du : Byte)
  | baseIndexed (br rx : Reg)
deriving DecidableEq, Repr

/-- The derived address; 0 where the mode has none. -/
def Source.address (s : State) : Source → Word
  | .register _ | .literal _ => 0
  | .direct rx a => s.indexed a rx
  | .indirect rx a => s.loaded (s.indexed a rx)
  | .base br du => s.reg br + du.zeroExtend 16
  | .baseIndexed br rx => s.indexed (s.reg br) rx

/-- The derived address itself is had without a fault: the pointer can be read, and nothing from outside comes between it and
the operand. -/
def Source.located (s : State) : Source → Bool
  | .indirect rx a => s.readable (s.indexed a rx) && s.alone
  | .register _ | .literal _ | .direct _ _ | .base _ _ | .baseIndexed _ _ => true

/-- An operand of `n` words is had without a fault. -/
def Source.ready (s : State) (n : Nat) : Source → Bool
  | .register _ | .literal _ => true
  | .direct rx a => s.readableSpan (s.indexed a rx) n
  | .indirect rx a => s.readable (s.indexed a rx) && s.readableSpan (s.loaded (s.indexed a rx)) n && s.alone
  | .base br du => s.readableSpan (s.reg br + du.zeroExtend 16) n
  | .baseIndexed br rx => s.readableSpan (s.indexed (s.reg br) rx) n

/-- The operand word. -/
def Source.word (s : State) : Source → Word
  | .register r => s.reg r
  | .literal w => w
  | .direct rx a => s.loaded (Source.address s (.direct rx a))
  | .indirect rx a => s.loaded (Source.address s (.indirect rx a))
  | .base br du => s.loaded (Source.address s (.base br du))
  | .baseIndexed br rx => s.loaded (Source.address s (.baseIndexed br rx))

/-- The operand of two words; a literal has one word only. -/
def Source.long (s : State) : Source → Long
  | .register r => s.pair r
  | .literal w => w.zeroExtend 32
  | .direct rx a => s.loaded2 (Source.address s (.direct rx a))
  | .indirect rx a => s.loaded2 (Source.address s (.indirect rx a))
  | .base br du => s.loaded2 (Source.address s (.base br du))
  | .baseIndexed br rx => s.loaded2 (Source.address s (.baseIndexed br rx))

/-- The operand of three words. -/
def Source.triple (s : State) : Source → Triple
  | .register r => s.triple r
  | .literal w => w.zeroExtend 48
  | .direct rx a => s.loaded3 (Source.address s (.direct rx a))
  | .indirect rx a => s.loaded3 (Source.address s (.indirect rx a))
  | .base br du => s.loaded3 (Source.address s (.base br du))
  | .baseIndexed br rx => s.loaded3 (Source.address s (.baseIndexed br rx))

/-! ## Results -/

/-- CS for a number: Z, N or P (10_state.md R27). -/
def signCs (v : Int) : BitVec 4 := if v = 0 then 0b0010 else if v < 0 then 0b0001 else 0b0100

/-- CS for the order of two numbers (40_integer.md R175). -/
def orderCs (x y : Int) : BitVec 4 := if x = y then 0b0010 else if x < y then 0b0001 else 0b0100

/-- The same with the carry in front. -/
def carryCs (c : Bool) (v : Int) : BitVec 4 := (if c then 0b1000 else 0) ||| signCs v

/-- A signed number of `w` bits. -/
def fits (w : Nat) (v : Int) : Bool := decide (-2 ^ (w - 1) ≤ v) && decide (v < 2 ^ (w - 1))

/-- The pending bit of level n, where `c` holds. -/
def pendingIf (c : Bool) (n : Nat) : Word := if c then oneBit n else 0

/-- An instruction of `len` words ends: CS is `cs`, the bits `pend` are pending too, IC is past it, nothing else
changes. -/
def State.ends (s : State) (cs : BitVec 4) (pend len : Word) : State :=
  { s with sw := cs ++ s.sw.extractLsb' 0 12, pir := s.pir ||| pend, ic := s.ic + len }

/-- An instruction of `len` words ends with CS and PIR as they were. -/
def State.past (s : State) (len : Word) : State := { s with ic := s.ic + len }

/-! ## Memory after stores -/

/-- `m'` holds the words `ws` at their places and reads as `m` everywhere else. -/
def Stored (m m' : Memory) (ws : List (Phys × Word)) : Prop :=
  (∀ pw ∈ ws, m'.readWord pw.1 = pw.2) ∧
    ∀ b, (∀ pw ∈ ws, b ≠ 2 * pw.1.toNat ∧ b ≠ 2 * pw.1.toNat + 1) → m'.readByte b = m.readByte b

/-- `words` at the places of `addr`, `addr + 1`, ... -/
def State.placed (s : State) (addr : Word) : List Word → List (Phys × Word)
  | [] => []
  | v :: vs => (s.place addr, v) :: s.placed (addr + 1) vs

/-! ## The interrupt sequence (60_exceptions.md R679, R680) -/

/-- A word of the vector table or a service area: operand space, address state 0, lock and key ignored. -/
def State.vectorWord (s : State) (addr : Word) : Word := s.mem.readWord (s.keylessCycle .read 0 addr).phys

/-- Its read draws no fault. -/
def State.vectorReady (s : State) (addr : Word) : Bool := (s.keylessCycle .read 0 addr).clean

/-- What the sequence of level n finds: the service pointer at 0021 + 2n, there the new MK and SW and the new IC number
`entry`, and the linkage pointer at 0020 + 2n. -/
def State.service (s : State) (n : Fin 16) (entry : Word) : NewStatus :=
  let svp := s.vectorWord (0x0021 + BitVec.ofNat 16 (2 * n.val))
  { mask := s.vectorWord svp, sw := s.vectorWord (svp + 1), ic := s.vectorWord (svp + 2 + entry)
    lp := s.vectorWord (0x0020 + BitVec.ofNat 16 (2 * n.val)) }

/-- Its five reads draw no fault, and nothing from outside comes between them. -/
def State.serviceReady (s : State) (n : Fin 16) (entry : Word) : Bool :=
  let svp := s.vectorWord (0x0021 + BitVec.ofNat 16 (2 * n.val))
  s.vectorReady (0x0021 + BitVec.ofNat 16 (2 * n.val)) && s.vectorReady svp && s.vectorReady (svp + 1) &&
    s.vectorReady (svp + 2 + entry) && s.vectorReady (0x0020 + BitVec.ofNat 16 (2 * n.val)) && s.alone

/-- The three stores at `lp` in address state `as` draw no fault and reach memory. -/
def State.linkageReady (s : State) (as : BitVec 4) (lp : Word) : Bool :=
  !s.writesBlocked && (s.keylessCycle .write as lp).clean && (s.keylessCycle .write as (lp + 1)).clean &&
    (s.keylessCycle .write as (lp + 2)).clean

/-- `t` is `s` after its interrupt sequence for level n: MK, SW and IC are the new ones, the old ones are stored in the
linkage area, interrupts are disabled, the pending bit is gone, the acknowledge is on the bus, nothing else changed. -/
def Enters (s : State) (n : Fin 16) (entry : Word) (t : State) : Prop :=
  let v := s.service n entry
  let spot := fun addr => (s.keylessCycle .write (asField v.sw) addr).phys
  t = { s with
        inten := false
        enbl := .idle
        mask := v.mask
        sw := v.sw &&& 0xF0FF
        ic := v.ic
        pir := s.pir &&& ~~~ oneBit n.val
        mem := t.mem
        trace := .ioWrite 0x1000 (~~~ oneBit n.val) :: s.trace } ∧
    t.mem.wf = true ∧ Stored s.mem t.mem [(spot v.lp, s.mask), (spot (v.lp + 1), s.sw), (spot (v.lp + 2), s.ic)]

/-! ## The invariant -/

/-- What holds of every state a run reaches: no reset is under way, memory is canonical, SW bits 4 to 7 and the unused FT bits are 0
(10_state.md R28, R36), SCR is the system's word (70_reset_and_hazards.md R746), without SCR bit 0 the address state is 0
(60_exceptions.md R668), and the three ways of not running instructions exclude each other. -/
structure Inv (s : State) : Prop where
  running : s.resetting = false
  memory : s.mem.wf = true
  status : s.sw &&& 0x0F00 = 0
  faults : s.ft &&& 0x1A0A = 0
  configuration : s.scr = s.platform.scrValue
  addressState : bitOf s.scr 0 = false → asField s.sw = 0
  stopped : ¬ (s.consoleMode = true ∧ s.waiting = true)
  moving : s.moving ≠ none → s.consoleMode = false ∧ s.waiting = false

end Sys2Proof.Machine
end

