-- ==== Sys2Proof/Certificates/Slice0/Obligations.lean ====
section
/-! DEFINITION. The statements about this model. Each speaks of every state that meets its hypotheses, and gives the whole
state after an instruction, so that whatever it does not name is unchanged. A table in front of a statement lists the
instructions it is about, with destination, operand and length. -/

open Sys2Proof Sys2Proof.Machine

/-! ## 0. What a faulted cycle leaves (60_exceptions.md R664, D35, log 15) -/

/-- The FT bits of a memory cycle: 0 for protection, 2 for parity, 8 for an absent address (20_memory.md R96). -/
def Sys2Proof.Machine.Shape.cycleFaults (c : Cycle) : Word :=
  pendingIf c.protect 0 ||| pendingIf c.parity 2 ||| pendingIf c.absent 8

/-- `s` after an instruction of `len` words that has read `addrs`, some of them with faults, and has done nothing else: FT, PIR
bit 1, IC, one pulse and one open value a faulted read. -/
def Sys2Proof.Machine.Shape.readsFaulted (s : State) (addrs : List Word) (len : Word) : State :=
  let bad := addrs.filter fun a => !s.readable a
  { s with
    ft := bad.foldl (fun f a => f ||| Shape.cycleFaults (s.ownCycle .read a)) s.ft
    pir := s.pir ||| oneBit 1
    ic := s.ic + len
    trace := bad.map (fun _ => .majEr) ++ s.trace
    free := s.free + bad.length }

/-- `t` is `s` after an instruction of `len` words has made the write cycles of `ws` from `addr` on, whatever they draw, and has
done nothing else. `aborted` says that a cycle before them has aborted it. MEM PRT ER and PAR ER abort it, an absent address
does not (R664). A write that draws MEM PRT ER, one to an absent address and one under global protection change nothing; from
the abort on what is stored is open. -/
def Sys2Proof.Machine.Shape.Stores (s : State) (addr : Word) (ws : List Word) (aborted : Bool) (len : Word) (t : State) : Prop :=
  let c := fun k : Nat => s.ownCycle .write (addr + BitVec.ofNat 16 k)
  let aborts := fun k : Nat => (c k).protect || (c k).parity
  let lands := fun k : Nat => !(c k).protect && !(c k).absent && !s.writesBlocked
  let openAt := fun k : Nat => aborted || (List.range (k + 1)).any aborts
  let ks := List.range ws.length
  t = { s with
        ft := ks.foldl (fun f k => f ||| Shape.cycleFaults (c k)) s.ft
        pir := s.pir ||| pendingIf (ks.any fun k => !(c k).clean) 1
        ic := s.ic + len
        trace := (ks.filter aborts).map (fun _ => .majEr) ++ s.trace
        free := s.free + (ks.filter fun k => openAt k && lands k).length
        mem := t.mem } ∧
    t.mem.wf = true ∧
    ∃ vs : List Word, vs.length = ws.length ∧ (∀ k < ws.length, openAt k = false → vs[k]? = ws[k]?) ∧
      Stored s.mem t.mem ((ks.filter lands).map fun k => (s.place (addr + BitVec.ofNat 16 k), vs.getD k 0))

/-- `t` after an I/O write cycle at `cmd` with data `d`: EXT ADR ER sets FT bit 5, PAR ER FT bit 2, either of them PIR bit 1, and
nothing is aborted (47_io.md R502, 60_exceptions.md R666; that PAR ER aborts nothing is log 45). -/
def Sys2Proof.Machine.Shape.ioWritten (t : State) (cmd d : Word) : State :=
  { t with
    ft := t.ft ||| pendingIf (ioFlawAt t.platform .illegal cmd) 5 ||| pendingIf (ioFlawAt t.platform .parity cmd) 2
    pir := t.pir ||| pendingIf (t.ioFaulty cmd) 1
    trace := .ioWrite cmd d :: t.trace }

/-! ## 1. Integer instructions (40_integer.md) -/

/-- A, AR, AB, ABX, AISP, AIM. -/
def Sys2Proof.Machine.Shape.addWord : Instr → Option (Reg × Source × Word)
  | .a ra rx a => some (ra, .direct rx a, 2)
  | .ar ra rb => some (ra, .register rb, 1)
  | .ab br du => some (2, .base br du, 1)
  | .abx br rx => some (2, .baseIndexed br rx, 1)
  | .aisp ra n => some (ra, .literal (BitVec.ofNat 16 n), 1)
  | .aim ra data => some (ra, .literal data, 2)
  | _ => none

/-- The 16-bit adds (40_integer.md R171, R172, R176 to R181): the sum modulo 2^16, CS with the carry out of the sign
position, fixed-point overflow when the exact sum does not fit; nothing else changes. -/
def Obligations.AddWord : Prop :=
  ∀ (i : Instr) (s : State) (ra : Reg) (o : Source) (len : Word),
    Shape.addWord i = some (ra, o, len) → o.ready s 1 = true →
      let sum := (s.reg ra).toInt + (o.word s).toInt
      exec i s = .next ((s.setReg ra (BitVec.ofInt 16 sum)).ends
        (carryCs (decide (2 ^ 16 ≤ (s.reg ra).toNat + (o.word s).toNat)) (BitVec.ofInt 16 sum).toInt)
        (pendingIf (!fits 16 sum) 4) len)

/-- S, SR, SBB, SBBX, SISP, SIM. -/
def Sys2Proof.Machine.Shape.subWord : Instr → Option (Reg × Source × Word)
  | .s ra rx a => some (ra, .direct rx a, 2)
  | .sr ra rb => some (ra, .register rb, 1)
  | .sbb br du => some (2, .base br du, 1)
  | .sbbx br rx => some (2, .baseIndexed br rx, 1)
  | .sisp ra n => some (ra, .literal (BitVec.ofNat 16 n), 1)
  | .sim ra data => some (ra, .literal data, 2)
  | _ => none

/-- The 16-bit subtracts (40_integer.md R171, R172, R184 to R189). That the carry is 1 when there is no borrow is the model's
choice after decision D11 (log 40). -/
def Obligations.SubtractWord : Prop :=
  ∀ (i : Instr) (s : State) (ra : Reg) (o : Source) (len : Word),
    Shape.subWord i = some (ra, o, len) → o.ready s 1 = true →
      let difference := (s.reg ra).toInt - (o.word s).toInt
      exec i s = .next ((s.setReg ra (BitVec.ofInt 16 difference)).ends
        (carryCs (decide ((o.word s).toNat ≤ (s.reg ra).toNat)) (BitVec.ofInt 16 difference).toInt)
        (pendingIf (!fits 16 difference) 4) len)

/-- DA, DAR; DS, DSR. The flag says which are subtracts. -/
def Sys2Proof.Machine.Shape.addLong : Instr → Option (Bool × Reg × Source × Word)
  | .da ra rx a => some (false, ra, .direct rx a, 2)
  | .dar ra rb => some (false, ra, .register rb, 1)
  | .ds ra rx a => some (true, ra, .direct rx a, 2)
  | .dsr ra rb => some (true, ra, .register rb, 1)
  | _ => none

/-- The 32-bit adds and subtracts (40_integer.md R171, R182, R183, R190, R191). That the carry of DS and DSR is 1 when there is
no borrow is the model's choice after decision D11 (log 40). -/
def Obligations.AddSubtractLong : Prop :=
  ∀ (i : Instr) (s : State) (subtract : Bool) (ra : Reg) (o : Source) (len : Word),
    Shape.addLong i = some (subtract, ra, o, len) → o.ready s 2 = true →
      let x := s.pair ra
      let y := o.long s
      let exact := if subtract then x.toInt - y.toInt else x.toInt + y.toInt
      let carry := if subtract then decide (y.toNat ≤ x.toNat) else decide (2 ^ 32 ≤ x.toNat + y.toNat)
      exec i s = .next ((s.setPair ra (BitVec.ofInt 32 exact)).ends (carryCs carry (BitVec.ofInt 32 exact).toInt)
        (pendingIf (!fits 32 exact) 4) len)

/-- INCM and DECM (40_integer.md R218, R219): the word at the derived address goes up or down by N; every other byte of
memory, every register and the rest of the state stay, and no other master comes between the read and the write
(20_memory.md R95). The carry of DECM, 1 where there is no borrow, is the model's choice after decision D11 (log 40). -/
def Obligations.CountInMemory : Prop :=
  ∀ (n : Nat) (rx : Reg) (a : Word) (s : State), isCount n = true → s.mem.wf = true →
    s.readable (s.indexed a rx) = true → s.writable (s.indexed a rx) = true →
      let m := s.loaded (s.indexed a rx)
      let up := m.toInt + n
      let down := m.toInt - n
      (∃ t, exec (.incm n rx a) s = .next t ∧
        t = { s.ends (carryCs (decide (2 ^ 16 ≤ m.toNat + n)) (BitVec.ofInt 16 up).toInt)
                (pendingIf (!fits 16 up) 4) 2 with mem := t.mem } ∧
        t.mem.wf = true ∧ Stored s.mem t.mem [(s.place (s.indexed a rx), BitVec.ofInt 16 up)]) ∧
      ∃ t, exec (.decm n rx a) s = .next t ∧
        t = { s.ends (carryCs (decide (n ≤ m.toNat)) (BitVec.ofInt 16 down).toInt)
                (pendingIf (!fits 16 down) 4) 2 with mem := t.mem } ∧
        t.mem.wf = true ∧ Stored s.mem t.mem [(s.place (s.indexed a rx), BitVec.ofInt 16 down)]

/-- ABS, NEG, DABS, DNEG (40_integer.md R192, R193, R220, R221): the exact absolute value or negative, narrowed, with
fixed-point overflow for the most negative number. -/
def Obligations.AbsoluteAndNegative : Prop :=
  ∀ (ra rb : Reg) (s : State),
    let x := (s.reg rb).toInt
    let y := (s.pair rb).toInt
    exec (.abs ra rb) s = .next ((s.setReg ra (BitVec.ofInt 16 |x|)).ends (signCs (BitVec.ofInt 16 |x|).toInt)
      (pendingIf (!fits 16 |x|) 4) 1) ∧
    exec (.neg ra rb) s = .next ((s.setReg ra (BitVec.ofInt 16 (-x))).ends (signCs (BitVec.ofInt 16 (-x)).toInt)
      (pendingIf (!fits 16 (-x)) 4) 1) ∧
    exec (.dabs ra rb) s = .next ((s.setPair ra (BitVec.ofInt 32 |y|)).ends (signCs (BitVec.ofInt 32 |y|).toInt)
      (pendingIf (!fits 32 |y|) 4) 1) ∧
    exec (.dneg ra rb) s = .next ((s.setPair ra (BitVec.ofInt 32 (-y))).ends (signCs (BitVec.ofInt 32 (-y)).toInt)
      (pendingIf (!fits 32 (-y)) 4) 1)

/-- MS, MSR, MISP, MISN, MSIM. -/
def Sys2Proof.Machine.Shape.mulShort : Instr → Option (Reg × Source × Word)
  | .ms ra rx a => some (ra, .direct rx a, 2)
  | .msr ra rb => some (ra, .register rb, 1)
  | .misp ra n => some (ra, .literal (BitVec.ofNat 16 n), 1)
  | .misn ra n => some (ra, .literal (-BitVec.ofNat 16 n), 1)
  | .msim ra data => some (ra, .literal data, 2)
  | _ => none

/-- DM, DMR. -/
def Sys2Proof.Machine.Shape.mulLong : Instr → Option (Reg × Source × Word)
  | .dm ra rx a => some (ra, .direct rx a, 2)
  | .dmr ra rb => some (ra, .register rb, 1)
  | _ => none

/-- The multiplications that keep the low half of the product (40_integer.md R173, R194 to R198, R204, R205): fixed-point
overflow exactly when the exact product does not fit. -/
def Obligations.MultiplyLowHalf : Prop :=
  (∀ (i : Instr) (s : State) (ra : Reg) (o : Source) (len : Word),
    Shape.mulShort i = some (ra, o, len) → o.ready s 1 = true →
      let p := (s.reg ra).toInt * (o.word s).toInt
      exec i s = .next ((s.setReg ra (BitVec.ofInt 16 p)).ends (signCs (BitVec.ofInt 16 p).toInt)
        (pendingIf (!fits 16 p) 4) len)) ∧
  ∀ (i : Instr) (s : State) (ra : Reg) (o : Source) (len : Word),
    Shape.mulLong i = some (ra, o, len) → o.ready s 2 = true →
      let p := (s.pair ra).toInt * (o.long s).toInt
      exec i s = .next ((s.setPair ra (BitVec.ofInt 32 p)).ends (signCs (BitVec.ofInt 32 p).toInt)
        (pendingIf (!fits 32 p) 4) len)

/-- M, MR, MB, MBX, MIM. -/
def Sys2Proof.Machine.Shape.mulWide : Instr → Option (Reg × Source × Word)
  | .m ra rx a => some (ra, .direct rx a, 2)
  | .mr ra rb => some (ra, .register rb, 1)
  | .mb br du => some (2, .base br du, 1)
  | .mbx br rx => some (2, .baseIndexed br rx, 1)
  | .mim ra data => some (ra, .literal data, 2)
  | _ => none

/-- The multiplications with the whole product (40_integer.md R173, R199 to R203): RR[RA] holds the exact product, its sign
is the sign of the exact product, and there is never an overflow. -/
def Obligations.MultiplyWhole : Prop :=
  ∀ (i : Instr) (s : State) (ra : Reg) (o : Source) (len : Word),
    Shape.mulWide i = some (ra, o, len) → o.ready s 1 = true →
      let p := (s.reg ra).toInt * (o.word s).toInt
      ∃ v : Long, v.toInt = p ∧ exec i s = .next ((s.setPair ra v).ends (signCs p) 0 len)

/-- DV, DVR, DISP, DISN, DVIM; D, DR, DB, DBX, DIM. The flag says which take a 32-bit dividend. -/
def Sys2Proof.Machine.Shape.divide : Instr → Option (Bool × Reg × Source × Word)
  | .dv ra rx a => some (false, ra, .direct rx a, 2)
  | .dvr ra rb => some (false, ra, .register rb, 1)
  | .disp ra n => some (false, ra, .literal (BitVec.ofNat 16 n), 1)
  | .disn ra n => some (false, ra, .literal (-BitVec.ofNat 16 n), 1)
  | .dvim ra data => some (false, ra, .literal data, 2)
  | .d ra rx a => some (true, ra, .direct rx a, 2)
  | .dr ra rb => some (true, ra, .register rb, 1)
  | .db br du => some (true, 2, .base br du, 1)
  | .dbx br rx => some (true, 2, .baseIndexed br rx, 1)
  | .dim ra data => some (true, ra, .literal data, 2)
  | _ => none

/-- DD, DDR. -/
def Sys2Proof.Machine.Shape.divideLong : Instr → Option (Reg × Source × Word)
  | .dd ra rx a => some (ra, .direct rx a, 2)
  | .ddr ra rb => some (ra, .register rb, 1)
  | _ => none

/-- The divisions (40_integer.md R174, R206 to R217): a quotient and a remainder with `n = q * d + r`, the remainder smaller
than the divisor and of the dividend's sign; by a word both are narrowed to a word, by a long the quotient is kept and the
remainder lost; overflow when the quotient does not fit. A zero divisor clears the registers with overflow (D10). -/
def Obligations.Divide : Prop :=
  (∀ (i : Instr) (s : State) (long : Bool) (ra : Reg) (o : Source) (len : Word),
    Shape.divide i = some (long, ra, o, len) → o.ready s 1 = true →
      let n := if long then (s.pair ra).toInt else (s.reg ra).toInt
      let d := (o.word s).toInt
      (d = 0 → exec i s = .next ((s.setPair ra 0).ends 0b0010 (oneBit 4) len)) ∧
      (d ≠ 0 → ∃ q r : Int, n = q * d + r ∧ |r| < |d| ∧ 0 ≤ r * n ∧
        exec i s = .next ((s.setPair ra (BitVec.ofInt 16 q ++ BitVec.ofInt 16 r)).ends
          (signCs (BitVec.ofInt 16 q).toInt) (pendingIf (!fits 16 q) 4) len))) ∧
  ∀ (i : Instr) (s : State) (ra : Reg) (o : Source) (len : Word),
    Shape.divideLong i = some (ra, o, len) → o.ready s 2 = true →
      let n := (s.pair ra).toInt
      let d := (o.long s).toInt
      (d = 0 → exec i s = .next ((s.setPair ra 0).ends 0b0010 (oneBit 4) len)) ∧
      (d ≠ 0 → ∃ q r : Int, n = q * d + r ∧ |r| < |d| ∧ 0 ≤ r * n ∧
        exec i s = .next ((s.setPair ra (BitVec.ofInt 32 q)).ends (signCs (BitVec.ofInt 32 q).toInt)
          (pendingIf (!fits 32 q) 4) len))

/-- OR, ORR, ORB, ORBX, ORIM; AND, ANDR, ANDB, ANDX, ANDM; XOR, XORR, XORM; N, NR, NIM, each with what it does to one
bit. -/
def Sys2Proof.Machine.Shape.logic : Instr → Option ((Bool → Bool → Bool) × Reg × Source × Word)
  | .or ra rx a => some (or, ra, .direct rx a, 2)
  | .orr ra rb => some (or, ra, .register rb, 1)
  | .orb br du => some (or, 2, .base br du, 1)
  | .orbx br rx => some (or, 2, .baseIndexed br rx, 1)
  | .orim ra data => some (or, ra, .literal data, 2)
  | .and ra rx a => some (and, ra, .direct rx a, 2)
  | .andr ra rb => some (and, ra, .register rb, 1)
  | .andb br du => some (and, 2, .base br du, 1)
  | .andx br rx => some (and, 2, .baseIndexed br rx, 1)
  | .andm ra data => some (and, ra, .literal data, 2)
  | .xor ra rx a => some (xor, ra, .direct rx a, 2)
  | .xorr ra rb => some (xor, ra, .register rb, 1)
  | .xorm ra data => some (xor, ra, .literal data, 2)
  | .n ra rx a => some (fun x y => !(x && y), ra, .direct rx a, 2)
  | .nr ra rb => some (fun x y => !(x && y), ra, .register rb, 1)
  | .nim ra data => some (fun x y => !(x && y), ra, .literal data, 2)
  | _ => none

/-- The logical operations, bit by bit, with CS from the result (40_integer.md R222 to R237). -/
def Obligations.Logic : Prop :=
  ∀ (i : Instr) (s : State) (f : Bool → Bool → Bool) (ra : Reg) (o : Source) (len : Word),
    Shape.logic i = some (f, ra, o, len) → o.ready s 1 = true →
      ∃ v : Word, (∀ k < 16, bitOf v k = f (bitOf (s.reg ra) k) (bitOf (o.word s) k)) ∧
        exec i s = .next ((s.setReg ra v).ends (signCs v.toInt) 0 len)

/-- C, CR, CB, CBX, CISP, CISN, CIM. -/
def Sys2Proof.Machine.Shape.compareWord : Instr → Option (Reg × Source × Word)
  | .c ra rx a => some (ra, .direct rx a, 2)
  | .cr ra rb => some (ra, .register rb, 1)
  | .cb br du => some (2, .base br du, 1)
  | .cbx br rx => some (2, .baseIndexed br rx, 1)
  | .cisp ra n => some (ra, .literal (BitVec.ofNat 16 n), 1)
  | .cisn ra n => some (ra, .literal (-BitVec.ofNat 16 n), 1)
  | .cim ra data => some (ra, .literal data, 2)
  | _ => none

/-- DC, DCR. -/
def Sys2Proof.Machine.Shape.compareLong : Instr → Option (Reg × Source × Word)
  | .dc ra rx a => some (ra, .direct rx a, 2)
  | .dcr ra rb => some (ra, .register rb, 1)
  | _ => none

/-- The compares set CS from the order of the signed numbers and change nothing else (40_integer.md R175, R238 to R246);
CBL places R[RA] against the limits in two memory words (R247). -/
def Obligations.Compare : Prop :=
  (∀ (i : Instr) (s : State) (ra : Reg) (o : Source) (len : Word),
    Shape.compareWord i = some (ra, o, len) → o.ready s 1 = true →
      exec i s = .next (s.ends (orderCs (s.reg ra).toInt (o.word s).toInt) 0 len)) ∧
  (∀ (i : Instr) (s : State) (ra : Reg) (o : Source) (len : Word),
    Shape.compareLong i = some (ra, o, len) → o.ready s 2 = true →
      exec i s = .next (s.ends (orderCs (s.pair ra).toInt (o.long s).toInt) 0 len)) ∧
  ∀ (s : State) (ra rx : Reg) (a : Word), s.readableSpan (s.indexed a rx) 2 = true →
    let x := (s.reg ra).toInt
    let low := (s.loaded (s.indexed a rx)).toInt
    let high := (s.loaded (s.indexed a rx + 1)).toInt
    exec (.cbl ra rx a) s = .next (s.ends
      (if high < low then 0b1000 else if x < low then 0b0001 else if high < x then 0b0100 else 0b0010) 0 2)

/-! ## 2. Bit instructions (42_bit.md) -/

/-- SBR and SVBR set, RBR and RVBR clear one bit of R[RB]; the variable forms take the bit number from the low four bits
of R[RA]; CS stays. Each has the word of its rule (42_bit.md R320, R322, R325, R331, R332). -/
def Obligations.BitsInRegister : Prop :=
  ∀ (n ra rb : Fin 16) (s : State) (i : Instr) (code k : Nat) (v : Bool),
    (i, code, k, v) ∈ [(Instr.sbr n rb, 0x5100 + 16 * n.val + rb.val, n.val, true),
      (.rbr n rb, 0x5400 + 16 * n.val + rb.val, n.val, false),
      (.svbr ra rb, 0x5A00 + 16 * ra.val + rb.val, (s.reg ra).toNat % 16, true),
      (.rvbr ra rb, 0x5C00 + 16 * ra.val + rb.val, (s.reg ra).toNat % 16, false)] →
      decode [BitVec.ofNat 16 code] = .instr i [] ∧
      ∃ w : Word, (∀ j < 16, bitOf w j = if j = k then v else bitOf (s.reg rb) j) ∧
        exec i s = .next ((s.setReg rb w).past 1)

/-- TB, TBI, TBR, TVBR test one bit: CS is zero if it is 0, else negative for bit 0 and positive for any other; nothing
else changes (42_bit.md R320, R327 to R329, R333). -/
def Obligations.BitTests : Prop :=
  ∀ (n ra rb rx : Fin 16) (a : Word) (s : State) (i : Instr) (k : Nat) (o : Source) (len : Word),
    (i, k, o, len) ∈ [(Instr.tb n rx a, n.val, Source.direct rx a, 2), (.tbi n rx a, n.val, .indirect rx a, 2),
      (.tbr n rb, n.val, .register rb, 1), (.tvbr ra rb, (s.reg ra).toNat % 16, .register rb, 1)] →
    o.ready s 1 = true →
      exec i s = .next (s.ends
        (if bitOf (o.word s) k = false then 0b0010 else if k = 0 then 0b0001 else 0b0100) 0 len)

/-- SB, SBI, RB, RBI and TSB change one bit of a word in memory and no other byte; only TSB sets CS, from the bit as it was
(42_bit.md R320, R321, R323, R324, R326, R330). -/
def Obligations.BitsInMemory : Prop :=
  ∀ (n rx : Fin 16) (a : Word) (s : State) (i : Instr) (v tests : Bool) (o : Source),
    (i, v, tests, o) ∈ [(Instr.sb n rx a, true, false, Source.direct rx a), (.sbi n rx a, true, false, .indirect rx a),
      (.rb n rx a, false, false, .direct rx a), (.rbi n rx a, false, false, .indirect rx a),
      (.tsb n rx a, true, true, .direct rx a)] →
    s.mem.wf = true → o.ready s 1 = true → s.writable (o.address s) = true →
      ∃ (w : Word) (t : State), (∀ j < 16, bitOf w j = if j = n.val then v else bitOf (o.word s) j) ∧
        exec i s = .next t ∧
        t = { s.past 2 with
              mem := t.mem
              sw := if tests then
                  ((if bitOf (o.word s) n.val = false then 0b0010 else if n.val = 0 then 0b0001 else 0b0100 : BitVec 4)) ++
                    s.sw.extractLsb' 0 12
                else s.sw } ∧
        t.mem.wf = true ∧ Stored s.mem t.mem [(s.place (o.address s), w)]

/-! ## 3. Shifts (43_shift.md) -/

/-- How bits move. -/
inductive Sys2Proof.Machine.Shape.Shift where
  | logical
  | arithmetic
  | cyclic

/-- Bit `k`, counted from the left, of `v` shifted `c` positions to the left, to the right where `c` is negative
(43_shift.md R350). -/
def Sys2Proof.Machine.Shape.shiftedBit {w : Nat} (kind : Shape.Shift) (v : BitVec w) (c : Int) (k : Nat) : Bool :=
  match kind with
  | .logical => decide (0 ≤ k + c) && v.getMsbD (k + c).toNat
  | .arithmetic => if k + c < 0 then v.msb else v.getMsbD (k + c).toNat
  | .cyclic => v.getMsbD ((k + c) % w).toNat

/-- SLL, SRL, SRA, SLC and their double forms: the register or pair shifted by N, 1 to 16, CS from the result. Each has
the word of its rule, with N - 1 in its field (43_shift.md R350, R351, R355 to R363). -/
def Obligations.ShiftByConstant : Prop :=
  ∀ (n : Nat) (rb : Reg) (s : State), isCount n = true →
    (∀ (i : Instr) (op : Nat) (kind : Shape.Shift) (c : Int),
      (i, op, kind, c) ∈ [(Instr.sll n rb, 0x60, Shape.Shift.logical, (n : Int)), (.srl n rb, 0x61, .logical, -n),
        (.sra n rb, 0x62, .arithmetic, -n), (.slc n rb, 0x63, .cyclic, n)] →
        decode [BitVec.ofNat 16 (256 * op + 16 * (n - 1) + rb.val)] = .instr i [] ∧
        ∃ v : Word, (∀ k < 16, v.getMsbD k = Shape.shiftedBit kind (s.reg rb) c k) ∧
          exec i s = .next ((s.setReg rb v).ends (signCs v.toInt) 0 1)) ∧
    ∀ (i : Instr) (op : Nat) (kind : Shape.Shift) (c : Int),
      (i, op, kind, c) ∈ [(Instr.dsll n rb, 0x65, Shape.Shift.logical, (n : Int)), (.dsrl n rb, 0x66, .logical, -n),
        (.dsra n rb, 0x67, .arithmetic, -n), (.dslc n rb, 0x68, .cyclic, n)] →
        decode [BitVec.ofNat 16 (256 * op + 16 * (n - 1) + rb.val)] = .instr i [] ∧
        ∃ v : Long, (∀ k < 32, v.getMsbD k = Shape.shiftedBit kind (s.pair rb) c k) ∧
          exec i s = .next ((s.setPair rb v).ends (signCs v.toInt) 0 1)

/-- SLR, SAR, SCR and their double forms shift by the signed count in R[RB], left if positive: a count outside -W to W
leaves the operand and raises fixed-point overflow, and so does an arithmetic shift to the left whose exact result does not
fit; CS is from what RA then holds (43_shift.md R352 to R354, R364 to R369, D17). -/
def Obligations.ShiftByRegister : Prop :=
  ∀ (ra rb : Reg) (s : State),
    let c := (s.reg rb).toInt
    (∀ (i : Instr) (kind : Shape.Shift) (arithmetic : Bool),
      (i, kind, arithmetic) ∈ [(Instr.slr ra rb, Shape.Shift.logical, false), (.sar ra rb, .arithmetic, true),
        (.scr ra rb, .cyclic, false)] →
        ((c < -16 ∨ 16 < c) → exec i s = .next (s.ends (signCs (s.reg ra).toInt) (oneBit 4) 1)) ∧
        (-16 ≤ c → c ≤ 16 → ∃ v : Word, (∀ k < 16, v.getMsbD k = Shape.shiftedBit kind (s.reg ra) c k) ∧
          exec i s = .next ((s.setReg ra v).ends (signCs v.toInt)
            (pendingIf (arithmetic && !fits 16 ((s.reg ra).toInt * 2 ^ c.toNat)) 4) 1))) ∧
    ∀ (i : Instr) (kind : Shape.Shift) (arithmetic : Bool),
      (i, kind, arithmetic) ∈ [(Instr.dslr ra rb, Shape.Shift.logical, false), (.dsar ra rb, .arithmetic, true),
        (.dscr ra rb, .cyclic, false)] →
        ((c < -32 ∨ 32 < c) → exec i s = .next (s.ends (signCs (s.pair ra).toInt) (oneBit 4) 1)) ∧
        (-32 ≤ c → c ≤ 32 → ∃ v : Long, (∀ k < 32, v.getMsbD k = Shape.shiftedBit kind (s.pair ra) c k) ∧
          exec i s = .next ((s.setPair ra v).ends (signCs v.toInt)
            (pendingIf (arithmetic && !fits 32 ((s.pair ra).toInt * 2 ^ c.toNat)) 4) 1))

/-! ## 4. Loads, stores, exchanges (44_load_store.md) -/

/-- L, LR, LB, LBX, LI, LIM, LISP, LISN. -/
def Sys2Proof.Machine.Shape.loadWord (s : State) : Instr → Option (Reg × Source × Word)
  | .l ra rx a => some (ra, .direct rx a, 2)
  | .lr ra rb => some (ra, .register rb, 1)
  | .lb br du => some (2, .base br du, 1)
  | .lbx br rx => some (2, .baseIndexed br rx, 1)
  | .li ra rx a => some (ra, .indirect rx a, 2)
  | .lim ra rx data => some (ra, .literal (s.indexed data rx), 2)
  | .lisp ra n => some (ra, .literal (BitVec.ofNat 16 n), 1)
  | .lisn ra n => some (ra, .literal (-BitVec.ofNat 16 n), 1)
  | _ => none

/-- DL, DLR, DLB, DLBX, DLI. -/
def Sys2Proof.Machine.Shape.loadLong : Instr → Option (Reg × Source × Word)
  | .dl ra rx a => some (ra, .direct rx a, 2)
  | .dlr ra rb => some (ra, .register rb, 1)
  | .dlb br du => some (0, .base br du, 1)
  | .dlbx br rx => some (0, .baseIndexed br rx, 1)
  | .dli ra rx a => some (ra, .indirect rx a, 2)
  | _ => none

/-- The loads of one, two and three words: the registers hold the operand, CS is its sign, nothing else changes
(44_load_store.md R380 to R394). That DLR reads both words before it writes one is the model's choice after decision D18 (log
41). Where other masters act between the two cycles of a DL, its second word is what they have left: a double operand is
not atomic (20_memory.md R91; that a turn of theirs falls there is log 60). -/
def Obligations.Load : Prop :=
  (∀ (i : Instr) (s : State) (ra : Reg) (o : Source) (len : Word),
    Shape.loadWord s i = some (ra, o, len) → o.ready s 1 = true →
      exec i s = .next ((s.setReg ra (o.word s)).ends (signCs (o.word s).toInt) 0 len)) ∧
  (∀ (i : Instr) (s : State) (ra : Reg) (o : Source) (len : Word),
    Shape.loadLong i = some (ra, o, len) → o.ready s 2 = true →
      exec i s = .next ((s.setPair ra (o.long s)).ends (signCs (o.long s).toInt) 0 len)) ∧
  (∀ (s : State) (ra rx : Reg) (a : Word), Source.ready s 3 (.direct rx a) = true →
    exec (.efl ra rx a) s =
      .next ((s.setTriple ra (Source.triple s (.direct rx a))).ends
        (signCs (Source.triple s (.direct rx a)).toInt) 0 2)) ∧
  ∀ (s : State) (ra rx : Reg) (a : Word),
    s.readable (s.indexed a rx) = true → s.turn.readable (s.indexed a rx + 1) = true → s.resetComes = false →
      let v := s.loaded (s.indexed a rx) ++ s.turn.loaded (s.indexed a rx + 1)
      exec (.dl ra rx a) s = .next ((s.turn.setPair ra v).ends (signCs v.toInt) 0 2)

/-- LUB, LUBI take the upper, LLB, LLBI the lower byte of a memory word into bits 8 to 15 of RA; bits 0 to 7 stay and CS is
from the whole register (44_load_store.md R395 to R399). -/
def Obligations.LoadByte : Prop :=
  ∀ (ra rx : Reg) (a : Word) (s : State) (i : Instr) (upper : Bool) (o : Source),
    (i, upper, o) ∈ [(Instr.lub ra rx a, true, Source.direct rx a), (.lubi ra rx a, true, .indirect rx a),
      (.llb ra rx a, false, .direct rx a), (.llbi ra rx a, false, .indirect rx a)] →
    o.ready s 1 = true →
      ∃ v : Word, v.toNat / 256 = (s.reg ra).toNat / 256 ∧
        v.toNat % 256 = (if upper then (o.word s).toNat / 256 else (o.word s).toNat % 256) ∧
        exec i s = .next ((s.setReg ra v).ends (signCs v.toInt) 0 2)

/-- ST, STB, STBX, STI, STC, STCI: where, which word, how long. -/
def Sys2Proof.Machine.Shape.storeWord (s : State) : Instr → Option (Source × List Word × Word)
  | .st ra rx a => some (.direct rx a, [s.reg ra], 2)
  | .stb br du => some (.base br du, [s.reg 2], 1)
  | .stbx br rx => some (.baseIndexed br rx, [s.reg 2], 1)
  | .sti ra rx a => some (.indirect rx a, [s.reg ra], 2)
  | .stc n rx a => some (.direct rx a, [BitVec.ofNat 16 n.val], 2)
  | .stci n rx a => some (.indirect rx a, [BitVec.ofNat 16 n.val], 2)
  | _ => none

/-- DST, DSTB, DSTX, DSTI, EFST. -/
def Sys2Proof.Machine.Shape.storeLong (s : State) : Instr → Option (Source × List Word × Word)
  | .dst ra rx a => some (.direct rx a, [s.reg ra, s.reg (ra + 1)], 2)
  | .dstb br du => some (.base br du, [s.reg 0, s.reg 1], 1)
  | .dstx br rx => some (.baseIndexed br rx, [s.reg 0, s.reg 1], 1)
  | .dsti ra rx a => some (.indirect rx a, [s.reg ra, s.reg (ra + 1)], 2)
  | .efst ra rx a => some (.direct rx a, [s.reg ra, s.reg (ra + 1), s.reg (ra + 2)], 2)
  | _ => none

/-- The stores of one, two and three words: memory holds the words where the derived address and the ones after it go, every
other byte and the rest of the state stay, IC goes past the instruction (44_load_store.md R380, R400 to R405, R407 to R410,
R412). Other masters may act between the two cycles of a DST (20_memory.md R91), and a RESET there leaves the first word
stored and the second not (70_reset_and_hazards.md R740; that a turn falls there is log 60). -/
def Obligations.Store : Prop :=
  (∀ (i : Instr) (s : State) (o : Source) (ws : List Word) (len : Word),
    Shape.storeWord s i = some (o, ws, len) ∨ Shape.storeLong s i = some (o, ws, len) →
    s.mem.wf = true → o.located s = true → s.writableSpan (o.address s) ws.length = true →
      ∃ t, exec i s = .next t ∧ t = { s.past len with mem := t.mem } ∧ t.mem.wf = true ∧
        Stored s.mem t.mem (s.placed (o.address s) ws)) ∧
  ∀ (s : State) (ra rx : Reg) (a : Word), s.mem.wf = true → s.writable (s.indexed a rx) = true →
    ∃ m : Memory, m.wf = true ∧ Stored s.mem m [(s.place (s.indexed a rx), s.reg ra)] ∧
      let u := ({ s with mem := m } : State).turn
      (s.resetComes = true → exec (.dst ra rx a) s = .next (u.past 2) ∧ u.resetting = true) ∧
      (s.resetComes = false → u.writable (s.indexed a rx + 1) = true →
        ∃ t, exec (.dst ra rx a) s = .next t ∧ t = { u.past 2 with mem := t.mem } ∧ t.mem.wf = true ∧
          Stored u.mem t.mem [(u.place (s.indexed a rx + 1), s.reg (ra + 1))])

/-- SRM replaces the bits that R[RA+1] selects by those of R[RA]; STUB, SUBI the upper, STLB, SLBI the lower byte of a memory
word by the lower byte of RA; every other bit of memory stays (44_load_store.md R411, R413 to R417). -/
def Obligations.StorePart : Prop :=
  ∀ (ra rx : Reg) (a : Word) (s : State) (i : Instr) (o : Source) (new : Nat → Bool) (taken : Nat → Bool),
    (i, o, new, taken) ∈
      [(Instr.srm ra rx a, Source.direct rx a, bitOf (s.reg ra), bitOf (s.reg (ra + 1))),
       (.stub ra rx a, .direct rx a, fun k => bitOf (s.reg ra) (k + 8), fun k => decide (k < 8)),
       (.subi ra rx a, .indirect rx a, fun k => bitOf (s.reg ra) (k + 8), fun k => decide (k < 8)),
       (.stlb ra rx a, .direct rx a, bitOf (s.reg ra), fun k => decide (8 ≤ k)),
       (.slbi ra rx a, .indirect rx a, bitOf (s.reg ra), fun k => decide (8 ≤ k))] →
    s.mem.wf = true → o.ready s 1 = true → s.writable (o.address s) = true →
      ∃ (w : Word) (t : State), (∀ k < 16, bitOf w k = if taken k then new k else bitOf (o.word s) k) ∧
        exec i s = .next t ∧ t = { s.past 2 with mem := t.mem } ∧ t.mem.wf = true ∧
        Stored s.mem t.mem [(s.place (o.address s), w)]

/-- XBR exchanges the bytes of RA, XWR the words of RA and RB; CS is from the new RA. Each has the word of its rule
(44_load_store.md R418, R419). -/
def Obligations.Exchange : Prop :=
  ∀ (ra rb : Reg) (s : State),
    decode [BitVec.ofNat 16 (0xEC00 + 16 * ra.val)] = .instr (.xbr ra) [] ∧
    decode [BitVec.ofNat 16 (0xED00 + 16 * ra.val + rb.val)] = .instr (.xwr ra rb) [] ∧
    (∃ v : Word, v.toNat = (s.reg ra).toNat % 256 * 256 + (s.reg ra).toNat / 256 ∧
      exec (.xbr ra) s = .next ((s.setReg ra v).ends (signCs v.toInt) 0 1)) ∧
    ∃ t, exec (.xwr ra rb) s = .next t ∧
      t = { s.ends (signCs (s.reg rb).toInt) 0 1 with regs := t.regs } ∧
      ∀ q, t.reg q = if q = ra then s.reg rb else if q = rb then s.reg ra else s.reg q

/-! ## 5. Push, pop, load and store multiple, block move (45_multiple.md) -/

/-- LM loads R0 to RN from ascending addresses and changes no other register, no flag and no byte of memory; STM stores them
there and changes no other byte and nothing else (45_multiple.md R443, R444). That LM leaves CS is the model's choice after
decision D20 (log 41). A read that faults ends the loading: the registers before it are loaded, that one and those after it
keep their values, the rest of the cycles still fall (60_exceptions.md R664, D35, log 15). -/
def Obligations.LoadStoreMultiple : Prop :=
  ∀ (n : Fin 16) (rx : Reg) (a : Word) (s : State), s.alone = true →
    let word := fun k : Nat => s.indexed a rx + BitVec.ofNat 16 k
    (s.readableSpan (s.indexed a rx) (n.val + 1) = true →
      ∃ t, exec (.lm n rx a) s = .next t ∧ t = { s.past 2 with regs := t.regs } ∧
        ∀ q : Reg, t.reg q = if q.val ≤ n.val then s.loaded (word q.val) else s.reg q) ∧
    (s.mem.wf = true → s.writableSpan (s.indexed a rx) (n.val + 1) = true →
      ∃ t, exec (.stm n rx a) s = .next t ∧ t = { s.past 2 with mem := t.mem } ∧ t.mem.wf = true ∧
        Stored s.mem t.mem
          (s.placed (s.indexed a rx) ((List.range (n.val + 1)).map fun k => s.reg (Fin.ofNat 16 k)))) ∧
    ∀ j : Nat, j ≤ n.val → (∀ k < j, s.readable (word k) = true) → s.readable (word j) = false →
      ∃ t, exec (.lm n rx a) s = .next t ∧
        t = { Shape.readsFaulted s ((List.range (n.val + 1)).map word) 2 with regs := t.regs } ∧
        ∀ q : Reg, t.reg q = if q.val < j then s.loaded (word q.val) else s.reg q

/-- PSHM pushes the registers from RB down to RA: R15 goes down by their number, register RA + j stands j words above it; R15
itself is pushed as it is at its turn, which is the address it is pushed to (45_multiple.md R440, R441). A push that draws
MEM PRT ER stores nothing: R15 stays where that push has put it, the pushes before it are stored, and the words below hold open
values (60_exceptions.md R664, D35, log 15). -/
def Obligations.PushMultiple : Prop :=
  ∀ (ra rb : Reg) (s : State),
    let count := (rb - ra).val + 1
    let sp := s.reg 15 - BitVec.ofNat 16 count
    let ws := (List.range count).map fun j =>
      if ra + Fin.ofNat 16 j = 15 then sp + BitVec.ofNat 16 j else s.reg (ra + Fin.ofNat 16 j)
    s.mem.wf = true → s.alone = true →
      (s.writableSpan sp count = true →
        ∃ t, exec (.pshm ra rb) s = .next t ∧ t = { (s.setReg 15 sp).past 1 with mem := t.mem } ∧ t.mem.wf = true ∧
          Stored s.mem t.mem (s.placed sp ws)) ∧
      ∀ j : Nat, j < count → (s.ownCycle .write (sp + BitVec.ofNat 16 j)).protect = true →
        (∀ k < count, k ≠ j → s.writable (sp + BitVec.ofNat 16 k) = true) →
          ∃ (t : State) (vs : List Word), exec (.pshm ra rb) s = .next t ∧ vs.length = count ∧
            vs.drop (j + 1) = ws.drop (j + 1) ∧
            t = { (s.setReg 15 (sp + BitVec.ofNat 16 j)).past 1 with
              ft := s.ft ||| Shape.cycleFaults (s.ownCycle .write (sp + BitVec.ofNat 16 j)), pir := s.pir ||| oneBit 1,
              trace := .majEr :: s.trace, free := s.free + j, mem := t.mem } ∧
            t.mem.wf = true ∧ Stored s.mem t.mem ((s.placed sp vs).eraseIdx j)

/-- POPM pops the registers RA up to RB: register RA + j is the word j above R15, the word of R15 is skipped, R15 goes up by
their number; no flag and no byte of memory changes (45_multiple.md R442). That the skipped word is not read is the model's
choice after decision D19 (log 41). A read that faults ends the popping: R15 points at its word, the registers before it are
popped, the others keep their values (60_exceptions.md R664, D35, log 15). -/
def Obligations.PopMultiple : Prop :=
  ∀ (ra rb : Reg) (s : State), s.alone = true →
    let count := (rb - ra).val + 1
    let word := fun j : Nat => s.reg 15 + BitVec.ofNat 16 j
    let reads := (List.range count).filter fun j => decide (ra + Fin.ofNat 16 j ≠ 15)
    ((∀ j ∈ reads, s.readable (word j) = true) →
      ∃ t, exec (.popm ra rb) s = .next t ∧ t = { s.past 1 with regs := t.regs } ∧
        ∀ q : Reg, t.reg q =
          if q = 15 then word count else if (q - ra).val < count then s.loaded (word (q - ra).val) else s.reg q) ∧
    ∀ j ∈ reads, (∀ k ∈ reads, k < j → s.readable (word k) = true) → s.readable (word j) = false →
      ∃ t, exec (.popm ra rb) s = .next t ∧ t = { Shape.readsFaulted s (reads.map word) 1 with regs := t.regs } ∧
        ∀ q : Reg, t.reg q =
          if q = 15 then word j else if (q - ra).val < j then s.loaded (word (q - ra).val) else s.reg q

/-- `t` is `s` after a MOV has moved one word from [RB] to [RA] and counted, each change seeing the one before; IC moves on with
the last word only. -/
def Sys2Proof.Machine.Shape.Moves (s : State) (ra rb : Reg) (t : State) : Prop :=
  (∀ q, t.reg q = s.reg q + (if q = ra then 1 else 0) + (if q = rb then 1 else 0) - (if q = ra + 1 then 1 else 0)) ∧
    t = { s with regs := t.regs, mem := t.mem, ic := if t.reg (ra + 1) = 0 then s.ic + 1 else s.ic } ∧
    t.mem.wf = true ∧ Stored s.mem t.mem [(s.place (s.reg ra), s.loaded (s.reg rb))]

/-- One step of MOV (45_multiple.md R446, D21, the model's log 17).
- A count of 0 moves nothing. Otherwise a word moves (`Shape.Moves`), where no level is recognisable, or recognition is held
off (log 18), or the sequence of the level has been abandoned for its address state (60_exceptions.md R682 (a), log 27).
- Where a level is recognisable, the interrupt is taken with IC at the MOV (R689), before the first word of the MOV too where it
is the first instruction of a handler (the model's choice, log 64); a memory fault in its sequence stops the
model (R682 (b), U11, log 21).
- A word whose read draws a fault, or whose write draws MEM PRT ER or PAR ER, ends the MOV: the registers stay, IC goes past it,
and the cycles of all remaining words still happen, at the addresses the registers would have held, with open data: FT has the
bits of all of them (R664, D35, log 19; where RB = RA + 1, that the count at the abort says how many remain is the model's
choice, log 65). A write to an absent address sets FT bit 8, one under global protection nothing, and
the MOV goes on (log 15, log 34).
What follows the step is `State.ending`: the boundary after the last word, else the rest of the MOV, or nothing more where an
interrupt has been taken. -/
def Obligations.BlockMove : Prop :=
  ∀ (ra rb : Reg) (s : State),
    let count := (s.reg (ra + 1)).toNat
    let undisturbed := s.spi ≠ .idle ∨ s.nextLevel = none
    (s.reg (ra + 1) = 0 → exec (.mov ra rb) s = .next (s.past 1) ∧ s.ending (.mov ra rb) = .boundary) ∧
    (s.reg (ra + 1) ≠ 0 → ∀ v : State,
      (undisturbed ∧ v = s) ∨ (s.spi = .idle ∧ ∃ n, s.nextLevel = some n ∧ s.interrupt n 0 = .abandoned v) →
      v.mem.wf = true → v.alone = true → v.readable (v.reg rb) = true →
        (v.writable (v.reg ra) = true → ∃ t, exec (.mov ra rb) s = .next t ∧ Shape.Moves v ra rb t ∧
          s.ending (.mov ra rb) = if t.reg (ra + 1) = 0 then .boundary else .between ra rb) ∧
        (let c := v.ownCycle .write (v.reg ra)
         c.protect = false → c.parity = false → c.absent = true ∨ v.writesBlocked = true → ∃ t,
          exec (.mov ra rb) s = .next t ∧
          t = { v with
            ft := v.ft ||| pendingIf c.absent 8, pir := v.pir ||| pendingIf c.absent 1, regs := t.regs
            ic := if t.reg (ra + 1) = 0 then v.ic + 1 else v.ic } ∧
          s.ending (.mov ra rb) = (if t.reg (ra + 1) = 0 then .boundary else .between ra rb) ∧
          ∀ q, t.reg q = v.reg q + (if q = ra then 1 else 0) + (if q = rb then 1 else 0) - (if q = ra + 1 then 1 else 0))) ∧
    (∀ (n : Fin 16), s.reg (ra + 1) ≠ 0 → s.spi = .idle → s.nextLevel = some n →
      (∀ t, s.interrupt n 0 = .entered t → exec (.mov ra rb) s = .next t ∧ s.ending (.mov ra rb) = .taken) ∧
      ∀ f, s.interrupt n 0 = .failed f → exec (.mov ra rb) s = .fault f) ∧
    (s.reg (ra + 1) ≠ 0 → undisturbed → s.mem.wf = true → s.alone = true →
      let c := s.ownCycle .write (s.reg ra)
      s.readable (s.reg rb) = false ∨ c.protect = true ∨ c.parity = true →
        let held := fun k : Nat => (fun v : State => v.moveRegisters ra rb)^[k] s
        ∃ t, exec (.mov ra rb) s = .next t ∧ s.ending (.mov ra rb) = .boundary ∧
          t = { s with
            ft := (List.range count).foldl (fun f k => f ||| Shape.cycleFaults (s.ownCycle .read ((held k).reg rb)) |||
              Shape.cycleFaults (s.ownCycle .write ((held k).reg ra))) s.ft
            pir := s.pir ||| oneBit 1, ic := s.ic + 1, trace := t.trace, free := t.free, mem := t.mem } ∧
          t.mem.wf = true ∧
          ∀ b, (∀ k < count, b ≠ 2 * (s.place ((held k).reg ra)).toNat ∧ b ≠ 2 * (s.place ((held k).reg ra)).toNat + 1) →
            t.mem.readByte b = s.mem.readByte b)

/-! ## 6. Program control (46_control.md) -/

/-- JC, JCI: the jump is taken for C = 7, C = F and when C and CS have a 1 in common; nothing but IC changes (46_control.md
R461, R462, R464). That JCI reads its pointer only when the jump is taken is the model's choice after decision D22 (log 41).
A pointer that cannot be read aborts the jump (60_exceptions.md R664); what that leaves, IC past the JCI among it, is the
model's choice after decision D35 (log 15). -/
def Obligations.ConditionalJumps : Prop :=
  ∀ (c : BitVec 4) (rx : Reg) (a : Word) (s : State),
    let taken := c = 7 ∨ c = 15 ∨ ∃ k < 4, c.getLsbD k = true ∧ (csField s.sw).getLsbD k = true
    (taken → exec (.jc c rx a) s = .next { s with ic := s.indexed a rx }) ∧
    (¬ taken → exec (.jc c rx a) s = .next (s.past 2)) ∧
    (taken → s.readable (s.indexed a rx) = true →
      exec (.jci c rx a) s = .next { s with ic := s.loaded (s.indexed a rx) }) ∧
    (taken → s.readable (s.indexed a rx) = false →
      exec (.jci c rx a) s = .next (Shape.readsFaulted s [s.indexed a rx] 2)) ∧
    (¬ taken → exec (.jci c rx a) s = .next (s.past 2))

/-- JS leaves the address after it in RA and jumps to the address formed before RA changed; SOJ counts RA down, sets CS and
jumps until RA is 0. Each has the words of its rule (46_control.md R463, R465). -/
def Obligations.JumpsWithRegister : Prop :=
  ∀ (ra rx : Reg) (a : Word) (s : State),
    decode [BitVec.ofNat 16 (0x7200 + 16 * ra.val + rx.val), a] = .instr (.js ra rx a) [] ∧
    decode [BitVec.ofNat 16 (0x7300 + 16 * ra.val + rx.val), a] = .instr (.soj ra rx a) [] ∧
    exec (.js ra rx a) s = .next { s.setReg ra (s.ic + 2) with ic := s.indexed a rx } ∧
    exec (.soj ra rx a) s = .next
      { (s.setReg ra (s.reg ra - 1)).ends (signCs (s.reg ra - 1).toInt) 0 2 with
        ic := if s.reg ra = 1 then s.ic + 2 else s.indexed a rx }

/-- BR, BEZ, BLT, BLE, BGT, BNZ, BGE branch on P, Z and N of CS, relative to their own address; NOP goes on. Nothing but IC
changes. Each has the word of its rule (46_control.md R466 to R473, R479). -/
def Obligations.Branches : Prop :=
  ∀ (d : Byte) (s : State),
    let p := s.sw.getMsbD 1
    let z := s.sw.getMsbD 2
    let n := s.sw.getMsbD 3
    (∀ (i : Instr) (op : Nat) (c : Bool),
      (i, op, c) ∈ [(Instr.br d, 0x74, true), (.bez d, 0x75, z), (.blt d, 0x76, n), (.ble d, 0x78, z || n),
        (.bgt d, 0x79, p), (.bnz d, 0x7A, p || n), (.bge d, 0x7B, p || z)] →
        decode [BitVec.ofNat 16 (256 * op + d.toNat)] = .instr i [] ∧
        exec i s = .next { s with ic := if c then s.ic + BitVec.ofInt 16 d.toInt else s.ic + 1 }) ∧
    decode [0xFF00] = .instr .nop [] ∧ exec .nop s = .next (s.past 1)

/-- SJS pushes the address after it below RA and jumps to the address formed before RA changed; URS pops IC
(46_control.md R477, R478). A push that draws MEM PRT ER or PAR ER leaves RA counted down and does not jump, a pop that faults
leaves RA and does not jump (60_exceptions.md R664, D35, log 15). -/
def Obligations.StackLinkage : Prop :=
  ∀ (ra rx : Reg) (a : Word) (s : State),
    (s.mem.wf = true → s.writable (s.reg ra - 1) = true →
      ∃ t, exec (.sjs ra rx a) s = .next t ∧
        t = { s.setReg ra (s.reg ra - 1) with ic := s.indexed a rx, mem := t.mem } ∧ t.mem.wf = true ∧
        Stored s.mem t.mem [(s.place (s.reg ra - 1), s.ic + 2)]) ∧
    (s.mem.wf = true → (s.ownCycle .write (s.reg ra - 1)).protect = true ∨ (s.ownCycle .write (s.reg ra - 1)).parity = true →
      ∃ t, exec (.sjs ra rx a) s = .next t ∧
        Shape.Stores (s.setReg ra (s.reg ra - 1)) (s.reg ra - 1) [s.ic + 2] false 2 t) ∧
    (s.readable (s.reg ra) = true →
      exec (.urs ra) s = .next { s.setReg ra (s.reg ra + 1) with ic := s.loaded (s.reg ra) }) ∧
    (s.readable (s.reg ra) = false → exec (.urs ra) s = .next (Shape.readsFaulted s [s.reg ra] 1))

/-- BEX runs the interrupt sequence of level 5 with entry N of its service area, whatever MK and INTEN are; the address to
come back to is the one after it (46_control.md R474, 60_exceptions.md R680, R685). The model's choices in it: the sequence
is part of the instruction (decision D23), an ENBL that waits is cancelled (D25, logs 26 and 27), the order of the cycles is
that of D39 (log 27), and it is about clean cycles only, a faulting one being refused (U11, log 21). -/
def Obligations.ExecutiveCall : Prop :=
  ∀ (n : Fin 16) (s : State),
    let entry : Word := BitVec.ofNat 16 n.val
    s.mem.wf = true → s.serviceReady 5 entry = true →
    s.linkageReady (asField (s.service 5 entry).sw) (s.service 5 entry).lp = true →
    s.refusesStatus (s.service 5 entry).sw = false → s.ioFaulty 0x1000 = false →
      ∃ t, exec (.bex n) s = .next t ∧ Enters (s.past 1) 5 entry t

/-- LST, LSTI with AK = 0 load MK, SW and IC from three words; a status word whose address state is refused loads nothing:
FT bit 11, PIR bit 1, IC past the instruction (46_control.md R475, R476, 60_exceptions.md R668, R684). Where one of the
three reads, or the pointer of LSTI, faults nothing is loaded (R664). The model's choices in it: what the abort leaves, all the
reads issued and IC past the instruction, is decision D35 (log 15), the words after a faulted pointer are read at an open
address (log 16), no address-state check is then made (log 55). -/
def Obligations.LoadStatus : Prop :=
  ∀ (rx : Reg) (a : Word) (s : State) (i : Instr) (o : Source),
    (i, o) ∈ [(Instr.lst rx a, Source.direct rx a), (.lsti rx a, .indirect rx a)] →
    akField s.sw = 0 →
      let at_ := o.address s
      let new := s.loaded (at_ + 1)
      (o.ready s 3 = true → ¬ (bitOf s.scr 0 = false ∧ asField new ≠ 0) →
        exec i s = .next { s with mask := s.loaded at_, sw := new &&& 0xF0FF, ic := s.loaded (at_ + 2) }) ∧
      (o.ready s 3 = true → (bitOf s.scr 0 = false ∧ asField new ≠ 0) →
        exec i s = .next { s with ft := s.ft ||| oneBit 11, pir := s.pir ||| oneBit 1, ic := s.ic + 2,
                                  trace := .unrcvEr :: s.trace }) ∧
      (o.located s = true → s.alone = true → o.ready s 3 = false →
        exec i s = .next (Shape.readsFaulted s [at_, at_ + 1, at_ + 2] 2)) ∧
      (i = .lsti rx a → s.alone = true → s.readable (s.indexed a rx) = false →
        ∃ p, exec i s = .next (Shape.readsFaulted s [s.indexed a rx, p, p + 1, p + 2] 2))

/-- BPT reads I/O address 8410 into SCR and enters console mode when bit 2 of it is 1 (46_control.md R488). A read that draws
PAR ER sets FT bit 2 and goes on (log 45); one that draws EXT ADR ER aborts: FT bit 5, SCR and the mode as they were
(60_exceptions.md R666). -/
def Obligations.Breakpoint : Prop :=
  ∀ (s : State),
    let parity := ioFlawAt s.platform .parity 0x8410
    (ioFlawAt s.platform .illegal 0x8410 = false →
      exec .bpt s = .next { s with
        scr := s.platform.scrValue
        consoleMode := s.platform.scrValue.getMsbD 2
        depositLocked := false
        ft := s.ft ||| pendingIf parity 2
        pir := s.pir ||| pendingIf parity 1
        trace := .ioRead 0x8410 s.platform.scrValue :: s.trace
        ic := s.ic + 1 }) ∧
    (ioFlawAt s.platform .illegal 0x8410 = true → ∃ open_,
      exec .bpt s = .next { s with
        ft := s.ft ||| oneBit 5 ||| pendingIf parity 2
        pir := s.pir ||| oneBit 1
        trace := .majEr :: .ioRead 0x8410 open_ :: s.trace
        free := s.free + 1
        ic := s.ic + 1 })

/-- BIF and BIFI with a coprocessor configured write the command and the data address to its two I/O ports; without one, and
in the two-word form, they are illegal: FT bit 9, PIR bit 1, IC past their own words (46_control.md R490, R491,
60_exceptions.md R667; the lengths are the model's choice after decision D9, log 23). A BIFI whose command cannot be read still
writes to both ports, open words (R664, decision D35, log 15). -/
def Obligations.BuiltInFunction : Prop :=
  ∀ (three : Bool) (cp : Fin 4) (rx : Reg) (a1 a2 : Word) (s : State) (i : Instr) (command : Word) (ready : Bool),
    (i, command, ready) ∈ [(Instr.bif three cp rx a1 a2, s.indexed a1 rx, true),
      (.bifi three cp rx a1 a2, s.loaded (s.indexed a1 rx), s.readable (s.indexed a1 rx))] →
      let port : Word := 0x0800 + BitVec.ofNat 16 (256 * cp.val)
      (three = true → bitOf s.scr 3 = true → s.alone = true → ready = true →
        exec i s = .next ((Shape.ioWritten (Shape.ioWritten s port command) (port + 1) a2).past 3)) ∧
      (three = true → bitOf s.scr 3 = true → s.alone = true → ready = false → ∃ x y,
        exec i s = .next { Shape.ioWritten (Shape.ioWritten (Shape.readsFaulted s [s.indexed a1 rx] 3) port x) (port + 1) y with
          free := s.free + 3 }) ∧
      (three = false ∨ bitOf s.scr 3 = false →
        exec i s = .next { s with ft := s.ft ||| oneBit 9, pir := s.pir ||| oneBit 1,
                                  ic := s.ic + (if three then 3 else 2), trace := .unrcvEr :: s.trace })

/-! ## 7. Floating point (41_float.md) -/

/-- A number of mantissa width `w` whose exponent is in its field (41_float.md R260 to R262). -/
def Sys2Proof.Machine.Shape.stored (w : Nat) (x : FloatNum) : Bool := fits w x.m && fits 8 x.e && x.valid w

/-- The value of a number of mantissa width `w` (41_float.md R260). -/
def Sys2Proof.Machine.Shape.value (w : Nat) (x : FloatNum) : Rat := (x.m : Rat) * 2 ^ (x.e - (w - 1 : Int))

/-- FA, FAR, FAB, FABX; FS, FSR, FSB, FSBX; FM, FMR, FMB, FMBX; FD, FDR, FDB, FDBX, with the function of the operands. -/
def Sys2Proof.Machine.Shape.float : Instr → Option ((FloatNum → FloatNum → FloatResult) × Reg × Source × Word)
  | .fa ra rx a => some (fadd 24 false, ra, .direct rx a, 2)
  | .far ra rb => some (fadd 24 false, ra, .register rb, 1)
  | .fab br du => some (fadd 24 false, 0, .base br du, 1)
  | .fabx br rx => some (fadd 24 false, 0, .baseIndexed br rx, 1)
  | .fs ra rx a => some (fadd 24 true, ra, .direct rx a, 2)
  | .fsr ra rb => some (fadd 24 true, ra, .register rb, 1)
  | .fsb br du => some (fadd 24 true, 0, .base br du, 1)
  | .fsbx br rx => some (fadd 24 true, 0, .baseIndexed br rx, 1)
  | .fm ra rx a => some (fmul 24, ra, .direct rx a, 2)
  | .fmr ra rb => some (fmul 24, ra, .register rb, 1)
  | .fmb br du => some (fmul 24, 0, .base br du, 1)
  | .fmbx br rx => some (fmul 24, 0, .baseIndexed br rx, 1)
  | .fd ra rx a => some (fdiv 24, ra, .direct rx a, 2)
  | .fdr ra rb => some (fdiv 24, ra, .register rb, 1)
  | .fdb br du => some (fdiv 24, 0, .base br du, 1)
  | .fdbx br rx => some (fdiv 24, 0, .baseIndexed br rx, 1)
  | _ => none

/-- EFA, EFAR, EFS, EFSR, EFM, EFMR, EFD, EFDR. -/
def Sys2Proof.Machine.Shape.extended : Instr → Option ((FloatNum → FloatNum → FloatResult) × Reg × Source × Word)
  | .efa ra rx a => some (fadd 40 false, ra, .direct rx a, 2)
  | .efar ra rb => some (fadd 40 false, ra, .register rb, 1)
  | .efs ra rx a => some (fadd 40 true, ra, .direct rx a, 2)
  | .efsr ra rb => some (fadd 40 true, ra, .register rb, 1)
  | .efm ra rx a => some (fmul 40, ra, .direct rx a, 2)
  | .efmr ra rb => some (fmul 40, ra, .register rb, 1)
  | .efd ra rx a => some (fdiv 40, ra, .direct rx a, 2)
  | .efdr ra rb => some (fdiv 40, ra, .register rb, 1)
  | _ => none

/-- Floating add, subtract, multiply and divide on numbers that are normalized or zero, and on any number where the system's
choice for the others is the register transfer description (log 24): the registers hold the packed result of `fadd`, `fmul`
or `fdiv`, whose values `FloatValues` gives, CS is its sign, overflow pends level 3 and underflow level 6; nothing else
changes (41_float.md R263, R264, R270 to R275, R277 to R282, R284 to R295). -/
def Obligations.FloatArithmetic : Prop :=
  (∀ (i : Instr) (s : State) (f : FloatNum → FloatNum → FloatResult) (ra : Reg) (o : Source) (len : Word),
    Shape.float i = some (f, ra, o, len) → o.ready s 2 = true →
    s.platform.unnormalizedByRtl = true ∨
      ((unpackF (s.pair ra)).valid 24 = true ∧ (unpackF (o.long s)).valid 24 = true) →
      let x := f (unpackF (s.pair ra)) (unpackF (o.long s))
      exec i s = .next ((s.setPair ra (packF x.m x.e)).ends (signCs x.m)
        (pendingIf x.overflow 3 ||| pendingIf x.underflow 6) len)) ∧
  ∀ (i : Instr) (s : State) (f : FloatNum → FloatNum → FloatResult) (ra : Reg) (o : Source) (len : Word),
    Shape.extended i = some (f, ra, o, len) → o.ready s 3 = true →
    s.platform.unnormalizedByRtl = true ∨
      ((unpackX (s.triple ra)).valid 40 = true ∧ (unpackX (o.triple s)).valid 40 = true) →
      let x := f (unpackX (s.triple ra)) (unpackX (o.triple s))
      exec i s = .next ((s.setTriple ra (packX x.m x.e)).ends (signCs x.m)
        (pendingIf x.overflow 3 ||| pendingIf x.underflow 6) len)

/-- FC, FCR, FCB, FCBX. -/
def Sys2Proof.Machine.Shape.compareFloat : Instr → Option (Reg × Source × Word)
  | .fc ra rx a => some (ra, .direct rx a, 2)
  | .fcr ra rb => some (ra, .register rb, 1)
  | .fcb br du => some (0, .base br du, 1)
  | .fcbx br rx => some (0, .baseIndexed br rx, 1)
  | _ => none

/-- EFC, EFCR. -/
def Sys2Proof.Machine.Shape.compareExtended : Instr → Option (Reg × Source × Word)
  | .efc ra rx a => some (ra, .direct rx a, 2)
  | .efcr ra rb => some (ra, .register rb, 1)
  | _ => none

/-- Every floating instruction on a number that is neither normalized nor zero, where the system leaves the results open
(41_float.md R262, U4, log 24): it runs, IC goes past it, and whatever it leaves open is in its registers, in CS and in PIR
bits 3, 4 and 6; a compare leaves CS open and nothing else. -/
def Obligations.FloatOpenOperands : Prop :=
  ∀ (s : State), s.platform.unnormalizedByRtl = false →
    (∀ (i : Instr) (f : FloatNum → FloatNum → FloatResult) (ra : Reg) (o : Source) (len : Word),
      Shape.float i = some (f, ra, o, len) → o.ready s 2 = true →
      ((unpackF (s.pair ra)).valid 24 = false ∨ (unpackF (o.long s)).valid 24 = false) →
        ∃ (v : Long) (cs : BitVec 4) (p : Word),
          exec i s = .next (((s.setPair ra v).ends cs (p &&& 0x1A00) len).useFree 4)) ∧
    (∀ (i : Instr) (f : FloatNum → FloatNum → FloatResult) (ra : Reg) (o : Source) (len : Word),
      Shape.extended i = some (f, ra, o, len) → o.ready s 3 = true →
      ((unpackX (s.triple ra)).valid 40 = false ∨ (unpackX (o.triple s)).valid 40 = false) →
        ∃ (v : Triple) (cs : BitVec 4) (p : Word),
          exec i s = .next (((s.setTriple ra v).ends cs (p &&& 0x1A00) len).useFree 5)) ∧
    (∀ (i : Instr) (ra : Reg) (o : Source) (len : Word),
      Shape.compareFloat i = some (ra, o, len) → o.ready s 2 = true →
      ((unpackF (s.pair ra)).valid 24 = false ∨ (unpackF (o.long s)).valid 24 = false) →
        ∃ cs : BitVec 4, exec i s = .next ((s.ends cs 0 len).useFree 1)) ∧
    (∀ (i : Instr) (ra : Reg) (o : Source) (len : Word),
      Shape.compareExtended i = some (ra, o, len) → o.ready s 3 = true →
      ((unpackX (s.triple ra)).valid 40 = false ∨ (unpackX (o.triple s)).valid 40 = false) →
        ∃ cs : BitVec 4, exec i s = .next ((s.ends cs 0 len).useFree 1)) ∧
    ∀ (ra rb : Reg),
      ((unpackF (s.pair rb)).valid 24 = false → ∀ i ∈ [Instr.fabs ra rb, .fneg ra rb],
        ∃ (v : Long) (cs : BitVec 4) (p : Word),
          exec i s = .next (((s.setPair ra v).ends cs (p &&& 0x1A00) 1).useFree 4)) ∧
      ((unpackF (s.pair rb)).valid 24 = false → ∃ (v : Word) (cs : BitVec 4) (p : Word),
        exec (.fix ra rb) s = .next (((s.setReg ra v).ends cs (p &&& 0x1A00) 1).useFree 3)) ∧
      ((unpackX (s.triple rb)).valid 40 = false → ∃ (v : Long) (cs : BitVec 4) (p : Word),
        exec (.efix ra rb) s = .next (((s.setPair ra v).ends cs (p &&& 0x1A00) 1).useFree 4))

/-- Every result of add, subtract, multiply and divide on stored numbers that are normalized or zero is again one, so that it
survives its packing (41_float.md R262, R264 to R267). The model's choices in it: a quotient is normalized (decision D13), a
zero mantissa normalizes to the zero number (D15), both in log 25 (DEDUCED). -/
def Obligations.FloatResultsValid : Prop :=
  ∀ (w : Nat) (f : FloatNum → FloatNum → FloatResult) (a o : FloatNum), w = 24 ∨ w = 40 →
    f ∈ [fadd w false, fadd w true, fmul w, fdiv w] → Shape.stored w a = true → Shape.stored w o = true →
      Shape.stored w { m := (f a o).m, e := (f a o).e } = true

/-- The overflow result: the greatest number of the width, or the least (41_float.md R264). -/
def Sys2Proof.Machine.Shape.overflowResult (w : Nat) (positive : Bool) : FloatResult :=
  { m := if positive then 2 ^ (w - 1) - 1 else -2 ^ (w - 1), e := 127, overflow := true, underflow := false }

/-- The underflow result: zero (41_float.md R264). -/
def Sys2Proof.Machine.Shape.underflowResult : FloatResult := { m := 0, e := 0, overflow := false, underflow := true }

/-- The result `r` is the value `v`, with no exception, or, where `v` is not 0 and too small for a normalized number,
underflow (41_float.md R262, R264). -/
def Sys2Proof.Machine.Shape.Delivers (w : Nat) (v : Rat) (r : FloatResult) : Prop :=
  if v ≠ 0 ∧ -2 ^ (-129 : Int) ≤ v ∧ v < 2 ^ (-129 : Int) then r = Shape.underflowResult
  else r.overflow = false ∧ r.underflow = false ∧ Shape.value w { m := r.m, e := r.e } = v

/-- The values of floating sum, difference, product and quotient, for operands that are normalized or zero (41_float.md R264 to
R267). A sum or difference is that of the mantissas, both taken down to the unit of the greater exponent, halved (down) where
it does not fit. A product overflows where the exponents add up to more than 127, or to 127 with both mantissas -1.0; it
underflows where they add up to less than -128, or where the exact product is not 0 and too small for a normalized number; else
it is the exact product taken down to the mantissa's width. A quotient is that of the mantissas, halved where it is 1 or more,
taken down to the mantissa's width. The model's choices in it, all in log 25
(DEDUCED): bits shifted out are lost (decision D12), a product and a quotient are floored and a zero divisor is a zero
mantissa (D13), a zero mantissa gives the zero number (D15). -/
def Obligations.FloatValues : Prop :=
  ∀ (w : Nat) (a o : FloatNum), w = 24 ∨ w = 40 → Shape.stored w a = true → Shape.stored w o = true →
    (let n := a.e + o.e
     let r := fmul w a o
     let v := Shape.value w a * Shape.value w o
     if 127 < n ∨ (n = 127 ∧ a.m = -2 ^ (w - 1) ∧ o.m = -2 ^ (w - 1)) then
       r = Shape.overflowResult w (decide (a.m < 0) == decide (o.m < 0))
     else if n < -128 ∨ (v ≠ 0 ∧ -2 ^ (-129 : Int) ≤ v ∧ v < 2 ^ (-129 : Int)) then r = Shape.underflowResult
     else r.overflow = false ∧ r.underflow = false ∧ Shape.value w { m := r.m, e := r.e } ≤ v ∧
       v < Shape.value w { m := r.m + 1, e := r.e }) ∧
    (∀ subtract : Bool,
      let e := if a.m = 0 then o.e else if o.m = 0 then a.e else max a.e o.e
      let unit : Rat := 2 ^ (e - (w - 1 : Int))
      let x := ⌊Shape.value w a / unit⌋
      let y := ⌊Shape.value w o / unit⌋
      let sum := if subtract then x - y else x + y
      if fits w sum = false ∧ e = 127 then fadd w subtract a o = Shape.overflowResult w (decide (0 ≤ sum))
      else if fits w sum = false then Shape.Delivers w (⌊(sum : Rat) / 2⌋ * (2 * unit)) (fadd w subtract a o)
      else Shape.Delivers w (sum * unit) (fadd w subtract a o)) ∧
    (let n := if a.m = 0 then 0 else a.e - o.e
     let halve := |o.m| ≤ |a.m|
     let k := if halve then n + 1 else n
     let q : Rat := (a.m : Rat) / o.m
     if o.m = 0 ∨ 127 < k then fdiv w a o = Shape.overflowResult w (decide (a.m < 0) == decide (o.m < 0))
     else if n < -128 then fdiv w a o = Shape.underflowResult
     else Shape.Delivers w (⌊(if halve then q / 2 else q) * 2 ^ (w - 1)⌋ * 2 ^ (k - (w - 1 : Int))) (fdiv w a o))

/-- FC, FCR, FCB, FCBX, EFC and EFCR set CS from the order of the represented values and change nothing else
(41_float.md R268, R296 to R301; that they compare by value is the model's choice after decision D14). -/
def Obligations.FloatCompare : Prop :=
  (∀ (s : State) (i : Instr) (r : Reg) (o : Source) (len : Word), Shape.compareFloat i = some (r, o, len) →
    o.ready s 2 = true → (unpackF (s.pair r)).valid 24 = true → (unpackF (o.long s)).valid 24 = true →
      let x := Shape.value 24 (unpackF (s.pair r))
      let y := Shape.value 24 (unpackF (o.long s))
      exec i s = .next (s.ends (if x = y then 0b0010 else if x < y then 0b0001 else 0b0100) 0 len)) ∧
  ∀ (s : State) (i : Instr) (r : Reg) (o : Source) (len : Word), Shape.compareExtended i = some (r, o, len) →
    o.ready s 3 = true → (unpackX (s.triple r)).valid 40 = true → (unpackX (o.triple s)).valid 40 = true →
      let x := Shape.value 40 (unpackX (s.triple r))
      let y := Shape.value 40 (unpackX (o.triple s))
      exec i s = .next (s.ends (if x = y then 0b0010 else if x < y then 0b0001 else 0b0100) 0 len)

/-- FABS and FNEG on a number that is normalized or zero: the exact absolute value or negative, stored exactly; overflow for
the value whose exponent would leave its field, underflow for the negative of the least positive number
(41_float.md R264, R276, R283). -/
def Obligations.FloatSign : Prop :=
  ∀ (ra rb : Reg) (s : State), (unpackF (s.pair rb)).valid 24 = true →
    let x := unpackF (s.pair rb)
    ∀ (i : Instr) (exact : Rat), (i, exact) ∈ [(Instr.fabs ra rb, |Shape.value 24 x|),
        (.fneg ra rb, -Shape.value 24 x)] →
      ∃ r : FloatNum, Shape.stored 24 r = true ∧
        ((exact < 2 ^ (127 : Int) ∧ ¬ (-2 ^ (-129 : Int) ≤ exact ∧ exact < 0) ∧ Shape.value 24 r = exact ∧
            exec i s = .next ((s.setPair ra (packF r.m r.e)).ends (signCs r.m) 0 1)) ∨
         (exact = 2 ^ (127 : Int) ∧ r = ⟨2 ^ 23 - 1, 127⟩ ∧
            exec i s = .next ((s.setPair ra (packF r.m r.e)).ends (signCs r.m) (oneBit 3) 1)) ∨
         (exact = -2 ^ (-129 : Int) ∧ r = ⟨0, 0⟩ ∧
            exec i s = .next ((s.setPair ra (packF r.m r.e)).ends (signCs r.m) (oneBit 6) 1)))

/-- FIX and EFIX on a number that is normalized or zero: its integer part, truncated toward zero, or, where the exponent is
above 15 (31), the destination as it was with fixed-point overflow (41_float.md R302, R304). -/
def Obligations.FloatToInteger : Prop :=
  ∀ (ra rb : Reg) (s : State),
    ((unpackF (s.pair rb)).valid 24 = true →
      let x := unpackF (s.pair rb)
      (15 < x.e → exec (.fix ra rb) s = .next (s.ends (signCs (s.reg ra).toInt) (oneBit 4) 1)) ∧
      (x.e ≤ 15 → ∃ v : Word, v.toInt = (if x.e < 0 then 0 else (x.m * 2 ^ x.e.toNat).tdiv (2 ^ 23)) ∧
        exec (.fix ra rb) s = .next ((s.setReg ra v).ends (signCs v.toInt) 0 1))) ∧
    ((unpackX (s.triple rb)).valid 40 = true →
      let x := unpackX (s.triple rb)
      (31 < x.e → exec (.efix ra rb) s = .next (s.ends (signCs (s.pair ra).toInt) (oneBit 4) 1)) ∧
      (x.e ≤ 31 → ∃ v : Long, v.toInt = (if x.e < 0 then 0 else (x.m * 2 ^ x.e.toNat).tdiv (2 ^ 39)) ∧
        exec (.efix ra rb) s = .next ((s.setPair ra v).ends (signCs v.toInt) 0 1)))

/-- FLT and EFLT: the registers hold a normalized number, or zero, whose value is exactly the integer
(41_float.md R303, R305). -/
def Obligations.IntegerToFloat : Prop :=
  ∀ (ra rb : Reg) (s : State),
    (∃ r : FloatNum, Shape.stored 24 r = true ∧ Shape.value 24 r = ((s.reg rb).toInt : Rat) ∧
      exec (.flt ra rb) s = .next ((s.setPair ra (packF r.m r.e)).ends (signCs (s.reg rb).toInt) 0 1)) ∧
    ∃ r : FloatNum, Shape.stored 40 r = true ∧ Shape.value 40 r = ((s.pair rb).toInt : Rat) ∧
      exec (.eflt ra rb) s = .next ((s.setTriple ra (packX r.m r.e)).ends (signCs (s.pair rb).toInt) 0 1)

/-! ## 8. Input and output (47_io.md) -/

/-- The commands that the F9450 and MPEN's F9452 carry out on an output, with what they leave of the state before their bus
cycle, and whether they carry the data word `d` (47_io.md R505 to R511, R521 to R524, R530 to R537). -/
def Sys2Proof.Machine.Shape.outputs (s : State) (d : Word) : List (Word × State × Bool) :=
  [(0x2000, { s with mask := d }, true),
   (0x2001, { s with pir := 0, ft := 0 }, false),
   (0x2002, { s with enbl := if s.enbl = .due then .due else .armed }, false),
   (0x2003, { s with inten := false, enbl := .idle }, false),
   (0x2004, { s with pir := s.pir &&& ~~~ oneBit (d.toNat % 16), ft := if d.toNat % 16 = 1 then 0 else s.ft }, true),
   (0x2005, { s with pir := s.pir ||| d, spi := .armed }, true),
   (0x200A, { s with nmlpwrup := false }, false),
   (0x4003, { s with globprt := s.globprt && !bitOf s.scr 1 }, false),
   (0x4006, { s with dmaen := true }, false),
   (0x4007, { s with dmaen := false }, false),
   (0x4008, { s with taRun := true }, false),
   (0x4009, { s with taRun := false }, false),
   (0x400A, { s with ta := d, taRun := true }, true),
   (0x400B, { s with trace := .trigoRst :: s.trace }, false),
   (0x400C, { s with tbRun := true }, false),
   (0x400D, { s with tbRun := false }, false),
   (0x400E, { s with tb := d, tbRun := true }, true)]

/-- An output that neither the F9450 nor a companion chip that is present knows: bit 0 is 0, and it is none of the listed
commands (47_io.md R501, R550); 50XX is one where there is no F9452, 51XY and 52XY where there is no F9451. -/
def Sys2Proof.Machine.Shape.externalOutput (s : State) (cmd : Word) : Prop :=
  bitOf cmd 0 = false ∧ cmd ≠ 0x200E ∧ cmd ≠ 0x4000 ∧ (∀ p ∈ Shape.outputs s 0, cmd ≠ p.1) ∧
    ¬ (cmd.toNat / 256 = 0x50 ∧ bitOf s.scr 1 = true) ∧
    ¬ (cmd.toNat / 256 ∈ [0x51, 0x52] ∧ bitOf s.scr 0 = true ∧ s.platform.mmuAttached = true)

/-- XIO output commands with AK = 0: each has its effect and one write cycle at the command's address; a command without
data puts an open word there (log 38). WSW loads SW unless its address state is refused; an unknown command, and 50XX to 52XY
without the chip they are for, only goes to the bus. A cycle that draws EXT ADR ER or PAR ER sets its FT bits and PIR bit 1 after
the effect, and aborts nothing (47_io.md R500, R502, R503, R505 to R511, R520 to R524, R530 to R537, R550, 60_exceptions.md R666,
R668). The model's choices in it: CO without a console makes no cycle (R557, decision D27, log 39), an ENBL while another is due
leaves that one due (log 26), DSBL cancels an ENBL that waits (D25, log 26), PAR ER aborts nothing (log 45), a refused WSW makes
no cycle (log 52). -/
def Obligations.XioOutput : Prop :=
  ∀ (ra rx : Reg) (data : Word) (s : State),
    let cmd := s.indexed data rx
    let d := s.reg ra
    akField s.sw = 0 →
      (∀ t, (cmd, t, true) ∈ Shape.outputs s d → exec (.xio ra rx data) s = .next ((Shape.ioWritten t cmd d).past 2)) ∧
      (∀ t, (cmd, t, false) ∈ Shape.outputs s d → ∃ open_,
        exec (.xio ra rx data) s = .next { (Shape.ioWritten t cmd open_).past 2 with free := s.free + 1 }) ∧
      (cmd = 0x200E →
        exec (.xio ra rx data) s = .next
          (if bitOf s.scr 0 = false ∧ asField d ≠ 0 then
            { s with ft := s.ft ||| oneBit 11, pir := s.pir ||| oneBit 1, ic := s.ic + 2, trace := .unrcvEr :: s.trace }
          else { (Shape.ioWritten s cmd d).past 2 with sw := d &&& 0xF0FF })) ∧
      (cmd = 0x4000 →
        exec (.xio ra rx data) s = .next (if bitOf s.scr 2 then (Shape.ioWritten s cmd d).past 2 else s.past 2)) ∧
      (Shape.externalOutput s cmd → exec (.xio ra rx data) s = .next ((Shape.ioWritten s cmd d).past 2))

/-- The inputs that the F9450 answers itself (47_io.md R512 to R514, R534, R538). -/
def Sys2Proof.Machine.Shape.inputs (s : State) : List (Word × Word) :=
  [(0xA000, s.mask), (0xA004, s.pir), (0xA00E, s.sw), (0xC00A, s.ta), (0xC00E, s.tb)]

/-- An input that goes to the bus and that no companion chip answers: bit 0 is 1, it is none of the internal inputs and not
8410; D0XX is one where there is no F9452, D1XY and D2XY where there is no F9451 (47_io.md R501, R550). -/
def Sys2Proof.Machine.Shape.externalInput (s : State) (cmd : Word) : Prop :=
  bitOf cmd 0 = true ∧ cmd ≠ 0x8410 ∧ cmd ≠ 0xA00F ∧ (∀ p ∈ Shape.inputs s, cmd ≠ p.1) ∧
    ¬ (cmd.toNat / 256 = 0xD0 ∧ bitOf s.scr 1 = true) ∧
    ¬ (cmd.toNat / 256 ∈ [0xD1, 0xD2] ∧ bitOf s.scr 0 = true ∧ s.platform.mmuAttached = true)

/-- XIO input commands with AK = 0: RA gets the register, which is echoed at the command's address; RCFR gets FT, which it
clears with PIR bit 1 after its echo; any other input reads the bus, D0XX to D2XY without the chip they are for among them, where
8410 answers with the system's configuration, a device with its next word, and a device that has none with an open word (log 8).
An echo that draws EXT ADR ER or PAR ER sets its FT bits and PIR bit 1, and RA is loaded all the same; a read that draws PAR ER
sets FT bit 2 and RA is loaded (log 45); a read that draws EXT ADR ER sets FT bit 5, and bit 2 with PAR ER, and RA is not loaded
(47_io.md R500 to R503, R512 to R515, R534, R538, R550, 60_exceptions.md R662, R666). That CS stays is the model's choice after
decision D26 (log 39). -/
def Obligations.XioInput : Prop :=
  ∀ (ra rx : Reg) (data : Word) (s : State),
    let cmd := s.indexed data rx
    let parity := ioFlawAt s.platform .parity cmd
    let read := fun (t : State) (v : Word) => .next { t.setReg ra v with
      ft := s.ft ||| pendingIf parity 2, pir := s.pir ||| pendingIf parity 1, ic := s.ic + 2, trace := .ioRead cmd v :: s.trace }
    akField s.sw = 0 →
      (∀ v, (cmd, v) ∈ Shape.inputs s →
        exec (.xio ra rx data) s = .next ((Shape.ioWritten (s.setReg ra v) cmd v).past 2)) ∧
      (cmd = 0xA00F →
        exec (.xio ra rx data) s = .next { s.setReg ra s.ft with
          ft := 0, pir := s.pir &&& ~~~ oneBit 1, ic := s.ic + 2, trace := .ioWrite cmd s.ft :: s.trace }) ∧
      (ioFlawAt s.platform .illegal cmd = false →
        (cmd = 0x8410 → exec (.xio ra rx data) s = read s s.platform.scrValue) ∧
        (∀ v rest, s.ioIn = v :: rest → Shape.externalInput s cmd →
          exec (.xio ra rx data) s = read { s with ioIn := rest } v) ∧
        (s.ioIn = [] → Shape.externalInput s cmd → ∃ open_,
          exec (.xio ra rx data) s = read { s with free := s.free + 1 } open_)) ∧
      (ioFlawAt s.platform .illegal cmd = true → bitOf cmd 0 = true → cmd ≠ 0xA00F →
        (∀ p ∈ Shape.inputs s, cmd ≠ p.1) → ∃ open_,
          exec (.xio ra rx data) s = .next { s with
            ft := s.ft ||| oneBit 5 ||| pendingIf parity 2, pir := s.pir ||| oneBit 1,
            ic := s.ic + 2, free := s.free + 1, trace := .majEr :: .ioRead cmd open_ :: s.trace })

/-- LMP and RMP reach the protect RAM of a present F9452 at the low seven bits of the command; WIPR, WOPR, RIPR and ROPR
reach register Y of group X of a present F9451; every other register of the two chips stays (47_io.md R540 to R545,
48_mmu_bpu.md R603). Without the chip the same commands only go to the bus, as `XioOutput` and `XioInput` say. The model's
choices in it: bit 8 of LMP and RMP is not looked at (decision D31, log 36), CS stays (D26, log 39), a write cycle that draws EXT
ADR ER or PAR ER changes the chip all the same (log 51, log 45). -/
def Obligations.CompanionCommands : Prop :=
  ∀ (ra rx : Reg) (data : Word) (s : State),
    let cmd := s.indexed data rx
    let d := s.reg ra
    let word : Fin 128 := Fin.ofNat 128 cmd.toNat
    let group : Fin 16 := Fin.ofNat 16 (cmd.toNat / 16)
    let page : Fin 16 := Fin.ofNat 16 cmd.toNat
    let parity := ioFlawAt s.platform .parity cmd
    let answered := fun v : Word => ioFlawAt s.platform .illegal cmd = false →
      exec (.xio ra rx data) s = .next { s.setReg ra v with
        ft := s.ft ||| pendingIf parity 2, pir := s.pir ||| pendingIf parity 1, ic := s.ic + 2, trace := .ioRead cmd v :: s.trace }
    akField s.sw = 0 →
      (cmd.toNat / 256 = 0x50 → bitOf s.scr 1 = true →
        exec (.xio ra rx data) s = .next { (Shape.ioWritten s cmd d).past 2 with bpuRam := s.bpuRam.set word.val d }) ∧
      (cmd.toNat / 256 = 0xD0 → bitOf s.scr 1 = true → answered s.bpuRam[word.val]) ∧
      (bitOf s.scr 0 = true → s.platform.mmuAttached = true →
        (cmd.toNat / 256 = 0x51 → ∃ t, exec (.xio ra rx data) s = .next t ∧
          t = { (Shape.ioWritten s cmd d).past 2 with ipr := t.ipr } ∧
          ∀ g r : Fin 16, (t.ipr[g.val])[r.val] = if g = group ∧ r = page then d else (s.ipr[g.val])[r.val]) ∧
        (cmd.toNat / 256 = 0x52 → ∃ t, exec (.xio ra rx data) s = .next t ∧
          t = { (Shape.ioWritten s cmd d).past 2 with opr := t.opr } ∧
          ∀ g r : Fin 16, (t.opr[g.val])[r.val] = if g = group ∧ r = page then d else (s.opr[g.val])[r.val]) ∧
        (cmd.toNat / 256 = 0xD1 → answered (s.ipr[group.val])[page.val]) ∧
        (cmd.toNat / 256 = 0xD2 → answered (s.opr[group.val])[page.val]))

/-- The command makes a bus cycle: it is not CO without a console (47_io.md R557), nor a WSW whose status word `d` is refused
(60_exceptions.md R668, log 52). -/
def Sys2Proof.Machine.Shape.issues (v : State) (cmd d : Word) : Bool :=
  (cmd != 0x4000 || bitOf v.scr 2) && (cmd != 0x200E || bitOf v.scr 0 || decide (asField d = 0))

/-- `v` after one element of a VIO chain, command `cmd` with its data word at `addr`: what XIO does with that command, the data
word in the place of R0, and the registers and IC as before it. None where the I/O cycle draws EXT ADR ER, where the data word
cannot be read or its store draws MEM PRT ER or PAR ER, and where AK is not 0. -/
def Sys2Proof.Machine.Shape.element (v : State) (cmd addr : Word) : Option State :=
  let d := v.loaded addr
  if akField v.sw ≠ 0 ∨ (ioFlawAt v.platform .illegal cmd && Shape.issues v cmd d) = true then none
  else if bitOf cmd 0 then
    match exec (.xio 0 0 cmd) v with
    | .next u =>
      let c := u.ownCycle .write addr
      if c.protect || c.parity then none
      else some { u with
        regs := v.regs, ic := v.ic, ft := u.ft ||| Shape.cycleFaults c, pir := u.pir ||| pendingIf c.absent 1
        mem := if u.writable addr then u.mem.writeWord (u.place addr) (u.reg 0) else u.mem }
    | _ => none
  else if v.readable addr then
    match exec (.xio 0 0 cmd) (v.setReg 0 d) with
    | .next u => some { u with regs := v.regs, ic := v.ic }
    | _ => none
  else none

/-- `v` after the elements of these bit numbers, one after the other, the data words following one another from `addr` on. -/
def Sys2Proof.Machine.Shape.elements (base stride : Word) : List Nat → Word → State → Option State
  | [], _, v => some v
  | n :: ns, addr, v =>
    (Shape.element v (base + BitVec.ofNat 16 n * stride) addr).bind (Shape.elements base stride ns (addr + 1))

/-- `t` is a VIO's end that a memory cycle with the FT bits `bits` has aborted in `v`: FT and PIR bit 1 say so, no register of
the CPU or the chips changes, and memory only where the chain's data words are, from `addr` on. -/
def Sys2Proof.Machine.Shape.VioAborted (v : State) (bits addr : Word) (t : State) : Prop :=
  t.sw = v.sw ∧ t.mask = v.mask ∧ t.inten = v.inten ∧ t.enbl = v.enbl ∧ t.spi = v.spi ∧ t.ta = v.ta ∧ t.tb = v.tb ∧
    t.taRun = v.taRun ∧ t.tbRun = v.tbRun ∧ t.dmaen = v.dmaen ∧ t.nmlpwrup = v.nmlpwrup ∧ t.ipr = v.ipr ∧ t.opr = v.opr ∧
    t.bpuRam = v.bpuRam ∧ t.globprt = v.globprt ∧ t.pir = v.pir ||| oneBit 1 ∧ t.ft &&& (v.ft ||| bits) = v.ft ||| bits ∧
    ∀ b, (∀ k < 16, b ≠ 2 * (v.place (addr + BitVec.ofNat 16 k)).toNat ∧
        b ≠ 2 * (v.place (addr + BitVec.ofNat 16 k)).toNat + 1) → t.mem.readByte b = v.mem.readByte b

/-- VIO with AK = 0 (47_io.md R570, D28, the model's log 37): it always ends with IC past it and the registers as they were.
- With no element selected nothing else happens. With one, it does what XIO does with that command, the data word in memory
in the place of the register.
- The elements selected follow one another in ascending n, element n with the command at base + n * R[RA], the data words
following one another (`Shape.elements`), as far as none faults and AK stays 0 (a WSW may change it). Where all only go to the
bus, the cycles are listed.
- An element that draws EXT ADR ER has no effect but its cycle, FT bit 5 and PIR bit 1, and ends the chain; what the elements
before it have done stays (log 59).
- A word of the table or a data word that cannot be read, and a store that draws MEM PRT ER or PAR ER, aborts the rest of the chain
(`Shape.VioAborted`; 60_exceptions.md R664, 48_mmu_bpu.md R595): IC past the VIO is the model's choice after decision D35
(log 15), and that the commands of the aborted chain change FT and PIR by new faults only is log 52. -/
def Obligations.VectoredIo : Prop :=
  ∀ (ra rx : Reg) (a : Word) (s : State), akField s.sw = 0 →
    let da := s.indexed a rx
    let base := s.loaded da
    let sel := s.loaded (da + 1)
    let element := fun n : Nat => base + BitVec.ofNat 16 n * s.reg ra
    let chosen := (List.range 16).filter fun n => bitOf sel n
    let data := fun k : Nat => da + 2 + BitVec.ofNat 16 k
    let after := fun ns : List Nat => Shape.elements base (s.reg ra) ns (da + 2) s
    (∃ t, exec (.vio ra rx a) s = .next t ∧ t.ic = s.ic + 2 ∧ t.regs = s.regs) ∧
    (s.readableSpan da 2 = true → sel = 0 → exec (.vio ra rx a) s = .next (s.past 2)) ∧
    (∀ (n : Fin 16) (u : State), s.readableSpan da 3 = true → sel = oneBit n.val →
      ioFlawAt s.platform .illegal (element n.val) = false → bitOf (element n.val) 0 = false →
      exec (.xio 0 0 (element n.val)) (s.setReg 0 (s.loaded (da + 2))) = .next u →
        exec (.vio ra rx a) s = .next { u with regs := s.regs }) ∧
    (∀ (n : Fin 16) (rb : Reg) (u : State), s.mem.wf = true → s.readableSpan da 2 = true → s.writable (da + 2) = true →
      sel = oneBit n.val → ioFlawAt s.platform .illegal (element n.val) = false → bitOf (element n.val) 0 = true →
      exec (.xio rb 0 (element n.val)) s = .next u →
        ∃ t, exec (.vio ra rx a) s = .next t ∧ t = { u with regs := s.regs, mem := t.mem } ∧ t.mem.wf = true ∧
          Stored s.mem t.mem [(s.place (da + 2), u.reg rb)]) ∧
    (s.readableSpan da 2 = true → ∀ t, after chosen = some t → exec (.vio ra rx a) s = .next (t.past 2)) ∧
    (s.readableSpan da (2 + chosen.length) = true →
      (∀ n ∈ chosen, Shape.externalOutput s (element n) ∧ s.ioFaulty (element n) = false) →
        exec (.vio ra rx a) s = .next { s with
          ic := s.ic + 2
          trace := (chosen.zipIdx.map fun p => BusEvent.ioWrite (element p.1) (s.loaded (data p.2))).reverse ++ s.trace }) ∧
    (s.readableSpan da 2 = true → ∀ (ns rest : List Nat) (n : Nat) (v : State), chosen = ns ++ n :: rest →
      after ns = some v →
      let cmd := element n
      let at_ := data ns.length
      (ioFlawAt s.platform .illegal cmd = true → Shape.issues v cmd (v.loaded at_) = true →
        bitOf cmd 0 = true ∨ v.readable at_ = true → ∃ t, exec (.vio ra rx a) s = .next t ∧
          t = { v with
            ft := v.ft ||| oneBit 5 ||| pendingIf (ioFlawAt s.platform .parity cmd) 2
            pir := v.pir ||| oneBit 1, ic := s.ic + 2, free := t.free, trace := t.trace }) ∧
      (s.mem.wf = true → bitOf cmd 0 = false → v.readable at_ = false → ∃ t, exec (.vio ra rx a) s = .next t ∧
        Shape.VioAborted v (Shape.cycleFaults (v.ownCycle .read at_)) (da + 2) t) ∧
      (s.mem.wf = true → akField v.sw = 0 → bitOf cmd 0 = true → ioFlawAt s.platform .illegal cmd = false →
        ∀ u, exec (.xio 0 0 cmd) v = .next u →
        let c := u.ownCycle .write at_
        c.protect = true ∨ c.parity = true → ∃ t, exec (.vio ra rx a) s = .next t ∧
          Shape.VioAborted u (Shape.cycleFaults c) (da + 2) t)) ∧
    ∀ k < 2, s.alone = true → s.mem.wf = true → (k = 0 ∨ s.readable da = true) → s.readable (da + BitVec.ofNat 16 k) = false →
      ∃ t, exec (.vio ra rx a) s = .next t ∧
        Shape.VioAborted s (Shape.cycleFaults (s.ownCycle .read (da + BitVec.ofNat 16 k))) (da + 2) t

/-! ## 9. Faults and interrupts (60_exceptions.md) -/

/-- XIO, VIO, LST and LSTI with AK not 0 do nothing of their own: FT bit 10, PIR bit 1, IC two words on
(60_exceptions.md R669). -/
def Obligations.PrivilegeTrap : Prop :=
  ∀ (ra rx : Reg) (w : Word) (s : State) (i : Instr),
    i ∈ [Instr.xio ra rx w, .vio ra rx w, .lst rx w, .lsti rx w] → akField s.sw ≠ 0 →
      exec i s = .next { s with
        ft := s.ft ||| oneBit 10, pir := s.pir ||| oneBit 1, ic := s.ic + 2, trace := .majEr :: s.trace }

/-- The instructions that read an operand of one word, and do nothing else with memory: where, and their length. -/
def Sys2Proof.Machine.Shape.ReadsWord (s : State) (i : Instr) (o : Source) (len : Word) : Prop :=
  (∃ ra, Shape.addWord i = some (ra, o, len) ∨ Shape.subWord i = some (ra, o, len) ∨
    Shape.mulShort i = some (ra, o, len) ∨ Shape.mulWide i = some (ra, o, len) ∨
    Shape.compareWord i = some (ra, o, len) ∨ Shape.loadWord s i = some (ra, o, len)) ∨
  (∃ b ra, Shape.divide i = some (b, ra, o, len)) ∨ (∃ f ra, Shape.logic i = some (f, ra, o, len)) ∨
  ∃ (n ra rx : Fin 16) (a : Word), (i, o, len) ∈ [(Instr.tb n rx a, Source.direct rx a, 2), (.tbi n rx a, .indirect rx a, 2),
    (.lub ra rx a, .direct rx a, 2), (.lubi ra rx a, .indirect rx a, 2), (.llb ra rx a, .direct rx a, 2),
    (.llbi ra rx a, .indirect rx a, 2)]

/-- Those that read an operand of two words. -/
def Sys2Proof.Machine.Shape.ReadsLong (i : Instr) (o : Source) (len : Word) : Prop :=
  (∃ ra, Shape.mulLong i = some (ra, o, len) ∨ Shape.divideLong i = some (ra, o, len) ∨
    Shape.compareLong i = some (ra, o, len) ∨ Shape.loadLong i = some (ra, o, len) ∨
    Shape.compareFloat i = some (ra, o, len)) ∨
  (∃ b ra, Shape.addLong i = some (b, ra, o, len)) ∨ (∃ f ra, Shape.float i = some (f, ra, o, len)) ∨
  ∃ ra rx a, (i, o, len) = (Instr.cbl ra rx a, Source.direct rx a, 2)

/-- Those that read an operand of three words. -/
def Sys2Proof.Machine.Shape.ReadsTriple (i : Instr) (o : Source) (len : Word) : Prop :=
  (∃ ra, Shape.compareExtended i = some (ra, o, len)) ∨ (∃ f ra, Shape.extended i = some (f, ra, o, len)) ∨
  ∃ ra rx a, (i, o, len) = (Instr.efl ra rx a, Source.direct rx a, 2)

/-- The instructions that read a word of memory, change it and write it back; all have two words. -/
def Sys2Proof.Machine.Shape.changes : Instr → Option Source
  | .sb _ rx a | .rb _ rx a | .tsb _ rx a | .incm _ rx a | .decm _ rx a | .srm _ rx a | .stub _ rx a | .stlb _ rx a =>
    some (.direct rx a)
  | .sbi _ rx a | .rbi _ rx a | .subi _ rx a | .slbi _ rx a => some (.indirect rx a)
  | _ => none

/-- CS of a TSB whose word has been read; the others leave CS where their write faults. -/
def Sys2Proof.Machine.Shape.afterRead (s : State) (word : Word) : Instr → State
  | .tsb n _ _ =>
    { s with sw := ((if bitOf word n.val = false then 0b0010 else if n.val = 0 then 0b0001 else 0b0100 : BitVec 4)) ++
        s.sw.extractLsb' 0 12 }
  | _ => s

/-- The stores of one word and more: where, which words, how long. STM stores N + 1 words. -/
def Sys2Proof.Machine.Shape.stores (s : State) : Instr → Option (Source × List Word × Word)
  | .stm n rx a => some (.direct rx a, (List.range (n.val + 1)).map fun k => s.reg (Fin.ofNat 16 k), 2)
  | i => (Shape.storeWord s i).or (Shape.storeLong s i)

/-- What an aborted instruction leaves (60_exceptions.md R664, 20_memory.md R96, R97; the details are the model's after
decision D35, log 15).
- An operand of one, two or three words, some of which draw a fault: FT, PIR bit 1 and IC change, no register, no flag, no
byte of memory. Where the pointer of an indirect operand draws one, the operand is read at the open address that the pointer's
read has returned, `(s.indirectAddress rx a).val` (log 16).
- A store of any number of words, whatever its cycles draw: `Shape.Stores`. So it is where its pointer has drawn a fault: all
its words are open then, at that open address.
- A read-modify-write instruction whose read or pointer faults still writes, an open word; where its write draws MEM PRT ER or
PAR ER, only TSB has set CS, before it (log 57).
LM, PSHM, POPM, MOV, JCI, SJS, URS, LST, LSTI and VIO have their clauses in their own statements. -/
def Obligations.AbortedAccess : Prop :=
  (∀ (i : Instr) (s : State) (o : Source) (n : Nat) (len : Word),
    (n = 1 ∧ Shape.ReadsWord s i o len) ∨ (n = 2 ∧ Shape.ReadsLong i o len) ∨ (n = 3 ∧ Shape.ReadsTriple i o len) →
      (o.located s = true → (n = 1 ∨ s.alone = true) → o.ready s n = false →
        exec i s = .next
          (Shape.readsFaulted s ((List.range n).map fun k => o.address s + BitVec.ofNat 16 k) len)) ∧
      ∀ rx a, o = .indirect rx a → s.alone = true → s.readable (s.indexed a rx) = false →
        exec i s = .next (Shape.readsFaulted s
          (s.indexed a rx :: (List.range n).map fun k => (s.indirectAddress rx a).val + BitVec.ofNat 16 k) len)) ∧
  (∀ (i : Instr) (s : State) (o : Source) (ws : List Word) (len : Word), Shape.stores s i = some (o, ws, len) →
    s.mem.wf = true →
      (o.located s = true → (ws.length = 1 ∨ s.alone = true) →
        ∃ t, exec i s = .next t ∧ Shape.Stores s (o.address s) ws false len t) ∧
      ∀ rx a, o = .indirect rx a → s.alone = true → s.readable (s.indexed a rx) = false →
        ∃ t, exec i s = .next t ∧
          Shape.Stores (Shape.readsFaulted s [s.indexed a rx] 0) (s.indirectAddress rx a).val ws true len t) ∧
  ∀ (i : Instr) (s : State) (o : Source), Shape.changes i = some o → s.mem.wf = true →
    (o.located s = true →
      let c := s.ownCycle .write (o.address s)
      (s.readable (o.address s) = false →
        ∃ t, exec i s = .next t ∧
          Shape.Stores (Shape.readsFaulted s [o.address s] 0) (o.address s) [s.loaded (o.address s)] true 2 t) ∧
      (s.readable (o.address s) = true → (c.protect = true ∨ c.parity = true) →
        ∃ t, exec i s = .next t ∧
          Shape.Stores (Shape.afterRead s (s.loaded (o.address s)) i) (o.address s) [s.loaded (o.address s)] false 2 t)) ∧
    ∀ rx a, o = .indirect rx a → s.alone = true → s.readable (s.indexed a rx) = false →
      let p := (s.indirectAddress rx a).val
      ∃ t, exec i s = .next t ∧ Shape.Stores (Shape.readsFaulted s [s.indexed a rx, p] 0) p [s.loaded p] true 2 t

/-- Taking an exception: where the reads and stores of the sequence draw no fault, level n enters its handler (`Enters`); a new
status word with a refused address state abandons it with FT bit 11 and PIR bit 1 set and nothing else changed
(60_exceptions.md R679 to R682, 48_mmu_bpu.md R594; the model's choices in it are those of decisions D25, D29, D37, D39, log
27). -/
def Obligations.InterruptSequence : Prop :=
  ∀ (n : Fin 16) (entry : Word) (s : State), s.serviceReady n entry = true →
    let new := s.service n entry
    (bitOf s.scr 0 = false ∧ asField new.sw ≠ 0 →
      s.interrupt n entry = .abandoned { s with
        ft := s.ft ||| oneBit 11, pir := s.pir ||| oneBit 1, trace := .unrcvEr :: s.trace }) ∧
    (¬ (bitOf s.scr 0 = false ∧ asField new.sw ≠ 0) → s.mem.wf = true →
      s.linkageReady (asField new.sw) new.lp = true → s.ioFaulty 0x1000 = false →
        ∃ t, s.interrupt n entry = .entered t ∧ Enters s n entry t)

/-- The level taken at a recognition point is the smallest one that is pending, not masked (0 and 5 cannot be) and enabled
(0, 1 and 5 need no enable), and exactly that one sequence runs (60_exceptions.md R676, R677). That the console comes only
after the levels is the model's choice after R678 and 49_console.md R621 (log 29), that it clears the deposit lock is log 32
(DEDUCED). -/
def Obligations.LevelPriority : Prop :=
  ∀ (s : State) (conreq : Bool),
    let recognisable := fun n : Fin 16 => bitOf s.pir n.val = true ∧ (n = 0 ∨ n = 5 ∨ bitOf s.mask n.val = true) ∧
      (n = 0 ∨ n = 1 ∨ n = 5 ∨ s.inten = true)
    (∀ n, recognisable n → (∀ m, m < n → ¬ recognisable m) → s.recognise conreq = (s.interrupt n 0).result) ∧
    ((∀ n, ¬ recognisable n) →
      s.recognise conreq = .next (if conreq then { s with consoleMode := true, depositLocked := false } else s))

/-- What reaches the machine from outside.
- Timers A and B count TIMER CLK periods and periods by ten; a roll-over to 0 pends level 7 or 9; periods add up
(10_state.md R38, R39; the phase is the model's choice, log 5).
- The pins of levels 0, 2, 8, 10, 11, 13 and 15 are latched on a rising edge, or on a level with SCR bit 4, those of 12 and
14 on a level (60_exceptions.md R674).
- The fault inputs set FT bits 1, 2, 7, and 13 with 15, and PIR bit 1 (60_exceptions.md R665).
- Another master's write, a DMA controller's only while DMAEN is 1, lands unless it draws MEM PRT ER, its address is absent or
memory is globally protected. MEM PRT ER sets FT bit 1, PAR ER FT bit 2, both where it draws both; PAR ER alone does nothing
else, and the word lands with its data (R665, R716, 10_state.md R42, 48_mmu_bpu.md R604). The F9451 translates and checks no DMA
write (R716); another master's it does, lock and key among it, where the platform says so. The model's choices in it: a DMA
write is dropped while DMAEN is 0 (log 33), that another master without DMA ACK goes through the lower half of the F9452's
table, and one answer of the platform for all of these masters, is log 61, the low 20 or 16 address bits are what the F9452
sees (log 14).
- Between two bus cycles come the next turn's fault inputs and writes, and its RESET (20_memory.md R91, R101; log 60). That
another master's I/O write does not reach the F9451 and F9452 is the model's choice (log 66). -/
def Obligations.OutsideInputs : Prop :=
  ∀ (s : State),
    s.tick 1 = { s with
      ta := if s.taRun then s.ta + 1 else s.ta
      tb := if s.tbRun ∧ s.tbPhase = 9 then s.tb + 1 else s.tb
      tbPhase := s.tbPhase + 1
      pir := s.pir ||| pendingIf (s.taRun && decide (s.ta = 0xFFFF)) 7 |||
        pendingIf (s.tbRun && decide (s.tbPhase = 9) && decide (s.tb = 0xFFFF)) 9 } ∧
    (∀ m n : Nat, s.tick (m + n) = (s.tick m).tick n) ∧
    (∀ (pins : Word) (n : Nat), n < 16 →
      bitOf (s.samplePins pins).pir n = (bitOf s.pir n ||
        (if n ∈ [0, 2, 8, 10, 11, 13, 15] then bitOf pins n && (bitOf s.scr 4 || !bitOf s.pinPrev n)
         else decide (n ∈ [12, 14]) && bitOf pins n)) ∧
      s.samplePins pins = { s with pir := (s.samplePins pins).pir, pinPrev := pins }) ∧
    (∀ f : FaultInputs,
      s.externalFaults (outsideFaults f) =
        if f = FaultInputs.none then s
        else { s with
          ft := s.ft ||| pendingIf f.busProtect 1 ||| pendingIf f.busParity 2 ||| pendingIf f.sysflt0 7 |||
            pendingIf f.sysflt1 13 ||| pendingIf f.sysflt1 15
          pir := s.pir ||| oneBit 1 }) ∧
    (∀ w : MasterWrite,
      let c := s.masterCycle w
      let raised := { s with
        ft := s.ft ||| pendingIf c.protect 1 ||| pendingIf c.parity 2
        pir := s.pir ||| pendingIf (c.protect || c.parity) 1 }
      (w.dma = true ∧ s.dmaen = false → s.masterWrite w = s) ∧
      (¬ (w.dma = true ∧ s.dmaen = false) →
        (c.protect = true ∨ c.absent = true ∨ s.writesBlocked = true → s.masterWrite w = raised) ∧
        (c.protect = false → c.absent = false → s.writesBlocked = false → s.mem.wf = true →
          ∃ t, s.masterWrite w = t ∧ t = { raised with mem := t.mem } ∧ t.mem.wf = true ∧
            Stored s.mem t.mem [(c.phys, w.data)])) ∧
      let block := c.phys.toNat % (if bitOf s.scr 0 then 2 ^ 20 else 2 ^ 16) / 2 ^ 10
      let guarded := bitOf s.scr 1 = true ∧ s.globprt = false ∧
        bitOf s.bpuRam[(Fin.ofNat 128 (block / 16 + if w.dma then 64 else 0)).val] (block % 16) = true
      let translated := w.dma = false ∧ s.platform.mastersTranslated = true ∧ bitOf s.scr 0 = true ∧ s.platform.mmuAttached = true
      let page := (s.opr[(Fin.ofNat 16 w.as.toNat).val])[(Fin.ofNat 16 (w.addr.toNat % 2 ^ 16 / 2 ^ 12)).val]
      (¬ translated → c.phys = w.addr ∧ (c.protect = true ↔ guarded)) ∧
      (translated →
        c.phys = (s.cycle .write w.as (some w.key) (w.addr.extractLsb' 0 16)).phys ∧
        (c.protect = true ↔ guarded ∨ bitOf page 4 = true ∨
          ¬ (page.toNat / 2 ^ 12 = 15 ∨ w.key = 0 ∨ w.key.toNat = page.toNat / 2 ^ 12))) ∧
      (let flawed := fun flaw : MemoryFlaw => ∃ r ∈ s.platform.memFaults, r.flaw = flaw ∧
         r.first.toNat ≤ c.phys.toNat ∧ c.phys.toNat ≤ r.last.toNat
       (c.parity = true ↔ flawed .writeParity) ∧ (c.absent = true ↔ flawed .absent))) ∧
    (s.turns = [] → s.turn = s) ∧
    ∀ (t : Turn) (rest : List Turn), s.turns = t :: rest →
      ∃ u, u = t.writes.foldl State.masterWrite ({ s with turns := rest }.externalFaults (outsideFaults t.faults)) ∧
        s.turn = { u with resetting := s.resetting || t.reset }

/-- The boundary after an instruction: an enable that waited since the instruction before takes effect and one just armed
waits for the next boundary, what happened outside arrives, a simulated interrupt just armed holds off recognition once, then
one interrupt or the console (60_exceptions.md R678, 47_io.md R508, R509). In the wait that DISABLE leaves no instruction runs:
an interrupt ends it, else the console does (49_console.md R622). The model's choices in it: the hold-off after SPI is
decision D24 and the late enable with D25 (log 26), one sequence a boundary is D38, the order of what arrives is log 28, no
recognition right after a BPT has entered console mode is log 29, that CONREQ is gated by SCR bit 2 is log 54, the timers run
in the wait is D34. -/
def Obligations.BoundaryAndWait : Prop :=
  ∀ (s : State) (e : Env),
    let request := e.conreq && (bitOf s.scr 2 || !s.platform.conreqGated)
    let arrived := fun u : State => ((({ u with env := s.env.tail }.tick e.timerClk).externalFaults
      (outsideFaults e.faults)).masters e.writes).samplePins e.pins
    let t := arrived { s with
      inten := s.inten || decide (s.enbl = Delay.due), enbl := if s.enbl = Delay.armed then .due else .idle }
    (s.spi = .armed → s.boundary e = .next { t with spi := .due }) ∧
    (s.spi ≠ .armed → s.consoleMode = true → s.boundary e = .next { t with spi := .idle }) ∧
    (s.spi ≠ .armed → s.consoleMode = false → s.boundary e = { t with spi := .idle }.recognise request) ∧
    (s.outside = e → e.reset = false → s.resetting = false → s.consoleMode = false → s.waiting = true →
      (∀ n, (arrived s).nextLevel = some n →
        step s = closeReset ({ arrived s with waiting := false }.interrupt n 0).result) ∧
      ((arrived s).nextLevel = none →
        step s = .next (if request then
          { arrived s with waiting := false, consoleMode := true, depositLocked := false } else arrived s)))

/-! ## 10. The step -/

/-- A step runs the instruction that the words at IC decode to, or the MOV in progress, and then what `finish` says: the
boundary, or the rest of a MOV (00_scope.md R13, 20_memory.md R103, 60_exceptions.md R720). Each word is read when the others
have had their turns after the words before it, and the instruction starts after the last such turn (log 60); a RESET in one
of them makes the step the reset sequence. What follows the instruction, RESET apart, leaves the registers only the console
sees open (U2, log 4): the boundary after any instruction but a MOV that goes on or is suspended (`BlockMove`), only what comes
from outside after these. The model's choices in it: an instruction is fetched where it starts (decision D5,
log 50), fetch faults come before everything else (D40), a MOV in progress is not fetched again (log 17, PRESUMED). -/
def Obligations.StepRunsInstruction : Prop :=
  ∀ (s : State) (i : Instr), s.outside.reset = false → s.resetting = false → s.consoleMode = false → s.waiting = false →
    let runs := fun u : State => (∀ t, exec i u = .next t → step s = t.finish s.outside (u.ending i)) ∧
      (∀ f, exec i u = .fault f → step s = .fault f) ∧ ∀ r, exec i u = .refused r → step s = .refused r
    let after := fun k : Nat => State.turn^[k] s
    let cycle := fun k : Nat => (after k).ownCycle .fetch (s.ic + BitVec.ofNat 16 k)
    let word := fun k : Nat => (after k).mem.readWord (cycle k).phys
    (∀ rest, s.moving = none → decode [word 0, word 1, word 2] = .instr i rest →
      let n := 3 - rest.length
      (∀ k < n, (cycle k).clean = true) →
        ((∀ k < n, (after k).resetComes = false) → runs (after n)) ∧
        ∀ k < n, (∀ j < k, (after j).resetComes = false) → (after k).resetComes = true →
          step s = .next (after (k + 1)).halt) ∧
    (∀ ra rb, s.moving = some (ra, rb) → i = .mov ra rb → runs s) ∧
    ((∀ ra rb, i ≠ .mov ra rb) → s.ending i = .boundary) ∧
    ∀ (t : State) (e : Env), t.resetting = false →
      ∃ open_ : Scratch,
        let left := fun m : Option (Reg × Reg) => { t with scratch := open_, free := t.free + 7, moving := m }
        let settled := fun u : State => if u.resetting then u.restart else u
        (∀ u, (left none).boundary e = .next u → t.finish e .boundary = .next (settled u)) ∧
        (∀ f, (left none).boundary e = .fault f → t.finish e .boundary = .fault f) ∧
        (∀ ra rb, t.finish e (.between ra rb) = .next ((left (some (ra, rb))).arrive e true)) ∧
        t.finish e .taken = .next ((left none).arrive e true)

/-- A step where no instruction runs: an unassigned opcode is an effective NOP of one word with FT bit 9 and PIR bit 1, then
the boundary; a fetch of the first, second or third word that draws a fault enters level 1 at once with IC at the
instruction, or stops the model where level 1 is masked (60_exceptions.md R663, R667, U9); a first word that violates a
constant field of its format is refused by name (30_encoding.md R158, U3, log 22). The model's choices in it: one word is
skipped for an unassigned opcode (decision D9, log 23), IC stays at the instruction after a fetch fault (D36, log 52), the stop
where level 1 is masked is log 20. -/
def Obligations.StepWithoutInstruction : Prop :=
  ∀ (s : State), s.outside.reset = false → s.resetting = false → s.consoleMode = false → s.waiting = false →
    s.moving = none →
    let after := fun k : Nat => State.turn^[k] s
    let cycle := fun k : Nat => (after k).ownCycle .fetch (s.ic + BitVec.ofNat 16 k)
    let word := fun k : Nat => (after k).mem.readWord (cycle k).phys
    let nop := { s.turn with
      ft := s.turn.ft ||| oneBit 9, pir := s.turn.pir ||| oneBit 1, ic := s.ic + 1, trace := .unrcvEr :: s.turn.trace }
    ((cycle 0).clean = true → s.resetComes = false →
      (decode [word 0] = .illegal → step s = nop.finish s.outside .boundary) ∧
      (decode [word 0] = .reserved → step s = .refused (.reservedEncoding (word 0)))) ∧
    ∀ k < 3, (∀ j < k, (cycle j).clean = true ∧ (after j).resetComes = false) →
      (k = 0 ∨ decode ((List.range k).map word) = .more) → (cycle k).clean = false →
        (bitOf s.mask 1 = true → step s = closeReset (({ after k with
          ft := (after k).ft ||| Shape.cycleFaults (cycle k), pir := (after k).pir ||| oneBit 1,
          trace := .unrcvEr :: (after k).trace }.arrive s.outside true).interrupt 1 0).result) ∧
        (bitOf s.mask 1 = false → step s = .fault .fetchFaultMasked)

/-- A step with RESET low is the reset sequence, and so is one in which RESET comes between two bus cycles: the registers of
Table 4.1 hold their reset values and memory is as it was, the stores made before RESET among it (70_reset_and_hazards.md R740
to R747). The model's choices in it: the identity page map (decision D30, log 35), the run from 0000 after a failed self-test
(D41, log 52), FT bits 5 and 2 of the initialisation's write cycles as of its read cycle (log 58), what survives (log 43). -/
def Obligations.ResetValues : Prop :=
  (∀ s : State,
    let t := s.halt
    t.ic = 0 ∧ t.sw = 0 ∧ t.mask = 0 ∧ t.ta = 0 ∧ t.tb = 0 ∧ t.taRun = true ∧ t.tbRun = true ∧ t.inten = false ∧
    t.enbl = .idle ∧ t.spi = .idle ∧ t.dmaen = false ∧ t.nmlpwrup = s.platform.selftestOk ∧ t.scr = s.platform.scrValue ∧
    t.consoleMode = false ∧ t.waiting = false ∧ t.moving = none ∧ t.resetting = false ∧ t.globprt = true ∧ t.mem = s.mem ∧
    bitOf t.ft 13 = (!s.platform.selftestOk || bitOf s.platform.selftestFaults 13) ∧
    bitOf t.ft 5 = (bitOf s.platform.selftestFaults 5 || (resetAddresses s.platform).any (ioFlawAt s.platform .illegal)) ∧
    bitOf t.ft 2 = (bitOf s.platform.selftestFaults 2 || (resetAddresses s.platform).any (ioFlawAt s.platform .parity)) ∧
    (t.pir = if t.ft = 0 then 0 else oneBit 1) ∧
    (bitOf t.scr 0 = true → ∀ g r : Fin 16, (t.ipr[g.val])[r.val] = BitVec.ofNat 16 r.val ∧
      (t.opr[g.val])[r.val] = BitVec.ofNat 16 r.val) ∧
    (bitOf t.scr 1 = true → ∀ k : Fin 128, t.bpuRam[k.val] = 0)) ∧
  (∀ s : State, s.halt = { s with env := s.env.tail }.restart) ∧
  (∀ s : State, s.outside.reset = true → step s = .next s.halt) ∧
  (∀ (t : State) (e : Env) (ending : Ending), t.resetting = true → t.finish e ending = .next t.halt) ∧
  ∀ (t : State) (e : Env), t.resetting = true → arriveInConsole (.next t) e = .next t.halt

/-! ## 11. Memory management, console -/

/-- The check of one memory cycle: with an F9451 the page register of address state, space and page gives the physical page
and is tested for lock and key, execute and write protection; with SCR bit 0 and no F9451 the space, the address state and the
address go out as 21 bits, without SCR bit 0 the address as it is; an F9452 whose global protect is off tests every write;
the memory system answers with bad parity or not at all (48_mmu_bpu.md R582, R584, R590, R591, R593, R604, 20_memory.md R86
to R88, R96, 00_scope.md R7; the 23-bit form, the D/I line and the bits the F9452 sees are logs 13 and 14). -/
def Obligations.MemoryCheck : Prop :=
  ∀ (s : State) (kind : CycleKind) (as : BitVec 4) (key : Option (BitVec 4)) (addr : Word),
    let group : Fin 16 := Fin.ofNat 16 as.toNat
    let page : Fin 16 := Fin.ofNat 16 (addr.toNat / 4096)
    let pr := if kind = .fetch then (s.ipr[group.val])[page.val] else (s.opr[group.val])[page.val]
    let mmu := bitOf s.scr 0 = true ∧ s.platform.mmuAttached = true
    let line := if s.platform.diDecoded = true ∧ kind ≠ .fetch then 1 else 0
    let c := s.cycle kind as key addr
    let block := c.phys.toNat % (if bitOf s.scr 0 then 2 ^ 20 else 2 ^ 16) / 2 ^ 10
    let flawed := fun flaw : MemoryFlaw => ∃ r ∈ s.platform.memFaults, r.flaw = flaw ∧
      r.first.toNat ≤ c.phys.toNat ∧ c.phys.toNat ≤ r.last.toNat
    (mmu → s.platform.ppa11 = false → c.phys.toNat = pr.toNat % 2 ^ 8 * 2 ^ 12 + addr.toNat % 2 ^ 12) ∧
    (mmu → s.platform.ppa11 = true →
      c.phys.toNat = line * 2 ^ 23 + pr.toNat % 2 ^ 11 * 2 ^ 12 + addr.toNat % 2 ^ 12) ∧
    (bitOf s.scr 0 = true → s.platform.mmuAttached = false →
      c.phys.toNat = (if kind = .fetch then 0 else 1) * 2 ^ 20 + as.toNat * 2 ^ 16 + addr.toNat) ∧
    (bitOf s.scr 0 = false → c.phys.toNat = line * 2 ^ 16 + addr.toNat) ∧
    (c.protect = true ↔
      (mmu ∧ ((∃ k, key = some k ∧ ¬ (pr.toNat / 2 ^ 12 = 15 ∨ k = 0 ∨ k.toNat = pr.toNat / 2 ^ 12)) ∨
        (kind = .fetch ∧ bitOf pr 4 = true) ∨ (kind = .write ∧ bitOf pr 4 = true))) ∨
      (kind = .write ∧ bitOf s.scr 1 = true ∧ s.globprt = false ∧
        bitOf s.bpuRam[(Fin.ofNat 128 (block / 16)).val] (block % 16) = true)) ∧
    (c.parity = true ↔ flawed (if kind = .write then .writeParity else .readParity)) ∧
    (c.absent = true ↔ flawed .absent)

/-- What DEPOSIT REGISTER does to the registers that are not general ones, by their number in the command, and whether a
fault in console mode locks them (49_console.md R626, R628, R629, R636). -/
def Sys2Proof.Machine.Shape.deposits (s : State) (d : Word) : List (Nat × State × Bool) :=
  [(0x08, { s with scratch := { s.scratch with a2 := d } }, true),
   (0x18, { s with scratch := { s.scratch with a1 := d } }, true),
   (0x09, { s with scratch := { s.scratch with q2 := d } }, true),
   (0x19, { s with scratch := { s.scratch with q1 := d } }, true),
   (0x0A, { s with scratch := { s.scratch with do0 := d } }, true),
   (0x1A, { s with scratch := { s.scratch with do1 := d } }, true),
   (0x0B, { s with pir := d }, false), (0x1B, { s with mask := d }, false),
   (0x0C, { s with ft := (s.ft &&& 0xFF8B) ||| (~~~ d &&& 0x0074) }, false),
   (0x0E, { s with ta := d }, false), (0x1E, { s with tb := d }, false)]

/-- What EXAMINE REGISTER shows of them, and of SW and IC (49_console.md R626, R627). -/
def Sys2Proof.Machine.Shape.examined (s : State) : List (Nat × Word) :=
  [(0x08, s.scratch.a2), (0x18, s.scratch.a1), (0x09, s.scratch.q2), (0x19, s.scratch.q1), (0x0A, s.scratch.do0),
   (0x1A, s.scratch.do1), (0x0B, s.pir), (0x1B, s.mask), (0x0C, s.ft), (0x0D, s.sw), (0x0E, s.ta), (0x1E, s.tb),
   (0x25, s.ic)]

/-- The FT bits of an I/O cycle: 5 for EXT ADR ER, 2 for PAR ER (60_exceptions.md R666, 20_memory.md R96). -/
def Sys2Proof.Machine.Shape.ioFaults (s : State) (addr : Word) : Word :=
  pendingIf (ioFlawAt s.platform .illegal addr) 5 ||| pendingIf (ioFlawAt s.platform .parity addr) 2

/-- The FT bits that the cycles of a console command draw: the read of the command, and with it those that the command's code
lists, at the switches' word `d` and at IC and A1, counted up by the NEXT forms (49_console.md R626 to R643). -/
def Sys2Proof.Machine.Shape.consoleFaults (s : State) (code : Nat) (d : Word) : Word :=
  let next := if code = 0x6A ∨ code = 0x6B then s.ic + 1 else s.ic
  let port := if (code = 0x6E ∨ code = 0x6F) ∧ s.depositLocked = false ∧ s.ioFaulty 0x8400 = false then s.scratch.a1 + 1
    else s.scratch.a1
  let target := if code = 0x66 ∧ ioFlawAt s.platform .illegal 0x8401 = false then d else next
  let on := fun (codes : List Nat) (bits : Word) => if code ∈ codes then bits else 0
  Shape.ioFaults s 0x8400 ||| on [0x61, 0x63, 0x66, 0x67, 0x6B, 0x6D, 0x6F] (Shape.ioFaults s 0x8401) |||
    on [0x60, 0x62, 0x66, 0x6A, 0x6C, 0x6E] (Shape.ioFaults s 0x0400) |||
    on [0x66, 0x6A] (Shape.cycleFaults (s.ownCycle .read target)) |||
    on [0x67, 0x6B] (Shape.cycleFaults (s.ownCycle .write next)) |||
    on [0x6C, 0x6D, 0x6E, 0x6F] (Shape.ioFaults s port)

/-- Console requests: in console mode a step carries out one command, or waits. EXAMINE and DEPOSIT REGISTER reach the
registers at their table addresses, and none elsewhere (log 30); EXAMINE and DEPOSIT MEMORY and their NEXT forms the word at IC;
EXAMINE and DEPOSIT XIO and their NEXT forms the port A1; FT and SW have commands of their own; CONTINUE and DISABLE leave; any
other command does nothing (49_console.md R620 to R622, R624, R626 to R636, R640 to R643). The model's choices in it: the
gate of SCR bit 2 is log 54, CONTINUE under a held request stays is log 29, the examine-and-clear of FT leaves PIR is log 31,
what the deposit lock covers is log 32, the bits of a deposited SW are log 53; EXAMINE XIO reads nothing from 8401, and the two XIO
forms are an external cycle only, on which the CPU's own commands do not act (decision D33, log 51); what follows a faulted read is
D35 (log 15), the word an EXAMINE MEMORY shows after one log 62, that DEPOSIT STATUS WORD makes no address-state check after one
log 55, that faults of other masters' cycles do not lock the deposits log 63.
A cycle of a command that draws EXT ADR ER, MEM PRT ER or PAR ER (`Shape.consoleFaults`) sets its FT bits and PIR bit 1 and locks the
deposits, so no general register changes; a command word that draws EXT ADR ER is no command (R636, log 32). -/
def Obligations.Console : Prop :=
  ∀ (s : State) (held : Bool) (c d : Word) (rest : List Word),
    let code := c.toNat / 256
    let number := c.toNat % 64
    let request := s.outside.conreq && (bitOf s.scr 2 || !s.platform.conreqGated)
    let told := BusEvent.ioRead 0x8400 c :: s.trace
    let shown := fun v : Word => .ioWrite 0x0400 v :: told
    let taken := .ioRead 0x8401 d :: told
    let next := if code = 0x6A ∨ code = 0x6B then s.ic + 1 else s.ic
    let port := if (code = 0x6E ∨ code = 0x6F) ∧ s.depositLocked = false then s.scratch.a1 + 1 else s.scratch.a1
    (s.consoleMode = true → s.outside.reset = false → s.resetting = false →
      (request = false → step s = .next (s.arrive s.outside false)) ∧
      (∀ t, request = true → s.console (s.outside.conreqHeld && (bitOf s.scr 2 || !s.platform.conreqGated)) = .next t →
        step s = .next (if t.resetting then t.halt else t.arrive s.outside false))) ∧
    (s.alone = true → ioFlawAt s.platform .illegal 0x8400 = true → ∃ open_,
      s.console held = .next { s with
        ft := s.ft ||| Shape.ioFaults s 0x8400, pir := s.pir ||| oneBit 1, free := s.free + 1, depositLocked := true,
        trace := .majEr :: .ioRead 0x8400 open_ :: s.trace }) ∧
    (s.alone = true → ioFlawAt s.platform .illegal 0x8400 = false → s.ioIn = c :: d :: rest → code ≠ 0x74 → code ≠ 0x75 →
      let faults := Shape.consoleFaults s code d
      faults ≠ 0 → ∀ t, s.console held = .next t →
        t.depositLocked = true ∧ t.regs = s.regs ∧ t.sw = (if code = 0x63 then t.sw else s.sw) ∧
        (code ∈ [0x60, 0x66, 0x67, 0x6A, 0x6B, 0x6C, 0x6D, 0x6E, 0x6F] →
          t.ft = s.ft ||| faults ∧ t.pir = s.pir ||| oneBit 1) ∧
        (ioFlawAt s.platform .illegal 0x8401 = true → code = 0x61 ∨ code = 0x63 →
          ∃ trace, t = { s with
            ioIn := d :: rest, ft := s.ft ||| faults, pir := s.pir ||| oneBit 1, free := s.free + 1, depositLocked := true,
            trace := trace })) ∧
    (s.alone = true → s.ioFaulty 0x8400 = false → s.ioFaulty 0x8401 = false → s.ioFaulty 0x0400 = false →
      (s.ioIn = c :: rest →
        (code = 0x60 → ∀ r : Reg, number = r.val % 2 * 16 + r.val / 2 →
          s.console held = .next { s with ioIn := rest, trace := shown (s.reg r) }) ∧
        (code = 0x60 → ∀ v, (number, v) ∈ Shape.examined s →
          s.console held = .next { s with ioIn := rest, trace := shown v }) ∧
        (code = 0x60 → number ∈ [0x2C, 0x2D, 0x2E, 0x2F] → ∃ open_,
          s.console held = .next { s with ioIn := rest, trace := shown open_ }) ∧
        (code = 0x60 ∨ code = 0x61 →
          number ∈ [0x0F, 0x1C, 0x1D, 0x1F] ∨ (0x20 ≤ number ∧ number ∉ [0x25, 0x2C, 0x2D, 0x2E, 0x2F]) →
            s.console held = .refused (.consoleRegister (BitVec.ofNat 6 number))) ∧
        (code = 0x61 → number ∈ [0x0D, 0x25, 0x2C, 0x2D, 0x2E, 0x2F] →
          s.console held = .refused (.consoleRegister (BitVec.ofNat 6 number))) ∧
        (code = 0x62 → s.console held = .next { s with ioIn := rest, trace := shown s.ft, ft := 0 }) ∧
        (code = 0x6A → s.readable next = true →
          s.console held = .next { s with ioIn := rest, trace := shown (s.loaded next), ic := next }) ∧
        (code = 0x74 → s.console held = .next { s with
          ioIn := rest, trace := told, consoleMode := false, waiting := true, depositLocked := false }) ∧
        (code = 0x75 → s.console held = .next { s with
          ioIn := rest, trace := told, consoleMode := held, depositLocked := false }) ∧
        (code ∉ [0x60, 0x61, 0x62, 0x63, 0x66, 0x67, 0x6A, 0x6B, 0x6C, 0x6D, 0x6E, 0x6F, 0x74, 0x75] →
          s.console held = .next { s with ioIn := rest, trace := told })) ∧
      (s.ioIn = c :: d :: rest →
        (code = 0x61 → ∀ r : Reg, number = r.val % 2 * 16 + r.val / 2 →
          s.console held = .next { (if s.depositLocked then s else s.setReg r d) with ioIn := rest, trace := taken }) ∧
        (code = 0x61 → ∀ t locks, (number, t, locks) ∈ Shape.deposits s d →
          s.console held = .next { (if s.depositLocked && locks then s else t) with ioIn := rest, trace := taken }) ∧
        (code = 0x63 → s.console held = .next
          (if bitOf s.scr 0 = false ∧ asField d ≠ 0 then
            { s with ioIn := rest, ft := s.ft ||| oneBit 11, pir := s.pir ||| oneBit 1, trace := .unrcvEr :: taken }
          else { s with ioIn := rest, trace := taken, sw := d &&& 0xF0FF })) ∧
        (code = 0x66 → s.readable d = true →
          s.console held = .next { s with
            ioIn := rest, trace := .ioWrite 0x0400 (s.loaded d) :: taken, ic := d }) ∧
        (code = 0x67 ∨ code = 0x6B → s.mem.wf = true → s.writable next = true → ∃ t, s.console held = .next t ∧
          t = { s with ioIn := rest, trace := taken, ic := next, mem := t.mem } ∧ t.mem.wf = true ∧
          Stored s.mem t.mem [(s.place next, d)]) ∧
        (code = 0x6C ∨ code = 0x6E → s.ioFaulty port = false → port ≠ 0x8410 → s.chipRead port = none →
          s.console held = .next { s with
            ioIn := rest, trace := .ioWrite 0x0400 d :: .ioRead port d :: told,
            scratch := { s.scratch with a1 := port } }) ∧
        (code = 0x6D ∨ code = 0x6F → s.ioFaulty port = false → s.chipWrite port d = s →
          s.console held = .next { s with
            ioIn := rest, trace := .ioWrite port d :: taken, scratch := { s.scratch with a1 := port } })))

/-! ## 12. Encoding -/

/-- Decoding an encoded well-formed instruction gives it back, whatever words follow, and tells where it ends; so it does
byte by byte (30_encoding.md R120 to R157). -/
def Obligations.DecodeInvertsEncode : Prop :=
  ∀ (i : Instr) (rest : List Word), i.wf = true →
    decode (encode i ++ rest) = .instr i rest ∧
    decodeBytes ((encode i ++ rest).flatMap wordBytes) = .instr i rest

/-- Words of each format read as the instructions they stand for (30_encoding.md R125 to R132, R150 to R158; a sanity
check). -/
def Obligations.DecodedWords : Prop :=
  decode [0xA134] = .instr (.ar 3 4) [] ∧
  decode [0x8052, 0x1234] = .instr (.l 5 2 0x1234) [] ∧
  decode [0x8452, 0x1234] = .instr (.li 5 2 0x1234) [] ∧
  decode [0x0310] = .instr (.lb 15 0x10) [] ∧
  decode [0x4025] = .instr (.stbx 12 5) [] ∧
  decode [0x4A31, 0xFFFE] = .instr (.aim 3 0xFFFE) [] ∧
  decode [0x829F] = .instr (.lisp 9 16) [] ∧
  decode [0x8390] = .instr (.lisn 9 1) [] ∧
  decode [0x7250, 0x2000] = .instr (.js 5 0 0x2000) [] ∧
  decode [0x74FE] = .instr (.br 0xFE) [] ∧
  decode [0x4810, 0x2000] = .instr (.xio 1 0 0x2000) [] ∧
  decode [0x4F66, 0x1234, 0x5678] = .instr (.bif true 2 6 0x1234 0x5678) [] ∧
  decode [0xFF00] = .instr .nop [] ∧
  decode [0xFFFF] = .instr .bpt [] ∧
  decode [0x4A3C] = .illegal ∧
  decode [0xFF01] = .reserved ∧
  decode [0x80] = .instr (.lb 12 0x80) []

/-! ## 13. The machine as a whole -/

/-- Every step keeps the invariant, from every state that has it, whatever the instruction and whatever happens outside: no
reset stays half done, memory stays canonical, SW bits 4 to 7 and the unused FT bits read 0, SCR is the system's, the
address state is 0 without SCR bit 0, and the ways of not running instructions exclude each other (10_state.md R28, R36,
60_exceptions.md R668, 70_reset_and_hazards.md R746). -/
def Obligations.InvariantKept : Prop := ∀ s t : State, Inv s → step s = .next t → Inv t

/-- The machine after reset has the invariant, whatever system it stands in. -/
def Obligations.InvariantAtReset : Prop := Inv State.reset ∧ ∀ p : Platform, Inv (State.resetWith p)

/-- What a program with AK not 0 cannot change: no instruction but BEX, which runs a service routine, and a MOV that an
interrupt suspends, changes MK, AK, AS, the reserved bits of SW, the enables, the timers, DMAEN, NML PWRUP, the page
registers, the protect RAM or the global protect latch (60_exceptions.md R700 to R702, 48_mmu_bpu.md R583, R603). That no other
master's I/O write between its cycles changes the registers of the two chips is the model's choice (log 66). -/
def Obligations.UserIsolation : Prop :=
  ∀ (i : Instr) (s t : State), akField s.sw ≠ 0 → (∀ n, i ≠ .bex n) →
    (∀ ra rb, i = .mov ra rb → s.spi ≠ .idle ∨ s.nextLevel = none) → exec i s = .next t →
      t.mask = s.mask ∧ t.sw.extractLsb' 0 12 = s.sw.extractLsb' 0 12 ∧ t.inten = s.inten ∧ t.enbl = s.enbl ∧
      t.spi = s.spi ∧ t.ta = s.ta ∧ t.tb = s.tb ∧ t.taRun = s.taRun ∧ t.tbRun = s.tbRun ∧ t.tbPhase = s.tbPhase ∧
      t.dmaen = s.dmaen ∧ t.nmlpwrup = s.nmlpwrup ∧ t.ipr = s.ipr ∧ t.opr = s.opr ∧ t.bpuRam = s.bpuRam ∧
      t.globprt = s.globprt ∧ t.platform = s.platform
end

