-- ==== Sys2Proof/Laws/Decode.lean ====
section
/-! SUPPORT. The fields of an encoded first word are the fields it was made of, and the operand conversions undo each
other. -/

namespace Sys2Proof

/-- Bits 0 to 7 of a first word. -/
@[simp] theorem opField_firstWord (op : Byte) (hi lo : BitVec 4) : opField (firstWord op hi lo) = op := by
  unfold opField firstWord
  ext i hi'
  simp only [BitVec.getElem_extractLsb', BitVec.getLsbD_append]
  have h1 : ¬ 8 + i < 4 := by omega
  have h2 : ¬ 8 + i - 4 < 4 := by omega
  have h3 : 8 + i - 4 - 4 = i := by omega
  simp [h1, h2, h3, BitVec.getLsbD_eq_getElem hi']

/-- Bits 8 to 11 of a first word. -/
@[simp] theorem hiField_firstWord (op : Byte) (hi lo : BitVec 4) : hiField (firstWord op hi lo) = hi := by
  unfold hiField firstWord
  ext i hi'
  simp only [BitVec.getElem_extractLsb', BitVec.getLsbD_append]
  have h1 : ¬ 4 + i < 4 := by omega
  have h2 : 4 + i - 4 = i := by omega
  simp [h1, h2, hi']

/-- Bits 12 to 15 of a first word. -/
@[simp] theorem loField_firstWord (op : Byte) (hi lo : BitVec 4) : loField (firstWord op hi lo) = lo := by
  unfold loField firstWord
  ext i hi'
  simp only [BitVec.getElem_extractLsb', BitVec.getLsbD_append]
  simp [hi']

/-- A first word with one field of eight bits has that field's halves as its fields. -/
theorem firstWord8_eq (op f : Byte) : firstWord8 op f = firstWord op (f.extractLsb' 4 4) (f.extractLsb' 0 4) := by
  unfold firstWord8 firstWord
  apply BitVec.eq_of_getLsbD_eq
  intro i hi'
  simp only [BitVec.getLsbD_append, BitVec.getLsbD_extractLsb']
  by_cases h4 : i < 4
  · have : i < 8 := by omega
    simp [h4, this]
  · by_cases h8 : i < 8
    · have h1 : i - 4 < 4 := by omega
      have h2 : 4 + (i - 4) = i := by omega
      simp [h4, h8, h1, h2]
    · have h1 : ¬ i - 4 < 4 := by omega
      have h2 : i - 4 - 4 = i - 8 := by omega
      simp [h4, h8, h1, h2]

/-- The two halves of a field of eight bits. -/
theorem halves (f : Byte) : f.extractLsb' 4 4 ++ f.extractLsb' 0 4 = f := by
  revert f; decide

/-- A register number survives its field. -/
@[simp] theorem reg_regBits (r : Reg) : reg (regBits r) = r := by
  revert r; decide

/-- A count 1 to 16 survives its field. -/
theorem count_countBits {n : Nat} (h : isCount n = true) : count (countBits n) = n := by
  simp only [isCount, Bool.and_eq_true, decide_eq_true_eq] at h
  simp only [count, countBits, BitVec.toNat_ofNat]
  omega

/-- A base register survives its opcode. -/
theorem baseReg_baseOp (k : Fin 17) {br : Reg} (h : br.isBase = true) :
    baseReg (baseOp (BitVec.ofNat 8 (4 * k.val)) br) = br := by
  revert h br k; decide

/-- The opcode of a base-relative instruction is one of four. -/
theorem baseOp_div (k : Fin 17) {br : Reg} (h : br.isBase = true) :
    (baseOp (BitVec.ofNat 8 (4 * k.val)) br).toNat / 4 = k.val := by
  revert h br k; decide

/-- The coprocessor number survives its field. -/
theorem coprocessor_bifBits (direct three : Bool) (cp : Fin 4) : coprocessor (bifBits direct three cp) = cp := by
  revert direct three cp; decide

/-- The two bits that select the form survive. -/
theorem bifBits_div (direct three : Bool) (cp : Fin 4) :
    (bifBits direct three cp).toNat / 4 = 2 * direct.toNat + three.toNat := by
  revert direct three cp; decide

/-- The words of the bytes of words. -/
theorem bytesWords_flatMap (ws : List Word) : bytesWords (ws.flatMap wordBytes) = ws := by
  induction ws with
  | nil => rfl
  | cons w ws ih =>
    have h : w.extractLsb' 8 8 ++ w.extractLsb' 0 8 = w := by
      apply BitVec.eq_of_getLsbD_eq
      intro i _
      simp only [BitVec.getLsbD_append, BitVec.getLsbD_extractLsb']
      by_cases h8 : i < 8
      · simp [h8]
      · have h1 : i - 8 < 8 := by omega
        have h2 : 8 + (i - 8) = i := by omega
        simp [*]
    simp only [List.flatMap_cons, wordBytes, List.cons_append, List.nil_append, bytesWords, ih, h]

/-- Decoding of bytes is decoding of the words they hold. -/
theorem decodeBytes_flatMap (ws : List Word) : decodeBytes (ws.flatMap wordBytes) = decode ws := by
  rw [decodeBytes, bytesWords_flatMap]

end Sys2Proof
end

