-- ==== Sys2Proof/Laws/Flags.lean ====
section
/-! SUPPORT. What the flag and arithmetic functions of `Sys2Proof/Machine/Flags.lean` compute, in exact integers. -/

namespace Sys2Proof.Machine

/-- A bit vector is zero where its integer is. -/
theorem toInt_eq_zero {w : Nat} (v : BitVec w) : v.toInt = 0 ↔ v = 0 := by
  rw [← BitVec.toInt_inj]
  simp

/-- `set_cs_pzn` is the sign of the signed number. -/
theorem pzn_eq {w : Nat} (v : BitVec w) : pzn v = signCs v.toInt := by
  unfold pzn signCs
  by_cases h0 : v = 0
  · simp [h0]
  · have : ¬ v.toInt = 0 := fun e => h0 ((toInt_eq_zero v).1 e)
    simp only [h0, this, if_false, BitVec.msb_eq_toInt, decide_eq_true_eq]

/-- `set_cs_cpzn` is the sign with the carry in front. -/
theorem cpzn_eq {w : Nat} (c : Bool) (v : BitVec w) : cpzn c v = carryCs c v.toInt := by
  rw [cpzn, pzn_eq, carryCs, BitVec.or_comm]

/-- A compare is the order of the numbers. -/
theorem order_eq (x y : Int) : order x y = orderCs x y := rfl

/-- A signed number is in its range. -/
theorem fits_toInt {w : Nat} (v : BitVec w) (hw : 0 < w) : fits w v.toInt = true := by
  have h1 := BitVec.le_two_mul_toInt (x := v)
  have h2 := BitVec.two_mul_toInt_lt (x := v)
  have h3 : (2 : Int) ^ w = 2 * 2 ^ (w - 1) := by
    obtain ⟨k, rfl⟩ : ∃ k, w = k + 1 := ⟨w - 1, by omega⟩
    simp [pow_succ, mul_comm]
  simp only [fits, Bool.and_eq_true, decide_eq_true_eq]
  omega

/-- The overflow test of the range. -/
theorem not_fits (w : Nat) (v : Int) : (!fits w v) = (decide (2 ^ (w - 1) ≤ v) || decide (v < -2 ^ (w - 1))) := by
  rw [Bool.eq_iff_iff]
  simp only [fits, Bool.not_and, Bool.or_eq_true, Bool.not_eq_true', decide_eq_true_eq, decide_eq_false_iff_not]
  omega

/-- A sum is the exact sum of the numbers, narrowed. -/
theorem addC_r {w : Nat} (a b : BitVec w) : (addC a b).r = BitVec.ofInt w (a.toInt + b.toInt) := by
  simp [addC, BitVec.ofInt_add]

/-- The overflow of a sum: the exact sum does not fit. -/
theorem addC_v {w : Nat} (a b : BitVec w) : (addC a b).v = !fits w (a.toInt + b.toInt) := by
  have e : (addC a b).v = a.saddOverflow b := by
    rw [BitVec.saddOverflow_eq]; rfl
  rw [e, not_fits]
  rfl

/-- A difference is the exact difference of the numbers, narrowed. -/
theorem subC_r {w : Nat} (a b : BitVec w) : (subC a b).r = BitVec.ofInt w (a.toInt - b.toInt) := by
  rw [Int.sub_eq_add_neg, BitVec.ofInt_add, BitVec.ofInt_neg]
  simp [subC, BitVec.sub_eq_add_neg]

/-- The overflow of a difference: the exact difference does not fit. -/
theorem subC_v {w : Nat} (a b : BitVec w) : (subC a b).v = !fits w (a.toInt - b.toInt) := by
  have e : (subC a b).v = a.ssubOverflow b := by
    rw [BitVec.ssubOverflow_eq]
    simp only [subC]
    cases a.msb <;> cases b.msb <;> cases (a - b).msb <;> rfl
  rw [e, not_fits]
  rfl

/-- The carry of a difference is 1 when there is no borrow (40_integer.md R171, D11). -/
theorem subC_c {w : Nat} (a b : BitVec w) : (subC a b).c = decide (b.toNat ≤ a.toNat) := by
  simp only [subC, BitVec.toNat_not]
  have := a.isLt
  have := b.isLt
  apply decide_eq_decide.2
  omega

/-! ## Products -/

/-- Two signed numbers that are not 0 have a positive product exactly when their signs agree. -/
theorem msb_eq_iff_mul_pos {w : Nat} {x y : BitVec w} (hx : x ≠ 0) (hy : y ≠ 0) :
    (x.msb == y.msb) = decide (0 < x.toInt * y.toInt) := by
  have hx' : x.toInt ≠ 0 := fun e => hx ((toInt_eq_zero x).1 e)
  have hy' : y.toInt ≠ 0 := fun e => hy ((toInt_eq_zero y).1 e)
  rw [Bool.eq_iff_iff, beq_iff_eq, decide_eq_true_eq, mul_pos_iff, BitVec.msb_eq_toInt, BitVec.msb_eq_toInt,
    decide_eq_decide]
  omega

/-- The halves of a positive product say whether it fits. -/
theorem halves_pos {p : Int} (h0 : 0 < p) (h1 : p < 2 ^ 31) :
    (highWord (BitVec.ofInt 32 p) != 0 || (lowWord (BitVec.ofInt 32 p)).msb) = !fits 16 p := by
  have hz : (0 : Word).toNat = 0 := rfl
  rw [Bool.eq_iff_iff]
  simp only [Bool.or_eq_true, bne_iff_ne, ne_eq, ← BitVec.toNat_inj, BitVec.msb_eq_decide, decide_eq_true_eq, highWord,
    lowWord, BitVec.extractLsb'_toNat, BitVec.toNat_ofInt, Nat.shiftRight_eq_div_pow, fits, Bool.not_eq_true',
    Bool.and_eq_false_iff, decide_eq_false_iff_not, hz]
  norm_num
  omega

/-- The halves of a negative product say whether it fits. -/
theorem halves_neg {p : Int} (h0 : p < 0) (h1 : -2 ^ 31 ≤ p) :
    (highWord (BitVec.ofInt 32 p) != BitVec.allOnes 16 || !(lowWord (BitVec.ofInt 32 p)).msb) = !fits 16 p := by
  rw [Bool.eq_iff_iff]
  simp only [Bool.or_eq_true, bne_iff_ne, ne_eq, ← BitVec.toNat_inj, BitVec.msb_eq_decide, highWord, lowWord,
    BitVec.extractLsb'_toNat, BitVec.toNat_ofInt, Nat.shiftRight_eq_div_pow, fits, Bool.not_eq_true',
    Bool.and_eq_false_iff, decide_eq_false_iff_not, BitVec.toNat_allOnes]
  norm_num
  omega

/-- The overflow condition of a 16-bit product is that the exact product does not fit (40_integer.md R173). -/
theorem productOverflow_16 (x y : Word) :
    productOverflow x y (highWord (product16 x y)) (lowWord (product16 x y)) = !fits 16 (x.toInt * y.toInt) := by
  by_cases hx : x = 0
  · subst hx; simp [productOverflow, fits]
  by_cases hy : y = 0
  · subst hy; simp [productOverflow, fits]
  have hxb : (x != 0) = true := by simpa using hx
  have hyb : (y != 0) = true := by simpa using hy
  have hne : (x.msb != y.msb) = !decide (0 < x.toInt * y.toInt) := by
    rw [← msb_eq_iff_mul_pos hx hy]; rfl
  have h1 := BitVec.le_toInt x
  have h2 := BitVec.toInt_lt (x := x)
  have h3 := BitVec.le_toInt y
  have h4 := BitVec.toInt_lt (x := y)
  norm_num at h1 h2 h3 h4
  unfold productOverflow
  rw [hxb, hyb, msb_eq_iff_mul_pos hx hy, hne, product16]
  by_cases hp : 0 < x.toInt * y.toInt
  · rw [← halves_pos hp (by nlinarith)]
    simp [hp]
  · have hp0 : x.toInt * y.toInt ≠ 0 := by
      rw [mul_ne_zero_iff]
      exact ⟨fun e => hx ((toInt_eq_zero x).1 e), fun e => hy ((toInt_eq_zero y).1 e)⟩
    rw [← halves_neg (p := x.toInt * y.toInt) (by omega) (by nlinarith)]
    simp [hp]

/-- The halves of a positive product say whether it fits. -/
theorem halves_pos64 {p : Int} (h0 : 0 < p) (h1 : p < 2 ^ 63) :
    ((BitVec.ofInt 64 p).extractLsb' 32 32 != 0 || ((BitVec.ofInt 64 p).extractLsb' 0 32).msb) = !fits 32 p := by
  have hz : (0 : Long).toNat = 0 := rfl
  rw [Bool.eq_iff_iff]
  simp only [Bool.or_eq_true, bne_iff_ne, ne_eq, ← BitVec.toNat_inj, BitVec.msb_eq_decide, decide_eq_true_eq, BitVec.extractLsb'_toNat, BitVec.toNat_ofInt, Nat.shiftRight_eq_div_pow, fits, Bool.not_eq_true',
    Bool.and_eq_false_iff, decide_eq_false_iff_not, hz]
  norm_num
  omega

/-- The halves of a negative product say whether it fits. -/
theorem halves_neg64 {p : Int} (h0 : p < 0) (h1 : -2 ^ 63 ≤ p) :
    ((BitVec.ofInt 64 p).extractLsb' 32 32 != BitVec.allOnes 32 || !((BitVec.ofInt 64 p).extractLsb' 0 32).msb) = !fits 32 p := by
  rw [Bool.eq_iff_iff]
  simp only [Bool.or_eq_true, bne_iff_ne, ne_eq, ← BitVec.toNat_inj, BitVec.msb_eq_decide,
    BitVec.extractLsb'_toNat, BitVec.toNat_ofInt, Nat.shiftRight_eq_div_pow, fits, Bool.not_eq_true',
    Bool.and_eq_false_iff, decide_eq_false_iff_not, BitVec.toNat_allOnes]
  norm_num
  omega

/-- The overflow condition of a 32-bit product is that the exact product does not fit (40_integer.md R173). -/
theorem productOverflow_32 (x y : Long) :
    productOverflow x y ((product32 x y).extractLsb' 32 32) ((product32 x y).extractLsb' 0 32) = !fits 32 (x.toInt * y.toInt) := by
  by_cases hx : x = 0
  · subst hx; simp [productOverflow, fits]
  by_cases hy : y = 0
  · subst hy; simp [productOverflow, fits]
  have hxb : (x != 0) = true := by simpa using hx
  have hyb : (y != 0) = true := by simpa using hy
  have hne : (x.msb != y.msb) = !decide (0 < x.toInt * y.toInt) := by
    rw [← msb_eq_iff_mul_pos hx hy]; rfl
  have h1 := BitVec.le_toInt x
  have h2 := BitVec.toInt_lt (x := x)
  have h3 := BitVec.le_toInt y
  have h4 := BitVec.toInt_lt (x := y)
  norm_num at h1 h2 h3 h4
  unfold productOverflow
  rw [hxb, hyb, msb_eq_iff_mul_pos hx hy, hne, product32]
  by_cases hp : 0 < x.toInt * y.toInt
  · rw [← halves_pos64 hp (by nlinarith)]
    simp [hp]
  · have hp0 : x.toInt * y.toInt ≠ 0 := by
      rw [mul_ne_zero_iff]
      exact ⟨fun e => hx ((toInt_eq_zero x).1 e), fun e => hy ((toInt_eq_zero y).1 e)⟩
    rw [← halves_neg64 (p := x.toInt * y.toInt) (by omega) (by nlinarith)]
    simp [hp]

end Sys2Proof.Machine
end

