-- ==== Sys2Proof/Laws/Memory.lean ====
section
/-! SUPPORT. The laws of memory: what a read gives after a write, and that every write keeps the canonical form. -/

namespace Sys2Proof.Machine

/-! ## One byte -/

/-- Below the first listed address every byte is blank. -/
theorem Memory.readByte_below {m : Memory} {lo a : Nat} (h : m.wfFrom lo = true) (ha : a < lo) :
    m.readByte a = Memory.blank := by
  induction m generalizing lo with
  | nil => rfl
  | cons c m ih =>
    obtain ⟨k, b⟩ := c
    simp only [Memory.wfFrom, Bool.and_eq_true, decide_eq_true_eq] at h
    have hk : ¬ k = a := by omega
    simp only [Memory.readByte, hk, if_false]
    exact ih h.2 (by omega)

/-- A canonical list is canonical from any lower bound. -/
theorem Memory.wfFrom_mono {m : Memory} {lo lo' : Nat} (h : m.wfFrom lo = true) (hl : lo' ≤ lo) :
    m.wfFrom lo' = true := by
  cases m with
  | nil => rfl
  | cons c m =>
    obtain ⟨k, b⟩ := c
    simp only [Memory.wfFrom, Bool.and_eq_true, decide_eq_true_eq] at h ⊢
    exact ⟨⟨⟨by omega, h.1.1.2⟩, h.1.2⟩, h.2⟩

/-- A byte write keeps the canonical form. -/
theorem Memory.wfFrom_writeByte {m : Memory} {lo a : Nat} (v : Byte) (h : m.wfFrom lo = true) (hl : lo ≤ a)
    (hs : a < Memory.size) : (m.writeByte a v).wfFrom lo = true := by
  induction m generalizing lo with
  | nil =>
    by_cases hv : v = Memory.blank
    · simp [Memory.writeByte, hv, Memory.wfFrom]
    · simp [Memory.writeByte, hv, Memory.wfFrom, hl, hs]
  | cons c m ih =>
    obtain ⟨k, b⟩ := c
    have h0 := h
    simp only [Memory.wfFrom, Bool.and_eq_true, decide_eq_true_eq] at h
    obtain ⟨⟨⟨hlk, hks⟩, hb⟩, hm⟩ := h
    simp only [Memory.writeByte]
    split
    · rename_i hak
      split
      · exact h0
      · rename_i hv
        simp only [Memory.wfFrom, Bool.and_eq_true, decide_eq_true_eq, bne_iff_ne, ne_eq]
        exact ⟨⟨⟨hl, hs⟩, hv⟩, ⟨⟨by omega, hks⟩, by simpa using hb⟩, hm⟩
    · split
      · split
        · exact Memory.wfFrom_mono hm (by omega)
        · rename_i hv
          simp only [Memory.wfFrom, Bool.and_eq_true, decide_eq_true_eq, bne_iff_ne, ne_eq]
          exact ⟨⟨⟨hlk, hks⟩, hv⟩, hm⟩
      · simp only [Memory.wfFrom, Bool.and_eq_true, decide_eq_true_eq]
        exact ⟨⟨⟨hlk, hks⟩, hb⟩, ih hm (by omega)⟩

/-- What a byte reads as after a byte write. -/
theorem Memory.readByte_writeByteFrom {m : Memory} {lo : Nat} (a : Nat) (v : Byte) (x : Nat)
    (h : m.wfFrom lo = true) : (m.writeByte a v).readByte x = if x = a then v else m.readByte x := by
  induction m generalizing lo with
  | nil =>
    by_cases hv : v = Memory.blank
    · simp [Memory.writeByte, hv, Memory.readByte]
    · simp only [Memory.writeByte, hv, if_false, Memory.readByte]
      by_cases hx : x = a
      · simp [hx]
      · simp [hx, Ne.symm hx]
  | cons c m ih =>
    obtain ⟨k, b⟩ := c
    have h0 := h
    simp only [Memory.wfFrom, Bool.and_eq_true, decide_eq_true_eq] at h
    obtain ⟨⟨⟨hlk, hks⟩, hb⟩, hm⟩ := h
    simp only [Memory.writeByte]
    split
    · rename_i hak
      split
      · rename_i hv
        by_cases hx : x = a
        · subst hx
          have : Memory.readByte ((k, b) :: m) x = Memory.blank := by
            have hk : ¬ k = x := by omega
            simp only [Memory.readByte, hk, if_false]
            exact Memory.readByte_below hm (by omega)
          simp [this, hv]
        · simp [hx]
      · by_cases hx : x = a
        · simp [Memory.readByte, hx]
        · simp [Memory.readByte, hx, Ne.symm hx]
    · split
      · rename_i hak
        subst hak
        split
        · rename_i hv
          by_cases hx : x = a
          · subst hx
            simp [hv, Memory.readByte_below hm (Nat.lt_succ_self x)]
          · simp [Memory.readByte, hx, Ne.symm hx]
        · by_cases hx : x = a
          · simp [Memory.readByte, hx]
          · simp [Memory.readByte, hx, Ne.symm hx]
      · rename_i h1 h2
        simp only [Memory.readByte, ih hm]
        by_cases hkx : k = x
        · have : ¬ x = a := by omega
          simp [hkx, this]
        · simp [hkx]

/-- What a byte of canonical memory reads as after a byte write. -/
theorem Memory.readByte_writeByte {m : Memory} (a : Nat) (v : Byte) (x : Nat) (h : m.wf = true) :
    (m.writeByte a v).readByte x = if x = a then v else m.readByte x :=
  Memory.readByte_writeByteFrom a v x h

/-- A byte write keeps memory canonical. -/
theorem Memory.wf_writeByte {m : Memory} {a : Nat} (v : Byte) (h : m.wf = true) (hs : a < Memory.size) :
    (m.writeByte a v).wf = true :=
  Memory.wfFrom_writeByte v h (Nat.zero_le _) hs

/-! ## One word -/

/-- Both bytes of every physical word are in memory. -/
theorem Phys.lower_lt (p : Phys) : 2 * p.toNat + 1 < Memory.size := by
  have := p.isLt
  simp only [Memory.size]
  omega

/-- A word write keeps memory canonical. -/
theorem Memory.wf_writeWord {m : Memory} (p : Phys) (w : Word) (h : m.wf = true) : (m.writeWord p w).wf = true :=
  Memory.wf_writeByte _ (Memory.wf_writeByte _ h (by have := Phys.lower_lt p; omega)) (Phys.lower_lt p)

/-- What a byte reads as after a word write. -/
theorem Memory.readByte_writeWord {m : Memory} (p : Phys) (w : Word) (x : Nat) (h : m.wf = true) :
    (m.writeWord p w).readByte x =
      if x = 2 * p.toNat + 1 then w.extractLsb' 0 8
      else if x = 2 * p.toNat then w.extractLsb' 8 8 else m.readByte x := by
  unfold Memory.writeWord
  rw [Memory.readByte_writeByte _ _ _ (Memory.wf_writeByte _ h (by have := Phys.lower_lt p; omega)),
    Memory.readByte_writeByte _ _ _ h]

/-- A word is its two bytes. -/
theorem upper_append_lower (w : Word) : w.extractLsb' 8 8 ++ w.extractLsb' 0 8 = w := by
  apply BitVec.eq_of_getLsbD_eq
  intro i hi
  simp only [BitVec.getLsbD_append, BitVec.getLsbD_extractLsb']
  by_cases h8 : i < 8
  · simp [h8]
  · have h1 : i - 8 < 8 := by omega
    have h2 : 8 + (i - 8) = i := by omega
    simp [*]

/-- What a word reads as after a word write. -/
theorem Memory.readWord_writeWord {m : Memory} (p : Phys) (w : Word) (q : Phys) (h : m.wf = true) :
    (m.writeWord p w).readWord q = if q = p then w else m.readWord q := by
  unfold Memory.readWord
  rw [Memory.readByte_writeWord _ _ _ h, Memory.readByte_writeWord _ _ _ h]
  by_cases hq : q = p
  · subst hq
    have h1 : ¬ 2 * q.toNat = 2 * q.toNat + 1 := by omega
    simp only [h1, if_false, if_true]
    exact upper_append_lower w
  · have hn : q.toNat ≠ p.toNat := fun e => hq (BitVec.eq_of_toNat_eq e)
    have h1 : ¬ 2 * q.toNat = 2 * p.toNat + 1 := by omega
    have h2 : ¬ 2 * q.toNat = 2 * p.toNat := by omega
    have h3 : ¬ 2 * q.toNat + 1 = 2 * p.toNat + 1 := by omega
    have h4 : ¬ 2 * q.toNat + 1 = 2 * p.toNat := by omega
    simp only [h1, h2, h3, h4, hq, if_false]

/-- A word write stores its word and leaves the rest of memory. -/
theorem Memory.stored_writeWord {m : Memory} (p : Phys) (w : Word) (h : m.wf = true) :
    Stored m (m.writeWord p w) [(p, w)] := by
  constructor
  · intro pw hpw
    simp only [List.mem_singleton] at hpw
    subst hpw
    simp [Memory.readWord_writeWord _ _ _ h]
  · intro b hb
    have := hb (p, w) (by simp)
    rw [Memory.readByte_writeWord _ _ _ h]
    simp [this.1, this.2]

/-- One more word stored after others, at another place. -/
theorem Memory.Stored_writeWord {m m' : Memory} {ws : List (Phys × Word)} (p : Phys) (w : Word)
    (h : Stored m m' ws) (hwf : m'.wf = true) (hp : ∀ pw ∈ ws, pw.1 ≠ p) :
    Stored m (m'.writeWord p w) (ws ++ [(p, w)]) := by
  constructor
  · intro pw hpw
    rw [Memory.readWord_writeWord _ _ _ hwf]
    rcases List.mem_append.1 hpw with hin | hin
    · simp [hp pw hin, h.1 pw hin]
    · simp only [List.mem_singleton] at hin
      subst hin
      simp
  · intro b hb
    have h1 := hb (p, w) (by simp)
    rw [Memory.readByte_writeWord _ _ _ hwf]
    simp only [h1.1, h1.2, if_false]
    exact h.2 b fun pw hpw => hb pw (List.mem_append.2 (.inl hpw))

/-- Canonical memories that read alike from some address on, nothing listed below it, are equal. -/
theorem Memory.eq_of_readByteFrom {m m' : Memory} {lo : Nat} (h : m.wfFrom lo = true) (h' : m'.wfFrom lo = true)
    (e : ∀ a, m.readByte a = m'.readByte a) : m = m' := by
  induction m generalizing m' lo with
  | nil =>
    cases m' with
    | nil => rfl
    | cons c m' =>
      obtain ⟨k, b⟩ := c
      simp only [Memory.wfFrom, Bool.and_eq_true, decide_eq_true_eq, bne_iff_ne] at h'
      have := e k
      simp only [Memory.readByte, if_true] at this
      exact absurd this.symm h'.1.2
  | cons c m ih =>
    obtain ⟨k, b⟩ := c
    simp only [Memory.wfFrom, Bool.and_eq_true, decide_eq_true_eq, bne_iff_ne] at h
    cases m' with
    | nil =>
      have := e k
      simp only [Memory.readByte, if_true] at this
      exact absurd this h.1.2
    | cons c' m' =>
      obtain ⟨k', b'⟩ := c'
      simp only [Memory.wfFrom, Bool.and_eq_true, decide_eq_true_eq, bne_iff_ne] at h'
      have hk : k = k' := by
        rcases Nat.lt_trichotomy k k' with hlt | heq | hgt
        · have h1 := e k
          have h2 : ¬ k' = k := by omega
          simp only [Memory.readByte, if_true, h2, if_false] at h1
          rw [Memory.readByte_below h'.2 (by omega)] at h1
          exact absurd h1 h.1.2
        · exact heq
        · have h1 := e k'
          have h2 : ¬ k = k' := by omega
          simp only [Memory.readByte, if_true, h2, if_false] at h1
          rw [Memory.readByte_below h.2 (by omega)] at h1
          exact absurd h1.symm h'.1.2
      subst hk
      have hb : b = b' := by
        have := e k
        simpa [Memory.readByte] using this
      subst hb
      have : m = m' := ih h.2 h'.2 fun a => by
        by_cases hak : a = k
        · subst hak
          rw [Memory.readByte_below h.2 (by omega), Memory.readByte_below h'.2 (by omega)]
        · have h1 := e a
          have h2 : ¬ k = a := fun e => hak e.symm
          simpa [Memory.readByte, h2] using h1
      rw [this]

/-- Canonical memories that read alike are equal data. -/
theorem Memory.eq_of_readByte {m m' : Memory} (h : m.wf = true) (h' : m'.wf = true)
    (e : ∀ a, m.readByte a = m'.readByte a) : m = m' :=
  Memory.eq_of_readByteFrom h h' e

/-- The memory of the reset state is canonical. -/
theorem wf_reset : State.reset.mem.wf = true := rfl

end Sys2Proof.Machine
end

