-- ==== Sys2Proof/Laws/State.lean ====
section
/-! SUPPORT. The small lemmas of the state: one per field and update, so that no proof unfolds an update; and the
general registers as a map from numbers to words. -/

namespace Sys2Proof.Machine

/-! ## `State.setReg` -/

@[simp] theorem State.setReg_regs (s : State) (q : Reg) (v : Word) : (s.setReg q v).regs = s.regs.set q.val v := rfl
@[simp] theorem State.setReg_ic (s : State) (q : Reg) (v : Word) : (s.setReg q v).ic = s.ic := rfl
@[simp] theorem State.setReg_sw (s : State) (q : Reg) (v : Word) : (s.setReg q v).sw = s.sw := rfl
@[simp] theorem State.setReg_pir (s : State) (q : Reg) (v : Word) : (s.setReg q v).pir = s.pir := rfl
@[simp] theorem State.setReg_mask (s : State) (q : Reg) (v : Word) : (s.setReg q v).mask = s.mask := rfl
@[simp] theorem State.setReg_ft (s : State) (q : Reg) (v : Word) : (s.setReg q v).ft = s.ft := rfl
@[simp] theorem State.setReg_scr (s : State) (q : Reg) (v : Word) : (s.setReg q v).scr = s.scr := rfl
@[simp] theorem State.setReg_ta (s : State) (q : Reg) (v : Word) : (s.setReg q v).ta = s.ta := rfl
@[simp] theorem State.setReg_tb (s : State) (q : Reg) (v : Word) : (s.setReg q v).tb = s.tb := rfl
@[simp] theorem State.setReg_taRun (s : State) (q : Reg) (v : Word) : (s.setReg q v).taRun = s.taRun := rfl
@[simp] theorem State.setReg_tbRun (s : State) (q : Reg) (v : Word) : (s.setReg q v).tbRun = s.tbRun := rfl
@[simp] theorem State.setReg_tbPhase (s : State) (q : Reg) (v : Word) : (s.setReg q v).tbPhase = s.tbPhase := rfl
@[simp] theorem State.setReg_inten (s : State) (q : Reg) (v : Word) : (s.setReg q v).inten = s.inten := rfl
@[simp] theorem State.setReg_enbl (s : State) (q : Reg) (v : Word) : (s.setReg q v).enbl = s.enbl := rfl
@[simp] theorem State.setReg_spi (s : State) (q : Reg) (v : Word) : (s.setReg q v).spi = s.spi := rfl
@[simp] theorem State.setReg_dmaen (s : State) (q : Reg) (v : Word) : (s.setReg q v).dmaen = s.dmaen := rfl
@[simp] theorem State.setReg_nmlpwrup (s : State) (q : Reg) (v : Word) : (s.setReg q v).nmlpwrup = s.nmlpwrup := rfl
@[simp] theorem State.setReg_scratch (s : State) (q : Reg) (v : Word) : (s.setReg q v).scratch = s.scratch := rfl
@[simp] theorem State.setReg_consoleMode (s : State) (q : Reg) (v : Word) : (s.setReg q v).consoleMode = s.consoleMode := rfl
@[simp] theorem State.setReg_waiting (s : State) (q : Reg) (v : Word) : (s.setReg q v).waiting = s.waiting := rfl
@[simp] theorem State.setReg_depositLocked (s : State) (q : Reg) (v : Word) : (s.setReg q v).depositLocked = s.depositLocked := rfl
@[simp] theorem State.setReg_moving (s : State) (q : Reg) (v : Word) : (s.setReg q v).moving = s.moving := rfl
@[simp] theorem State.setReg_ipr (s : State) (q : Reg) (v : Word) : (s.setReg q v).ipr = s.ipr := rfl
@[simp] theorem State.setReg_opr (s : State) (q : Reg) (v : Word) : (s.setReg q v).opr = s.opr := rfl
@[simp] theorem State.setReg_bpuRam (s : State) (q : Reg) (v : Word) : (s.setReg q v).bpuRam = s.bpuRam := rfl
@[simp] theorem State.setReg_globprt (s : State) (q : Reg) (v : Word) : (s.setReg q v).globprt = s.globprt := rfl
@[simp] theorem State.setReg_pinPrev (s : State) (q : Reg) (v : Word) : (s.setReg q v).pinPrev = s.pinPrev := rfl
@[simp] theorem State.setReg_mem (s : State) (q : Reg) (v : Word) : (s.setReg q v).mem = s.mem := rfl
@[simp] theorem State.setReg_platform (s : State) (q : Reg) (v : Word) : (s.setReg q v).platform = s.platform := rfl
@[simp] theorem State.setReg_env (s : State) (q : Reg) (v : Word) : (s.setReg q v).env = s.env := rfl
@[simp] theorem State.setReg_turns (s : State) (q : Reg) (v : Word) : (s.setReg q v).turns = s.turns := rfl
@[simp] theorem State.setReg_resetting (s : State) (q : Reg) (v : Word) : (s.setReg q v).resetting = s.resetting := rfl
@[simp] theorem State.setReg_ioIn (s : State) (q : Reg) (v : Word) : (s.setReg q v).ioIn = s.ioIn := rfl
@[simp] theorem State.setReg_trace (s : State) (q : Reg) (v : Word) : (s.setReg q v).trace = s.trace := rfl
@[simp] theorem State.setReg_free (s : State) (q : Reg) (v : Word) : (s.setReg q v).free = s.free := rfl

/-! ## `State.setPair` -/

@[simp] theorem State.setPair_ic (s : State) (q : Reg) (v : Long) : (s.setPair q v).ic = s.ic := rfl
@[simp] theorem State.setPair_sw (s : State) (q : Reg) (v : Long) : (s.setPair q v).sw = s.sw := rfl
@[simp] theorem State.setPair_pir (s : State) (q : Reg) (v : Long) : (s.setPair q v).pir = s.pir := rfl
@[simp] theorem State.setPair_mask (s : State) (q : Reg) (v : Long) : (s.setPair q v).mask = s.mask := rfl
@[simp] theorem State.setPair_ft (s : State) (q : Reg) (v : Long) : (s.setPair q v).ft = s.ft := rfl
@[simp] theorem State.setPair_scr (s : State) (q : Reg) (v : Long) : (s.setPair q v).scr = s.scr := rfl
@[simp] theorem State.setPair_ta (s : State) (q : Reg) (v : Long) : (s.setPair q v).ta = s.ta := rfl
@[simp] theorem State.setPair_tb (s : State) (q : Reg) (v : Long) : (s.setPair q v).tb = s.tb := rfl
@[simp] theorem State.setPair_taRun (s : State) (q : Reg) (v : Long) : (s.setPair q v).taRun = s.taRun := rfl
@[simp] theorem State.setPair_tbRun (s : State) (q : Reg) (v : Long) : (s.setPair q v).tbRun = s.tbRun := rfl
@[simp] theorem State.setPair_tbPhase (s : State) (q : Reg) (v : Long) : (s.setPair q v).tbPhase = s.tbPhase := rfl
@[simp] theorem State.setPair_inten (s : State) (q : Reg) (v : Long) : (s.setPair q v).inten = s.inten := rfl
@[simp] theorem State.setPair_enbl (s : State) (q : Reg) (v : Long) : (s.setPair q v).enbl = s.enbl := rfl
@[simp] theorem State.setPair_spi (s : State) (q : Reg) (v : Long) : (s.setPair q v).spi = s.spi := rfl
@[simp] theorem State.setPair_dmaen (s : State) (q : Reg) (v : Long) : (s.setPair q v).dmaen = s.dmaen := rfl
@[simp] theorem State.setPair_nmlpwrup (s : State) (q : Reg) (v : Long) : (s.setPair q v).nmlpwrup = s.nmlpwrup := rfl
@[simp] theorem State.setPair_scratch (s : State) (q : Reg) (v : Long) : (s.setPair q v).scratch = s.scratch := rfl
@[simp] theorem State.setPair_consoleMode (s : State) (q : Reg) (v : Long) : (s.setPair q v).consoleMode = s.consoleMode := rfl
@[simp] theorem State.setPair_waiting (s : State) (q : Reg) (v : Long) : (s.setPair q v).waiting = s.waiting := rfl
@[simp] theorem State.setPair_depositLocked (s : State) (q : Reg) (v : Long) : (s.setPair q v).depositLocked = s.depositLocked := rfl
@[simp] theorem State.setPair_moving (s : State) (q : Reg) (v : Long) : (s.setPair q v).moving = s.moving := rfl
@[simp] theorem State.setPair_ipr (s : State) (q : Reg) (v : Long) : (s.setPair q v).ipr = s.ipr := rfl
@[simp] theorem State.setPair_opr (s : State) (q : Reg) (v : Long) : (s.setPair q v).opr = s.opr := rfl
@[simp] theorem State.setPair_bpuRam (s : State) (q : Reg) (v : Long) : (s.setPair q v).bpuRam = s.bpuRam := rfl
@[simp] theorem State.setPair_globprt (s : State) (q : Reg) (v : Long) : (s.setPair q v).globprt = s.globprt := rfl
@[simp] theorem State.setPair_pinPrev (s : State) (q : Reg) (v : Long) : (s.setPair q v).pinPrev = s.pinPrev := rfl
@[simp] theorem State.setPair_mem (s : State) (q : Reg) (v : Long) : (s.setPair q v).mem = s.mem := rfl
@[simp] theorem State.setPair_platform (s : State) (q : Reg) (v : Long) : (s.setPair q v).platform = s.platform := rfl
@[simp] theorem State.setPair_env (s : State) (q : Reg) (v : Long) : (s.setPair q v).env = s.env := rfl
@[simp] theorem State.setPair_turns (s : State) (q : Reg) (v : Long) : (s.setPair q v).turns = s.turns := rfl
@[simp] theorem State.setPair_resetting (s : State) (q : Reg) (v : Long) : (s.setPair q v).resetting = s.resetting := rfl
@[simp] theorem State.setPair_ioIn (s : State) (q : Reg) (v : Long) : (s.setPair q v).ioIn = s.ioIn := rfl
@[simp] theorem State.setPair_trace (s : State) (q : Reg) (v : Long) : (s.setPair q v).trace = s.trace := rfl
@[simp] theorem State.setPair_free (s : State) (q : Reg) (v : Long) : (s.setPair q v).free = s.free := rfl

/-! ## `State.setTriple` -/

@[simp] theorem State.setTriple_ic (s : State) (q : Reg) (v : Triple) : (s.setTriple q v).ic = s.ic := rfl
@[simp] theorem State.setTriple_sw (s : State) (q : Reg) (v : Triple) : (s.setTriple q v).sw = s.sw := rfl
@[simp] theorem State.setTriple_pir (s : State) (q : Reg) (v : Triple) : (s.setTriple q v).pir = s.pir := rfl
@[simp] theorem State.setTriple_mask (s : State) (q : Reg) (v : Triple) : (s.setTriple q v).mask = s.mask := rfl
@[simp] theorem State.setTriple_ft (s : State) (q : Reg) (v : Triple) : (s.setTriple q v).ft = s.ft := rfl
@[simp] theorem State.setTriple_scr (s : State) (q : Reg) (v : Triple) : (s.setTriple q v).scr = s.scr := rfl
@[simp] theorem State.setTriple_ta (s : State) (q : Reg) (v : Triple) : (s.setTriple q v).ta = s.ta := rfl
@[simp] theorem State.setTriple_tb (s : State) (q : Reg) (v : Triple) : (s.setTriple q v).tb = s.tb := rfl
@[simp] theorem State.setTriple_taRun (s : State) (q : Reg) (v : Triple) : (s.setTriple q v).taRun = s.taRun := rfl
@[simp] theorem State.setTriple_tbRun (s : State) (q : Reg) (v : Triple) : (s.setTriple q v).tbRun = s.tbRun := rfl
@[simp] theorem State.setTriple_tbPhase (s : State) (q : Reg) (v : Triple) : (s.setTriple q v).tbPhase = s.tbPhase := rfl
@[simp] theorem State.setTriple_inten (s : State) (q : Reg) (v : Triple) : (s.setTriple q v).inten = s.inten := rfl
@[simp] theorem State.setTriple_enbl (s : State) (q : Reg) (v : Triple) : (s.setTriple q v).enbl = s.enbl := rfl
@[simp] theorem State.setTriple_spi (s : State) (q : Reg) (v : Triple) : (s.setTriple q v).spi = s.spi := rfl
@[simp] theorem State.setTriple_dmaen (s : State) (q : Reg) (v : Triple) : (s.setTriple q v).dmaen = s.dmaen := rfl
@[simp] theorem State.setTriple_nmlpwrup (s : State) (q : Reg) (v : Triple) : (s.setTriple q v).nmlpwrup = s.nmlpwrup := rfl
@[simp] theorem State.setTriple_scratch (s : State) (q : Reg) (v : Triple) : (s.setTriple q v).scratch = s.scratch := rfl
@[simp] theorem State.setTriple_consoleMode (s : State) (q : Reg) (v : Triple) : (s.setTriple q v).consoleMode = s.consoleMode := rfl
@[simp] theorem State.setTriple_waiting (s : State) (q : Reg) (v : Triple) : (s.setTriple q v).waiting = s.waiting := rfl
@[simp] theorem State.setTriple_depositLocked (s : State) (q : Reg) (v : Triple) : (s.setTriple q v).depositLocked = s.depositLocked := rfl
@[simp] theorem State.setTriple_moving (s : State) (q : Reg) (v : Triple) : (s.setTriple q v).moving = s.moving := rfl
@[simp] theorem State.setTriple_ipr (s : State) (q : Reg) (v : Triple) : (s.setTriple q v).ipr = s.ipr := rfl
@[simp] theorem State.setTriple_opr (s : State) (q : Reg) (v : Triple) : (s.setTriple q v).opr = s.opr := rfl
@[simp] theorem State.setTriple_bpuRam (s : State) (q : Reg) (v : Triple) : (s.setTriple q v).bpuRam = s.bpuRam := rfl
@[simp] theorem State.setTriple_globprt (s : State) (q : Reg) (v : Triple) : (s.setTriple q v).globprt = s.globprt := rfl
@[simp] theorem State.setTriple_pinPrev (s : State) (q : Reg) (v : Triple) : (s.setTriple q v).pinPrev = s.pinPrev := rfl
@[simp] theorem State.setTriple_mem (s : State) (q : Reg) (v : Triple) : (s.setTriple q v).mem = s.mem := rfl
@[simp] theorem State.setTriple_platform (s : State) (q : Reg) (v : Triple) : (s.setTriple q v).platform = s.platform := rfl
@[simp] theorem State.setTriple_env (s : State) (q : Reg) (v : Triple) : (s.setTriple q v).env = s.env := rfl
@[simp] theorem State.setTriple_turns (s : State) (q : Reg) (v : Triple) : (s.setTriple q v).turns = s.turns := rfl
@[simp] theorem State.setTriple_resetting (s : State) (q : Reg) (v : Triple) : (s.setTriple q v).resetting = s.resetting := rfl
@[simp] theorem State.setTriple_ioIn (s : State) (q : Reg) (v : Triple) : (s.setTriple q v).ioIn = s.ioIn := rfl
@[simp] theorem State.setTriple_trace (s : State) (q : Reg) (v : Triple) : (s.setTriple q v).trace = s.trace := rfl
@[simp] theorem State.setTriple_free (s : State) (q : Reg) (v : Triple) : (s.setTriple q v).free = s.free := rfl

/-! ## `State.setIc` -/

@[simp] theorem State.setIc_regs (s : State) (v : Word) : (s.setIc v).regs = s.regs := rfl
@[simp] theorem State.setIc_ic (s : State) (v : Word) : (s.setIc v).ic = v := rfl
@[simp] theorem State.setIc_sw (s : State) (v : Word) : (s.setIc v).sw = s.sw := rfl
@[simp] theorem State.setIc_pir (s : State) (v : Word) : (s.setIc v).pir = s.pir := rfl
@[simp] theorem State.setIc_mask (s : State) (v : Word) : (s.setIc v).mask = s.mask := rfl
@[simp] theorem State.setIc_ft (s : State) (v : Word) : (s.setIc v).ft = s.ft := rfl
@[simp] theorem State.setIc_scr (s : State) (v : Word) : (s.setIc v).scr = s.scr := rfl
@[simp] theorem State.setIc_ta (s : State) (v : Word) : (s.setIc v).ta = s.ta := rfl
@[simp] theorem State.setIc_tb (s : State) (v : Word) : (s.setIc v).tb = s.tb := rfl
@[simp] theorem State.setIc_taRun (s : State) (v : Word) : (s.setIc v).taRun = s.taRun := rfl
@[simp] theorem State.setIc_tbRun (s : State) (v : Word) : (s.setIc v).tbRun = s.tbRun := rfl
@[simp] theorem State.setIc_tbPhase (s : State) (v : Word) : (s.setIc v).tbPhase = s.tbPhase := rfl
@[simp] theorem State.setIc_inten (s : State) (v : Word) : (s.setIc v).inten = s.inten := rfl
@[simp] theorem State.setIc_enbl (s : State) (v : Word) : (s.setIc v).enbl = s.enbl := rfl
@[simp] theorem State.setIc_spi (s : State) (v : Word) : (s.setIc v).spi = s.spi := rfl
@[simp] theorem State.setIc_dmaen (s : State) (v : Word) : (s.setIc v).dmaen = s.dmaen := rfl
@[simp] theorem State.setIc_nmlpwrup (s : State) (v : Word) : (s.setIc v).nmlpwrup = s.nmlpwrup := rfl
@[simp] theorem State.setIc_scratch (s : State) (v : Word) : (s.setIc v).scratch = s.scratch := rfl
@[simp] theorem State.setIc_consoleMode (s : State) (v : Word) : (s.setIc v).consoleMode = s.consoleMode := rfl
@[simp] theorem State.setIc_waiting (s : State) (v : Word) : (s.setIc v).waiting = s.waiting := rfl
@[simp] theorem State.setIc_depositLocked (s : State) (v : Word) : (s.setIc v).depositLocked = s.depositLocked := rfl
@[simp] theorem State.setIc_moving (s : State) (v : Word) : (s.setIc v).moving = s.moving := rfl
@[simp] theorem State.setIc_ipr (s : State) (v : Word) : (s.setIc v).ipr = s.ipr := rfl
@[simp] theorem State.setIc_opr (s : State) (v : Word) : (s.setIc v).opr = s.opr := rfl
@[simp] theorem State.setIc_bpuRam (s : State) (v : Word) : (s.setIc v).bpuRam = s.bpuRam := rfl
@[simp] theorem State.setIc_globprt (s : State) (v : Word) : (s.setIc v).globprt = s.globprt := rfl
@[simp] theorem State.setIc_pinPrev (s : State) (v : Word) : (s.setIc v).pinPrev = s.pinPrev := rfl
@[simp] theorem State.setIc_mem (s : State) (v : Word) : (s.setIc v).mem = s.mem := rfl
@[simp] theorem State.setIc_platform (s : State) (v : Word) : (s.setIc v).platform = s.platform := rfl
@[simp] theorem State.setIc_env (s : State) (v : Word) : (s.setIc v).env = s.env := rfl
@[simp] theorem State.setIc_turns (s : State) (v : Word) : (s.setIc v).turns = s.turns := rfl
@[simp] theorem State.setIc_resetting (s : State) (v : Word) : (s.setIc v).resetting = s.resetting := rfl
@[simp] theorem State.setIc_ioIn (s : State) (v : Word) : (s.setIc v).ioIn = s.ioIn := rfl
@[simp] theorem State.setIc_trace (s : State) (v : Word) : (s.setIc v).trace = s.trace := rfl
@[simp] theorem State.setIc_free (s : State) (v : Word) : (s.setIc v).free = s.free := rfl

/-! ## `State.setCs` -/

@[simp] theorem State.setCs_regs (s : State) (c : BitVec 4) : (s.setCs c).regs = s.regs := rfl
@[simp] theorem State.setCs_ic (s : State) (c : BitVec 4) : (s.setCs c).ic = s.ic := rfl
@[simp] theorem State.setCs_sw (s : State) (c : BitVec 4) : (s.setCs c).sw = withCs s.sw c := rfl
@[simp] theorem State.setCs_pir (s : State) (c : BitVec 4) : (s.setCs c).pir = s.pir := rfl
@[simp] theorem State.setCs_mask (s : State) (c : BitVec 4) : (s.setCs c).mask = s.mask := rfl
@[simp] theorem State.setCs_ft (s : State) (c : BitVec 4) : (s.setCs c).ft = s.ft := rfl
@[simp] theorem State.setCs_scr (s : State) (c : BitVec 4) : (s.setCs c).scr = s.scr := rfl
@[simp] theorem State.setCs_ta (s : State) (c : BitVec 4) : (s.setCs c).ta = s.ta := rfl
@[simp] theorem State.setCs_tb (s : State) (c : BitVec 4) : (s.setCs c).tb = s.tb := rfl
@[simp] theorem State.setCs_taRun (s : State) (c : BitVec 4) : (s.setCs c).taRun = s.taRun := rfl
@[simp] theorem State.setCs_tbRun (s : State) (c : BitVec 4) : (s.setCs c).tbRun = s.tbRun := rfl
@[simp] theorem State.setCs_tbPhase (s : State) (c : BitVec 4) : (s.setCs c).tbPhase = s.tbPhase := rfl
@[simp] theorem State.setCs_inten (s : State) (c : BitVec 4) : (s.setCs c).inten = s.inten := rfl
@[simp] theorem State.setCs_enbl (s : State) (c : BitVec 4) : (s.setCs c).enbl = s.enbl := rfl
@[simp] theorem State.setCs_spi (s : State) (c : BitVec 4) : (s.setCs c).spi = s.spi := rfl
@[simp] theorem State.setCs_dmaen (s : State) (c : BitVec 4) : (s.setCs c).dmaen = s.dmaen := rfl
@[simp] theorem State.setCs_nmlpwrup (s : State) (c : BitVec 4) : (s.setCs c).nmlpwrup = s.nmlpwrup := rfl
@[simp] theorem State.setCs_scratch (s : State) (c : BitVec 4) : (s.setCs c).scratch = s.scratch := rfl
@[simp] theorem State.setCs_consoleMode (s : State) (c : BitVec 4) : (s.setCs c).consoleMode = s.consoleMode := rfl
@[simp] theorem State.setCs_waiting (s : State) (c : BitVec 4) : (s.setCs c).waiting = s.waiting := rfl
@[simp] theorem State.setCs_depositLocked (s : State) (c : BitVec 4) : (s.setCs c).depositLocked = s.depositLocked := rfl
@[simp] theorem State.setCs_moving (s : State) (c : BitVec 4) : (s.setCs c).moving = s.moving := rfl
@[simp] theorem State.setCs_ipr (s : State) (c : BitVec 4) : (s.setCs c).ipr = s.ipr := rfl
@[simp] theorem State.setCs_opr (s : State) (c : BitVec 4) : (s.setCs c).opr = s.opr := rfl
@[simp] theorem State.setCs_bpuRam (s : State) (c : BitVec 4) : (s.setCs c).bpuRam = s.bpuRam := rfl
@[simp] theorem State.setCs_globprt (s : State) (c : BitVec 4) : (s.setCs c).globprt = s.globprt := rfl
@[simp] theorem State.setCs_pinPrev (s : State) (c : BitVec 4) : (s.setCs c).pinPrev = s.pinPrev := rfl
@[simp] theorem State.setCs_mem (s : State) (c : BitVec 4) : (s.setCs c).mem = s.mem := rfl
@[simp] theorem State.setCs_platform (s : State) (c : BitVec 4) : (s.setCs c).platform = s.platform := rfl
@[simp] theorem State.setCs_env (s : State) (c : BitVec 4) : (s.setCs c).env = s.env := rfl
@[simp] theorem State.setCs_turns (s : State) (c : BitVec 4) : (s.setCs c).turns = s.turns := rfl
@[simp] theorem State.setCs_resetting (s : State) (c : BitVec 4) : (s.setCs c).resetting = s.resetting := rfl
@[simp] theorem State.setCs_ioIn (s : State) (c : BitVec 4) : (s.setCs c).ioIn = s.ioIn := rfl
@[simp] theorem State.setCs_trace (s : State) (c : BitVec 4) : (s.setCs c).trace = s.trace := rfl
@[simp] theorem State.setCs_free (s : State) (c : BitVec 4) : (s.setCs c).free = s.free := rfl

/-! ## `State.setSw` -/

@[simp] theorem State.setSw_regs (s : State) (w : Word) : (s.setSw w).regs = s.regs := rfl
@[simp] theorem State.setSw_ic (s : State) (w : Word) : (s.setSw w).ic = s.ic := rfl
@[simp] theorem State.setSw_sw (s : State) (w : Word) : (s.setSw w).sw = maskSw w := rfl
@[simp] theorem State.setSw_pir (s : State) (w : Word) : (s.setSw w).pir = s.pir := rfl
@[simp] theorem State.setSw_mask (s : State) (w : Word) : (s.setSw w).mask = s.mask := rfl
@[simp] theorem State.setSw_ft (s : State) (w : Word) : (s.setSw w).ft = s.ft := rfl
@[simp] theorem State.setSw_scr (s : State) (w : Word) : (s.setSw w).scr = s.scr := rfl
@[simp] theorem State.setSw_ta (s : State) (w : Word) : (s.setSw w).ta = s.ta := rfl
@[simp] theorem State.setSw_tb (s : State) (w : Word) : (s.setSw w).tb = s.tb := rfl
@[simp] theorem State.setSw_taRun (s : State) (w : Word) : (s.setSw w).taRun = s.taRun := rfl
@[simp] theorem State.setSw_tbRun (s : State) (w : Word) : (s.setSw w).tbRun = s.tbRun := rfl
@[simp] theorem State.setSw_tbPhase (s : State) (w : Word) : (s.setSw w).tbPhase = s.tbPhase := rfl
@[simp] theorem State.setSw_inten (s : State) (w : Word) : (s.setSw w).inten = s.inten := rfl
@[simp] theorem State.setSw_enbl (s : State) (w : Word) : (s.setSw w).enbl = s.enbl := rfl
@[simp] theorem State.setSw_spi (s : State) (w : Word) : (s.setSw w).spi = s.spi := rfl
@[simp] theorem State.setSw_dmaen (s : State) (w : Word) : (s.setSw w).dmaen = s.dmaen := rfl
@[simp] theorem State.setSw_nmlpwrup (s : State) (w : Word) : (s.setSw w).nmlpwrup = s.nmlpwrup := rfl
@[simp] theorem State.setSw_scratch (s : State) (w : Word) : (s.setSw w).scratch = s.scratch := rfl
@[simp] theorem State.setSw_consoleMode (s : State) (w : Word) : (s.setSw w).consoleMode = s.consoleMode := rfl
@[simp] theorem State.setSw_waiting (s : State) (w : Word) : (s.setSw w).waiting = s.waiting := rfl
@[simp] theorem State.setSw_depositLocked (s : State) (w : Word) : (s.setSw w).depositLocked = s.depositLocked := rfl
@[simp] theorem State.setSw_moving (s : State) (w : Word) : (s.setSw w).moving = s.moving := rfl
@[simp] theorem State.setSw_ipr (s : State) (w : Word) : (s.setSw w).ipr = s.ipr := rfl
@[simp] theorem State.setSw_opr (s : State) (w : Word) : (s.setSw w).opr = s.opr := rfl
@[simp] theorem State.setSw_bpuRam (s : State) (w : Word) : (s.setSw w).bpuRam = s.bpuRam := rfl
@[simp] theorem State.setSw_globprt (s : State) (w : Word) : (s.setSw w).globprt = s.globprt := rfl
@[simp] theorem State.setSw_pinPrev (s : State) (w : Word) : (s.setSw w).pinPrev = s.pinPrev := rfl
@[simp] theorem State.setSw_mem (s : State) (w : Word) : (s.setSw w).mem = s.mem := rfl
@[simp] theorem State.setSw_platform (s : State) (w : Word) : (s.setSw w).platform = s.platform := rfl
@[simp] theorem State.setSw_env (s : State) (w : Word) : (s.setSw w).env = s.env := rfl
@[simp] theorem State.setSw_turns (s : State) (w : Word) : (s.setSw w).turns = s.turns := rfl
@[simp] theorem State.setSw_resetting (s : State) (w : Word) : (s.setSw w).resetting = s.resetting := rfl
@[simp] theorem State.setSw_ioIn (s : State) (w : Word) : (s.setSw w).ioIn = s.ioIn := rfl
@[simp] theorem State.setSw_trace (s : State) (w : Word) : (s.setSw w).trace = s.trace := rfl
@[simp] theorem State.setSw_free (s : State) (w : Word) : (s.setSw w).free = s.free := rfl

/-! ## `State.setMask` -/

@[simp] theorem State.setMask_regs (s : State) (w : Word) : (s.setMask w).regs = s.regs := rfl
@[simp] theorem State.setMask_ic (s : State) (w : Word) : (s.setMask w).ic = s.ic := rfl
@[simp] theorem State.setMask_sw (s : State) (w : Word) : (s.setMask w).sw = s.sw := rfl
@[simp] theorem State.setMask_pir (s : State) (w : Word) : (s.setMask w).pir = s.pir := rfl
@[simp] theorem State.setMask_mask (s : State) (w : Word) : (s.setMask w).mask = w := rfl
@[simp] theorem State.setMask_ft (s : State) (w : Word) : (s.setMask w).ft = s.ft := rfl
@[simp] theorem State.setMask_scr (s : State) (w : Word) : (s.setMask w).scr = s.scr := rfl
@[simp] theorem State.setMask_ta (s : State) (w : Word) : (s.setMask w).ta = s.ta := rfl
@[simp] theorem State.setMask_tb (s : State) (w : Word) : (s.setMask w).tb = s.tb := rfl
@[simp] theorem State.setMask_taRun (s : State) (w : Word) : (s.setMask w).taRun = s.taRun := rfl
@[simp] theorem State.setMask_tbRun (s : State) (w : Word) : (s.setMask w).tbRun = s.tbRun := rfl
@[simp] theorem State.setMask_tbPhase (s : State) (w : Word) : (s.setMask w).tbPhase = s.tbPhase := rfl
@[simp] theorem State.setMask_inten (s : State) (w : Word) : (s.setMask w).inten = s.inten := rfl
@[simp] theorem State.setMask_enbl (s : State) (w : Word) : (s.setMask w).enbl = s.enbl := rfl
@[simp] theorem State.setMask_spi (s : State) (w : Word) : (s.setMask w).spi = s.spi := rfl
@[simp] theorem State.setMask_dmaen (s : State) (w : Word) : (s.setMask w).dmaen = s.dmaen := rfl
@[simp] theorem State.setMask_nmlpwrup (s : State) (w : Word) : (s.setMask w).nmlpwrup = s.nmlpwrup := rfl
@[simp] theorem State.setMask_scratch (s : State) (w : Word) : (s.setMask w).scratch = s.scratch := rfl
@[simp] theorem State.setMask_consoleMode (s : State) (w : Word) : (s.setMask w).consoleMode = s.consoleMode := rfl
@[simp] theorem State.setMask_waiting (s : State) (w : Word) : (s.setMask w).waiting = s.waiting := rfl
@[simp] theorem State.setMask_depositLocked (s : State) (w : Word) : (s.setMask w).depositLocked = s.depositLocked := rfl
@[simp] theorem State.setMask_moving (s : State) (w : Word) : (s.setMask w).moving = s.moving := rfl
@[simp] theorem State.setMask_ipr (s : State) (w : Word) : (s.setMask w).ipr = s.ipr := rfl
@[simp] theorem State.setMask_opr (s : State) (w : Word) : (s.setMask w).opr = s.opr := rfl
@[simp] theorem State.setMask_bpuRam (s : State) (w : Word) : (s.setMask w).bpuRam = s.bpuRam := rfl
@[simp] theorem State.setMask_globprt (s : State) (w : Word) : (s.setMask w).globprt = s.globprt := rfl
@[simp] theorem State.setMask_pinPrev (s : State) (w : Word) : (s.setMask w).pinPrev = s.pinPrev := rfl
@[simp] theorem State.setMask_mem (s : State) (w : Word) : (s.setMask w).mem = s.mem := rfl
@[simp] theorem State.setMask_platform (s : State) (w : Word) : (s.setMask w).platform = s.platform := rfl
@[simp] theorem State.setMask_env (s : State) (w : Word) : (s.setMask w).env = s.env := rfl
@[simp] theorem State.setMask_turns (s : State) (w : Word) : (s.setMask w).turns = s.turns := rfl
@[simp] theorem State.setMask_resetting (s : State) (w : Word) : (s.setMask w).resetting = s.resetting := rfl
@[simp] theorem State.setMask_ioIn (s : State) (w : Word) : (s.setMask w).ioIn = s.ioIn := rfl
@[simp] theorem State.setMask_trace (s : State) (w : Word) : (s.setMask w).trace = s.trace := rfl
@[simp] theorem State.setMask_free (s : State) (w : Word) : (s.setMask w).free = s.free := rfl

/-! ## `State.setPir` -/

@[simp] theorem State.setPir_regs (s : State) (w : Word) : (s.setPir w).regs = s.regs := rfl
@[simp] theorem State.setPir_ic (s : State) (w : Word) : (s.setPir w).ic = s.ic := rfl
@[simp] theorem State.setPir_sw (s : State) (w : Word) : (s.setPir w).sw = s.sw := rfl
@[simp] theorem State.setPir_pir (s : State) (w : Word) : (s.setPir w).pir = w := rfl
@[simp] theorem State.setPir_mask (s : State) (w : Word) : (s.setPir w).mask = s.mask := rfl
@[simp] theorem State.setPir_ft (s : State) (w : Word) : (s.setPir w).ft = s.ft := rfl
@[simp] theorem State.setPir_scr (s : State) (w : Word) : (s.setPir w).scr = s.scr := rfl
@[simp] theorem State.setPir_ta (s : State) (w : Word) : (s.setPir w).ta = s.ta := rfl
@[simp] theorem State.setPir_tb (s : State) (w : Word) : (s.setPir w).tb = s.tb := rfl
@[simp] theorem State.setPir_taRun (s : State) (w : Word) : (s.setPir w).taRun = s.taRun := rfl
@[simp] theorem State.setPir_tbRun (s : State) (w : Word) : (s.setPir w).tbRun = s.tbRun := rfl
@[simp] theorem State.setPir_tbPhase (s : State) (w : Word) : (s.setPir w).tbPhase = s.tbPhase := rfl
@[simp] theorem State.setPir_inten (s : State) (w : Word) : (s.setPir w).inten = s.inten := rfl
@[simp] theorem State.setPir_enbl (s : State) (w : Word) : (s.setPir w).enbl = s.enbl := rfl
@[simp] theorem State.setPir_spi (s : State) (w : Word) : (s.setPir w).spi = s.spi := rfl
@[simp] theorem State.setPir_dmaen (s : State) (w : Word) : (s.setPir w).dmaen = s.dmaen := rfl
@[simp] theorem State.setPir_nmlpwrup (s : State) (w : Word) : (s.setPir w).nmlpwrup = s.nmlpwrup := rfl
@[simp] theorem State.setPir_scratch (s : State) (w : Word) : (s.setPir w).scratch = s.scratch := rfl
@[simp] theorem State.setPir_consoleMode (s : State) (w : Word) : (s.setPir w).consoleMode = s.consoleMode := rfl
@[simp] theorem State.setPir_waiting (s : State) (w : Word) : (s.setPir w).waiting = s.waiting := rfl
@[simp] theorem State.setPir_depositLocked (s : State) (w : Word) : (s.setPir w).depositLocked = s.depositLocked := rfl
@[simp] theorem State.setPir_moving (s : State) (w : Word) : (s.setPir w).moving = s.moving := rfl
@[simp] theorem State.setPir_ipr (s : State) (w : Word) : (s.setPir w).ipr = s.ipr := rfl
@[simp] theorem State.setPir_opr (s : State) (w : Word) : (s.setPir w).opr = s.opr := rfl
@[simp] theorem State.setPir_bpuRam (s : State) (w : Word) : (s.setPir w).bpuRam = s.bpuRam := rfl
@[simp] theorem State.setPir_globprt (s : State) (w : Word) : (s.setPir w).globprt = s.globprt := rfl
@[simp] theorem State.setPir_pinPrev (s : State) (w : Word) : (s.setPir w).pinPrev = s.pinPrev := rfl
@[simp] theorem State.setPir_mem (s : State) (w : Word) : (s.setPir w).mem = s.mem := rfl
@[simp] theorem State.setPir_platform (s : State) (w : Word) : (s.setPir w).platform = s.platform := rfl
@[simp] theorem State.setPir_env (s : State) (w : Word) : (s.setPir w).env = s.env := rfl
@[simp] theorem State.setPir_turns (s : State) (w : Word) : (s.setPir w).turns = s.turns := rfl
@[simp] theorem State.setPir_resetting (s : State) (w : Word) : (s.setPir w).resetting = s.resetting := rfl
@[simp] theorem State.setPir_ioIn (s : State) (w : Word) : (s.setPir w).ioIn = s.ioIn := rfl
@[simp] theorem State.setPir_trace (s : State) (w : Word) : (s.setPir w).trace = s.trace := rfl
@[simp] theorem State.setPir_free (s : State) (w : Word) : (s.setPir w).free = s.free := rfl

/-! ## `State.pend` -/

@[simp] theorem State.pend_regs (s : State) (n : Nat) : (s.pend n).regs = s.regs := rfl
@[simp] theorem State.pend_ic (s : State) (n : Nat) : (s.pend n).ic = s.ic := rfl
@[simp] theorem State.pend_sw (s : State) (n : Nat) : (s.pend n).sw = s.sw := rfl
@[simp] theorem State.pend_pir (s : State) (n : Nat) : (s.pend n).pir = s.pir ||| oneBit n := rfl
@[simp] theorem State.pend_mask (s : State) (n : Nat) : (s.pend n).mask = s.mask := rfl
@[simp] theorem State.pend_ft (s : State) (n : Nat) : (s.pend n).ft = s.ft := rfl
@[simp] theorem State.pend_scr (s : State) (n : Nat) : (s.pend n).scr = s.scr := rfl
@[simp] theorem State.pend_ta (s : State) (n : Nat) : (s.pend n).ta = s.ta := rfl
@[simp] theorem State.pend_tb (s : State) (n : Nat) : (s.pend n).tb = s.tb := rfl
@[simp] theorem State.pend_taRun (s : State) (n : Nat) : (s.pend n).taRun = s.taRun := rfl
@[simp] theorem State.pend_tbRun (s : State) (n : Nat) : (s.pend n).tbRun = s.tbRun := rfl
@[simp] theorem State.pend_tbPhase (s : State) (n : Nat) : (s.pend n).tbPhase = s.tbPhase := rfl
@[simp] theorem State.pend_inten (s : State) (n : Nat) : (s.pend n).inten = s.inten := rfl
@[simp] theorem State.pend_enbl (s : State) (n : Nat) : (s.pend n).enbl = s.enbl := rfl
@[simp] theorem State.pend_spi (s : State) (n : Nat) : (s.pend n).spi = s.spi := rfl
@[simp] theorem State.pend_dmaen (s : State) (n : Nat) : (s.pend n).dmaen = s.dmaen := rfl
@[simp] theorem State.pend_nmlpwrup (s : State) (n : Nat) : (s.pend n).nmlpwrup = s.nmlpwrup := rfl
@[simp] theorem State.pend_scratch (s : State) (n : Nat) : (s.pend n).scratch = s.scratch := rfl
@[simp] theorem State.pend_consoleMode (s : State) (n : Nat) : (s.pend n).consoleMode = s.consoleMode := rfl
@[simp] theorem State.pend_waiting (s : State) (n : Nat) : (s.pend n).waiting = s.waiting := rfl
@[simp] theorem State.pend_depositLocked (s : State) (n : Nat) : (s.pend n).depositLocked = s.depositLocked := rfl
@[simp] theorem State.pend_moving (s : State) (n : Nat) : (s.pend n).moving = s.moving := rfl
@[simp] theorem State.pend_ipr (s : State) (n : Nat) : (s.pend n).ipr = s.ipr := rfl
@[simp] theorem State.pend_opr (s : State) (n : Nat) : (s.pend n).opr = s.opr := rfl
@[simp] theorem State.pend_bpuRam (s : State) (n : Nat) : (s.pend n).bpuRam = s.bpuRam := rfl
@[simp] theorem State.pend_globprt (s : State) (n : Nat) : (s.pend n).globprt = s.globprt := rfl
@[simp] theorem State.pend_pinPrev (s : State) (n : Nat) : (s.pend n).pinPrev = s.pinPrev := rfl
@[simp] theorem State.pend_mem (s : State) (n : Nat) : (s.pend n).mem = s.mem := rfl
@[simp] theorem State.pend_platform (s : State) (n : Nat) : (s.pend n).platform = s.platform := rfl
@[simp] theorem State.pend_env (s : State) (n : Nat) : (s.pend n).env = s.env := rfl
@[simp] theorem State.pend_turns (s : State) (n : Nat) : (s.pend n).turns = s.turns := rfl
@[simp] theorem State.pend_resetting (s : State) (n : Nat) : (s.pend n).resetting = s.resetting := rfl
@[simp] theorem State.pend_ioIn (s : State) (n : Nat) : (s.pend n).ioIn = s.ioIn := rfl
@[simp] theorem State.pend_trace (s : State) (n : Nat) : (s.pend n).trace = s.trace := rfl
@[simp] theorem State.pend_free (s : State) (n : Nat) : (s.pend n).free = s.free := rfl

/-! ## `State.setMem` -/

@[simp] theorem State.setMem_regs (s : State) (m : Memory) : (s.setMem m).regs = s.regs := rfl
@[simp] theorem State.setMem_ic (s : State) (m : Memory) : (s.setMem m).ic = s.ic := rfl
@[simp] theorem State.setMem_sw (s : State) (m : Memory) : (s.setMem m).sw = s.sw := rfl
@[simp] theorem State.setMem_pir (s : State) (m : Memory) : (s.setMem m).pir = s.pir := rfl
@[simp] theorem State.setMem_mask (s : State) (m : Memory) : (s.setMem m).mask = s.mask := rfl
@[simp] theorem State.setMem_ft (s : State) (m : Memory) : (s.setMem m).ft = s.ft := rfl
@[simp] theorem State.setMem_scr (s : State) (m : Memory) : (s.setMem m).scr = s.scr := rfl
@[simp] theorem State.setMem_ta (s : State) (m : Memory) : (s.setMem m).ta = s.ta := rfl
@[simp] theorem State.setMem_tb (s : State) (m : Memory) : (s.setMem m).tb = s.tb := rfl
@[simp] theorem State.setMem_taRun (s : State) (m : Memory) : (s.setMem m).taRun = s.taRun := rfl
@[simp] theorem State.setMem_tbRun (s : State) (m : Memory) : (s.setMem m).tbRun = s.tbRun := rfl
@[simp] theorem State.setMem_tbPhase (s : State) (m : Memory) : (s.setMem m).tbPhase = s.tbPhase := rfl
@[simp] theorem State.setMem_inten (s : State) (m : Memory) : (s.setMem m).inten = s.inten := rfl
@[simp] theorem State.setMem_enbl (s : State) (m : Memory) : (s.setMem m).enbl = s.enbl := rfl
@[simp] theorem State.setMem_spi (s : State) (m : Memory) : (s.setMem m).spi = s.spi := rfl
@[simp] theorem State.setMem_dmaen (s : State) (m : Memory) : (s.setMem m).dmaen = s.dmaen := rfl
@[simp] theorem State.setMem_nmlpwrup (s : State) (m : Memory) : (s.setMem m).nmlpwrup = s.nmlpwrup := rfl
@[simp] theorem State.setMem_scratch (s : State) (m : Memory) : (s.setMem m).scratch = s.scratch := rfl
@[simp] theorem State.setMem_consoleMode (s : State) (m : Memory) : (s.setMem m).consoleMode = s.consoleMode := rfl
@[simp] theorem State.setMem_waiting (s : State) (m : Memory) : (s.setMem m).waiting = s.waiting := rfl
@[simp] theorem State.setMem_depositLocked (s : State) (m : Memory) : (s.setMem m).depositLocked = s.depositLocked := rfl
@[simp] theorem State.setMem_moving (s : State) (m : Memory) : (s.setMem m).moving = s.moving := rfl
@[simp] theorem State.setMem_ipr (s : State) (m : Memory) : (s.setMem m).ipr = s.ipr := rfl
@[simp] theorem State.setMem_opr (s : State) (m : Memory) : (s.setMem m).opr = s.opr := rfl
@[simp] theorem State.setMem_bpuRam (s : State) (m : Memory) : (s.setMem m).bpuRam = s.bpuRam := rfl
@[simp] theorem State.setMem_globprt (s : State) (m : Memory) : (s.setMem m).globprt = s.globprt := rfl
@[simp] theorem State.setMem_pinPrev (s : State) (m : Memory) : (s.setMem m).pinPrev = s.pinPrev := rfl
@[simp] theorem State.setMem_mem (s : State) (m : Memory) : (s.setMem m).mem = m := rfl
@[simp] theorem State.setMem_platform (s : State) (m : Memory) : (s.setMem m).platform = s.platform := rfl
@[simp] theorem State.setMem_env (s : State) (m : Memory) : (s.setMem m).env = s.env := rfl
@[simp] theorem State.setMem_turns (s : State) (m : Memory) : (s.setMem m).turns = s.turns := rfl
@[simp] theorem State.setMem_resetting (s : State) (m : Memory) : (s.setMem m).resetting = s.resetting := rfl
@[simp] theorem State.setMem_ioIn (s : State) (m : Memory) : (s.setMem m).ioIn = s.ioIn := rfl
@[simp] theorem State.setMem_trace (s : State) (m : Memory) : (s.setMem m).trace = s.trace := rfl
@[simp] theorem State.setMem_free (s : State) (m : Memory) : (s.setMem m).free = s.free := rfl

/-! ## `State.emit` -/

@[simp] theorem State.emit_regs (s : State) (e : BusEvent) : (s.emit e).regs = s.regs := rfl
@[simp] theorem State.emit_ic (s : State) (e : BusEvent) : (s.emit e).ic = s.ic := rfl
@[simp] theorem State.emit_sw (s : State) (e : BusEvent) : (s.emit e).sw = s.sw := rfl
@[simp] theorem State.emit_pir (s : State) (e : BusEvent) : (s.emit e).pir = s.pir := rfl
@[simp] theorem State.emit_mask (s : State) (e : BusEvent) : (s.emit e).mask = s.mask := rfl
@[simp] theorem State.emit_ft (s : State) (e : BusEvent) : (s.emit e).ft = s.ft := rfl
@[simp] theorem State.emit_scr (s : State) (e : BusEvent) : (s.emit e).scr = s.scr := rfl
@[simp] theorem State.emit_ta (s : State) (e : BusEvent) : (s.emit e).ta = s.ta := rfl
@[simp] theorem State.emit_tb (s : State) (e : BusEvent) : (s.emit e).tb = s.tb := rfl
@[simp] theorem State.emit_taRun (s : State) (e : BusEvent) : (s.emit e).taRun = s.taRun := rfl
@[simp] theorem State.emit_tbRun (s : State) (e : BusEvent) : (s.emit e).tbRun = s.tbRun := rfl
@[simp] theorem State.emit_tbPhase (s : State) (e : BusEvent) : (s.emit e).tbPhase = s.tbPhase := rfl
@[simp] theorem State.emit_inten (s : State) (e : BusEvent) : (s.emit e).inten = s.inten := rfl
@[simp] theorem State.emit_enbl (s : State) (e : BusEvent) : (s.emit e).enbl = s.enbl := rfl
@[simp] theorem State.emit_spi (s : State) (e : BusEvent) : (s.emit e).spi = s.spi := rfl
@[simp] theorem State.emit_dmaen (s : State) (e : BusEvent) : (s.emit e).dmaen = s.dmaen := rfl
@[simp] theorem State.emit_nmlpwrup (s : State) (e : BusEvent) : (s.emit e).nmlpwrup = s.nmlpwrup := rfl
@[simp] theorem State.emit_scratch (s : State) (e : BusEvent) : (s.emit e).scratch = s.scratch := rfl
@[simp] theorem State.emit_consoleMode (s : State) (e : BusEvent) : (s.emit e).consoleMode = s.consoleMode := rfl
@[simp] theorem State.emit_waiting (s : State) (e : BusEvent) : (s.emit e).waiting = s.waiting := rfl
@[simp] theorem State.emit_depositLocked (s : State) (e : BusEvent) : (s.emit e).depositLocked = s.depositLocked := rfl
@[simp] theorem State.emit_moving (s : State) (e : BusEvent) : (s.emit e).moving = s.moving := rfl
@[simp] theorem State.emit_ipr (s : State) (e : BusEvent) : (s.emit e).ipr = s.ipr := rfl
@[simp] theorem State.emit_opr (s : State) (e : BusEvent) : (s.emit e).opr = s.opr := rfl
@[simp] theorem State.emit_bpuRam (s : State) (e : BusEvent) : (s.emit e).bpuRam = s.bpuRam := rfl
@[simp] theorem State.emit_globprt (s : State) (e : BusEvent) : (s.emit e).globprt = s.globprt := rfl
@[simp] theorem State.emit_pinPrev (s : State) (e : BusEvent) : (s.emit e).pinPrev = s.pinPrev := rfl
@[simp] theorem State.emit_mem (s : State) (e : BusEvent) : (s.emit e).mem = s.mem := rfl
@[simp] theorem State.emit_platform (s : State) (e : BusEvent) : (s.emit e).platform = s.platform := rfl
@[simp] theorem State.emit_env (s : State) (e : BusEvent) : (s.emit e).env = s.env := rfl
@[simp] theorem State.emit_turns (s : State) (e : BusEvent) : (s.emit e).turns = s.turns := rfl
@[simp] theorem State.emit_resetting (s : State) (e : BusEvent) : (s.emit e).resetting = s.resetting := rfl
@[simp] theorem State.emit_ioIn (s : State) (e : BusEvent) : (s.emit e).ioIn = s.ioIn := rfl
@[simp] theorem State.emit_trace (s : State) (e : BusEvent) : (s.emit e).trace = e :: s.trace := rfl
@[simp] theorem State.emit_free (s : State) (e : BusEvent) : (s.emit e).free = s.free := rfl

/-! ## `State.useFree` -/

@[simp] theorem State.useFree_regs (s : State) (k : Nat) : (s.useFree k).regs = s.regs := rfl
@[simp] theorem State.useFree_ic (s : State) (k : Nat) : (s.useFree k).ic = s.ic := rfl
@[simp] theorem State.useFree_sw (s : State) (k : Nat) : (s.useFree k).sw = s.sw := rfl
@[simp] theorem State.useFree_pir (s : State) (k : Nat) : (s.useFree k).pir = s.pir := rfl
@[simp] theorem State.useFree_mask (s : State) (k : Nat) : (s.useFree k).mask = s.mask := rfl
@[simp] theorem State.useFree_ft (s : State) (k : Nat) : (s.useFree k).ft = s.ft := rfl
@[simp] theorem State.useFree_scr (s : State) (k : Nat) : (s.useFree k).scr = s.scr := rfl
@[simp] theorem State.useFree_ta (s : State) (k : Nat) : (s.useFree k).ta = s.ta := rfl
@[simp] theorem State.useFree_tb (s : State) (k : Nat) : (s.useFree k).tb = s.tb := rfl
@[simp] theorem State.useFree_taRun (s : State) (k : Nat) : (s.useFree k).taRun = s.taRun := rfl
@[simp] theorem State.useFree_tbRun (s : State) (k : Nat) : (s.useFree k).tbRun = s.tbRun := rfl
@[simp] theorem State.useFree_tbPhase (s : State) (k : Nat) : (s.useFree k).tbPhase = s.tbPhase := rfl
@[simp] theorem State.useFree_inten (s : State) (k : Nat) : (s.useFree k).inten = s.inten := rfl
@[simp] theorem State.useFree_enbl (s : State) (k : Nat) : (s.useFree k).enbl = s.enbl := rfl
@[simp] theorem State.useFree_spi (s : State) (k : Nat) : (s.useFree k).spi = s.spi := rfl
@[simp] theorem State.useFree_dmaen (s : State) (k : Nat) : (s.useFree k).dmaen = s.dmaen := rfl
@[simp] theorem State.useFree_nmlpwrup (s : State) (k : Nat) : (s.useFree k).nmlpwrup = s.nmlpwrup := rfl
@[simp] theorem State.useFree_scratch (s : State) (k : Nat) : (s.useFree k).scratch = s.scratch := rfl
@[simp] theorem State.useFree_consoleMode (s : State) (k : Nat) : (s.useFree k).consoleMode = s.consoleMode := rfl
@[simp] theorem State.useFree_waiting (s : State) (k : Nat) : (s.useFree k).waiting = s.waiting := rfl
@[simp] theorem State.useFree_depositLocked (s : State) (k : Nat) : (s.useFree k).depositLocked = s.depositLocked := rfl
@[simp] theorem State.useFree_moving (s : State) (k : Nat) : (s.useFree k).moving = s.moving := rfl
@[simp] theorem State.useFree_ipr (s : State) (k : Nat) : (s.useFree k).ipr = s.ipr := rfl
@[simp] theorem State.useFree_opr (s : State) (k : Nat) : (s.useFree k).opr = s.opr := rfl
@[simp] theorem State.useFree_bpuRam (s : State) (k : Nat) : (s.useFree k).bpuRam = s.bpuRam := rfl
@[simp] theorem State.useFree_globprt (s : State) (k : Nat) : (s.useFree k).globprt = s.globprt := rfl
@[simp] theorem State.useFree_pinPrev (s : State) (k : Nat) : (s.useFree k).pinPrev = s.pinPrev := rfl
@[simp] theorem State.useFree_mem (s : State) (k : Nat) : (s.useFree k).mem = s.mem := rfl
@[simp] theorem State.useFree_platform (s : State) (k : Nat) : (s.useFree k).platform = s.platform := rfl
@[simp] theorem State.useFree_env (s : State) (k : Nat) : (s.useFree k).env = s.env := rfl
@[simp] theorem State.useFree_turns (s : State) (k : Nat) : (s.useFree k).turns = s.turns := rfl
@[simp] theorem State.useFree_resetting (s : State) (k : Nat) : (s.useFree k).resetting = s.resetting := rfl
@[simp] theorem State.useFree_ioIn (s : State) (k : Nat) : (s.useFree k).ioIn = s.ioIn := rfl
@[simp] theorem State.useFree_trace (s : State) (k : Nat) : (s.useFree k).trace = s.trace := rfl
@[simp] theorem State.useFree_free (s : State) (k : Nat) : (s.useFree k).free = s.free + k := rfl

/-! ## `State.raise` -/

@[simp] theorem State.raise_regs (s : State) (b : Word) (v : Severity) : (s.raise b v).regs = s.regs := rfl
@[simp] theorem State.raise_ic (s : State) (b : Word) (v : Severity) : (s.raise b v).ic = s.ic := rfl
@[simp] theorem State.raise_sw (s : State) (b : Word) (v : Severity) : (s.raise b v).sw = s.sw := rfl
@[simp] theorem State.raise_pir (s : State) (b : Word) (v : Severity) : (s.raise b v).pir = s.pir ||| 0x4000 := rfl
@[simp] theorem State.raise_mask (s : State) (b : Word) (v : Severity) : (s.raise b v).mask = s.mask := rfl
@[simp] theorem State.raise_ft (s : State) (b : Word) (v : Severity) : (s.raise b v).ft = s.ft ||| b := rfl
@[simp] theorem State.raise_scr (s : State) (b : Word) (v : Severity) : (s.raise b v).scr = s.scr := rfl
@[simp] theorem State.raise_ta (s : State) (b : Word) (v : Severity) : (s.raise b v).ta = s.ta := rfl
@[simp] theorem State.raise_tb (s : State) (b : Word) (v : Severity) : (s.raise b v).tb = s.tb := rfl
@[simp] theorem State.raise_taRun (s : State) (b : Word) (v : Severity) : (s.raise b v).taRun = s.taRun := rfl
@[simp] theorem State.raise_tbRun (s : State) (b : Word) (v : Severity) : (s.raise b v).tbRun = s.tbRun := rfl
@[simp] theorem State.raise_tbPhase (s : State) (b : Word) (v : Severity) : (s.raise b v).tbPhase = s.tbPhase := rfl
@[simp] theorem State.raise_inten (s : State) (b : Word) (v : Severity) : (s.raise b v).inten = s.inten := rfl
@[simp] theorem State.raise_enbl (s : State) (b : Word) (v : Severity) : (s.raise b v).enbl = s.enbl := rfl
@[simp] theorem State.raise_spi (s : State) (b : Word) (v : Severity) : (s.raise b v).spi = s.spi := rfl
@[simp] theorem State.raise_dmaen (s : State) (b : Word) (v : Severity) : (s.raise b v).dmaen = s.dmaen := rfl
@[simp] theorem State.raise_nmlpwrup (s : State) (b : Word) (v : Severity) : (s.raise b v).nmlpwrup = s.nmlpwrup := rfl
@[simp] theorem State.raise_scratch (s : State) (b : Word) (v : Severity) : (s.raise b v).scratch = s.scratch := rfl
@[simp] theorem State.raise_consoleMode (s : State) (b : Word) (v : Severity) : (s.raise b v).consoleMode = s.consoleMode := rfl
@[simp] theorem State.raise_waiting (s : State) (b : Word) (v : Severity) : (s.raise b v).waiting = s.waiting := rfl
@[simp] theorem State.raise_depositLocked (s : State) (b : Word) (v : Severity) : (s.raise b v).depositLocked = s.depositLocked := rfl
@[simp] theorem State.raise_moving (s : State) (b : Word) (v : Severity) : (s.raise b v).moving = s.moving := rfl
@[simp] theorem State.raise_ipr (s : State) (b : Word) (v : Severity) : (s.raise b v).ipr = s.ipr := rfl
@[simp] theorem State.raise_opr (s : State) (b : Word) (v : Severity) : (s.raise b v).opr = s.opr := rfl
@[simp] theorem State.raise_bpuRam (s : State) (b : Word) (v : Severity) : (s.raise b v).bpuRam = s.bpuRam := rfl
@[simp] theorem State.raise_globprt (s : State) (b : Word) (v : Severity) : (s.raise b v).globprt = s.globprt := rfl
@[simp] theorem State.raise_pinPrev (s : State) (b : Word) (v : Severity) : (s.raise b v).pinPrev = s.pinPrev := rfl
@[simp] theorem State.raise_mem (s : State) (b : Word) (v : Severity) : (s.raise b v).mem = s.mem := rfl
@[simp] theorem State.raise_platform (s : State) (b : Word) (v : Severity) : (s.raise b v).platform = s.platform := rfl
@[simp] theorem State.raise_env (s : State) (b : Word) (v : Severity) : (s.raise b v).env = s.env := rfl
@[simp] theorem State.raise_turns (s : State) (b : Word) (v : Severity) : (s.raise b v).turns = s.turns := rfl
@[simp] theorem State.raise_resetting (s : State) (b : Word) (v : Severity) : (s.raise b v).resetting = s.resetting := rfl
@[simp] theorem State.raise_ioIn (s : State) (b : Word) (v : Severity) : (s.raise b v).ioIn = s.ioIn := rfl
@[simp] theorem State.raise_trace (s : State) (b : Word) (v : Severity) : (s.raise b v).trace = v.pulse ++ s.trace := rfl
@[simp] theorem State.raise_free (s : State) (b : Word) (v : Severity) : (s.raise b v).free = s.free := rfl

/-! ## `State.illegalInstruction` -/

@[simp] theorem State.illegalInstruction_regs (s : State) (len : Word) : (s.illegalInstruction len).regs = s.regs := rfl
@[simp] theorem State.illegalInstruction_ic (s : State) (len : Word) : (s.illegalInstruction len).ic = s.ic + len := rfl
@[simp] theorem State.illegalInstruction_sw (s : State) (len : Word) : (s.illegalInstruction len).sw = s.sw := rfl
@[simp] theorem State.illegalInstruction_pir (s : State) (len : Word) : (s.illegalInstruction len).pir = s.pir ||| 0x4000 := rfl
@[simp] theorem State.illegalInstruction_mask (s : State) (len : Word) : (s.illegalInstruction len).mask = s.mask := rfl
@[simp] theorem State.illegalInstruction_ft (s : State) (len : Word) : (s.illegalInstruction len).ft = s.ft ||| 0x0040 := rfl
@[simp] theorem State.illegalInstruction_scr (s : State) (len : Word) : (s.illegalInstruction len).scr = s.scr := rfl
@[simp] theorem State.illegalInstruction_ta (s : State) (len : Word) : (s.illegalInstruction len).ta = s.ta := rfl
@[simp] theorem State.illegalInstruction_tb (s : State) (len : Word) : (s.illegalInstruction len).tb = s.tb := rfl
@[simp] theorem State.illegalInstruction_taRun (s : State) (len : Word) : (s.illegalInstruction len).taRun = s.taRun := rfl
@[simp] theorem State.illegalInstruction_tbRun (s : State) (len : Word) : (s.illegalInstruction len).tbRun = s.tbRun := rfl
@[simp] theorem State.illegalInstruction_tbPhase (s : State) (len : Word) : (s.illegalInstruction len).tbPhase = s.tbPhase := rfl
@[simp] theorem State.illegalInstruction_inten (s : State) (len : Word) : (s.illegalInstruction len).inten = s.inten := rfl
@[simp] theorem State.illegalInstruction_enbl (s : State) (len : Word) : (s.illegalInstruction len).enbl = s.enbl := rfl
@[simp] theorem State.illegalInstruction_spi (s : State) (len : Word) : (s.illegalInstruction len).spi = s.spi := rfl
@[simp] theorem State.illegalInstruction_dmaen (s : State) (len : Word) : (s.illegalInstruction len).dmaen = s.dmaen := rfl
@[simp] theorem State.illegalInstruction_nmlpwrup (s : State) (len : Word) : (s.illegalInstruction len).nmlpwrup = s.nmlpwrup := rfl
@[simp] theorem State.illegalInstruction_scratch (s : State) (len : Word) : (s.illegalInstruction len).scratch = s.scratch := rfl
@[simp] theorem State.illegalInstruction_consoleMode (s : State) (len : Word) : (s.illegalInstruction len).consoleMode = s.consoleMode := rfl
@[simp] theorem State.illegalInstruction_waiting (s : State) (len : Word) : (s.illegalInstruction len).waiting = s.waiting := rfl
@[simp] theorem State.illegalInstruction_depositLocked (s : State) (len : Word) : (s.illegalInstruction len).depositLocked = s.depositLocked := rfl
@[simp] theorem State.illegalInstruction_moving (s : State) (len : Word) : (s.illegalInstruction len).moving = s.moving := rfl
@[simp] theorem State.illegalInstruction_ipr (s : State) (len : Word) : (s.illegalInstruction len).ipr = s.ipr := rfl
@[simp] theorem State.illegalInstruction_opr (s : State) (len : Word) : (s.illegalInstruction len).opr = s.opr := rfl
@[simp] theorem State.illegalInstruction_bpuRam (s : State) (len : Word) : (s.illegalInstruction len).bpuRam = s.bpuRam := rfl
@[simp] theorem State.illegalInstruction_globprt (s : State) (len : Word) : (s.illegalInstruction len).globprt = s.globprt := rfl
@[simp] theorem State.illegalInstruction_pinPrev (s : State) (len : Word) : (s.illegalInstruction len).pinPrev = s.pinPrev := rfl
@[simp] theorem State.illegalInstruction_mem (s : State) (len : Word) : (s.illegalInstruction len).mem = s.mem := rfl
@[simp] theorem State.illegalInstruction_platform (s : State) (len : Word) : (s.illegalInstruction len).platform = s.platform := rfl
@[simp] theorem State.illegalInstruction_env (s : State) (len : Word) : (s.illegalInstruction len).env = s.env := rfl
@[simp] theorem State.illegalInstruction_turns (s : State) (len : Word) : (s.illegalInstruction len).turns = s.turns := rfl
@[simp] theorem State.illegalInstruction_resetting (s : State) (len : Word) : (s.illegalInstruction len).resetting = s.resetting := rfl
@[simp] theorem State.illegalInstruction_ioIn (s : State) (len : Word) : (s.illegalInstruction len).ioIn = s.ioIn := rfl
@[simp] theorem State.illegalInstruction_trace (s : State) (len : Word) : (s.illegalInstruction len).trace = .unrcvEr :: s.trace := rfl
@[simp] theorem State.illegalInstruction_free (s : State) (len : Word) : (s.illegalInstruction len).free = s.free := rfl

/-! ## `State.privilegeViolation` -/

@[simp] theorem State.privilegeViolation_regs (s : State) : (s.privilegeViolation).regs = s.regs := rfl
@[simp] theorem State.privilegeViolation_ic (s : State) : (s.privilegeViolation).ic = s.ic + 2 := rfl
@[simp] theorem State.privilegeViolation_sw (s : State) : (s.privilegeViolation).sw = s.sw := rfl
@[simp] theorem State.privilegeViolation_pir (s : State) : (s.privilegeViolation).pir = s.pir ||| 0x4000 := rfl
@[simp] theorem State.privilegeViolation_mask (s : State) : (s.privilegeViolation).mask = s.mask := rfl
@[simp] theorem State.privilegeViolation_ft (s : State) : (s.privilegeViolation).ft = s.ft ||| 0x0020 := rfl
@[simp] theorem State.privilegeViolation_scr (s : State) : (s.privilegeViolation).scr = s.scr := rfl
@[simp] theorem State.privilegeViolation_ta (s : State) : (s.privilegeViolation).ta = s.ta := rfl
@[simp] theorem State.privilegeViolation_tb (s : State) : (s.privilegeViolation).tb = s.tb := rfl
@[simp] theorem State.privilegeViolation_taRun (s : State) : (s.privilegeViolation).taRun = s.taRun := rfl
@[simp] theorem State.privilegeViolation_tbRun (s : State) : (s.privilegeViolation).tbRun = s.tbRun := rfl
@[simp] theorem State.privilegeViolation_tbPhase (s : State) : (s.privilegeViolation).tbPhase = s.tbPhase := rfl
@[simp] theorem State.privilegeViolation_inten (s : State) : (s.privilegeViolation).inten = s.inten := rfl
@[simp] theorem State.privilegeViolation_enbl (s : State) : (s.privilegeViolation).enbl = s.enbl := rfl
@[simp] theorem State.privilegeViolation_spi (s : State) : (s.privilegeViolation).spi = s.spi := rfl
@[simp] theorem State.privilegeViolation_dmaen (s : State) : (s.privilegeViolation).dmaen = s.dmaen := rfl
@[simp] theorem State.privilegeViolation_nmlpwrup (s : State) : (s.privilegeViolation).nmlpwrup = s.nmlpwrup := rfl
@[simp] theorem State.privilegeViolation_scratch (s : State) : (s.privilegeViolation).scratch = s.scratch := rfl
@[simp] theorem State.privilegeViolation_consoleMode (s : State) : (s.privilegeViolation).consoleMode = s.consoleMode := rfl
@[simp] theorem State.privilegeViolation_waiting (s : State) : (s.privilegeViolation).waiting = s.waiting := rfl
@[simp] theorem State.privilegeViolation_depositLocked (s : State) : (s.privilegeViolation).depositLocked = s.depositLocked := rfl
@[simp] theorem State.privilegeViolation_moving (s : State) : (s.privilegeViolation).moving = s.moving := rfl
@[simp] theorem State.privilegeViolation_ipr (s : State) : (s.privilegeViolation).ipr = s.ipr := rfl
@[simp] theorem State.privilegeViolation_opr (s : State) : (s.privilegeViolation).opr = s.opr := rfl
@[simp] theorem State.privilegeViolation_bpuRam (s : State) : (s.privilegeViolation).bpuRam = s.bpuRam := rfl
@[simp] theorem State.privilegeViolation_globprt (s : State) : (s.privilegeViolation).globprt = s.globprt := rfl
@[simp] theorem State.privilegeViolation_pinPrev (s : State) : (s.privilegeViolation).pinPrev = s.pinPrev := rfl
@[simp] theorem State.privilegeViolation_mem (s : State) : (s.privilegeViolation).mem = s.mem := rfl
@[simp] theorem State.privilegeViolation_platform (s : State) : (s.privilegeViolation).platform = s.platform := rfl
@[simp] theorem State.privilegeViolation_env (s : State) : (s.privilegeViolation).env = s.env := rfl
@[simp] theorem State.privilegeViolation_turns (s : State) : (s.privilegeViolation).turns = s.turns := rfl
@[simp] theorem State.privilegeViolation_resetting (s : State) : (s.privilegeViolation).resetting = s.resetting := rfl
@[simp] theorem State.privilegeViolation_ioIn (s : State) : (s.privilegeViolation).ioIn = s.ioIn := rfl
@[simp] theorem State.privilegeViolation_trace (s : State) : (s.privilegeViolation).trace = .majEr :: s.trace := rfl
@[simp] theorem State.privilegeViolation_free (s : State) : (s.privilegeViolation).free = s.free := rfl

/-! ## `State.addressStateFault` -/

@[simp] theorem State.addressStateFault_regs (s : State) : (s.addressStateFault).regs = s.regs := rfl
@[simp] theorem State.addressStateFault_ic (s : State) : (s.addressStateFault).ic = s.ic := rfl
@[simp] theorem State.addressStateFault_sw (s : State) : (s.addressStateFault).sw = s.sw := rfl
@[simp] theorem State.addressStateFault_pir (s : State) : (s.addressStateFault).pir = s.pir ||| 0x4000 := rfl
@[simp] theorem State.addressStateFault_mask (s : State) : (s.addressStateFault).mask = s.mask := rfl
@[simp] theorem State.addressStateFault_ft (s : State) : (s.addressStateFault).ft = s.ft ||| 0x0010 := rfl
@[simp] theorem State.addressStateFault_scr (s : State) : (s.addressStateFault).scr = s.scr := rfl
@[simp] theorem State.addressStateFault_ta (s : State) : (s.addressStateFault).ta = s.ta := rfl
@[simp] theorem State.addressStateFault_tb (s : State) : (s.addressStateFault).tb = s.tb := rfl
@[simp] theorem State.addressStateFault_taRun (s : State) : (s.addressStateFault).taRun = s.taRun := rfl
@[simp] theorem State.addressStateFault_tbRun (s : State) : (s.addressStateFault).tbRun = s.tbRun := rfl
@[simp] theorem State.addressStateFault_tbPhase (s : State) : (s.addressStateFault).tbPhase = s.tbPhase := rfl
@[simp] theorem State.addressStateFault_inten (s : State) : (s.addressStateFault).inten = s.inten := rfl
@[simp] theorem State.addressStateFault_enbl (s : State) : (s.addressStateFault).enbl = s.enbl := rfl
@[simp] theorem State.addressStateFault_spi (s : State) : (s.addressStateFault).spi = s.spi := rfl
@[simp] theorem State.addressStateFault_dmaen (s : State) : (s.addressStateFault).dmaen = s.dmaen := rfl
@[simp] theorem State.addressStateFault_nmlpwrup (s : State) : (s.addressStateFault).nmlpwrup = s.nmlpwrup := rfl
@[simp] theorem State.addressStateFault_scratch (s : State) : (s.addressStateFault).scratch = s.scratch := rfl
@[simp] theorem State.addressStateFault_consoleMode (s : State) : (s.addressStateFault).consoleMode = s.consoleMode := rfl
@[simp] theorem State.addressStateFault_waiting (s : State) : (s.addressStateFault).waiting = s.waiting := rfl
@[simp] theorem State.addressStateFault_depositLocked (s : State) : (s.addressStateFault).depositLocked = s.depositLocked := rfl
@[simp] theorem State.addressStateFault_moving (s : State) : (s.addressStateFault).moving = s.moving := rfl
@[simp] theorem State.addressStateFault_ipr (s : State) : (s.addressStateFault).ipr = s.ipr := rfl
@[simp] theorem State.addressStateFault_opr (s : State) : (s.addressStateFault).opr = s.opr := rfl
@[simp] theorem State.addressStateFault_bpuRam (s : State) : (s.addressStateFault).bpuRam = s.bpuRam := rfl
@[simp] theorem State.addressStateFault_globprt (s : State) : (s.addressStateFault).globprt = s.globprt := rfl
@[simp] theorem State.addressStateFault_pinPrev (s : State) : (s.addressStateFault).pinPrev = s.pinPrev := rfl
@[simp] theorem State.addressStateFault_mem (s : State) : (s.addressStateFault).mem = s.mem := rfl
@[simp] theorem State.addressStateFault_platform (s : State) : (s.addressStateFault).platform = s.platform := rfl
@[simp] theorem State.addressStateFault_env (s : State) : (s.addressStateFault).env = s.env := rfl
@[simp] theorem State.addressStateFault_turns (s : State) : (s.addressStateFault).turns = s.turns := rfl
@[simp] theorem State.addressStateFault_resetting (s : State) : (s.addressStateFault).resetting = s.resetting := rfl
@[simp] theorem State.addressStateFault_ioIn (s : State) : (s.addressStateFault).ioIn = s.ioIn := rfl
@[simp] theorem State.addressStateFault_trace (s : State) : (s.addressStateFault).trace = .unrcvEr :: s.trace := rfl
@[simp] theorem State.addressStateFault_free (s : State) : (s.addressStateFault).free = s.free := rfl

/-! ## `State.ends` -/

@[simp] theorem State.ends_regs (s : State) (c : BitVec 4) (p len : Word) : (s.ends c p len).regs = s.regs := rfl
@[simp] theorem State.ends_ic (s : State) (c : BitVec 4) (p len : Word) : (s.ends c p len).ic = s.ic + len := rfl
@[simp] theorem State.ends_sw (s : State) (c : BitVec 4) (p len : Word) : (s.ends c p len).sw = c ++ s.sw.extractLsb' 0 12 := rfl
@[simp] theorem State.ends_pir (s : State) (c : BitVec 4) (p len : Word) : (s.ends c p len).pir = s.pir ||| p := rfl
@[simp] theorem State.ends_mask (s : State) (c : BitVec 4) (p len : Word) : (s.ends c p len).mask = s.mask := rfl
@[simp] theorem State.ends_ft (s : State) (c : BitVec 4) (p len : Word) : (s.ends c p len).ft = s.ft := rfl
@[simp] theorem State.ends_scr (s : State) (c : BitVec 4) (p len : Word) : (s.ends c p len).scr = s.scr := rfl
@[simp] theorem State.ends_ta (s : State) (c : BitVec 4) (p len : Word) : (s.ends c p len).ta = s.ta := rfl
@[simp] theorem State.ends_tb (s : State) (c : BitVec 4) (p len : Word) : (s.ends c p len).tb = s.tb := rfl
@[simp] theorem State.ends_taRun (s : State) (c : BitVec 4) (p len : Word) : (s.ends c p len).taRun = s.taRun := rfl
@[simp] theorem State.ends_tbRun (s : State) (c : BitVec 4) (p len : Word) : (s.ends c p len).tbRun = s.tbRun := rfl
@[simp] theorem State.ends_tbPhase (s : State) (c : BitVec 4) (p len : Word) : (s.ends c p len).tbPhase = s.tbPhase := rfl
@[simp] theorem State.ends_inten (s : State) (c : BitVec 4) (p len : Word) : (s.ends c p len).inten = s.inten := rfl
@[simp] theorem State.ends_enbl (s : State) (c : BitVec 4) (p len : Word) : (s.ends c p len).enbl = s.enbl := rfl
@[simp] theorem State.ends_spi (s : State) (c : BitVec 4) (p len : Word) : (s.ends c p len).spi = s.spi := rfl
@[simp] theorem State.ends_dmaen (s : State) (c : BitVec 4) (p len : Word) : (s.ends c p len).dmaen = s.dmaen := rfl
@[simp] theorem State.ends_nmlpwrup (s : State) (c : BitVec 4) (p len : Word) : (s.ends c p len).nmlpwrup = s.nmlpwrup := rfl
@[simp] theorem State.ends_scratch (s : State) (c : BitVec 4) (p len : Word) : (s.ends c p len).scratch = s.scratch := rfl
@[simp] theorem State.ends_consoleMode (s : State) (c : BitVec 4) (p len : Word) : (s.ends c p len).consoleMode = s.consoleMode := rfl
@[simp] theorem State.ends_waiting (s : State) (c : BitVec 4) (p len : Word) : (s.ends c p len).waiting = s.waiting := rfl
@[simp] theorem State.ends_depositLocked (s : State) (c : BitVec 4) (p len : Word) : (s.ends c p len).depositLocked = s.depositLocked := rfl
@[simp] theorem State.ends_moving (s : State) (c : BitVec 4) (p len : Word) : (s.ends c p len).moving = s.moving := rfl
@[simp] theorem State.ends_ipr (s : State) (c : BitVec 4) (p len : Word) : (s.ends c p len).ipr = s.ipr := rfl
@[simp] theorem State.ends_opr (s : State) (c : BitVec 4) (p len : Word) : (s.ends c p len).opr = s.opr := rfl
@[simp] theorem State.ends_bpuRam (s : State) (c : BitVec 4) (p len : Word) : (s.ends c p len).bpuRam = s.bpuRam := rfl
@[simp] theorem State.ends_globprt (s : State) (c : BitVec 4) (p len : Word) : (s.ends c p len).globprt = s.globprt := rfl
@[simp] theorem State.ends_pinPrev (s : State) (c : BitVec 4) (p len : Word) : (s.ends c p len).pinPrev = s.pinPrev := rfl
@[simp] theorem State.ends_mem (s : State) (c : BitVec 4) (p len : Word) : (s.ends c p len).mem = s.mem := rfl
@[simp] theorem State.ends_platform (s : State) (c : BitVec 4) (p len : Word) : (s.ends c p len).platform = s.platform := rfl
@[simp] theorem State.ends_env (s : State) (c : BitVec 4) (p len : Word) : (s.ends c p len).env = s.env := rfl
@[simp] theorem State.ends_turns (s : State) (c : BitVec 4) (p len : Word) : (s.ends c p len).turns = s.turns := rfl
@[simp] theorem State.ends_resetting (s : State) (c : BitVec 4) (p len : Word) : (s.ends c p len).resetting = s.resetting := rfl
@[simp] theorem State.ends_ioIn (s : State) (c : BitVec 4) (p len : Word) : (s.ends c p len).ioIn = s.ioIn := rfl
@[simp] theorem State.ends_trace (s : State) (c : BitVec 4) (p len : Word) : (s.ends c p len).trace = s.trace := rfl
@[simp] theorem State.ends_free (s : State) (c : BitVec 4) (p len : Word) : (s.ends c p len).free = s.free := rfl

/-! ## `State.past` -/

@[simp] theorem State.past_regs (s : State) (len : Word) : (s.past len).regs = s.regs := rfl
@[simp] theorem State.past_ic (s : State) (len : Word) : (s.past len).ic = s.ic + len := rfl
@[simp] theorem State.past_sw (s : State) (len : Word) : (s.past len).sw = s.sw := rfl
@[simp] theorem State.past_pir (s : State) (len : Word) : (s.past len).pir = s.pir := rfl
@[simp] theorem State.past_mask (s : State) (len : Word) : (s.past len).mask = s.mask := rfl
@[simp] theorem State.past_ft (s : State) (len : Word) : (s.past len).ft = s.ft := rfl
@[simp] theorem State.past_scr (s : State) (len : Word) : (s.past len).scr = s.scr := rfl
@[simp] theorem State.past_ta (s : State) (len : Word) : (s.past len).ta = s.ta := rfl
@[simp] theorem State.past_tb (s : State) (len : Word) : (s.past len).tb = s.tb := rfl
@[simp] theorem State.past_taRun (s : State) (len : Word) : (s.past len).taRun = s.taRun := rfl
@[simp] theorem State.past_tbRun (s : State) (len : Word) : (s.past len).tbRun = s.tbRun := rfl
@[simp] theorem State.past_tbPhase (s : State) (len : Word) : (s.past len).tbPhase = s.tbPhase := rfl
@[simp] theorem State.past_inten (s : State) (len : Word) : (s.past len).inten = s.inten := rfl
@[simp] theorem State.past_enbl (s : State) (len : Word) : (s.past len).enbl = s.enbl := rfl
@[simp] theorem State.past_spi (s : State) (len : Word) : (s.past len).spi = s.spi := rfl
@[simp] theorem State.past_dmaen (s : State) (len : Word) : (s.past len).dmaen = s.dmaen := rfl
@[simp] theorem State.past_nmlpwrup (s : State) (len : Word) : (s.past len).nmlpwrup = s.nmlpwrup := rfl
@[simp] theorem State.past_scratch (s : State) (len : Word) : (s.past len).scratch = s.scratch := rfl
@[simp] theorem State.past_consoleMode (s : State) (len : Word) : (s.past len).consoleMode = s.consoleMode := rfl
@[simp] theorem State.past_waiting (s : State) (len : Word) : (s.past len).waiting = s.waiting := rfl
@[simp] theorem State.past_depositLocked (s : State) (len : Word) : (s.past len).depositLocked = s.depositLocked := rfl
@[simp] theorem State.past_moving (s : State) (len : Word) : (s.past len).moving = s.moving := rfl
@[simp] theorem State.past_ipr (s : State) (len : Word) : (s.past len).ipr = s.ipr := rfl
@[simp] theorem State.past_opr (s : State) (len : Word) : (s.past len).opr = s.opr := rfl
@[simp] theorem State.past_bpuRam (s : State) (len : Word) : (s.past len).bpuRam = s.bpuRam := rfl
@[simp] theorem State.past_globprt (s : State) (len : Word) : (s.past len).globprt = s.globprt := rfl
@[simp] theorem State.past_pinPrev (s : State) (len : Word) : (s.past len).pinPrev = s.pinPrev := rfl
@[simp] theorem State.past_mem (s : State) (len : Word) : (s.past len).mem = s.mem := rfl
@[simp] theorem State.past_platform (s : State) (len : Word) : (s.past len).platform = s.platform := rfl
@[simp] theorem State.past_env (s : State) (len : Word) : (s.past len).env = s.env := rfl
@[simp] theorem State.past_turns (s : State) (len : Word) : (s.past len).turns = s.turns := rfl
@[simp] theorem State.past_resetting (s : State) (len : Word) : (s.past len).resetting = s.resetting := rfl
@[simp] theorem State.past_ioIn (s : State) (len : Word) : (s.past len).ioIn = s.ioIn := rfl
@[simp] theorem State.past_trace (s : State) (len : Word) : (s.past len).trace = s.trace := rfl
@[simp] theorem State.past_free (s : State) (len : Word) : (s.past len).free = s.free := rfl

/-! ## Registers -/

@[simp] theorem State.setIc_reg (s : State) (v : Word) (r : Reg) : (s.setIc v).reg r = s.reg r := rfl
@[simp] theorem State.setIc_pair (s : State) (v : Word) (r : Reg) : (s.setIc v).pair r = s.pair r := rfl
@[simp] theorem State.setIc_triple (s : State) (v : Word) (r : Reg) : (s.setIc v).triple r = s.triple r := rfl
@[simp] theorem State.setCs_reg (s : State) (c : BitVec 4) (r : Reg) : (s.setCs c).reg r = s.reg r := rfl
@[simp] theorem State.setCs_pair (s : State) (c : BitVec 4) (r : Reg) : (s.setCs c).pair r = s.pair r := rfl
@[simp] theorem State.setCs_triple (s : State) (c : BitVec 4) (r : Reg) : (s.setCs c).triple r = s.triple r := rfl
@[simp] theorem State.setSw_reg (s : State) (w : Word) (r : Reg) : (s.setSw w).reg r = s.reg r := rfl
@[simp] theorem State.setSw_pair (s : State) (w : Word) (r : Reg) : (s.setSw w).pair r = s.pair r := rfl
@[simp] theorem State.setSw_triple (s : State) (w : Word) (r : Reg) : (s.setSw w).triple r = s.triple r := rfl
@[simp] theorem State.setMask_reg (s : State) (w : Word) (r : Reg) : (s.setMask w).reg r = s.reg r := rfl
@[simp] theorem State.setMask_pair (s : State) (w : Word) (r : Reg) : (s.setMask w).pair r = s.pair r := rfl
@[simp] theorem State.setMask_triple (s : State) (w : Word) (r : Reg) : (s.setMask w).triple r = s.triple r := rfl
@[simp] theorem State.setPir_reg (s : State) (w : Word) (r : Reg) : (s.setPir w).reg r = s.reg r := rfl
@[simp] theorem State.setPir_pair (s : State) (w : Word) (r : Reg) : (s.setPir w).pair r = s.pair r := rfl
@[simp] theorem State.setPir_triple (s : State) (w : Word) (r : Reg) : (s.setPir w).triple r = s.triple r := rfl
@[simp] theorem State.pend_reg (s : State) (n : Nat) (r : Reg) : (s.pend n).reg r = s.reg r := rfl
@[simp] theorem State.pend_pair (s : State) (n : Nat) (r : Reg) : (s.pend n).pair r = s.pair r := rfl
@[simp] theorem State.pend_triple (s : State) (n : Nat) (r : Reg) : (s.pend n).triple r = s.triple r := rfl
@[simp] theorem State.setMem_reg (s : State) (m : Memory) (r : Reg) : (s.setMem m).reg r = s.reg r := rfl
@[simp] theorem State.setMem_pair (s : State) (m : Memory) (r : Reg) : (s.setMem m).pair r = s.pair r := rfl
@[simp] theorem State.setMem_triple (s : State) (m : Memory) (r : Reg) : (s.setMem m).triple r = s.triple r := rfl
@[simp] theorem State.emit_reg (s : State) (e : BusEvent) (r : Reg) : (s.emit e).reg r = s.reg r := rfl
@[simp] theorem State.emit_pair (s : State) (e : BusEvent) (r : Reg) : (s.emit e).pair r = s.pair r := rfl
@[simp] theorem State.emit_triple (s : State) (e : BusEvent) (r : Reg) : (s.emit e).triple r = s.triple r := rfl
@[simp] theorem State.useFree_reg (s : State) (k : Nat) (r : Reg) : (s.useFree k).reg r = s.reg r := rfl
@[simp] theorem State.useFree_pair (s : State) (k : Nat) (r : Reg) : (s.useFree k).pair r = s.pair r := rfl
@[simp] theorem State.useFree_triple (s : State) (k : Nat) (r : Reg) : (s.useFree k).triple r = s.triple r := rfl
@[simp] theorem State.raise_reg (s : State) (b : Word) (v : Severity) (r : Reg) : (s.raise b v).reg r = s.reg r := rfl
@[simp] theorem State.raise_pair (s : State) (b : Word) (v : Severity) (r : Reg) : (s.raise b v).pair r = s.pair r := rfl
@[simp] theorem State.raise_triple (s : State) (b : Word) (v : Severity) (r : Reg) : (s.raise b v).triple r = s.triple r := rfl
@[simp] theorem State.ends_reg (s : State) (c : BitVec 4) (p len : Word) (r : Reg) : (s.ends c p len).reg r = s.reg r := rfl
@[simp] theorem State.ends_pair (s : State) (c : BitVec 4) (p len : Word) (r : Reg) : (s.ends c p len).pair r = s.pair r := rfl
@[simp] theorem State.ends_triple (s : State) (c : BitVec 4) (p len : Word) (r : Reg) : (s.ends c p len).triple r = s.triple r := rfl
@[simp] theorem State.past_reg (s : State) (len : Word) (r : Reg) : (s.past len).reg r = s.reg r := rfl
@[simp] theorem State.past_pair (s : State) (len : Word) (r : Reg) : (s.past len).pair r = s.pair r := rfl
@[simp] theorem State.past_triple (s : State) (len : Word) (r : Reg) : (s.past len).triple r = s.triple r := rfl

/-- A register after a write to a register. -/
theorem State.reg_setReg (s : State) (q : Reg) (v : Word) (r : Reg) :
    (s.setReg q v).reg r = if r = q then v else s.reg r := by
  unfold State.reg State.setReg
  simp only [Vector.getElem_set]
  by_cases h : q = r
  · subst h; simp
  · have h1 : ¬ q.val = r.val := fun e => h (Fin.ext e)
    have h2 : ¬ r = q := fun e => h e.symm
    simp [h1, h2]

/-- The register written. -/
@[simp] theorem State.reg_setReg_same (s : State) (q : Reg) (v : Word) : (s.setReg q v).reg q = v := by
  simp [State.reg_setReg]

/-- Any other register. -/
theorem State.reg_setReg_other (s : State) {q r : Reg} (v : Word) (h : r ≠ q) :
    (s.setReg q v).reg r = s.reg r := by
  simp [State.reg_setReg, h]

/-- A register after a write to a pair: the pair's second register wins where the two coincide, which they never do. -/
theorem State.reg_setPair (s : State) (q : Reg) (v : Long) (r : Reg) :
    (s.setPair q v).reg r = if r = q + 1 then lowWord v else if r = q then highWord v else s.reg r := by
  simp [State.setPair, State.reg_setReg]

/-- A register after a write to three registers. -/
theorem State.reg_setTriple (s : State) (q : Reg) (v : Triple) (r : Reg) :
    (s.setTriple q v).reg r =
      if r = q + 2 then word2 v else if r = q + 1 then word1 v else if r = q then word0 v else s.reg r := by
  simp [State.setTriple, State.reg_setReg]

/-- A pair is the two words written to it. -/
theorem State.pair_setPair (s : State) (q : Reg) (v : Long) : (s.setPair q v).pair q = v := by
  have h : ¬ q = q + 1 := by revert q; decide
  simp only [State.pair, State.reg_setPair, h, if_true, if_false, highWord, lowWord]
  exact BitVec.eq_of_getLsbD_eq fun i hi => by
    simp only [BitVec.getLsbD_append, BitVec.getLsbD_extractLsb']
    by_cases h16 : i < 16
    · simp [h16]
    · have : i - 16 < 16 := by omega
      have : 16 + (i - 16) = i := by omega
      simp [*]

/-- Three registers are the three words written to them. -/
theorem State.triple_setTriple (s : State) (q : Reg) (v : Triple) : (s.setTriple q v).triple q = v := by
  have h1 : ¬ q = q + 1 := by revert q; decide
  have h2 : ¬ q = q + 2 := by revert q; decide
  have h3 : ¬ q + 1 = q + 2 := by revert q; decide
  simp only [State.triple, State.reg_setTriple, h1, h2, h3, if_true, if_false, word0, word1, word2]
  exact BitVec.eq_of_getLsbD_eq fun i hi => by
    simp only [BitVec.getLsbD_append, BitVec.getLsbD_extractLsb']
    by_cases h16 : i < 16
    · simp [h16]
    · by_cases h32 : i - 16 < 16
      · have : 16 + (i - 16) = i := by omega
        simp [*]
      · have : i - 16 - 16 < 16 := by omega
        have : 32 + (i - 16 - 16) = i := by omega
        simp [*]

/-! ## Memory cycles do not see these updates -/

@[simp] theorem State.setReg_ownCycle (s : State) (q : Reg) (v : Word) (kind : CycleKind) (at_ : Word) :
    (s.setReg q v).ownCycle kind at_ = s.ownCycle kind at_ := rfl
@[simp] theorem State.setReg_writesBlocked (s : State) (q : Reg) (v : Word) : (s.setReg q v).writesBlocked = s.writesBlocked := rfl
@[simp] theorem State.setReg_lands (s : State) (q : Reg) (v : Word) (c : Cycle) : (s.setReg q v).lands c = s.lands c := rfl
@[simp] theorem State.setReg_readable (s : State) (q : Reg) (v : Word) (at_ : Word) : (s.setReg q v).readable at_ = s.readable at_ := rfl
@[simp] theorem State.setReg_writable (s : State) (q : Reg) (v : Word) (at_ : Word) : (s.setReg q v).writable at_ = s.writable at_ := rfl
@[simp] theorem State.setReg_place (s : State) (q : Reg) (v : Word) (at_ : Word) : (s.setReg q v).place at_ = s.place at_ := rfl
@[simp] theorem State.setReg_loaded (s : State) (q : Reg) (v : Word) (at_ : Word) : (s.setReg q v).loaded at_ = s.loaded at_ := rfl
@[simp] theorem State.setPair_ownCycle (s : State) (q : Reg) (v : Long) (kind : CycleKind) (at_ : Word) :
    (s.setPair q v).ownCycle kind at_ = s.ownCycle kind at_ := rfl
@[simp] theorem State.setPair_writesBlocked (s : State) (q : Reg) (v : Long) : (s.setPair q v).writesBlocked = s.writesBlocked := rfl
@[simp] theorem State.setPair_lands (s : State) (q : Reg) (v : Long) (c : Cycle) : (s.setPair q v).lands c = s.lands c := rfl
@[simp] theorem State.setPair_readable (s : State) (q : Reg) (v : Long) (at_ : Word) : (s.setPair q v).readable at_ = s.readable at_ := rfl
@[simp] theorem State.setPair_writable (s : State) (q : Reg) (v : Long) (at_ : Word) : (s.setPair q v).writable at_ = s.writable at_ := rfl
@[simp] theorem State.setPair_place (s : State) (q : Reg) (v : Long) (at_ : Word) : (s.setPair q v).place at_ = s.place at_ := rfl
@[simp] theorem State.setPair_loaded (s : State) (q : Reg) (v : Long) (at_ : Word) : (s.setPair q v).loaded at_ = s.loaded at_ := rfl
@[simp] theorem State.setTriple_ownCycle (s : State) (q : Reg) (v : Triple) (kind : CycleKind) (at_ : Word) :
    (s.setTriple q v).ownCycle kind at_ = s.ownCycle kind at_ := rfl
@[simp] theorem State.setTriple_writesBlocked (s : State) (q : Reg) (v : Triple) : (s.setTriple q v).writesBlocked = s.writesBlocked := rfl
@[simp] theorem State.setTriple_lands (s : State) (q : Reg) (v : Triple) (c : Cycle) : (s.setTriple q v).lands c = s.lands c := rfl
@[simp] theorem State.setTriple_readable (s : State) (q : Reg) (v : Triple) (at_ : Word) : (s.setTriple q v).readable at_ = s.readable at_ := rfl
@[simp] theorem State.setTriple_writable (s : State) (q : Reg) (v : Triple) (at_ : Word) : (s.setTriple q v).writable at_ = s.writable at_ := rfl
@[simp] theorem State.setTriple_place (s : State) (q : Reg) (v : Triple) (at_ : Word) : (s.setTriple q v).place at_ = s.place at_ := rfl
@[simp] theorem State.setTriple_loaded (s : State) (q : Reg) (v : Triple) (at_ : Word) : (s.setTriple q v).loaded at_ = s.loaded at_ := rfl
@[simp] theorem State.setIc_ownCycle (s : State) (v : Word) (kind : CycleKind) (at_ : Word) :
    (s.setIc v).ownCycle kind at_ = s.ownCycle kind at_ := rfl
@[simp] theorem State.setIc_writesBlocked (s : State) (v : Word) : (s.setIc v).writesBlocked = s.writesBlocked := rfl
@[simp] theorem State.setIc_lands (s : State) (v : Word) (c : Cycle) : (s.setIc v).lands c = s.lands c := rfl
@[simp] theorem State.setIc_readable (s : State) (v : Word) (at_ : Word) : (s.setIc v).readable at_ = s.readable at_ := rfl
@[simp] theorem State.setIc_writable (s : State) (v : Word) (at_ : Word) : (s.setIc v).writable at_ = s.writable at_ := rfl
@[simp] theorem State.setIc_place (s : State) (v : Word) (at_ : Word) : (s.setIc v).place at_ = s.place at_ := rfl
@[simp] theorem State.setIc_loaded (s : State) (v : Word) (at_ : Word) : (s.setIc v).loaded at_ = s.loaded at_ := rfl
@[simp] theorem State.setMask_ownCycle (s : State) (w : Word) (kind : CycleKind) (at_ : Word) :
    (s.setMask w).ownCycle kind at_ = s.ownCycle kind at_ := rfl
@[simp] theorem State.setMask_writesBlocked (s : State) (w : Word) : (s.setMask w).writesBlocked = s.writesBlocked := rfl
@[simp] theorem State.setMask_lands (s : State) (w : Word) (c : Cycle) : (s.setMask w).lands c = s.lands c := rfl
@[simp] theorem State.setMask_readable (s : State) (w : Word) (at_ : Word) : (s.setMask w).readable at_ = s.readable at_ := rfl
@[simp] theorem State.setMask_writable (s : State) (w : Word) (at_ : Word) : (s.setMask w).writable at_ = s.writable at_ := rfl
@[simp] theorem State.setMask_place (s : State) (w : Word) (at_ : Word) : (s.setMask w).place at_ = s.place at_ := rfl
@[simp] theorem State.setMask_loaded (s : State) (w : Word) (at_ : Word) : (s.setMask w).loaded at_ = s.loaded at_ := rfl
@[simp] theorem State.setPir_ownCycle (s : State) (w : Word) (kind : CycleKind) (at_ : Word) :
    (s.setPir w).ownCycle kind at_ = s.ownCycle kind at_ := rfl
@[simp] theorem State.setPir_writesBlocked (s : State) (w : Word) : (s.setPir w).writesBlocked = s.writesBlocked := rfl
@[simp] theorem State.setPir_lands (s : State) (w : Word) (c : Cycle) : (s.setPir w).lands c = s.lands c := rfl
@[simp] theorem State.setPir_readable (s : State) (w : Word) (at_ : Word) : (s.setPir w).readable at_ = s.readable at_ := rfl
@[simp] theorem State.setPir_writable (s : State) (w : Word) (at_ : Word) : (s.setPir w).writable at_ = s.writable at_ := rfl
@[simp] theorem State.setPir_place (s : State) (w : Word) (at_ : Word) : (s.setPir w).place at_ = s.place at_ := rfl
@[simp] theorem State.setPir_loaded (s : State) (w : Word) (at_ : Word) : (s.setPir w).loaded at_ = s.loaded at_ := rfl
@[simp] theorem State.pend_ownCycle (s : State) (n : Nat) (kind : CycleKind) (at_ : Word) :
    (s.pend n).ownCycle kind at_ = s.ownCycle kind at_ := rfl
@[simp] theorem State.pend_writesBlocked (s : State) (n : Nat) : (s.pend n).writesBlocked = s.writesBlocked := rfl
@[simp] theorem State.pend_lands (s : State) (n : Nat) (c : Cycle) : (s.pend n).lands c = s.lands c := rfl
@[simp] theorem State.pend_readable (s : State) (n : Nat) (at_ : Word) : (s.pend n).readable at_ = s.readable at_ := rfl
@[simp] theorem State.pend_writable (s : State) (n : Nat) (at_ : Word) : (s.pend n).writable at_ = s.writable at_ := rfl
@[simp] theorem State.pend_place (s : State) (n : Nat) (at_ : Word) : (s.pend n).place at_ = s.place at_ := rfl
@[simp] theorem State.pend_loaded (s : State) (n : Nat) (at_ : Word) : (s.pend n).loaded at_ = s.loaded at_ := rfl
@[simp] theorem State.setMem_ownCycle (s : State) (m : Memory) (kind : CycleKind) (at_ : Word) :
    (s.setMem m).ownCycle kind at_ = s.ownCycle kind at_ := rfl
@[simp] theorem State.setMem_writesBlocked (s : State) (m : Memory) : (s.setMem m).writesBlocked = s.writesBlocked := rfl
@[simp] theorem State.setMem_lands (s : State) (m : Memory) (c : Cycle) : (s.setMem m).lands c = s.lands c := rfl
@[simp] theorem State.setMem_readable (s : State) (m : Memory) (at_ : Word) : (s.setMem m).readable at_ = s.readable at_ := rfl
@[simp] theorem State.setMem_writable (s : State) (m : Memory) (at_ : Word) : (s.setMem m).writable at_ = s.writable at_ := rfl
@[simp] theorem State.setMem_place (s : State) (m : Memory) (at_ : Word) : (s.setMem m).place at_ = s.place at_ := rfl
@[simp] theorem State.emit_ownCycle (s : State) (e : BusEvent) (kind : CycleKind) (at_ : Word) :
    (s.emit e).ownCycle kind at_ = s.ownCycle kind at_ := rfl
@[simp] theorem State.emit_writesBlocked (s : State) (e : BusEvent) : (s.emit e).writesBlocked = s.writesBlocked := rfl
@[simp] theorem State.emit_lands (s : State) (e : BusEvent) (c : Cycle) : (s.emit e).lands c = s.lands c := rfl
@[simp] theorem State.emit_readable (s : State) (e : BusEvent) (at_ : Word) : (s.emit e).readable at_ = s.readable at_ := rfl
@[simp] theorem State.emit_writable (s : State) (e : BusEvent) (at_ : Word) : (s.emit e).writable at_ = s.writable at_ := rfl
@[simp] theorem State.emit_place (s : State) (e : BusEvent) (at_ : Word) : (s.emit e).place at_ = s.place at_ := rfl
@[simp] theorem State.emit_loaded (s : State) (e : BusEvent) (at_ : Word) : (s.emit e).loaded at_ = s.loaded at_ := rfl
@[simp] theorem State.useFree_ownCycle (s : State) (k : Nat) (kind : CycleKind) (at_ : Word) :
    (s.useFree k).ownCycle kind at_ = s.ownCycle kind at_ := rfl
@[simp] theorem State.useFree_writesBlocked (s : State) (k : Nat) : (s.useFree k).writesBlocked = s.writesBlocked := rfl
@[simp] theorem State.useFree_lands (s : State) (k : Nat) (c : Cycle) : (s.useFree k).lands c = s.lands c := rfl
@[simp] theorem State.useFree_readable (s : State) (k : Nat) (at_ : Word) : (s.useFree k).readable at_ = s.readable at_ := rfl
@[simp] theorem State.useFree_writable (s : State) (k : Nat) (at_ : Word) : (s.useFree k).writable at_ = s.writable at_ := rfl
@[simp] theorem State.useFree_place (s : State) (k : Nat) (at_ : Word) : (s.useFree k).place at_ = s.place at_ := rfl
@[simp] theorem State.useFree_loaded (s : State) (k : Nat) (at_ : Word) : (s.useFree k).loaded at_ = s.loaded at_ := rfl
@[simp] theorem State.raise_ownCycle (s : State) (b : Word) (v : Severity) (kind : CycleKind) (at_ : Word) :
    (s.raise b v).ownCycle kind at_ = s.ownCycle kind at_ := rfl
@[simp] theorem State.raise_writesBlocked (s : State) (b : Word) (v : Severity) : (s.raise b v).writesBlocked = s.writesBlocked := rfl
@[simp] theorem State.raise_lands (s : State) (b : Word) (v : Severity) (c : Cycle) : (s.raise b v).lands c = s.lands c := rfl
@[simp] theorem State.raise_readable (s : State) (b : Word) (v : Severity) (at_ : Word) : (s.raise b v).readable at_ = s.readable at_ := rfl
@[simp] theorem State.raise_writable (s : State) (b : Word) (v : Severity) (at_ : Word) : (s.raise b v).writable at_ = s.writable at_ := rfl
@[simp] theorem State.raise_place (s : State) (b : Word) (v : Severity) (at_ : Word) : (s.raise b v).place at_ = s.place at_ := rfl
@[simp] theorem State.raise_loaded (s : State) (b : Word) (v : Severity) (at_ : Word) : (s.raise b v).loaded at_ = s.loaded at_ := rfl
@[simp] theorem State.past_ownCycle (s : State) (len : Word) (kind : CycleKind) (at_ : Word) :
    (s.past len).ownCycle kind at_ = s.ownCycle kind at_ := rfl
@[simp] theorem State.past_writesBlocked (s : State) (len : Word) : (s.past len).writesBlocked = s.writesBlocked := rfl
@[simp] theorem State.past_lands (s : State) (len : Word) (c : Cycle) : (s.past len).lands c = s.lands c := rfl
@[simp] theorem State.past_readable (s : State) (len : Word) (at_ : Word) : (s.past len).readable at_ = s.readable at_ := rfl
@[simp] theorem State.past_writable (s : State) (len : Word) (at_ : Word) : (s.past len).writable at_ = s.writable at_ := rfl
@[simp] theorem State.past_place (s : State) (len : Word) (at_ : Word) : (s.past len).place at_ = s.place at_ := rfl
@[simp] theorem State.past_loaded (s : State) (len : Word) (at_ : Word) : (s.past len).loaded at_ = s.loaded at_ := rfl

end Sys2Proof.Machine
end

