-- ==== Sys2Proof/Laws/Ops.lean ====
section
/-! SUPPORT. What each shared operation of `Sys2Proof/Machine/Ops.lean` and `Sys2Proof/Machine/Operands.lean` can do, said
once. -/

namespace Sys2Proof.Machine

/-! ## An instruction on its way -/

@[simp] theorem State.start_s (s : State) : s.start.s = s := rfl
@[simp] theorem State.start_aborted (s : State) : s.start.aborted = false := rfl
@[simp] theorem State.start_halted (s : State) : s.start.halted = false := rfl
@[simp] theorem State.given_val {α : Type} (s : State) (v : α) : (s.given v).val = v := rfl
@[simp] theorem State.given_run {α : Type} (s : State) (v : α) : (s.given v).run = s.start := rfl

/-- A run that is neither aborted nor halted is the start of its state. -/
theorem Run.eq_start {r : Run} (h : r.aborted = false) (hh : r.halted = false) : r = r.s.start := by
  cases r; simp only [State.start] at *; rw [h, hh]

/-- A change of state where nothing is aborted. -/
@[simp] theorem State.start_update (s : State) (f : State → State) : s.start.update f = (f s).start := rfl

/-- An aborted instruction changes no register. -/
theorem Run.update_aborted {r : Run} (h : r.aborted = true) (f : State → State) : r.update f = r := by
  simp [Run.update, h]

@[simp] theorem State.start_setReg (s : State) (q : Reg) (v : Word) : s.start.setReg q v = (s.setReg q v).start := rfl
@[simp] theorem State.start_setPair (s : State) (q : Reg) (v : Long) : s.start.setPair q v = (s.setPair q v).start :=
  rfl
@[simp] theorem State.start_setTriple (s : State) (q : Reg) (v : Triple) :
    s.start.setTriple q v = (s.setTriple q v).start := rfl
@[simp] theorem State.start_setCs (s : State) (c : BitVec 4) : s.start.setCs c = (s.setCs c).start := rfl
@[simp] theorem State.start_next (s : State) (len : Word) : s.start.next len = .next (s.past len) := rfl
@[simp] theorem State.start_jump (s : State) (len target : Word) : s.start.jump len target = .next (s.setIc target) :=
  rfl

/-- A pending bit, or none. -/
theorem State.start_pendIf (s : State) (c : Bool) (n : Nat) : s.start.pendIf c n = (s.setPir (s.pir ||| pendingIf c n)).start := by
  cases c
  · simp [Run.pendIf, pendingIf, State.setPir]
  · rfl

/-- The end of an instruction that leaves a result in one register. -/
theorem State.settle_reg (s : State) (q : Reg) (v : Word) (c : Bool) (n : Nat) (cs : BitVec 4) (len : Word) :
    (((s.start.setReg q v).pendIf c n).setCs cs).next len = .next ((s.setReg q v).ends cs (pendingIf c n) len) := by
  rw [State.start_setReg, State.start_pendIf]; rfl

/-- The end of an instruction that leaves a result in two registers. -/
theorem State.settle_pair (s : State) (q : Reg) (v : Long) (c : Bool) (n : Nat) (cs : BitVec 4) (len : Word) :
    (((s.start.setPair q v).pendIf c n).setCs cs).next len = .next ((s.setPair q v).ends cs (pendingIf c n) len) := by
  rw [State.start_setPair, State.start_pendIf]; rfl

/-- The end of an instruction that sets CS and no more. -/
theorem State.settle_cs (s : State) (cs : BitVec 4) (len : Word) :
    (s.start.setCs cs).next len = .next (s.ends cs 0 len) := by
  simp [State.ends, State.past, State.setCs, withCs]

/-! ## Other bus masters, and RESET between cycles -/

/-- Nothing happens outside between the coming cycles. -/
theorem State.turns_alone {s : State} (h : s.alone = true) : s.turns = [] := by
  simpa [State.alone] using h

/-- The others pass their turn. -/
theorem State.turn_alone {s : State} (h : s.alone = true) : s.turn = s := by
  simp [State.turn, State.turns_alone h]

/-- No RESET comes. -/
theorem State.resetComes_alone {s : State} (h : s.alone = true) : s.resetComes = false := by
  simp [State.resetComes, State.turns_alone h]

/-- An instruction goes on where the others pass their turn. -/
theorem Run.turn_alone {r : Run} (h : r.s.alone = true) : r.turn = r := by
  cases r with
  | mk s aborted halted =>
    cases halted
    · simp only at h
      simp [Run.turn, State.turn_alone h, State.resetComes_alone h]
    · rfl

/-- An instruction starts where the others pass their turn. -/
theorem State.start_turn_alone {s : State} (h : s.alone = true) : s.start.turn = s.start := Run.turn_alone h

/-- External faults change FT, PIR and what is shown outside, no more. -/
theorem State.externalFaults_frame (s : State) (bits : Word) :
    ∃ ft pir trace, s.externalFaults bits = { s with ft := ft, pir := pir, trace := trace } := by
  unfold State.externalFaults
  split
  · exact ⟨s.ft, s.pir, s.trace, rfl⟩
  · exact ⟨_, _, _, rfl⟩

/-- Another master changes memory, FT, PIR and what is shown outside, no more. -/
theorem State.masterWrite_frame (s : State) (w : MasterWrite) :
    ∃ mem ft pir trace, s.masterWrite w = { s with mem := mem, ft := ft, pir := pir, trace := trace } := by
  unfold State.masterWrite
  split
  · exact ⟨s.mem, s.ft, s.pir, s.trace, rfl⟩
  · obtain ⟨ft, pir, trace, e⟩ := s.externalFaults_frame (s.masterCycle w).masterBits
    dsimp only
    rw [e]
    split
    · exact ⟨_, ft, pir, trace, rfl⟩
    · exact ⟨s.mem, ft, pir, trace, rfl⟩

/-- So do several. -/
theorem State.masters_frame (s : State) (ws : List MasterWrite) :
    ∃ mem ft pir trace, s.masters ws = { s with mem := mem, ft := ft, pir := pir, trace := trace } := by
  induction ws generalizing s with
  | nil => exact ⟨s.mem, s.ft, s.pir, s.trace, rfl⟩
  | cons w ws ih =>
    obtain ⟨mem, ft, pir, trace, e⟩ := s.masterWrite_frame w
    obtain ⟨mem', ft', pir', trace', e'⟩ := ih (s.masterWrite w)
    have step : s.masters (w :: ws) = (s.masterWrite w).masters ws := rfl
    rw [step, e', e]
    exact ⟨mem', ft', pir', trace', rfl⟩

/-- A turn of the others changes memory, FT, PIR, what is shown outside and the list of coming turns, and may bring
RESET. -/
theorem State.turn_frame (s : State) :
    ∃ mem ft pir trace, s.turn = { s with
      mem := mem, ft := ft, pir := pir, trace := trace, turns := s.turns.tail,
      resetting := s.resetting || s.resetComes } := by
  cases h : s.turns with
  | nil =>
    have e : s.turn = s := State.turn_alone (by simp [State.alone, h])
    have e' : s.resetComes = false := State.resetComes_alone (by simp [State.alone, h])
    refine ⟨s.mem, s.ft, s.pir, s.trace, ?_⟩
    rw [e, e', Bool.or_false, List.tail_nil]
    conv_rhs => rw [← h]
  | cons t rest =>
    obtain ⟨ft, pir, trace, e⟩ := State.externalFaults_frame { s with turns := rest } (outsideFaults t.faults)
    obtain ⟨mem', ft', pir', trace', e'⟩ :=
      State.masters_frame ({ s with turns := rest }.externalFaults (outsideFaults t.faults)) t.writes
    refine ⟨mem', ft', pir', trace', ?_⟩
    simp only [State.turn, State.resetComes, h]
    rw [e', e]
    rfl

/-! ## Operand cycles -/

/-- A read that draws no fault brings its word. -/
theorem State.read_clean (s : State) {addr : Word} (h : s.readable addr = true) :
    s.start.read addr = s.given (s.loaded addr) := by
  simp only [State.readable] at h
  simp [Run.read, State.loaded, State.given, h]

/-- A read that draws a fault raises it, aborts, and brings an open value. -/
theorem State.read_faulty (s : State) {addr : Word} (h : s.readable addr = false) :
    s.start.read addr =
      { val := Config.freeWord s.free
        run :=
          { s := (s.raise (s.ownCycle .read addr).bits .major).useFree 1
            aborted := true
            halted := false } } := by
  simp only [State.readable] at h
  simp [Run.read, Run.freeWord, State.start, h]

/-- A write that draws no fault and is not blocked stores its word. -/
theorem State.write_clean (s : State) {addr : Word} (v : Word) (h : s.writable addr = true) :
    s.start.write addr v = (s.setMem (s.mem.writeWord (s.place addr) v)).start := by
  simp only [State.writable, Bool.and_eq_true, Bool.not_eq_true'] at h
  have hc := h.1
  simp only [Cycle.clean, Bool.and_eq_true, Bool.not_eq_true'] at hc
  simp [Run.write, State.lands, h.1, h.2, hc.1.1, hc.1.2, hc.2, State.place]
  rfl

/-- A write that draws no fault but finds memory globally protected does nothing (48_mmu_bpu.md R606). -/
theorem State.write_blocked (s : State) {addr : Word} (v : Word) (h : (s.ownCycle .write addr).clean = true)
    (hb : s.writesBlocked = true) : s.start.write addr v = s.start := by
  have hc := h
  simp only [Cycle.clean, Bool.and_eq_true, Bool.not_eq_true'] at hc
  simp [Run.write, State.lands, h, hb, hc.1.1, hc.1.2]
  rfl

/-- A write that draws MEM PRT ER stores nothing and aborts (60_exceptions.md R664). -/
theorem State.write_protected (s : State) {addr : Word} (v : Word) (h : (s.ownCycle .write addr).protect = true) :
    s.start.write addr v = { s := s.raise (s.ownCycle .write addr).bits .major, aborted := true, halted := false } := by
  simp [Run.write, State.lands, Cycle.clean, h, State.start]

/-- Two reads without a fault and with nothing between them. -/
theorem State.read2_clean (s : State) {addr : Word} (h0 : s.readable addr = true) (h1 : s.readable (addr + 1) = true)
    (ha : s.alone = true) : s.start.read2 addr = s.given (s.loaded2 addr) := by
  simp only [Run.read2, State.read_clean s h0, State.given_run, State.given_val, State.start_turn_alone ha,
    State.read_clean s h1, State.loaded2]
  rfl

/-- Three reads without a fault and with nothing between them. -/
theorem State.read3_clean (s : State) {addr : Word} (h0 : s.readable addr = true) (h1 : s.readable (addr + 1) = true)
    (h2 : s.readable (addr + 2) = true) (ha : s.alone = true) : s.start.read3 addr = s.given (s.loaded3 addr) := by
  simp only [Run.read3, State.read_clean s h0, State.given_run, State.given_val, State.start_turn_alone ha,
    State.read_clean s h1, State.read_clean s h2, State.loaded3]
  rfl

/-- A span of one word. -/
theorem State.readableSpan_one {s : State} {addr : Word} (h : s.readableSpan addr 1 = true) : s.readable addr = true := by
  simpa [State.readableSpan, List.range_succ] using h

/-- A span of two words. -/
theorem State.readableSpan_two {s : State} {addr : Word} (h : s.readableSpan addr 2 = true) :
    s.readable addr = true ∧ s.readable (addr + 1) = true ∧ s.alone = true := by
  simpa [State.readableSpan, List.range_succ, and_assoc] using h

/-- A span of three words. -/
theorem State.readableSpan_three {s : State} {addr : Word} (h : s.readableSpan addr 3 = true) :
    s.readable addr = true ∧ s.readable (addr + 1) = true ∧ s.readable (addr + 2) = true ∧ s.alone = true := by
  simpa [State.readableSpan, List.range_succ, and_assoc] using h

/-- A span of two words to write. -/
theorem State.writableSpan_two {s : State} {addr : Word} (h : s.writableSpan addr 2 = true) :
    s.writable addr = true ∧ s.writable (addr + 1) = true ∧ s.alone = true := by
  simpa [State.writableSpan, List.range_succ, and_assoc] using h

/-- A span of three words to write. -/
theorem State.writableSpan_three {s : State} {addr : Word} (h : s.writableSpan addr 3 = true) :
    s.writable addr = true ∧ s.writable (addr + 1) = true ∧ s.writable (addr + 2) = true ∧ s.alone = true := by
  simpa [State.writableSpan, List.range_succ, and_assoc] using h

/-! ## Operands -/

/-- The derived address of I, IX without a fault. -/
theorem State.indirectAddress_located {s : State} {rx : Reg} {a : Word} (h : Source.located s (.indirect rx a) = true) :
    s.indirectAddress rx a = s.given (Source.address s (.indirect rx a)) := by
  simp only [Source.located, Bool.and_eq_true] at h
  simp only [State.indirectAddress, State.pointer, State.read_clean s h.1, State.given_run, State.start_turn_alone h.2]
  rfl

/-- D, DX: one word without a fault. -/
theorem State.direct1_ready {s : State} {rx : Reg} {a : Word} (h : Source.ready s 1 (.direct rx a) = true) :
    s.direct1 rx a = s.given (Source.word s (.direct rx a)) :=
  State.read_clean s (State.readableSpan_one h)

/-- I, IX: one word without a fault. -/
theorem State.indirect1_ready {s : State} {rx : Reg} {a : Word} (h : Source.ready s 1 (.indirect rx a) = true) :
    s.indirect1 rx a = s.given (Source.word s (.indirect rx a)) := by
  simp only [Source.ready, Bool.and_eq_true] at h
  simp only [State.indirect1, State.indirectAddress_located (a := a) (rx := rx) (s := s) (by simp [Source.located, h]),
    State.given_run, State.given_val]
  exact State.read_clean s (State.readableSpan_one h.1.2)

/-- B: one word without a fault. -/
theorem State.base1_ready {s : State} {br : Reg} {du : Byte} (h : Source.ready s 1 (.base br du) = true) :
    s.base1 br du = s.given (Source.word s (.base br du)) :=
  State.read_clean s (State.readableSpan_one h)

/-- BX: one word without a fault. -/
theorem State.baseIndexed1_ready {s : State} {br rx : Reg} (h : Source.ready s 1 (.baseIndexed br rx) = true) :
    s.baseIndexed1 br rx = s.given (Source.word s (.baseIndexed br rx)) :=
  State.read_clean s (State.readableSpan_one h)

/-- D, DX: two words without a fault. -/
theorem State.direct2_ready {s : State} {rx : Reg} {a : Word} (h : Source.ready s 2 (.direct rx a) = true) :
    s.direct2 rx a = s.given (Source.long s (.direct rx a)) :=
  State.read2_clean s (State.readableSpan_two h).1 (State.readableSpan_two h).2.1 (State.readableSpan_two h).2.2

/-- I, IX: two words without a fault. -/
theorem State.indirect2_ready {s : State} {rx : Reg} {a : Word} (h : Source.ready s 2 (.indirect rx a) = true) :
    s.indirect2 rx a = s.given (Source.long s (.indirect rx a)) := by
  simp only [Source.ready, Bool.and_eq_true] at h
  simp only [State.indirect2, State.indirectAddress_located (a := a) (rx := rx) (s := s) (by simp [Source.located, h]),
    State.given_run, State.given_val]
  exact State.read2_clean s (State.readableSpan_two h.1.2).1 (State.readableSpan_two h.1.2).2.1 h.2

/-- B: two words without a fault. -/
theorem State.base2_ready {s : State} {br : Reg} {du : Byte} (h : Source.ready s 2 (.base br du) = true) :
    s.base2 br du = s.given (Source.long s (.base br du)) :=
  State.read2_clean s (State.readableSpan_two h).1 (State.readableSpan_two h).2.1 (State.readableSpan_two h).2.2

/-- BX: two words without a fault. -/
theorem State.baseIndexed2_ready {s : State} {br rx : Reg} (h : Source.ready s 2 (.baseIndexed br rx) = true) :
    s.baseIndexed2 br rx = s.given (Source.long s (.baseIndexed br rx)) :=
  State.read2_clean s (State.readableSpan_two h).1 (State.readableSpan_two h).2.1 (State.readableSpan_two h).2.2

/-- D, DX: three words without a fault. -/
theorem State.direct3_ready {s : State} {rx : Reg} {a : Word} (h : Source.ready s 3 (.direct rx a) = true) :
    s.direct3 rx a = s.given (Source.triple s (.direct rx a)) :=
  State.read3_clean s (State.readableSpan_three h).1 (State.readableSpan_three h).2.1
    (State.readableSpan_three h).2.2.1 (State.readableSpan_three h).2.2.2

/-! ## I/O cycles -/

/-- An I/O write that draws no fault is one event outside. -/
theorem State.ioWrite_legal (s : State) {addr : Word} (data : Word) (hi : ioFlawAt s.platform .illegal addr = false)
    (hp : ioFlawAt s.platform .parity addr = false) : s.ioWrite addr data = s.emit (.ioWrite addr data) := by
  simp [State.ioWrite, State.ioParity, hi, hp]

/-- The companion chips look at the pages 40, 50, 51 and 52 only. -/
theorem State.chipWrite_elsewhere (s : State) {addr : Word} (data : Word)
    (h : (addr.extractLsb' 8 8).toNat ≠ 0x40 ∧ (addr.extractLsb' 8 8).toNat ≠ 0x50 ∧
      (addr.extractLsb' 8 8).toNat ≠ 0x51 ∧ (addr.extractLsb' 8 8).toNat ≠ 0x52) :
    s.chipWrite addr data = s := by
  unfold State.chipWrite
  split <;> simp_all

/-! ## Taking an exception -/

/-- How an interrupt sequence ends: a cycle failed, RESET came, the new SW was refused, or the handler is entered
(60_exceptions.md R680, R682). -/
theorem State.interrupt_cases (s : State) (n : Fin 16) (entry : Word) :
    (∃ f, s.interrupt n entry = .failed f) ∨
    (∃ g, s.start.newStatus n entry = some g ∧ g.run.halted = true ∧ s.interrupt n entry = .reset g.run.s) ∨
    (∃ g, s.start.newStatus n entry = some g ∧ s.refusesStatus g.val.sw = true ∧
      s.interrupt n entry = .abandoned g.run.s.addressStateFault) ∨
    (∃ g saved, s.start.newStatus n entry = some g ∧ s.refusesStatus g.val.sw = false ∧
      (g.run.update fun u =>
        { u with inten := false, enbl := .idle, mask := g.val.mask, sw := maskSw g.val.sw, ic := g.val.ic }).saveStatus
          (asField g.val.sw) g.val.lp s.mask s.sw s.ic = some saved ∧
      ((saved.halted = true ∧ s.interrupt n entry = .reset saved.s) ∨
        s.interrupt n entry =
          .entered ((saved.s.setPir (saved.s.pir &&& ~~~ oneBit n.val)).ioWrite 0x1000 (~~~ oneBit n.val)))) := by
  unfold State.interrupt
  split
  · exact .inl ⟨_, rfl⟩
  · rename_i g hg
    split
    · rename_i hh
      exact .inr (.inl ⟨g, hg, hh, rfl⟩)
    · split
      · rename_i hr
        exact .inr (.inr (.inl ⟨g, hg, hr, rfl⟩))
      · rename_i hr
        dsimp only
        split
        · exact .inl ⟨_, rfl⟩
        · rename_i saved hs
          refine .inr (.inr (.inr ⟨g, saved, hg, by simpa using hr, hs, ?_⟩))
          split
          · rename_i hh
            exact .inl ⟨hh, rfl⟩
          · exact .inr rfl

/-- A read of the interrupt sequence leaves the state after a turn of the others, or what a RESET has left. -/
theorem Run.sequenceRead_run {r : Run} {g : Got Word} {addr : Word} (h : r.sequenceRead addr = some g) :
    g.run = r.turn ∨ (r.halted = true ∧ g.run = r.freeWord.run) := by
  unfold Run.sequenceRead at h
  split at h
  · rename_i hh
    cases h
    exact .inr ⟨hh, rfl⟩
  · dsimp only at h
    split at h
    · cases h
      exact .inl rfl
    · exact absurd h (by simp)

/-- A store of the interrupt sequence changes memory, and then the others have their turn. -/
theorem Run.sequenceWrite_run {r t : Run} {as : BitVec 4} {addr v : Word} (h : r.sequenceWrite as addr v = some t) :
    (r.halted = true ∧ t = r) ∨ ∃ m, t = { r with s := r.s.setMem m }.turn := by
  unfold Run.sequenceWrite at h
  split at h
  · rename_i hh
    cases h
    exact .inl ⟨hh, rfl⟩
  · dsimp only at h
    split at h
    · cases h
      refine .inr ?_
      split
      · exact ⟨_, rfl⟩
      · exact ⟨r.s.mem, rfl⟩
    · exact absurd h (by simp)

/-- What the load of a saved status does where nothing is aborted (60_exceptions.md R668, R684). -/
theorem State.loadStatus_start (s : State) (mask sw ic : Word) :
    s.start.loadStatus mask sw ic =
      if s.refusesStatus sw then .next (s.addressStateFault.past 2)
      else .next (((s.setMask mask).setSw sw).setIc ic) := rfl

end Sys2Proof.Machine
end

