-- ==== Sys2Proof/Laws/Integer.lean ====
section
/-! SUPPORT. What each shared operation of `Sys2Proof/Machine/Integer.lean` does with an operand had without a fault. -/

namespace Sys2Proof.Machine

/-- The 16-bit add. -/
theorem add16_given (s : State) (ra : Reg) (v len : Word) :
    add16 ra (s.given v) len =
      .next ((s.setReg ra (s.reg ra + v)).ends
        (carryCs (decide (2 ^ 16 ≤ (s.reg ra).toNat + v.toNat)) (s.reg ra + v).toInt)
        (pendingIf (!fits 16 ((s.reg ra).toInt + v.toInt)) 4) len) := by
  unfold add16
  simp only [State.given_run, State.given_val, State.start_s]
  rw [State.settle_reg, cpzn_eq, addC_v]
  rfl

/-- The 32-bit add. -/
theorem add32_given (s : State) (ra : Reg) (v : Long) (len : Word) :
    add32 ra (s.given v) len =
      .next ((s.setPair ra (s.pair ra + v)).ends
        (carryCs (decide (2 ^ 32 ≤ (s.pair ra).toNat + v.toNat)) (s.pair ra + v).toInt)
        (pendingIf (!fits 32 ((s.pair ra).toInt + v.toInt)) 4) len) := by
  unfold add32
  simp only [State.given_run, State.given_val, State.start_s]
  rw [State.settle_pair, cpzn_eq, addC_v]
  rfl

/-- The 16-bit subtract: carry is 1 when there is no borrow. -/
theorem sub16_given (s : State) (ra : Reg) (v len : Word) :
    sub16 ra (s.given v) len =
      .next ((s.setReg ra (s.reg ra - v)).ends
        (carryCs (decide (v.toNat ≤ (s.reg ra).toNat)) (s.reg ra - v).toInt)
        (pendingIf (!fits 16 ((s.reg ra).toInt - v.toInt)) 4) len) := by
  unfold sub16
  simp only [State.given_run, State.given_val, State.start_s]
  rw [State.settle_reg, cpzn_eq, subC_v, subC_c]
  rfl

/-- The 32-bit subtract. -/
theorem sub32_given (s : State) (ra : Reg) (v : Long) (len : Word) :
    sub32 ra (s.given v) len =
      .next ((s.setPair ra (s.pair ra - v)).ends
        (carryCs (decide (v.toNat ≤ (s.pair ra).toNat)) (s.pair ra - v).toInt)
        (pendingIf (!fits 32 ((s.pair ra).toInt - v.toInt)) 4) len) := by
  unfold sub32
  simp only [State.given_run, State.given_val, State.start_s]
  rw [State.settle_pair, cpzn_eq, subC_v, subC_c]
  rfl

/-- The multiply that keeps the low 16 bits. -/
theorem mulShort_given (s : State) (ra : Reg) (v len : Word) :
    mulShort ra (s.given v) len =
      .next ((s.setReg ra (lowWord (product16 (s.reg ra) v))).ends
        (signCs (lowWord (product16 (s.reg ra) v)).toInt)
        (pendingIf (!fits 16 ((s.reg ra).toInt * v.toInt)) 4) len) := by
  unfold mulShort
  simp only [State.given_run, State.given_val, State.start_s]
  rw [State.settle_reg, pzn_eq, productOverflow_16]

/-- The multiply with the whole 32-bit product. -/
theorem mul16_given (s : State) (ra : Reg) (v len : Word) :
    mul16 ra (s.given v) len =
      .next ((s.setPair ra (product16 (s.reg ra) v)).ends (signCs (product16 (s.reg ra) v).toInt) 0 len) := by
  unfold mul16
  simp only [State.given_run, State.given_val, State.start_s, State.start_setPair]
  rw [State.settle_cs, pzn_eq]

/-- The multiply that keeps the low 32 bits. -/
theorem mul32_given (s : State) (ra : Reg) (v : Long) (len : Word) :
    mul32 ra (s.given v) len =
      .next ((s.setPair ra ((product32 (s.pair ra) v).extractLsb' 0 32)).ends
        (signCs ((product32 (s.pair ra) v).extractLsb' 0 32).toInt)
        (pendingIf (!fits 32 ((s.pair ra).toInt * v.toInt)) 4) len) := by
  unfold mul32
  simp only [State.given_run, State.given_val, State.start_s]
  rw [State.settle_pair, pzn_eq, productOverflow_32]

/-- The divide into a 16-bit quotient and a remainder. -/
theorem divInto_given (s : State) (ra : Reg) (n : Int) (v len : Word) :
    divInto ra n (s.given v) len =
      .next ((s.setPair ra (BitVec.ofInt 16 (divide 16 n v.toInt).q ++ BitVec.ofInt 16 (divide 16 n v.toInt).rem)).ends
        (signCs (BitVec.ofInt 16 (divide 16 n v.toInt).q).toInt) (pendingIf (divide 16 n v.toInt).overflow 4) len) := by
  unfold divInto
  simp only [State.given_run, State.given_val]
  rw [State.settle_pair, pzn_eq]

/-- The divide into a 32-bit quotient. -/
theorem div32_given (s : State) (ra : Reg) (v : Long) (len : Word) :
    div32 ra (s.given v) len =
      .next ((s.setPair ra (BitVec.ofInt 32 (divide 32 (s.pair ra).toInt v.toInt).q)).ends
        (signCs (BitVec.ofInt 32 (divide 32 (s.pair ra).toInt v.toInt).q).toInt)
        (pendingIf (divide 32 (s.pair ra).toInt v.toInt).overflow 4) len) := by
  unfold div32
  simp only [State.given_run, State.given_val, State.start_s]
  rw [State.settle_pair, pzn_eq]

/-- A word put into a register. -/
theorem put16_start (s : State) (ra : Reg) (v : Word) (o : Bool) (len : Word) :
    put16 ra v o s.start len = .next ((s.setReg ra v).ends (signCs v.toInt) (pendingIf o 4) len) := by
  unfold put16
  rw [State.settle_reg, pzn_eq]

/-- A double word put into two registers. -/
theorem put32_start (s : State) (ra : Reg) (v : Long) (o : Bool) (len : Word) :
    put32 ra v o s.start len = .next ((s.setPair ra v).ends (signCs v.toInt) (pendingIf o 4) len) := by
  unfold put32
  rw [State.settle_pair, pzn_eq]

/-- A logical operation. -/
theorem logic16_given (s : State) (f : Word → Word → Word) (ra : Reg) (v len : Word) :
    logic16 f ra (s.given v) len =
      .next ((s.setReg ra (f (s.reg ra) v)).ends (signCs (f (s.reg ra) v).toInt) 0 len) :=
  put16_start s ra _ false len

/-- A 16-bit compare. -/
theorem compare16_given (s : State) (ra : Reg) (v len : Word) :
    compare16 ra (s.given v) len = .next (s.ends (orderCs (s.reg ra).toInt v.toInt) 0 len) := by
  unfold compare16
  simp only [State.given_run, State.given_val, State.start_s]
  rw [State.settle_cs, order_eq]

/-- A 32-bit compare. -/
theorem compare32_given (s : State) (ra : Reg) (v : Long) (len : Word) :
    compare32 ra (s.given v) len = .next (s.ends (orderCs (s.pair ra).toInt v.toInt) 0 len) := by
  unfold compare32
  simp only [State.given_run, State.given_val, State.start_s]
  rw [State.settle_cs, order_eq]

end Sys2Proof.Machine
end

