-- ==== Sys2Proof/Laws/PerInstr.lean ====
section
/-! SUPPORT. Statements about every instruction as syntax. `TableRow`: the words of a well-formed instruction match its row
of the opcode table, whose masks and patterns are written out here from spec/opcode_table.json. -/

namespace Sys2Proof.Laws

/-- One row of the opcode table: the first word under the mask is the pattern, the instruction has `words` words. -/
structure TableRow.Row where
  mask : Word
  pattern : Word
  words : Nat

/-- The row of an instruction (spec/opcode_table.json); the two-word form of BIF and BIFI is shorter than its row
(30_encoding.md R157). -/
def TableRow.row : Instr → TableRow.Row
  | .ab _ _ => ⟨0xFC00, 0x1000, 1⟩
  | .sbb _ _ => ⟨0xFC00, 0x1400, 1⟩
  | .mb _ _ => ⟨0xFC00, 0x1800, 1⟩
  | .db _ _ => ⟨0xFC00, 0x1C00, 1⟩
  | .orb _ _ => ⟨0xFC00, 0x3000, 1⟩
  | .andb _ _ => ⟨0xFC00, 0x3400, 1⟩
  | .cb _ _ => ⟨0xFC00, 0x3800, 1⟩
  | .abx _ _ => ⟨0xFCF0, 0x4040, 1⟩
  | .sbbx _ _ => ⟨0xFCF0, 0x4050, 1⟩
  | .mbx _ _ => ⟨0xFCF0, 0x4060, 1⟩
  | .dbx _ _ => ⟨0xFCF0, 0x4070, 1⟩
  | .cbx _ _ => ⟨0xFCF0, 0x40C0, 1⟩
  | .andx _ _ => ⟨0xFCF0, 0x40E0, 1⟩
  | .orbx _ _ => ⟨0xFCF0, 0x40F0, 1⟩
  | .a _ _ _ => ⟨0xFF00, 0xA000, 2⟩
  | .ar _ _ => ⟨0xFF00, 0xA100, 1⟩
  | .aisp _ _ => ⟨0xFF00, 0xA200, 1⟩
  | .incm _ _ _ => ⟨0xFF00, 0xA300, 2⟩
  | .abs _ _ => ⟨0xFF00, 0xA400, 1⟩
  | .dabs _ _ => ⟨0xFF00, 0xA500, 1⟩
  | .da _ _ _ => ⟨0xFF00, 0xA600, 2⟩
  | .dar _ _ => ⟨0xFF00, 0xA700, 1⟩
  | .s _ _ _ => ⟨0xFF00, 0xB000, 2⟩
  | .sr _ _ => ⟨0xFF00, 0xB100, 1⟩
  | .sisp _ _ => ⟨0xFF00, 0xB200, 1⟩
  | .decm _ _ _ => ⟨0xFF00, 0xB300, 2⟩
  | .neg _ _ => ⟨0xFF00, 0xB400, 1⟩
  | .dneg _ _ => ⟨0xFF00, 0xB500, 1⟩
  | .ds _ _ _ => ⟨0xFF00, 0xB600, 2⟩
  | .dsr _ _ => ⟨0xFF00, 0xB700, 1⟩
  | .ms _ _ _ => ⟨0xFF00, 0xC000, 2⟩
  | .msr _ _ => ⟨0xFF00, 0xC100, 1⟩
  | .misp _ _ => ⟨0xFF00, 0xC200, 1⟩
  | .misn _ _ => ⟨0xFF00, 0xC300, 1⟩
  | .m _ _ _ => ⟨0xFF00, 0xC400, 2⟩
  | .mr _ _ => ⟨0xFF00, 0xC500, 1⟩
  | .dm _ _ _ => ⟨0xFF00, 0xC600, 2⟩
  | .dmr _ _ => ⟨0xFF00, 0xC700, 1⟩
  | .dv _ _ _ => ⟨0xFF00, 0xD000, 2⟩
  | .dvr _ _ => ⟨0xFF00, 0xD100, 1⟩
  | .disp _ _ => ⟨0xFF00, 0xD200, 1⟩
  | .disn _ _ => ⟨0xFF00, 0xD300, 1⟩
  | .d _ _ _ => ⟨0xFF00, 0xD400, 2⟩
  | .dr _ _ => ⟨0xFF00, 0xD500, 1⟩
  | .dd _ _ _ => ⟨0xFF00, 0xD600, 2⟩
  | .ddr _ _ => ⟨0xFF00, 0xD700, 1⟩
  | .or _ _ _ => ⟨0xFF00, 0xE000, 2⟩
  | .orr _ _ => ⟨0xFF00, 0xE100, 1⟩
  | .and _ _ _ => ⟨0xFF00, 0xE200, 2⟩
  | .andr _ _ => ⟨0xFF00, 0xE300, 1⟩
  | .xor _ _ _ => ⟨0xFF00, 0xE400, 2⟩
  | .xorr _ _ => ⟨0xFF00, 0xE500, 1⟩
  | .n _ _ _ => ⟨0xFF00, 0xE600, 2⟩
  | .nr _ _ => ⟨0xFF00, 0xE700, 1⟩
  | .c _ _ _ => ⟨0xFF00, 0xF000, 2⟩
  | .cr _ _ => ⟨0xFF00, 0xF100, 1⟩
  | .cisp _ _ => ⟨0xFF00, 0xF200, 1⟩
  | .cisn _ _ => ⟨0xFF00, 0xF300, 1⟩
  | .cbl _ _ _ => ⟨0xFF00, 0xF400, 2⟩
  | .dc _ _ _ => ⟨0xFF00, 0xF600, 2⟩
  | .dcr _ _ => ⟨0xFF00, 0xF700, 1⟩
  | .aim _ _ => ⟨0xFF0F, 0x4A01, 2⟩
  | .sim _ _ => ⟨0xFF0F, 0x4A02, 2⟩
  | .mim _ _ => ⟨0xFF0F, 0x4A03, 2⟩
  | .msim _ _ => ⟨0xFF0F, 0x4A04, 2⟩
  | .dim _ _ => ⟨0xFF0F, 0x4A05, 2⟩
  | .dvim _ _ => ⟨0xFF0F, 0x4A06, 2⟩
  | .andm _ _ => ⟨0xFF0F, 0x4A07, 2⟩
  | .orim _ _ => ⟨0xFF0F, 0x4A08, 2⟩
  | .xorm _ _ => ⟨0xFF0F, 0x4A09, 2⟩
  | .cim _ _ => ⟨0xFF0F, 0x4A0A, 2⟩
  | .nim _ _ => ⟨0xFF0F, 0x4A0B, 2⟩
  | .fab _ _ => ⟨0xFC00, 0x2000, 1⟩
  | .fsb _ _ => ⟨0xFC00, 0x2400, 1⟩
  | .fmb _ _ => ⟨0xFC00, 0x2800, 1⟩
  | .fdb _ _ => ⟨0xFC00, 0x2C00, 1⟩
  | .fcb _ _ => ⟨0xFC00, 0x3C00, 1⟩
  | .fabx _ _ => ⟨0xFCF0, 0x4080, 1⟩
  | .fsbx _ _ => ⟨0xFCF0, 0x4090, 1⟩
  | .fmbx _ _ => ⟨0xFCF0, 0x40A0, 1⟩
  | .fdbx _ _ => ⟨0xFCF0, 0x40B0, 1⟩
  | .fcbx _ _ => ⟨0xFCF0, 0x40D0, 1⟩
  | .fa _ _ _ => ⟨0xFF00, 0xA800, 2⟩
  | .far _ _ => ⟨0xFF00, 0xA900, 1⟩
  | .efa _ _ _ => ⟨0xFF00, 0xAA00, 2⟩
  | .efar _ _ => ⟨0xFF00, 0xAB00, 1⟩
  | .fabs _ _ => ⟨0xFF00, 0xAC00, 1⟩
  | .fs _ _ _ => ⟨0xFF00, 0xB800, 2⟩
  | .fsr _ _ => ⟨0xFF00, 0xB900, 1⟩
  | .efs _ _ _ => ⟨0xFF00, 0xBA00, 2⟩
  | .efsr _ _ => ⟨0xFF00, 0xBB00, 1⟩
  | .fneg _ _ => ⟨0xFF00, 0xBC00, 1⟩
  | .fm _ _ _ => ⟨0xFF00, 0xC800, 2⟩
  | .fmr _ _ => ⟨0xFF00, 0xC900, 1⟩
  | .efm _ _ _ => ⟨0xFF00, 0xCA00, 2⟩
  | .efmr _ _ => ⟨0xFF00, 0xCB00, 1⟩
  | .fd _ _ _ => ⟨0xFF00, 0xD800, 2⟩
  | .fdr _ _ => ⟨0xFF00, 0xD900, 1⟩
  | .efd _ _ _ => ⟨0xFF00, 0xDA00, 2⟩
  | .efdr _ _ => ⟨0xFF00, 0xDB00, 1⟩
  | .fix _ _ => ⟨0xFF00, 0xE800, 1⟩
  | .flt _ _ => ⟨0xFF00, 0xE900, 1⟩
  | .efix _ _ => ⟨0xFF00, 0xEA00, 1⟩
  | .eflt _ _ => ⟨0xFF00, 0xEB00, 1⟩
  | .fc _ _ _ => ⟨0xFF00, 0xF800, 2⟩
  | .fcr _ _ => ⟨0xFF00, 0xF900, 1⟩
  | .efc _ _ _ => ⟨0xFF00, 0xFA00, 2⟩
  | .efcr _ _ => ⟨0xFF00, 0xFB00, 1⟩
  | .sb _ _ _ => ⟨0xFF00, 0x5000, 2⟩
  | .sbr _ _ => ⟨0xFF00, 0x5100, 1⟩
  | .sbi _ _ _ => ⟨0xFF00, 0x5200, 2⟩
  | .rb _ _ _ => ⟨0xFF00, 0x5300, 2⟩
  | .rbr _ _ => ⟨0xFF00, 0x5400, 1⟩
  | .rbi _ _ _ => ⟨0xFF00, 0x5500, 2⟩
  | .tb _ _ _ => ⟨0xFF00, 0x5600, 2⟩
  | .tbr _ _ => ⟨0xFF00, 0x5700, 1⟩
  | .tbi _ _ _ => ⟨0xFF00, 0x5800, 2⟩
  | .tsb _ _ _ => ⟨0xFF00, 0x5900, 2⟩
  | .svbr _ _ => ⟨0xFF00, 0x5A00, 1⟩
  | .rvbr _ _ => ⟨0xFF00, 0x5C00, 1⟩
  | .tvbr _ _ => ⟨0xFF00, 0x5E00, 1⟩
  | .sll _ _ => ⟨0xFF00, 0x6000, 1⟩
  | .srl _ _ => ⟨0xFF00, 0x6100, 1⟩
  | .sra _ _ => ⟨0xFF00, 0x6200, 1⟩
  | .slc _ _ => ⟨0xFF00, 0x6300, 1⟩
  | .dsll _ _ => ⟨0xFF00, 0x6500, 1⟩
  | .dsrl _ _ => ⟨0xFF00, 0x6600, 1⟩
  | .dsra _ _ => ⟨0xFF00, 0x6700, 1⟩
  | .dslc _ _ => ⟨0xFF00, 0x6800, 1⟩
  | .slr _ _ => ⟨0xFF00, 0x6A00, 1⟩
  | .sar _ _ => ⟨0xFF00, 0x6B00, 1⟩
  | .scr _ _ => ⟨0xFF00, 0x6C00, 1⟩
  | .dslr _ _ => ⟨0xFF00, 0x6D00, 1⟩
  | .dsar _ _ => ⟨0xFF00, 0x6E00, 1⟩
  | .dscr _ _ => ⟨0xFF00, 0x6F00, 1⟩
  | .lb _ _ => ⟨0xFC00, 0x0000, 1⟩
  | .dlb _ _ => ⟨0xFC00, 0x0400, 1⟩
  | .stb _ _ => ⟨0xFC00, 0x0800, 1⟩
  | .dstb _ _ => ⟨0xFC00, 0x0C00, 1⟩
  | .lbx _ _ => ⟨0xFCF0, 0x4000, 1⟩
  | .dlbx _ _ => ⟨0xFCF0, 0x4010, 1⟩
  | .stbx _ _ => ⟨0xFCF0, 0x4020, 1⟩
  | .dstx _ _ => ⟨0xFCF0, 0x4030, 1⟩
  | .l _ _ _ => ⟨0xFF00, 0x8000, 2⟩
  | .lr _ _ => ⟨0xFF00, 0x8100, 1⟩
  | .lisp _ _ => ⟨0xFF00, 0x8200, 1⟩
  | .lisn _ _ => ⟨0xFF00, 0x8300, 1⟩
  | .li _ _ _ => ⟨0xFF00, 0x8400, 2⟩
  | .lim _ _ _ => ⟨0xFF00, 0x8500, 2⟩
  | .dl _ _ _ => ⟨0xFF00, 0x8600, 2⟩
  | .dlr _ _ => ⟨0xFF00, 0x8700, 1⟩
  | .dli _ _ _ => ⟨0xFF00, 0x8800, 2⟩
  | .efl _ _ _ => ⟨0xFF00, 0x8A00, 2⟩
  | .lub _ _ _ => ⟨0xFF00, 0x8B00, 2⟩
  | .llb _ _ _ => ⟨0xFF00, 0x8C00, 2⟩
  | .lubi _ _ _ => ⟨0xFF00, 0x8D00, 2⟩
  | .llbi _ _ _ => ⟨0xFF00, 0x8E00, 2⟩
  | .st _ _ _ => ⟨0xFF00, 0x9000, 2⟩
  | .stc _ _ _ => ⟨0xFF00, 0x9100, 2⟩
  | .stci _ _ _ => ⟨0xFF00, 0x9200, 2⟩
  | .sti _ _ _ => ⟨0xFF00, 0x9400, 2⟩
  | .dst _ _ _ => ⟨0xFF00, 0x9600, 2⟩
  | .srm _ _ _ => ⟨0xFF00, 0x9700, 2⟩
  | .dsti _ _ _ => ⟨0xFF00, 0x9800, 2⟩
  | .efst _ _ _ => ⟨0xFF00, 0x9A00, 2⟩
  | .stub _ _ _ => ⟨0xFF00, 0x9B00, 2⟩
  | .stlb _ _ _ => ⟨0xFF00, 0x9C00, 2⟩
  | .subi _ _ _ => ⟨0xFF00, 0x9D00, 2⟩
  | .slbi _ _ _ => ⟨0xFF00, 0x9E00, 2⟩
  | .xbr _ => ⟨0xFF00, 0xEC00, 1⟩
  | .xwr _ _ => ⟨0xFF00, 0xED00, 1⟩
  | .lm _ _ _ => ⟨0xFF00, 0x8900, 2⟩
  | .popm _ _ => ⟨0xFF00, 0x8F00, 1⟩
  | .mov _ _ => ⟨0xFF00, 0x9300, 1⟩
  | .stm _ _ _ => ⟨0xFF00, 0x9900, 2⟩
  | .pshm _ _ => ⟨0xFF00, 0x9F00, 1⟩
  | .jc _ _ _ => ⟨0xFF00, 0x7000, 2⟩
  | .jci _ _ _ => ⟨0xFF00, 0x7100, 2⟩
  | .js _ _ _ => ⟨0xFF00, 0x7200, 2⟩
  | .soj _ _ _ => ⟨0xFF00, 0x7300, 2⟩
  | .br _ => ⟨0xFF00, 0x7400, 1⟩
  | .bez _ => ⟨0xFF00, 0x7500, 1⟩
  | .blt _ => ⟨0xFF00, 0x7600, 1⟩
  | .bex _ => ⟨0xFF00, 0x7700, 1⟩
  | .ble _ => ⟨0xFF00, 0x7800, 1⟩
  | .bgt _ => ⟨0xFF00, 0x7900, 1⟩
  | .bnz _ => ⟨0xFF00, 0x7A00, 1⟩
  | .bge _ => ⟨0xFF00, 0x7B00, 1⟩
  | .lsti _ _ => ⟨0xFF00, 0x7C00, 2⟩
  | .lst _ _ => ⟨0xFF00, 0x7D00, 2⟩
  | .sjs _ _ _ => ⟨0xFF00, 0x7E00, 2⟩
  | .urs _ => ⟨0xFF00, 0x7F00, 1⟩
  | .bif three _ _ _ _ => ⟨0xFF80, 0x4F00, if three then 3 else 2⟩
  | .bifi three _ _ _ _ => ⟨0xFF80, 0x4F80, if three then 3 else 2⟩
  | .nop => ⟨0xFFFF, 0xFF00, 1⟩
  | .bpt => ⟨0xFFFF, 0xFFFF, 1⟩
  | .xio _ _ _ => ⟨0xFF00, 0x4800, 2⟩
  | .vio _ _ _ => ⟨0xFF00, 0x4900, 2⟩

/-- The words of the instruction match its row. -/
def TableRow.Statement (i : Instr) : Prop :=
  i.wf = true →
    (encode i).length = (TableRow.row i).words ∧
      ∃ w rest, encode i = w :: rest ∧ w &&& (TableRow.row i).mask = (TableRow.row i).pattern

/-! ## First words under a mask -/

/-- A mask over two bytes acts on each. -/
theorem append_and (x f mx mf : Byte) : (x ++ f : Word) &&& (mx ++ mf : Word) = (x &&& mx) ++ (f &&& mf) := by
  apply BitVec.eq_of_getLsbD_eq
  intro i _
  simp only [BitVec.getLsbD_and, BitVec.getLsbD_append]
  split <;> rfl

/-- The opcode alone (R123). -/
theorem firstWord_op (op : Byte) (hi lo : BitVec 4) : firstWord op hi lo &&& 0xFF00 = op ++ (0 : Byte) := by
  ext i hi'
  simp only [firstWord, BitVec.getElem_and, BitVec.getElem_append]
  interval_cases i <;> simp

/-- The opcode and bits 8 to 11. -/
theorem firstWord_opHi (op : Byte) (hi lo : BitVec 4) :
    firstWord op hi lo &&& 0xFFF0 = op ++ hi ++ (0 : BitVec 4) := by
  ext i hi'
  simp only [firstWord, BitVec.getElem_and, BitVec.getElem_append]
  interval_cases i <;> simp

/-- The opcode and bits 12 to 15. -/
theorem firstWord_opLo (op : Byte) (hi lo : BitVec 4) :
    firstWord op hi lo &&& 0xFF0F = op ++ (0 : BitVec 4) ++ lo := by
  ext i hi'
  simp only [firstWord, BitVec.getElem_and, BitVec.getElem_append]
  interval_cases i <;> simp

/-- The opcode alone, with one field of eight bits. -/
theorem firstWord8_op (op f : Byte) : firstWord8 op f &&& 0xFF00 = op ++ (0 : Byte) := by
  have h := append_and op f 0xFF 0
  have h0 : f &&& (0 : Byte) = 0 := BitVec.and_zero
  have h1 : op &&& (0xFF : Byte) = op := BitVec.and_allOnes
  rw [h0, h1] at h
  exact h

/-- Bits 0 to 5 of a base-relative instruction: the base register does not show. -/
theorem base_mask (k : Fin 16) (br : Reg) (h : br.isBase = true) (f : Byte) :
    firstWord8 (baseOp (BitVec.ofNat 8 (4 * k.val)) br) f &&& 0xFC00 = BitVec.ofNat 16 (1024 * k.val) := by
  have h2 : ∀ k br : Fin 16, Reg.isBase br = true →
      ((baseOp (BitVec.ofNat 8 (4 * k.val)) br) &&& 0xFC) ++ (0 : Byte) = BitVec.ofNat 16 (1024 * k.val) := by decide
  have h3 := append_and (baseOp (BitVec.ofNat 8 (4 * k.val)) br) f 0xFC 0
  have h0 : f &&& (0 : Byte) = 0 := BitVec.and_zero
  rw [h0] at h3
  exact h3.trans (h2 k br h)

/-- Bits 0 to 5 and 8 to 11 of a base-relative indexed instruction. -/
theorem baseIndexed_mask (k : BitVec 4) (br : Reg) (h : br.isBase = true) (lo : BitVec 4) :
    firstWord (baseOp 0x40 br) k lo &&& 0xFCF0 = (0x40 : Byte) ++ k ++ (0 : BitVec 4) := by
  have h1 : firstWord (baseOp 0x40 br) k lo &&& 0xFCF0 = (firstWord (baseOp 0x40 br) k lo &&& 0xFFF0) &&& 0xFCF0 := by
    rw [BitVec.and_assoc]; rfl
  have h2 : ∀ (k : BitVec 4) (br : Reg), br.isBase = true →
      ((baseOp 0x40 br) ++ k ++ (0 : BitVec 4) : Word) &&& 0xFCF0 = (0x40 : Byte) ++ k ++ (0 : BitVec 4) := by decide
  rw [h1, firstWord_opHi]
  exact h2 k br h

/-- Bits 0 to 8 of BIF and BIFI. -/
theorem bif_mask (direct three : Bool) (cp : Fin 4) (lo : BitVec 4) :
    firstWord 0x4F (bifBits direct three cp) lo &&& 0xFF80 = if direct then 0x4F80 else 0x4F00 := by
  have h1 : firstWord 0x4F (bifBits direct three cp) lo &&& 0xFF80 =
      (firstWord 0x4F (bifBits direct three cp) lo &&& 0xFFF0) &&& 0xFF80 := by
    rw [BitVec.and_assoc]; rfl
  rw [h1, firstWord_opHi]
  clear h1
  revert direct three cp
  decide

/-! ## Every instruction -/

theorem TableRow.ab (br : Reg) (du : Byte) : TableRow.Statement (.ab br du) :=
  fun h => ⟨rfl, _, _, rfl, base_mask 4 br h _⟩

theorem TableRow.sbb (br : Reg) (du : Byte) : TableRow.Statement (.sbb br du) :=
  fun h => ⟨rfl, _, _, rfl, base_mask 5 br h _⟩

theorem TableRow.mb (br : Reg) (du : Byte) : TableRow.Statement (.mb br du) :=
  fun h => ⟨rfl, _, _, rfl, base_mask 6 br h _⟩

theorem TableRow.db (br : Reg) (du : Byte) : TableRow.Statement (.db br du) :=
  fun h => ⟨rfl, _, _, rfl, base_mask 7 br h _⟩

theorem TableRow.orb (br : Reg) (du : Byte) : TableRow.Statement (.orb br du) :=
  fun h => ⟨rfl, _, _, rfl, base_mask 12 br h _⟩

theorem TableRow.andb (br : Reg) (du : Byte) : TableRow.Statement (.andb br du) :=
  fun h => ⟨rfl, _, _, rfl, base_mask 13 br h _⟩

theorem TableRow.cb (br : Reg) (du : Byte) : TableRow.Statement (.cb br du) :=
  fun h => ⟨rfl, _, _, rfl, base_mask 14 br h _⟩

theorem TableRow.abx (br rx : Reg) : TableRow.Statement (.abx br rx) :=
  fun h => ⟨rfl, _, _, rfl, baseIndexed_mask 0x4 br h _⟩

theorem TableRow.sbbx (br rx : Reg) : TableRow.Statement (.sbbx br rx) :=
  fun h => ⟨rfl, _, _, rfl, baseIndexed_mask 0x5 br h _⟩

theorem TableRow.mbx (br rx : Reg) : TableRow.Statement (.mbx br rx) :=
  fun h => ⟨rfl, _, _, rfl, baseIndexed_mask 0x6 br h _⟩

theorem TableRow.dbx (br rx : Reg) : TableRow.Statement (.dbx br rx) :=
  fun h => ⟨rfl, _, _, rfl, baseIndexed_mask 0x7 br h _⟩

theorem TableRow.cbx (br rx : Reg) : TableRow.Statement (.cbx br rx) :=
  fun h => ⟨rfl, _, _, rfl, baseIndexed_mask 0xc br h _⟩

theorem TableRow.andx (br rx : Reg) : TableRow.Statement (.andx br rx) :=
  fun h => ⟨rfl, _, _, rfl, baseIndexed_mask 0xe br h _⟩

theorem TableRow.orbx (br rx : Reg) : TableRow.Statement (.orbx br rx) :=
  fun h => ⟨rfl, _, _, rfl, baseIndexed_mask 0xf br h _⟩

theorem TableRow.a (ra rx : Reg) (a : Word) : TableRow.Statement (.a ra rx a) :=
  fun _ => ⟨rfl, _, _, rfl, firstWord_op _ _ _⟩

theorem TableRow.ar (ra rb : Reg) : TableRow.Statement (.ar ra rb) :=
  fun _ => ⟨rfl, _, _, rfl, firstWord_op _ _ _⟩

theorem TableRow.aisp (ra : Reg) (n : Nat) : TableRow.Statement (.aisp ra n) :=
  fun _ => ⟨rfl, _, _, rfl, firstWord_op _ _ _⟩

theorem TableRow.incm (n : Nat) (rx : Reg) (a : Word) : TableRow.Statement (.incm n rx a) :=
  fun _ => ⟨rfl, _, _, rfl, firstWord_op _ _ _⟩

theorem TableRow.abs (ra rb : Reg) : TableRow.Statement (.abs ra rb) :=
  fun _ => ⟨rfl, _, _, rfl, firstWord_op _ _ _⟩

theorem TableRow.dabs (ra rb : Reg) : TableRow.Statement (.dabs ra rb) :=
  fun _ => ⟨rfl, _, _, rfl, firstWord_op _ _ _⟩

theorem TableRow.da (ra rx : Reg) (a : Word) : TableRow.Statement (.da ra rx a) :=
  fun _ => ⟨rfl, _, _, rfl, firstWord_op _ _ _⟩

theorem TableRow.dar (ra rb : Reg) : TableRow.Statement (.dar ra rb) :=
  fun _ => ⟨rfl, _, _, rfl, firstWord_op _ _ _⟩

theorem TableRow.s (ra rx : Reg) (a : Word) : TableRow.Statement (.s ra rx a) :=
  fun _ => ⟨rfl, _, _, rfl, firstWord_op _ _ _⟩

theorem TableRow.sr (ra rb : Reg) : TableRow.Statement (.sr ra rb) :=
  fun _ => ⟨rfl, _, _, rfl, firstWord_op _ _ _⟩

theorem TableRow.sisp (ra : Reg) (n : Nat) : TableRow.Statement (.sisp ra n) :=
  fun _ => ⟨rfl, _, _, rfl, firstWord_op _ _ _⟩

theorem TableRow.decm (n : Nat) (rx : Reg) (a : Word) : TableRow.Statement (.decm n rx a) :=
  fun _ => ⟨rfl, _, _, rfl, firstWord_op _ _ _⟩

theorem TableRow.neg (ra rb : Reg) : TableRow.Statement (.neg ra rb) :=
  fun _ => ⟨rfl, _, _, rfl, firstWord_op _ _ _⟩

theorem TableRow.dneg (ra rb : Reg) : TableRow.Statement (.dneg ra rb) :=
  fun _ => ⟨rfl, _, _, rfl, firstWord_op _ _ _⟩

theorem TableRow.ds (ra rx : Reg) (a : Word) : TableRow.Statement (.ds ra rx a) :=
  fun _ => ⟨rfl, _, _, rfl, firstWord_op _ _ _⟩

theorem TableRow.dsr (ra rb : Reg) : TableRow.Statement (.dsr ra rb) :=
  fun _ => ⟨rfl, _, _, rfl, firstWord_op _ _ _⟩

theorem TableRow.ms (ra rx : Reg) (a : Word) : TableRow.Statement (.ms ra rx a) :=
  fun _ => ⟨rfl, _, _, rfl, firstWord_op _ _ _⟩

theorem TableRow.msr (ra rb : Reg) : TableRow.Statement (.msr ra rb) :=
  fun _ => ⟨rfl, _, _, rfl, firstWord_op _ _ _⟩

theorem TableRow.misp (ra : Reg) (n : Nat) : TableRow.Statement (.misp ra n) :=
  fun _ => ⟨rfl, _, _, rfl, firstWord_op _ _ _⟩

theorem TableRow.misn (ra : Reg) (n : Nat) : TableRow.Statement (.misn ra n) :=
  fun _ => ⟨rfl, _, _, rfl, firstWord_op _ _ _⟩

theorem TableRow.m (ra rx : Reg) (a : Word) : TableRow.Statement (.m ra rx a) :=
  fun _ => ⟨rfl, _, _, rfl, firstWord_op _ _ _⟩

theorem TableRow.mr (ra rb : Reg) : TableRow.Statement (.mr ra rb) :=
  fun _ => ⟨rfl, _, _, rfl, firstWord_op _ _ _⟩

theorem TableRow.dm (ra rx : Reg) (a : Word) : TableRow.Statement (.dm ra rx a) :=
  fun _ => ⟨rfl, _, _, rfl, firstWord_op _ _ _⟩

theorem TableRow.dmr (ra rb : Reg) : TableRow.Statement (.dmr ra rb) :=
  fun _ => ⟨rfl, _, _, rfl, firstWord_op _ _ _⟩

theorem TableRow.dv (ra rx : Reg) (a : Word) : TableRow.Statement (.dv ra rx a) :=
  fun _ => ⟨rfl, _, _, rfl, firstWord_op _ _ _⟩

theorem TableRow.dvr (ra rb : Reg) : TableRow.Statement (.dvr ra rb) :=
  fun _ => ⟨rfl, _, _, rfl, firstWord_op _ _ _⟩

theorem TableRow.disp (ra : Reg) (n : Nat) : TableRow.Statement (.disp ra n) :=
  fun _ => ⟨rfl, _, _, rfl, firstWord_op _ _ _⟩

theorem TableRow.disn (ra : Reg) (n : Nat) : TableRow.Statement (.disn ra n) :=
  fun _ => ⟨rfl, _, _, rfl, firstWord_op _ _ _⟩

theorem TableRow.d (ra rx : Reg) (a : Word) : TableRow.Statement (.d ra rx a) :=
  fun _ => ⟨rfl, _, _, rfl, firstWord_op _ _ _⟩

theorem TableRow.dr (ra rb : Reg) : TableRow.Statement (.dr ra rb) :=
  fun _ => ⟨rfl, _, _, rfl, firstWord_op _ _ _⟩

theorem TableRow.dd (ra rx : Reg) (a : Word) : TableRow.Statement (.dd ra rx a) :=
  fun _ => ⟨rfl, _, _, rfl, firstWord_op _ _ _⟩

theorem TableRow.ddr (ra rb : Reg) : TableRow.Statement (.ddr ra rb) :=
  fun _ => ⟨rfl, _, _, rfl, firstWord_op _ _ _⟩

theorem TableRow.or (ra rx : Reg) (a : Word) : TableRow.Statement (.or ra rx a) :=
  fun _ => ⟨rfl, _, _, rfl, firstWord_op _ _ _⟩

theorem TableRow.orr (ra rb : Reg) : TableRow.Statement (.orr ra rb) :=
  fun _ => ⟨rfl, _, _, rfl, firstWord_op _ _ _⟩

theorem TableRow.and (ra rx : Reg) (a : Word) : TableRow.Statement (.and ra rx a) :=
  fun _ => ⟨rfl, _, _, rfl, firstWord_op _ _ _⟩

theorem TableRow.andr (ra rb : Reg) : TableRow.Statement (.andr ra rb) :=
  fun _ => ⟨rfl, _, _, rfl, firstWord_op _ _ _⟩

theorem TableRow.xor (ra rx : Reg) (a : Word) : TableRow.Statement (.xor ra rx a) :=
  fun _ => ⟨rfl, _, _, rfl, firstWord_op _ _ _⟩

theorem TableRow.xorr (ra rb : Reg) : TableRow.Statement (.xorr ra rb) :=
  fun _ => ⟨rfl, _, _, rfl, firstWord_op _ _ _⟩

theorem TableRow.n (ra rx : Reg) (a : Word) : TableRow.Statement (.n ra rx a) :=
  fun _ => ⟨rfl, _, _, rfl, firstWord_op _ _ _⟩

theorem TableRow.nr (ra rb : Reg) : TableRow.Statement (.nr ra rb) :=
  fun _ => ⟨rfl, _, _, rfl, firstWord_op _ _ _⟩

theorem TableRow.c (ra rx : Reg) (a : Word) : TableRow.Statement (.c ra rx a) :=
  fun _ => ⟨rfl, _, _, rfl, firstWord_op _ _ _⟩

theorem TableRow.cr (ra rb : Reg) : TableRow.Statement (.cr ra rb) :=
  fun _ => ⟨rfl, _, _, rfl, firstWord_op _ _ _⟩

theorem TableRow.cisp (ra : Reg) (n : Nat) : TableRow.Statement (.cisp ra n) :=
  fun _ => ⟨rfl, _, _, rfl, firstWord_op _ _ _⟩

theorem TableRow.cisn (ra : Reg) (n : Nat) : TableRow.Statement (.cisn ra n) :=
  fun _ => ⟨rfl, _, _, rfl, firstWord_op _ _ _⟩

theorem TableRow.cbl (ra rx : Reg) (a : Word) : TableRow.Statement (.cbl ra rx a) :=
  fun _ => ⟨rfl, _, _, rfl, firstWord_op _ _ _⟩

theorem TableRow.dc (ra rx : Reg) (a : Word) : TableRow.Statement (.dc ra rx a) :=
  fun _ => ⟨rfl, _, _, rfl, firstWord_op _ _ _⟩

theorem TableRow.dcr (ra rb : Reg) : TableRow.Statement (.dcr ra rb) :=
  fun _ => ⟨rfl, _, _, rfl, firstWord_op _ _ _⟩

theorem TableRow.aim (ra : Reg) (data : Word) : TableRow.Statement (.aim ra data) :=
  fun _ => ⟨rfl, _, _, rfl, firstWord_opLo _ _ _⟩

theorem TableRow.sim (ra : Reg) (data : Word) : TableRow.Statement (.sim ra data) :=
  fun _ => ⟨rfl, _, _, rfl, firstWord_opLo _ _ _⟩

theorem TableRow.mim (ra : Reg) (data : Word) : TableRow.Statement (.mim ra data) :=
  fun _ => ⟨rfl, _, _, rfl, firstWord_opLo _ _ _⟩

theorem TableRow.msim (ra : Reg) (data : Word) : TableRow.Statement (.msim ra data) :=
  fun _ => ⟨rfl, _, _, rfl, firstWord_opLo _ _ _⟩

theorem TableRow.dim (ra : Reg) (data : Word) : TableRow.Statement (.dim ra data) :=
  fun _ => ⟨rfl, _, _, rfl, firstWord_opLo _ _ _⟩

theorem TableRow.dvim (ra : Reg) (data : Word) : TableRow.Statement (.dvim ra data) :=
  fun _ => ⟨rfl, _, _, rfl, firstWord_opLo _ _ _⟩

theorem TableRow.andm (ra : Reg) (data : Word) : TableRow.Statement (.andm ra data) :=
  fun _ => ⟨rfl, _, _, rfl, firstWord_opLo _ _ _⟩

theorem TableRow.orim (ra : Reg) (data : Word) : TableRow.Statement (.orim ra data) :=
  fun _ => ⟨rfl, _, _, rfl, firstWord_opLo _ _ _⟩

theorem TableRow.xorm (ra : Reg) (data : Word) : TableRow.Statement (.xorm ra data) :=
  fun _ => ⟨rfl, _, _, rfl, firstWord_opLo _ _ _⟩

theorem TableRow.cim (ra : Reg) (data : Word) : TableRow.Statement (.cim ra data) :=
  fun _ => ⟨rfl, _, _, rfl, firstWord_opLo _ _ _⟩

theorem TableRow.nim (ra : Reg) (data : Word) : TableRow.Statement (.nim ra data) :=
  fun _ => ⟨rfl, _, _, rfl, firstWord_opLo _ _ _⟩

theorem TableRow.fab (br : Reg) (du : Byte) : TableRow.Statement (.fab br du) :=
  fun h => ⟨rfl, _, _, rfl, base_mask 8 br h _⟩

theorem TableRow.fsb (br : Reg) (du : Byte) : TableRow.Statement (.fsb br du) :=
  fun h => ⟨rfl, _, _, rfl, base_mask 9 br h _⟩

theorem TableRow.fmb (br : Reg) (du : Byte) : TableRow.Statement (.fmb br du) :=
  fun h => ⟨rfl, _, _, rfl, base_mask 10 br h _⟩

theorem TableRow.fdb (br : Reg) (du : Byte) : TableRow.Statement (.fdb br du) :=
  fun h => ⟨rfl, _, _, rfl, base_mask 11 br h _⟩

theorem TableRow.fcb (br : Reg) (du : Byte) : TableRow.Statement (.fcb br du) :=
  fun h => ⟨rfl, _, _, rfl, base_mask 15 br h _⟩

theorem TableRow.fabx (br rx : Reg) : TableRow.Statement (.fabx br rx) :=
  fun h => ⟨rfl, _, _, rfl, baseIndexed_mask 0x8 br h _⟩

theorem TableRow.fsbx (br rx : Reg) : TableRow.Statement (.fsbx br rx) :=
  fun h => ⟨rfl, _, _, rfl, baseIndexed_mask 0x9 br h _⟩

theorem TableRow.fmbx (br rx : Reg) : TableRow.Statement (.fmbx br rx) :=
  fun h => ⟨rfl, _, _, rfl, baseIndexed_mask 0xa br h _⟩

theorem TableRow.fdbx (br rx : Reg) : TableRow.Statement (.fdbx br rx) :=
  fun h => ⟨rfl, _, _, rfl, baseIndexed_mask 0xb br h _⟩

theorem TableRow.fcbx (br rx : Reg) : TableRow.Statement (.fcbx br rx) :=
  fun h => ⟨rfl, _, _, rfl, baseIndexed_mask 0xd br h _⟩

theorem TableRow.fa (ra rx : Reg) (a : Word) : TableRow.Statement (.fa ra rx a) :=
  fun _ => ⟨rfl, _, _, rfl, firstWord_op _ _ _⟩

theorem TableRow.far (ra rb : Reg) : TableRow.Statement (.far ra rb) :=
  fun _ => ⟨rfl, _, _, rfl, firstWord_op _ _ _⟩

theorem TableRow.efa (ra rx : Reg) (a : Word) : TableRow.Statement (.efa ra rx a) :=
  fun _ => ⟨rfl, _, _, rfl, firstWord_op _ _ _⟩

theorem TableRow.efar (ra rb : Reg) : TableRow.Statement (.efar ra rb) :=
  fun _ => ⟨rfl, _, _, rfl, firstWord_op _ _ _⟩

theorem TableRow.fabs (ra rb : Reg) : TableRow.Statement (.fabs ra rb) :=
  fun _ => ⟨rfl, _, _, rfl, firstWord_op _ _ _⟩

theorem TableRow.fs (ra rx : Reg) (a : Word) : TableRow.Statement (.fs ra rx a) :=
  fun _ => ⟨rfl, _, _, rfl, firstWord_op _ _ _⟩

theorem TableRow.fsr (ra rb : Reg) : TableRow.Statement (.fsr ra rb) :=
  fun _ => ⟨rfl, _, _, rfl, firstWord_op _ _ _⟩

theorem TableRow.efs (ra rx : Reg) (a : Word) : TableRow.Statement (.efs ra rx a) :=
  fun _ => ⟨rfl, _, _, rfl, firstWord_op _ _ _⟩

theorem TableRow.efsr (ra rb : Reg) : TableRow.Statement (.efsr ra rb) :=
  fun _ => ⟨rfl, _, _, rfl, firstWord_op _ _ _⟩

theorem TableRow.fneg (ra rb : Reg) : TableRow.Statement (.fneg ra rb) :=
  fun _ => ⟨rfl, _, _, rfl, firstWord_op _ _ _⟩

theorem TableRow.fm (ra rx : Reg) (a : Word) : TableRow.Statement (.fm ra rx a) :=
  fun _ => ⟨rfl, _, _, rfl, firstWord_op _ _ _⟩

theorem TableRow.fmr (ra rb : Reg) : TableRow.Statement (.fmr ra rb) :=
  fun _ => ⟨rfl, _, _, rfl, firstWord_op _ _ _⟩

theorem TableRow.efm (ra rx : Reg) (a : Word) : TableRow.Statement (.efm ra rx a) :=
  fun _ => ⟨rfl, _, _, rfl, firstWord_op _ _ _⟩

theorem TableRow.efmr (ra rb : Reg) : TableRow.Statement (.efmr ra rb) :=
  fun _ => ⟨rfl, _, _, rfl, firstWord_op _ _ _⟩

theorem TableRow.fd (ra rx : Reg) (a : Word) : TableRow.Statement (.fd ra rx a) :=
  fun _ => ⟨rfl, _, _, rfl, firstWord_op _ _ _⟩

theorem TableRow.fdr (ra rb : Reg) : TableRow.Statement (.fdr ra rb) :=
  fun _ => ⟨rfl, _, _, rfl, firstWord_op _ _ _⟩

theorem TableRow.efd (ra rx : Reg) (a : Word) : TableRow.Statement (.efd ra rx a) :=
  fun _ => ⟨rfl, _, _, rfl, firstWord_op _ _ _⟩

theorem TableRow.efdr (ra rb : Reg) : TableRow.Statement (.efdr ra rb) :=
  fun _ => ⟨rfl, _, _, rfl, firstWord_op _ _ _⟩

theorem TableRow.fix (ra rb : Reg) : TableRow.Statement (.fix ra rb) :=
  fun _ => ⟨rfl, _, _, rfl, firstWord_op _ _ _⟩

theorem TableRow.flt (ra rb : Reg) : TableRow.Statement (.flt ra rb) :=
  fun _ => ⟨rfl, _, _, rfl, firstWord_op _ _ _⟩

theorem TableRow.efix (ra rb : Reg) : TableRow.Statement (.efix ra rb) :=
  fun _ => ⟨rfl, _, _, rfl, firstWord_op _ _ _⟩

theorem TableRow.eflt (ra rb : Reg) : TableRow.Statement (.eflt ra rb) :=
  fun _ => ⟨rfl, _, _, rfl, firstWord_op _ _ _⟩

theorem TableRow.fc (ra rx : Reg) (a : Word) : TableRow.Statement (.fc ra rx a) :=
  fun _ => ⟨rfl, _, _, rfl, firstWord_op _ _ _⟩

theorem TableRow.fcr (ra rb : Reg) : TableRow.Statement (.fcr ra rb) :=
  fun _ => ⟨rfl, _, _, rfl, firstWord_op _ _ _⟩

theorem TableRow.efc (ra rx : Reg) (a : Word) : TableRow.Statement (.efc ra rx a) :=
  fun _ => ⟨rfl, _, _, rfl, firstWord_op _ _ _⟩

theorem TableRow.efcr (ra rb : Reg) : TableRow.Statement (.efcr ra rb) :=
  fun _ => ⟨rfl, _, _, rfl, firstWord_op _ _ _⟩

theorem TableRow.sb (n : Fin 16) (rx : Reg) (a : Word) : TableRow.Statement (.sb n rx a) :=
  fun _ => ⟨rfl, _, _, rfl, firstWord_op _ _ _⟩

theorem TableRow.sbr (n : Fin 16) (rb : Reg) : TableRow.Statement (.sbr n rb) :=
  fun _ => ⟨rfl, _, _, rfl, firstWord_op _ _ _⟩

theorem TableRow.sbi (n : Fin 16) (rx : Reg) (a : Word) : TableRow.Statement (.sbi n rx a) :=
  fun _ => ⟨rfl, _, _, rfl, firstWord_op _ _ _⟩

theorem TableRow.rb (n : Fin 16) (rx : Reg) (a : Word) : TableRow.Statement (.rb n rx a) :=
  fun _ => ⟨rfl, _, _, rfl, firstWord_op _ _ _⟩

theorem TableRow.rbr (n : Fin 16) (rb : Reg) : TableRow.Statement (.rbr n rb) :=
  fun _ => ⟨rfl, _, _, rfl, firstWord_op _ _ _⟩

theorem TableRow.rbi (n : Fin 16) (rx : Reg) (a : Word) : TableRow.Statement (.rbi n rx a) :=
  fun _ => ⟨rfl, _, _, rfl, firstWord_op _ _ _⟩

theorem TableRow.tb (n : Fin 16) (rx : Reg) (a : Word) : TableRow.Statement (.tb n rx a) :=
  fun _ => ⟨rfl, _, _, rfl, firstWord_op _ _ _⟩

theorem TableRow.tbr (n : Fin 16) (rb : Reg) : TableRow.Statement (.tbr n rb) :=
  fun _ => ⟨rfl, _, _, rfl, firstWord_op _ _ _⟩

theorem TableRow.tbi (n : Fin 16) (rx : Reg) (a : Word) : TableRow.Statement (.tbi n rx a) :=
  fun _ => ⟨rfl, _, _, rfl, firstWord_op _ _ _⟩

theorem TableRow.tsb (n : Fin 16) (rx : Reg) (a : Word) : TableRow.Statement (.tsb n rx a) :=
  fun _ => ⟨rfl, _, _, rfl, firstWord_op _ _ _⟩

theorem TableRow.svbr (ra rb : Reg) : TableRow.Statement (.svbr ra rb) :=
  fun _ => ⟨rfl, _, _, rfl, firstWord_op _ _ _⟩

theorem TableRow.rvbr (ra rb : Reg) : TableRow.Statement (.rvbr ra rb) :=
  fun _ => ⟨rfl, _, _, rfl, firstWord_op _ _ _⟩

theorem TableRow.tvbr (ra rb : Reg) : TableRow.Statement (.tvbr ra rb) :=
  fun _ => ⟨rfl, _, _, rfl, firstWord_op _ _ _⟩

theorem TableRow.sll (n : Nat) (rb : Reg) : TableRow.Statement (.sll n rb) :=
  fun _ => ⟨rfl, _, _, rfl, firstWord_op _ _ _⟩

theorem TableRow.srl (n : Nat) (rb : Reg) : TableRow.Statement (.srl n rb) :=
  fun _ => ⟨rfl, _, _, rfl, firstWord_op _ _ _⟩

theorem TableRow.sra (n : Nat) (rb : Reg) : TableRow.Statement (.sra n rb) :=
  fun _ => ⟨rfl, _, _, rfl, firstWord_op _ _ _⟩

theorem TableRow.slc (n : Nat) (rb : Reg) : TableRow.Statement (.slc n rb) :=
  fun _ => ⟨rfl, _, _, rfl, firstWord_op _ _ _⟩

theorem TableRow.dsll (n : Nat) (rb : Reg) : TableRow.Statement (.dsll n rb) :=
  fun _ => ⟨rfl, _, _, rfl, firstWord_op _ _ _⟩

theorem TableRow.dsrl (n : Nat) (rb : Reg) : TableRow.Statement (.dsrl n rb) :=
  fun _ => ⟨rfl, _, _, rfl, firstWord_op _ _ _⟩

theorem TableRow.dsra (n : Nat) (rb : Reg) : TableRow.Statement (.dsra n rb) :=
  fun _ => ⟨rfl, _, _, rfl, firstWord_op _ _ _⟩

theorem TableRow.dslc (n : Nat) (rb : Reg) : TableRow.Statement (.dslc n rb) :=
  fun _ => ⟨rfl, _, _, rfl, firstWord_op _ _ _⟩

theorem TableRow.slr (ra rb : Reg) : TableRow.Statement (.slr ra rb) :=
  fun _ => ⟨rfl, _, _, rfl, firstWord_op _ _ _⟩

theorem TableRow.sar (ra rb : Reg) : TableRow.Statement (.sar ra rb) :=
  fun _ => ⟨rfl, _, _, rfl, firstWord_op _ _ _⟩

theorem TableRow.scr (ra rb : Reg) : TableRow.Statement (.scr ra rb) :=
  fun _ => ⟨rfl, _, _, rfl, firstWord_op _ _ _⟩

theorem TableRow.dslr (ra rb : Reg) : TableRow.Statement (.dslr ra rb) :=
  fun _ => ⟨rfl, _, _, rfl, firstWord_op _ _ _⟩

theorem TableRow.dsar (ra rb : Reg) : TableRow.Statement (.dsar ra rb) :=
  fun _ => ⟨rfl, _, _, rfl, firstWord_op _ _ _⟩

theorem TableRow.dscr (ra rb : Reg) : TableRow.Statement (.dscr ra rb) :=
  fun _ => ⟨rfl, _, _, rfl, firstWord_op _ _ _⟩

theorem TableRow.lb (br : Reg) (du : Byte) : TableRow.Statement (.lb br du) :=
  fun h => ⟨rfl, _, _, rfl, base_mask 0 br h _⟩

theorem TableRow.dlb (br : Reg) (du : Byte) : TableRow.Statement (.dlb br du) :=
  fun h => ⟨rfl, _, _, rfl, base_mask 1 br h _⟩

theorem TableRow.stb (br : Reg) (du : Byte) : TableRow.Statement (.stb br du) :=
  fun h => ⟨rfl, _, _, rfl, base_mask 2 br h _⟩

theorem TableRow.dstb (br : Reg) (du : Byte) : TableRow.Statement (.dstb br du) :=
  fun h => ⟨rfl, _, _, rfl, base_mask 3 br h _⟩

theorem TableRow.lbx (br rx : Reg) : TableRow.Statement (.lbx br rx) :=
  fun h => ⟨rfl, _, _, rfl, baseIndexed_mask 0x0 br h _⟩

theorem TableRow.dlbx (br rx : Reg) : TableRow.Statement (.dlbx br rx) :=
  fun h => ⟨rfl, _, _, rfl, baseIndexed_mask 0x1 br h _⟩

theorem TableRow.stbx (br rx : Reg) : TableRow.Statement (.stbx br rx) :=
  fun h => ⟨rfl, _, _, rfl, baseIndexed_mask 0x2 br h _⟩

theorem TableRow.dstx (br rx : Reg) : TableRow.Statement (.dstx br rx) :=
  fun h => ⟨rfl, _, _, rfl, baseIndexed_mask 0x3 br h _⟩

theorem TableRow.l (ra rx : Reg) (a : Word) : TableRow.Statement (.l ra rx a) :=
  fun _ => ⟨rfl, _, _, rfl, firstWord_op _ _ _⟩

theorem TableRow.lr (ra rb : Reg) : TableRow.Statement (.lr ra rb) :=
  fun _ => ⟨rfl, _, _, rfl, firstWord_op _ _ _⟩

theorem TableRow.lisp (ra : Reg) (n : Nat) : TableRow.Statement (.lisp ra n) :=
  fun _ => ⟨rfl, _, _, rfl, firstWord_op _ _ _⟩

theorem TableRow.lisn (ra : Reg) (n : Nat) : TableRow.Statement (.lisn ra n) :=
  fun _ => ⟨rfl, _, _, rfl, firstWord_op _ _ _⟩

theorem TableRow.li (ra rx : Reg) (a : Word) : TableRow.Statement (.li ra rx a) :=
  fun _ => ⟨rfl, _, _, rfl, firstWord_op _ _ _⟩

theorem TableRow.lim (ra rx : Reg) (data : Word) : TableRow.Statement (.lim ra rx data) :=
  fun _ => ⟨rfl, _, _, rfl, firstWord_op _ _ _⟩

theorem TableRow.dl (ra rx : Reg) (a : Word) : TableRow.Statement (.dl ra rx a) :=
  fun _ => ⟨rfl, _, _, rfl, firstWord_op _ _ _⟩

theorem TableRow.dlr (ra rb : Reg) : TableRow.Statement (.dlr ra rb) :=
  fun _ => ⟨rfl, _, _, rfl, firstWord_op _ _ _⟩

theorem TableRow.dli (ra rx : Reg) (a : Word) : TableRow.Statement (.dli ra rx a) :=
  fun _ => ⟨rfl, _, _, rfl, firstWord_op _ _ _⟩

theorem TableRow.efl (ra rx : Reg) (a : Word) : TableRow.Statement (.efl ra rx a) :=
  fun _ => ⟨rfl, _, _, rfl, firstWord_op _ _ _⟩

theorem TableRow.lub (ra rx : Reg) (a : Word) : TableRow.Statement (.lub ra rx a) :=
  fun _ => ⟨rfl, _, _, rfl, firstWord_op _ _ _⟩

theorem TableRow.llb (ra rx : Reg) (a : Word) : TableRow.Statement (.llb ra rx a) :=
  fun _ => ⟨rfl, _, _, rfl, firstWord_op _ _ _⟩

theorem TableRow.lubi (ra rx : Reg) (a : Word) : TableRow.Statement (.lubi ra rx a) :=
  fun _ => ⟨rfl, _, _, rfl, firstWord_op _ _ _⟩

theorem TableRow.llbi (ra rx : Reg) (a : Word) : TableRow.Statement (.llbi ra rx a) :=
  fun _ => ⟨rfl, _, _, rfl, firstWord_op _ _ _⟩

theorem TableRow.st (ra rx : Reg) (a : Word) : TableRow.Statement (.st ra rx a) :=
  fun _ => ⟨rfl, _, _, rfl, firstWord_op _ _ _⟩

theorem TableRow.stc (n : Fin 16) (rx : Reg) (a : Word) : TableRow.Statement (.stc n rx a) :=
  fun _ => ⟨rfl, _, _, rfl, firstWord_op _ _ _⟩

theorem TableRow.stci (n : Fin 16) (rx : Reg) (a : Word) : TableRow.Statement (.stci n rx a) :=
  fun _ => ⟨rfl, _, _, rfl, firstWord_op _ _ _⟩

theorem TableRow.sti (ra rx : Reg) (a : Word) : TableRow.Statement (.sti ra rx a) :=
  fun _ => ⟨rfl, _, _, rfl, firstWord_op _ _ _⟩

theorem TableRow.dst (ra rx : Reg) (a : Word) : TableRow.Statement (.dst ra rx a) :=
  fun _ => ⟨rfl, _, _, rfl, firstWord_op _ _ _⟩

theorem TableRow.srm (ra rx : Reg) (a : Word) : TableRow.Statement (.srm ra rx a) :=
  fun _ => ⟨rfl, _, _, rfl, firstWord_op _ _ _⟩

theorem TableRow.dsti (ra rx : Reg) (a : Word) : TableRow.Statement (.dsti ra rx a) :=
  fun _ => ⟨rfl, _, _, rfl, firstWord_op _ _ _⟩

theorem TableRow.efst (ra rx : Reg) (a : Word) : TableRow.Statement (.efst ra rx a) :=
  fun _ => ⟨rfl, _, _, rfl, firstWord_op _ _ _⟩

theorem TableRow.stub (ra rx : Reg) (a : Word) : TableRow.Statement (.stub ra rx a) :=
  fun _ => ⟨rfl, _, _, rfl, firstWord_op _ _ _⟩

theorem TableRow.stlb (ra rx : Reg) (a : Word) : TableRow.Statement (.stlb ra rx a) :=
  fun _ => ⟨rfl, _, _, rfl, firstWord_op _ _ _⟩

theorem TableRow.subi (ra rx : Reg) (a : Word) : TableRow.Statement (.subi ra rx a) :=
  fun _ => ⟨rfl, _, _, rfl, firstWord_op _ _ _⟩

theorem TableRow.slbi (ra rx : Reg) (a : Word) : TableRow.Statement (.slbi ra rx a) :=
  fun _ => ⟨rfl, _, _, rfl, firstWord_op _ _ _⟩

theorem TableRow.xbr (ra : Reg) : TableRow.Statement (.xbr ra) :=
  fun _ => ⟨rfl, _, _, rfl, firstWord_op _ _ _⟩

theorem TableRow.xwr (ra rb : Reg) : TableRow.Statement (.xwr ra rb) :=
  fun _ => ⟨rfl, _, _, rfl, firstWord_op _ _ _⟩

theorem TableRow.lm (n : Fin 16) (rx : Reg) (a : Word) : TableRow.Statement (.lm n rx a) :=
  fun _ => ⟨rfl, _, _, rfl, firstWord_op _ _ _⟩

theorem TableRow.popm (ra rb : Reg) : TableRow.Statement (.popm ra rb) :=
  fun _ => ⟨rfl, _, _, rfl, firstWord_op _ _ _⟩

theorem TableRow.mov (ra rb : Reg) : TableRow.Statement (.mov ra rb) :=
  fun _ => ⟨rfl, _, _, rfl, firstWord_op _ _ _⟩

theorem TableRow.stm (n : Fin 16) (rx : Reg) (a : Word) : TableRow.Statement (.stm n rx a) :=
  fun _ => ⟨rfl, _, _, rfl, firstWord_op _ _ _⟩

theorem TableRow.pshm (ra rb : Reg) : TableRow.Statement (.pshm ra rb) :=
  fun _ => ⟨rfl, _, _, rfl, firstWord_op _ _ _⟩

theorem TableRow.jc (c : BitVec 4) (rx : Reg) (a : Word) : TableRow.Statement (.jc c rx a) :=
  fun _ => ⟨rfl, _, _, rfl, firstWord_op _ _ _⟩

theorem TableRow.jci (c : BitVec 4) (rx : Reg) (a : Word) : TableRow.Statement (.jci c rx a) :=
  fun _ => ⟨rfl, _, _, rfl, firstWord_op _ _ _⟩

theorem TableRow.js (ra rx : Reg) (a : Word) : TableRow.Statement (.js ra rx a) :=
  fun _ => ⟨rfl, _, _, rfl, firstWord_op _ _ _⟩

theorem TableRow.soj (ra rx : Reg) (a : Word) : TableRow.Statement (.soj ra rx a) :=
  fun _ => ⟨rfl, _, _, rfl, firstWord_op _ _ _⟩

theorem TableRow.br (d : Byte) : TableRow.Statement (.br d) :=
  fun _ => ⟨rfl, _, _, rfl, firstWord8_op _ _⟩

theorem TableRow.bez (d : Byte) : TableRow.Statement (.bez d) :=
  fun _ => ⟨rfl, _, _, rfl, firstWord8_op _ _⟩

theorem TableRow.blt (d : Byte) : TableRow.Statement (.blt d) :=
  fun _ => ⟨rfl, _, _, rfl, firstWord8_op _ _⟩

theorem TableRow.bex (n : Fin 16) : TableRow.Statement (.bex n) :=
  fun _ => ⟨rfl, _, _, rfl, firstWord_op _ _ _⟩

theorem TableRow.ble (d : Byte) : TableRow.Statement (.ble d) :=
  fun _ => ⟨rfl, _, _, rfl, firstWord8_op _ _⟩

theorem TableRow.bgt (d : Byte) : TableRow.Statement (.bgt d) :=
  fun _ => ⟨rfl, _, _, rfl, firstWord8_op _ _⟩

theorem TableRow.bnz (d : Byte) : TableRow.Statement (.bnz d) :=
  fun _ => ⟨rfl, _, _, rfl, firstWord8_op _ _⟩

theorem TableRow.bge (d : Byte) : TableRow.Statement (.bge d) :=
  fun _ => ⟨rfl, _, _, rfl, firstWord8_op _ _⟩

theorem TableRow.lsti (rx : Reg) (a : Word) : TableRow.Statement (.lsti rx a) :=
  fun _ => ⟨rfl, _, _, rfl, firstWord_op _ _ _⟩

theorem TableRow.lst (rx : Reg) (a : Word) : TableRow.Statement (.lst rx a) :=
  fun _ => ⟨rfl, _, _, rfl, firstWord_op _ _ _⟩

theorem TableRow.sjs (ra rx : Reg) (a : Word) : TableRow.Statement (.sjs ra rx a) :=
  fun _ => ⟨rfl, _, _, rfl, firstWord_op _ _ _⟩

theorem TableRow.urs (ra : Reg) : TableRow.Statement (.urs ra) :=
  fun _ => ⟨rfl, _, _, rfl, firstWord_op _ _ _⟩

theorem TableRow.bif (three : Bool) (cp : Fin 4) (rx : Reg) (a1 a2 : Word) : TableRow.Statement (.bif three cp rx a1 a2) :=
  fun _ => ⟨by cases three <;> rfl, _, _, rfl, bif_mask false three cp _⟩

theorem TableRow.bifi (three : Bool) (cp : Fin 4) (rx : Reg) (a1 a2 : Word) : TableRow.Statement (.bifi three cp rx a1 a2) :=
  fun _ => ⟨by cases three <;> rfl, _, _, rfl, bif_mask true three cp _⟩

theorem TableRow.nop : TableRow.Statement (.nop) :=
  fun _ => ⟨rfl, _, _, rfl, by decide⟩

theorem TableRow.bpt : TableRow.Statement (.bpt) :=
  fun _ => ⟨rfl, _, _, rfl, by decide⟩

theorem TableRow.xio (ra rx : Reg) (data : Word) : TableRow.Statement (.xio ra rx data) :=
  fun _ => ⟨rfl, _, _, rfl, firstWord_op _ _ _⟩

theorem TableRow.vio (ra rx : Reg) (a : Word) : TableRow.Statement (.vio ra rx a) :=
  fun _ => ⟨rfl, _, _, rfl, firstWord_op _ _ _⟩

end Sys2Proof.Laws
end

