-- ==== Sys2Proof/Laws/Results.lean ====
section
/-! SUPPORT. What the shared operations of loads, bit instructions, shifts, floating point, program control and I/O do where
no cycle draws a fault. -/

namespace Sys2Proof.Machine

/-! ## Loads -/

/-- A load of one word. -/
theorem load16_given (s : State) (ra : Reg) (v len : Word) :
    load16 ra (s.given v) len = .next ((s.setReg ra v).ends (signCs v.toInt) 0 len) := by
  simp only [load16, State.given_run, State.given_val, State.start_setReg]
  rw [State.settle_cs, pzn_eq]

/-- A load of two words. -/
theorem load32_given (s : State) (ra : Reg) (v : Long) (len : Word) :
    load32 ra (s.given v) len = .next ((s.setPair ra v).ends (signCs v.toInt) 0 len) := by
  simp only [load32, State.given_run, State.given_val, State.start_setPair]
  rw [State.settle_cs, pzn_eq]

/-- A load of three words. -/
theorem load48_given (s : State) (ra : Reg) (v : Triple) (len : Word) :
    load48 ra (s.given v) len = .next ((s.setTriple ra v).ends (signCs v.toInt) 0 len) := by
  simp only [load48, State.given_run, State.given_val, State.start_setTriple]
  rw [State.settle_cs, pzn_eq]

/-- A load of one byte. -/
theorem loadByte_start (s : State) (ra : Reg) (b : Byte) :
    loadByte ra b s.start =
      .next ((s.setReg ra (upperByte (s.reg ra) ++ b)).ends (signCs (upperByte (s.reg ra) ++ b).toInt) 0 2) := by
  simp only [loadByte, State.start_s, State.start_setReg]
  rw [State.settle_cs, pzn_eq]

/-! ## Bits -/

/-- A word of memory changed by `f` where it can be read and written. -/
theorem State.modify_clean (s : State) {da : Word} (f : Word → Word) (hr : s.readable da = true)
    (hw : s.writable da = true) :
    s.start.modify da f = (s.setMem (s.mem.writeWord (s.place da) (f (s.loaded da)))).start := by
  simp only [Run.modify, State.read_clean s hr, State.given_run, State.given_val]
  exact State.write_clean s _ hw

/-- A register changed by `f`. -/
theorem modifyReg_eq (f : Word → Word) (rb : Reg) (s : State) :
    modifyReg f rb s = .next ((s.setReg rb (f (s.reg rb))).past 1) := rfl

/-- CS from one bit. -/
theorem testInto_given (s : State) (n : Nat) (v len : Word) :
    testInto n (s.given v) len = .next (s.ends (testBits n v) 0 len) := by
  simp only [testInto, State.given_run, State.given_val]
  rw [State.settle_cs]

/-! ## Shifts -/

/-- A shift of one register by a constant. -/
theorem shiftConst_eq (f : Word → Nat → Word) (n : Nat) (rb : Reg) (s : State) :
    shiftConst f n rb s = .next ((s.setReg rb (f (s.reg rb) n)).ends (signCs (f (s.reg rb) n).toInt) 0 1) := by
  simp only [shiftConst, State.start_setReg]
  rw [State.settle_cs, pzn_eq]

/-- A shift of two registers by a constant. -/
theorem shiftConst2_eq (f : Long → Nat → Long) (n : Nat) (rb : Reg) (s : State) :
    shiftConst2 f n rb s = .next ((s.setPair rb (f (s.pair rb) n)).ends (signCs (f (s.pair rb) n).toInt) 0 1) := by
  simp only [shiftConst2, State.start_setPair]
  rw [State.settle_cs, pzn_eq]

/-- A shift of one register by a register. -/
theorem shiftReg_eq (left right : Word → Nat → Word) (arithmetic : Bool) (ra rb : Reg) (s : State) :
    shiftReg left right arithmetic ra rb s =
      let t := shiftBy left right arithmetic (s.reg ra) (s.reg rb).toInt
      .next ((s.setReg ra t.1).ends (signCs t.1.toInt) (pendingIf t.2 4) 1) := by
  simp only [shiftReg]
  rw [State.settle_reg, pzn_eq]

/-- A shift of two registers by a register. -/
theorem shiftReg2_eq (left right : Long → Nat → Long) (arithmetic : Bool) (ra rb : Reg) (s : State) :
    shiftReg2 left right arithmetic ra rb s =
      let t := shiftBy left right arithmetic (s.pair ra) (s.reg rb).toInt
      .next ((s.setPair ra t.1).ends (signCs t.1.toInt) (pendingIf t.2 4) 1) := by
  simp only [shiftReg2]
  rw [State.settle_pair, pzn_eq]

/-! ## Floating point -/

/-- The end of a floating-point instruction with a result in two registers. -/
theorem State.settle_float (s : State) (ra : Reg) (x : FloatResult) (len : Word) :
    (s.start.putFloat ra x).next len =
      .next ((s.setPair ra (packF x.m x.e)).ends (signCs x.m) (pendingIf x.overflow 3 ||| pendingIf x.underflow 6) len) := by
  simp only [Run.putFloat, State.start_setPair, State.start_pendIf, State.start_setCs, State.start_next, order_eq]
  simp [State.ends, State.past, State.setCs, State.setPir, withCs, BitVec.or_assoc, orderCs, signCs, State.setPair,
    State.setReg]

/-- The end of a floating-point instruction with a result in three registers. -/
theorem State.settle_extended (s : State) (ra : Reg) (x : FloatResult) (len : Word) :
    (s.start.putExtended ra x).next len =
      .next ((s.setTriple ra (packX x.m x.e)).ends (signCs x.m)
        (pendingIf x.overflow 3 ||| pendingIf x.underflow 6) len) := by
  simp only [Run.putExtended, State.start_setTriple, State.start_pendIf, State.start_setCs, State.start_next, order_eq]
  simp [State.ends, State.past, State.setCs, State.setPir, withCs, BitVec.or_assoc, orderCs, signCs, State.setTriple,
    State.setReg]

/-- A single-precision operation on operands with a stated result. -/
theorem float32_valid (s : State) (f : FloatNum → FloatNum → FloatResult) (ra : Reg) (v : Long) (len : Word)
    (ha : (unpackF (s.pair ra)).valid 24 = true) (hv : (unpackF v).valid 24 = true) :
    float32 f ra (s.given v) len =
      let x := f (unpackF (s.pair ra)) (unpackF v)
      .next ((s.setPair ra (packF x.m x.e)).ends (signCs x.m) (pendingIf x.overflow 3 ||| pendingIf x.underflow 6) len) := by
  simp only [float32, State.given_run, State.given_val, State.start_s, State.acceptsFloat, ha, hv, Bool.or_true,
    Bool.and_self, if_true]
  exact State.settle_float s ra _ len

/-- An extended operation on operands with a stated result. -/
theorem float48_valid (s : State) (f : FloatNum → FloatNum → FloatResult) (ra : Reg) (v : Triple) (len : Word)
    (ha : (unpackX (s.triple ra)).valid 40 = true) (hv : (unpackX v).valid 40 = true) :
    float48 f ra (s.given v) len =
      let x := f (unpackX (s.triple ra)) (unpackX v)
      .next ((s.setTriple ra (packX x.m x.e)).ends (signCs x.m)
        (pendingIf x.overflow 3 ||| pendingIf x.underflow 6) len) := by
  simp only [float48, State.given_run, State.given_val, State.start_s, State.acceptsFloat, ha, hv, Bool.or_true,
    Bool.and_self, if_true]
  exact State.settle_extended s ra _ len

/-- A single-precision compare of operands with a stated result. -/
theorem compareFloat32_valid (s : State) (ra : Reg) (v : Long) (len : Word)
    (ha : (unpackF (s.pair ra)).valid 24 = true) (hv : (unpackF v).valid 24 = true) :
    compareFloat32 ra (s.given v) len = .next (s.ends (floatOrder (unpackF (s.pair ra)) (unpackF v)) 0 len) := by
  simp only [compareFloat32, State.given_run, State.given_val, State.start_s, State.acceptsFloat, ha, hv, Bool.or_true,
    Bool.and_self, if_true]
  rw [State.settle_cs]

/-- An extended compare of operands with a stated result. -/
theorem compareFloat48_valid (s : State) (ra : Reg) (v : Triple) (len : Word)
    (ha : (unpackX (s.triple ra)).valid 40 = true) (hv : (unpackX v).valid 40 = true) :
    compareFloat48 ra (s.given v) len = .next (s.ends (floatOrder (unpackX (s.triple ra)) (unpackX v)) 0 len) := by
  simp only [compareFloat48, State.given_run, State.given_val, State.start_s, State.acceptsFloat, ha, hv, Bool.or_true,
    Bool.and_self, if_true]
  rw [State.settle_cs]

/-- FABS and FNEG on an operand with a stated result. -/
theorem floatUnary_valid (s : State) (f : FloatNum → FloatResult) (ra rb : Reg)
    (h : (unpackF (s.pair rb)).valid 24 = true) :
    floatUnary f ra rb s =
      let x := f (unpackF (s.pair rb))
      .next ((s.setPair ra (packF x.m x.e)).ends (signCs x.m) (pendingIf x.overflow 3 ||| pendingIf x.underflow 6) 1) := by
  simp only [floatUnary, State.acceptsFloat, h, Bool.or_true, if_true]
  exact State.settle_float s ra _ 1

/-! ## Program control -/

/-- The first of three words. -/
theorem word0_append (a b c : Word) : word0 (a ++ b ++ c) = a := by
  apply BitVec.eq_of_getLsbD_eq
  intro i hi
  simp only [word0, BitVec.getLsbD_extractLsb', BitVec.getLsbD_append, hi, decide_true, Bool.true_and]
  rw [if_neg (by omega), if_neg (by omega)]
  congr 1
  omega

/-- The second of three words. -/
theorem word1_append (a b c : Word) : word1 (a ++ b ++ c) = b := by
  apply BitVec.eq_of_getLsbD_eq
  intro i hi
  simp only [word1, BitVec.getLsbD_extractLsb', BitVec.getLsbD_append, hi, decide_true, Bool.true_and]
  rw [if_neg (by omega), if_pos (by omega)]
  congr 1
  omega

/-- The third of three words. -/
theorem word2_append (a b c : Word) : word2 (a ++ b ++ c) = c := by
  apply BitVec.eq_of_getLsbD_eq
  intro i hi
  simp only [word2, BitVec.getLsbD_extractLsb', BitVec.getLsbD_append, hi, decide_true, Bool.true_and]
  rw [if_pos (by omega)]
  congr 1
  omega

/-- A branch. -/
theorem branchIf_eq (c : Bool) (d : Byte) (s : State) :
    branchIf c d s = .next (s.setIc (if c then s.relativeAddress d else s.ic + 1)) := by
  cases c <;> rfl

/-- The load of a status from three readable words. -/
theorem loadStatusFrom_given (s : State) {p : Word} (h : s.readableSpan p 3 = true) :
    loadStatusFrom (s.given p) =
      if s.refusesStatus (s.loaded (p + 1)) then .next (s.addressStateFault.past 2)
      else .next (((s.setMask (s.loaded p)).setSw (s.loaded (p + 1))).setIc (s.loaded (p + 2))) := by
  obtain ⟨h0, h1, h2, ha⟩ := State.readableSpan_three h
  simp only [loadStatusFrom, State.given_run, State.given_val, State.read3_clean s h0 h1 h2 ha]
  have w0 : word0 (s.loaded3 p) = s.loaded p := by rw [State.loaded3, word0_append]
  have w1 : word1 (s.loaded3 p) = s.loaded (p + 1) := by rw [State.loaded3, word1_append]
  have w2 : word2 (s.loaded3 p) = s.loaded (p + 2) := by rw [State.loaded3, word2_append]
  rw [w0, w1, w2]
  exact State.loadStatus_start s _ _ _

/-! ## I/O -/

/-- An I/O write of an instruction at an address that draws no fault. -/
theorem State.start_ioWrite (s : State) {addr : Word} (data : Word) (hi : ioFlawAt s.platform .illegal addr = false)
    (hp : ioFlawAt s.platform .parity addr = false) :
    s.start.ioWrite addr data = ((s.chipWrite addr data).emit (.ioWrite addr data)).start := by
  have h : (s.chipWrite addr data).platform = s.platform := by
    unfold State.chipWrite
    split <;> (try split) <;> rfl
  have e : (s.chipWrite addr data).ioWrite addr data = (s.chipWrite addr data).emit (.ioWrite addr data) :=
    State.ioWrite_legal _ data (h ▸ hi) (h ▸ hp)
  rw [← e]
  rfl

/-- An I/O read of an instruction at an address that draws no fault. -/
theorem State.start_ioRead (s : State) {addr : Word} (hi : ioFlawAt s.platform .illegal addr = false)
    (hp : ioFlawAt s.platform .parity addr = false) :
    s.start.ioRead addr =
      { val := (s.ioAnswer addr).1, run := ((s.ioAnswer addr).2.emit (.ioRead addr (s.ioAnswer addr).1)).start } := by
  have hq : ioFlawAt ((s.ioAnswer addr).2.emit (.ioRead addr (s.ioAnswer addr).1)).platform .parity addr = false := by
    rw [← hp]
    unfold State.ioAnswer
    split
    · rfl
    · split
      · rfl
      · split <;> rfl
  simp only [Run.ioRead, State.start_halted, State.start_s, hi, Bool.false_eq_true, if_false, State.ioParity, hq]
  rfl

/-- A chain of no element. -/
theorem chain_none (cmd stride : Word) (bits : List Nat) (addr : Word) (r : Run) : chain cmd stride 0 bits addr r = r := by
  induction bits with
  | nil => rfl
  | cons n bits ih =>
    have h : bitOf 0 n = false := by simp [bitOf]
    simp only [chain, h, ih]
    rfl

end Sys2Proof.Machine
end

