-- ==== Sys2Proof/Tests/Slice0.lean ====
section
/-! SUPPORT. Tests: words written out from the encodings of the spec, the worked examples of the spec one step each, and, for
every statement with hypotheses, states and operands that meet them. -/

namespace Sys2Proof.Tests

open Sys2Proof Sys2Proof.Machine

/-! ## Helpers -/

/-- Each list of words decodes to its instruction, with nothing left over. -/
def reads (l : List (List Word × Instr)) : Bool := l.all fun p => decode p.1 = .instr p.2 []

/-- A state with these registers. -/
def withRegs (s : State) (l : List (Nat × Word)) : State := l.foldl (fun s p => s.setReg (Fin.ofNat 16 p.1) p.2) s

/-- A state with these words in memory. -/
def withMem (s : State) (l : List (Nat × Word)) : State :=
  l.foldl (fun s p => s.setMem (s.mem.writeWord (BitVec.ofNat 24 p.1) p.2)) s

/-- The next state, if there is one. -/
def nextOf : Result → Option State
  | .next t => some t
  | .fault _ => none
  | .refused _ => none

/-- `i` begun after reset with these registers and this memory ends with those, with this CS and this PIR. -/
def gives (i : Instr) (regs mem regs' mem' : List (Nat × Word)) (cs : BitVec 4) (pir : Word) : Bool :=
  match exec i (withMem (withRegs State.reset regs) mem) with
  | .next t => regs'.all (fun p => t.reg (Fin.ofNat 16 p.1) = p.2) &&
      mem'.all (fun p => t.mem.readWord (BitVec.ofNat 24 p.1) = p.2) && csField t.sw = cs && t.pir = pir
  | .fault _ => false
  | .refused _ => false

/-! ## Well-formedness -/

/-- An ill-formed term for each check: a base register below R12, a count of 17, a third word in the two-word form. -/
theorem test_wf_refuses : ([
     .lb 11 1, .dlb 11 1, .stb 11 1, .dstb 11 1, .ab 11 1, .sbb 11 1, .mb 11 1, .db 11 1, .fab 11 1, .fsb 11 1,
     .fmb 11 1, .fdb 11 1, .orb 11 1, .andb 11 1, .cb 11 1, .fcb 11 1, .lbx 11 1, .dlbx 11 1, .stbx 11 1,
     .dstx 11 1, .abx 11 1, .sbbx 11 1, .mbx 11 1, .dbx 11 1, .fabx 11 1, .fsbx 11 1, .fmbx 11 1, .fdbx 11 1,
     .cbx 11 1, .fcbx 11 1, .andx 11 1, .orbx 11 1, .sll 17 1, .srl 17 1, .sra 17 1, .slc 17 1, .dsll 17 1,
     .dsrl 17 1, .dsra 17 1, .dslc 17 1, .lisp 1 17, .lisn 1 17, .aisp 1 17, .incm 17 1 1, .sisp 1 17,
     .decm 17 1 1, .misp 1 17, .misn 1 17, .disp 1 17, .disn 1 17, .cisp 1 17, .cisn 1 17, .bif false 1 1 1 1,
     .bifi false 1 1 1 1] : List Instr).all (fun i => !i.wf) = true := by
  decide

/-- A count of 0 is refused. -/
theorem test_wf_refuses_zero : ([
     .sll 0 1, .srl 0 1, .sra 0 1, .slc 0 1, .dsll 0 1, .dsrl 0 1, .dsra 0 1, .dslc 0 1, .lisp 1 0, .lisn 1 0,
     .aisp 1 0, .incm 0 1 1, .sisp 1 0, .decm 0 1 1, .misp 1 0, .misn 1 0, .disp 1 0, .disn 1 0, .cisp 1 0,
     .cisn 1 0] : List Instr).all (fun i => !i.wf) = true := by
  decide

/-! ## Decoding -/

/-- Words in format B (7a) (30_encoding.md R131, R150). -/
theorem test_decode_base : reads
    [([0x01A7], .lb 13 0xA7), ([0x06A7], .dlb 14 0xA7), ([0x0BA7], .stb 15 0xA7), ([0x0DA7], .dstb 13 0xA7),
     ([0x12A7], .ab 14 0xA7), ([0x17A7], .sbb 15 0xA7), ([0x19A7], .mb 13 0xA7), ([0x1EA7], .db 14 0xA7),
     ([0x23A7], .fab 15 0xA7), ([0x25A7], .fsb 13 0xA7), ([0x2AA7], .fmb 14 0xA7), ([0x2FA7], .fdb 15 0xA7),
     ([0x31A7], .orb 13 0xA7), ([0x36A7], .andb 14 0xA7), ([0x3BA7], .cb 15 0xA7), ([0x3DA7], .fcb 13 0xA7)] = true := by
  decide

/-- Words in format BX (7b) (30_encoding.md R132, R151). -/
theorem test_decode_base_indexed : reads
    [([0x4209], .lbx 14 9), ([0x4319], .dlbx 15 9), ([0x4129], .stbx 13 9), ([0x4239], .dstx 14 9),
     ([0x4349], .abx 15 9), ([0x4159], .sbbx 13 9), ([0x4269], .mbx 14 9), ([0x4379], .dbx 15 9),
     ([0x4189], .fabx 13 9), ([0x4299], .fsbx 14 9), ([0x43A9], .fmbx 15 9), ([0x41B9], .fdbx 13 9),
     ([0x42C9], .cbx 14 9), ([0x43D9], .fcbx 15 9), ([0x41E9], .andx 13 9), ([0x42F9], .orbx 14 9)] = true := by
  decide

/-- Words in format IM, IMX (4b) (30_encoding.md R128). -/
theorem test_decode_immediate_indexed : reads
    [([0x48B5, 0x1234], .xio 11 5 0x1234), ([0x85B5, 0x1234], .lim 11 5 0x1234)] = true := by
  decide

/-- Words in format D, DX (2) (30_encoding.md R126). -/
theorem test_decode_direct_1 : reads
    [([0x49B5, 0x1234], .vio 11 5 0x1234), ([0x50B5, 0x1234], .sb 11 5 0x1234),
     ([0x53B5, 0x1234], .rb 11 5 0x1234), ([0x56B5, 0x1234], .tb 11 5 0x1234),
     ([0x59B5, 0x1234], .tsb 11 5 0x1234), ([0x70B5, 0x1234], .jc 11 5 0x1234),
     ([0x72B5, 0x1234], .js 11 5 0x1234), ([0x73B5, 0x1234], .soj 11 5 0x1234),
     ([0x7D05, 0x1234], .lst 5 0x1234), ([0x7EB5, 0x1234], .sjs 11 5 0x1234),
     ([0x80B5, 0x1234], .l 11 5 0x1234), ([0x86B5, 0x1234], .dl 11 5 0x1234),
     ([0x89B5, 0x1234], .lm 11 5 0x1234), ([0x8AB5, 0x1234], .efl 11 5 0x1234),
     ([0x8BB5, 0x1234], .lub 11 5 0x1234), ([0x8CB5, 0x1234], .llb 11 5 0x1234),
     ([0x90B5, 0x1234], .st 11 5 0x1234), ([0x91B5, 0x1234], .stc 11 5 0x1234),
     ([0x96B5, 0x1234], .dst 11 5 0x1234), ([0x97B5, 0x1234], .srm 11 5 0x1234)] = true := by
  decide

/-- Words in format D, DX (2) (30_encoding.md R126). -/
theorem test_decode_direct_2 : reads
    [([0x99B5, 0x1234], .stm 11 5 0x1234), ([0x9AB5, 0x1234], .efst 11 5 0x1234),
     ([0x9BB5, 0x1234], .stub 11 5 0x1234), ([0x9CB5, 0x1234], .stlb 11 5 0x1234),
     ([0xA0B5, 0x1234], .a 11 5 0x1234), ([0xA3F5, 0x1234], .incm 16 5 0x1234),
     ([0xA6B5, 0x1234], .da 11 5 0x1234), ([0xA8B5, 0x1234], .fa 11 5 0x1234),
     ([0xAAB5, 0x1234], .efa 11 5 0x1234), ([0xB0B5, 0x1234], .s 11 5 0x1234),
     ([0xB3F5, 0x1234], .decm 16 5 0x1234), ([0xB6B5, 0x1234], .ds 11 5 0x1234),
     ([0xB8B5, 0x1234], .fs 11 5 0x1234), ([0xBAB5, 0x1234], .efs 11 5 0x1234),
     ([0xC0B5, 0x1234], .ms 11 5 0x1234), ([0xC4B5, 0x1234], .m 11 5 0x1234),
     ([0xC6B5, 0x1234], .dm 11 5 0x1234), ([0xC8B5, 0x1234], .fm 11 5 0x1234),
     ([0xCAB5, 0x1234], .efm 11 5 0x1234), ([0xD0B5, 0x1234], .dv 11 5 0x1234)] = true := by
  decide

/-- Words in format D, DX (2) (30_encoding.md R126). -/
theorem test_decode_direct_3 : reads
    [([0xD4B5, 0x1234], .d 11 5 0x1234), ([0xD6B5, 0x1234], .dd 11 5 0x1234),
     ([0xD8B5, 0x1234], .fd 11 5 0x1234), ([0xDAB5, 0x1234], .efd 11 5 0x1234),
     ([0xE0B5, 0x1234], .or 11 5 0x1234), ([0xE2B5, 0x1234], .and 11 5 0x1234),
     ([0xE4B5, 0x1234], .xor 11 5 0x1234), ([0xE6B5, 0x1234], .n 11 5 0x1234),
     ([0xF0B5, 0x1234], .c 11 5 0x1234), ([0xF4B5, 0x1234], .cbl 11 5 0x1234),
     ([0xF6B5, 0x1234], .dc 11 5 0x1234), ([0xF8B5, 0x1234], .fc 11 5 0x1234),
     ([0xFAB5, 0x1234], .efc 11 5 0x1234)] = true := by
  decide

/-- Words in format R (1) (30_encoding.md R125). -/
theorem test_decode_register_1 : reads
    [([0x513D], .sbr 3 13), ([0x543D], .rbr 3 13), ([0x573D], .tbr 3 13), ([0x5A3C], .svbr 3 12),
     ([0x5C3C], .rvbr 3 12), ([0x5E3C], .tvbr 3 12), ([0x603D], .sll 4 13), ([0x613D], .srl 4 13),
     ([0x623D], .sra 4 13), ([0x633D], .slc 4 13), ([0x653D], .dsll 4 13), ([0x663D], .dsrl 4 13),
     ([0x673D], .dsra 4 13), ([0x683D], .dslc 4 13), ([0x6A3C], .slr 3 12), ([0x6B3C], .sar 3 12),
     ([0x6C3C], .scr 3 12), ([0x6D3C], .dslr 3 12), ([0x6E3C], .dsar 3 12), ([0x6F3C], .dscr 3 12)] = true := by
  decide

/-- Words in format R (1) (30_encoding.md R125). -/
theorem test_decode_register_2 : reads
    [([0x813C], .lr 3 12), ([0x873C], .dlr 3 12), ([0xA13C], .ar 3 12), ([0xA43C], .abs 3 12),
     ([0xA53C], .dabs 3 12), ([0xA73C], .dar 3 12), ([0xA93C], .far 3 12), ([0xAB3C], .efar 3 12),
     ([0xAC3C], .fabs 3 12), ([0xB13C], .sr 3 12), ([0xB43C], .neg 3 12), ([0xB53C], .dneg 3 12),
     ([0xB73C], .dsr 3 12), ([0xB93C], .fsr 3 12), ([0xBB3C], .efsr 3 12), ([0xBC3C], .fneg 3 12),
     ([0xC13C], .msr 3 12), ([0xC53C], .mr 3 12), ([0xC73C], .dmr 3 12), ([0xC93C], .fmr 3 12)] = true := by
  decide

/-- Words in format R (1) (30_encoding.md R125). -/
theorem test_decode_register_3 : reads
    [([0xCB3C], .efmr 3 12), ([0xD13C], .dvr 3 12), ([0xD53C], .dr 3 12), ([0xD73C], .ddr 3 12),
     ([0xD93C], .fdr 3 12), ([0xDB3C], .efdr 3 12), ([0xE13C], .orr 3 12), ([0xE33C], .andr 3 12),
     ([0xE53C], .xorr 3 12), ([0xE73C], .nr 3 12), ([0xE83C], .fix 3 12), ([0xE93C], .flt 3 12),
     ([0xEA3C], .efix 3 12), ([0xEB3C], .eflt 3 12), ([0xED3C], .xwr 3 12), ([0xF13C], .cr 3 12),
     ([0xF73C], .dcr 3 12), ([0xF93C], .fcr 3 12), ([0xFB3C], .efcr 3 12)] = true := by
  decide

/-- Words in format I, IX (3) (30_encoding.md R127). -/
theorem test_decode_indirect : reads
    [([0x52B5, 0x1234], .sbi 11 5 0x1234), ([0x55B5, 0x1234], .rbi 11 5 0x1234),
     ([0x58B5, 0x1234], .tbi 11 5 0x1234), ([0x71B5, 0x1234], .jci 11 5 0x1234),
     ([0x7C05, 0x1234], .lsti 5 0x1234), ([0x84B5, 0x1234], .li 11 5 0x1234),
     ([0x88B5, 0x1234], .dli 11 5 0x1234), ([0x8DB5, 0x1234], .lubi 11 5 0x1234),
     ([0x8EB5, 0x1234], .llbi 11 5 0x1234), ([0x92B5, 0x1234], .stci 11 5 0x1234),
     ([0x94B5, 0x1234], .sti 11 5 0x1234), ([0x98B5, 0x1234], .dsti 11 5 0x1234),
     ([0x9DB5, 0x1234], .subi 11 5 0x1234), ([0x9EB5, 0x1234], .slbi 11 5 0x1234)] = true := by
  decide

/-- Words in format ICR (6) (30_encoding.md R130). -/
theorem test_decode_relative : reads
    [([0x74FE], .br 0xFE), ([0x75FE], .bez 0xFE), ([0x76FE], .blt 0xFE), ([0x78FE], .ble 0xFE),
     ([0x79FE], .bgt 0xFE), ([0x7AFE], .bnz 0xFE), ([0x7BFE], .bge 0xFE)] = true := by
  decide

/-- Words in format S (30_encoding.md R155). -/
theorem test_decode_special : reads
    [([0x770C], .bex 12), ([0x7F50], .urs 5), ([0x8F3C], .popm 3 12), ([0x933C], .mov 3 12),
     ([0x9F3C], .pshm 3 12), ([0xEC50], .xbr 5), ([0xFF00], .nop), ([0xFFFF], .bpt)] = true := by
  decide

/-- Words in format ISP (5a) (30_encoding.md R129). -/
theorem test_decode_short_positive : reads
    [([0x826F], .lisp 6 16), ([0xA26F], .aisp 6 16), ([0xB26F], .sisp 6 16), ([0xC26F], .misp 6 16),
     ([0xD26F], .disp 6 16), ([0xF26F], .cisp 6 16)] = true := by
  decide

/-- Words in format ISN (5b) (30_encoding.md R129). -/
theorem test_decode_short_negative : reads
    [([0x836F], .lisn 6 16), ([0xC36F], .misn 6 16), ([0xD36F], .disn 6 16), ([0xF36F], .cisn 6 16)] = true := by
  decide

/-- Words in format IM (4a) (30_encoding.md R128, R152). -/
theorem test_decode_immediate : reads
    [([0x4A71, 0x1234], .aim 7 0x1234), ([0x4A72, 0x1234], .sim 7 0x1234), ([0x4A73, 0x1234], .mim 7 0x1234),
     ([0x4A74, 0x1234], .msim 7 0x1234), ([0x4A75, 0x1234], .dim 7 0x1234), ([0x4A76, 0x1234], .dvim 7 0x1234),
     ([0x4A77, 0x1234], .andm 7 0x1234), ([0x4A78, 0x1234], .orim 7 0x1234), ([0x4A79, 0x1234], .xorm 7 0x1234),
     ([0x4A7A, 0x1234], .cim 7 0x1234), ([0x4A7B, 0x1234], .nim 7 0x1234)] = true := by
  decide

/-- Words in format BIF (three words) (30_encoding.md R153). -/
theorem test_decode_built_in : reads
    [([0x4F66, 0x1234, 0x5678], .bif true 2 6 0x1234 0x5678),
     ([0x4FE6, 0x1234, 0x5678], .bifi true 2 6 0x1234 0x5678)] = true := by
  decide

/-! ## The worked examples of the spec, one step each -/

/-- Examples of R176 to R183. -/
theorem test_add :
    gives (.a 3 0 0x1000) [(3, 0x7FFF)] [(0x1000, 1)] [(3, 0x8000)] [] 1 0x800 = true ∧
    gives (.ar 3 4) [(3, 0xFFFF), (4, 1)] [] [(3, 0)] [] 10 0 = true ∧
    gives (.ab 12 0x10) [(2, 5), (0xC, 0xFF0)] [(0x1000, 3)] [(2, 8)] [] 4 0 = true ∧
    gives (.abx 12 5) [(2, 0x8000), (0xC, 0xFF0), (5, 0x10)] [(0x1000, 0x8000)] [(2, 0)] [] 10 0x800 = true ∧
    gives (.aisp 3 16) [(3, 0xFFF0)] [] [(3, 0)] [] 10 0 = true ∧
    gives (.aim 3 0xF000) [(3, 0x1234)] [] [(3, 0x234)] [] 12 0 = true ∧
    gives (.da 3 0 0x1000) [(3, 0x7FFF), (4, 0xFFFF)] [(0x1000, 0), (0x1001, 1)] [(3, 0x8000), (4, 0)] [] 1 0x800 = true ∧
    gives (.dar 3 5) [(3, 0), (4, 0xFFFF), (5, 0), (6, 1)] [] [(3, 1), (4, 0)] [] 4 0 = true := by
  decide

/-- Examples of R184 to R191. -/
theorem test_subtract :
    gives (.s 3 0 0x1000) [(3, 5)] [(0x1000, 3)] [(3, 2)] [] 12 0 = true ∧
    gives (.sr 3 4) [(3, 3), (4, 5)] [] [(3, 0xFFFE)] [] 1 0 = true ∧
    gives (.sbb 12 0x10) [(2, 0x8000), (0xC, 0xFF0)] [(0x1000, 1)] [(2, 0x7FFF)] [] 12 0x800 = true ∧
    gives (.sbbx 12 5) [(2, 0), (0xC, 0xFF0), (5, 0x10)] [(0x1000, 0)] [(2, 0)] [] 10 0 = true ∧
    gives (.sisp 3 1) [(3, 0)] [] [(3, 0xFFFF)] [] 1 0 = true ∧
    gives (.sim 3 0xFFFF) [(3, 0x7FFF)] [] [(3, 0x8000)] [] 1 0x800 = true ∧
    gives (.ds 3 0 0x1000) [(3, 1), (4, 0)] [(0x1000, 0), (0x1001, 1)] [(3, 0), (4, 0xFFFF)] [] 12 0 = true ∧
    gives (.dsr 3 5) [(3, 0x8000), (4, 0), (5, 0), (6, 1)] [] [(3, 0x7FFF), (4, 0xFFFF)] [] 12 0x800 = true := by
  decide

/-- Examples of R192, R193, R220, R221. -/
theorem test_negate_absolute :
    gives (.neg 3 4) [(4, 1)] [] [(3, 0xFFFF)] [] 1 0 = true ∧
    gives (.neg 3 4) [(4, 0x8000)] [] [(3, 0x8000)] [] 1 0x800 = true ∧
    gives (.dneg 3 5) [(5, 0), (6, 1)] [] [(3, 0xFFFF), (4, 0xFFFF)] [] 1 0 = true ∧
    gives (.abs 3 4) [(4, 0xFFFB)] [] [(3, 5)] [] 4 0 = true ∧
    gives (.abs 3 4) [(4, 0x8000)] [] [(3, 0x8000)] [] 1 0x800 = true ∧
    gives (.dabs 3 5) [(5, 0xFFFF), (6, 0xFFFE)] [] [(3, 0), (4, 2)] [] 4 0 = true := by
  decide

/-- Examples of R194 to R198, R204, R205. -/
theorem test_multiply_short :
    gives (.ms 3 0 0x1000) [(3, 3)] [(0x1000, 0xFFFE)] [(3, 0xFFFA)] [] 1 0 = true ∧
    gives (.msr 3 4) [(3, 0x100), (4, 0x100)] [] [(3, 0)] [] 2 0x800 = true ∧
    gives (.misp 3 16) [(3, 7)] [] [(3, 0x70)] [] 4 0 = true ∧
    gives (.misn 3 1) [(3, 7)] [] [(3, 0xFFF9)] [] 1 0 = true ∧
    gives (.msim 3 0xFFFF) [(3, 0x8000)] [] [(3, 0x8000)] [] 1 0x800 = true ∧
    gives (.dm 3 0 0x1000) [(3, 1), (4, 0)] [(0x1000, 1), (0x1001, 0)] [(3, 0), (4, 0)] [] 2 0x800 = true ∧
    gives (.dmr 3 5) [(3, 0xFFFF), (4, 0xFFFF), (5, 0), (6, 5)] [] [(3, 0xFFFF), (4, 0xFFFB)] [] 1 0 = true := by
  decide

/-- Examples of R199 to R203. -/
theorem test_multiply :
    gives (.m 3 0 0x1000) [(3, 0x8000)] [(0x1000, 0x8000)] [(3, 0x4000), (4, 0)] [] 4 0 = true ∧
    gives (.mr 3 5) [(3, 0xFFFF), (5, 2)] [] [(3, 0xFFFF), (4, 0xFFFE)] [] 1 0 = true ∧
    gives (.mb 12 0x10) [(2, 0x7FFF), (0xC, 0xFF0)] [(0x1000, 0x7FFF)] [(2, 0x3FFF), (3, 1)] [] 4 0 = true ∧
    gives (.mbx 12 5) [(2, 0), (0xC, 0xFF0), (5, 0x10)] [(0x1000, 0x1234)] [(2, 0), (3, 0)] [] 2 0 = true ∧
    gives (.mim 3 0x0100) [(3, 0x100)] [] [(3, 1), (4, 0)] [] 4 0 = true := by
  decide

/-- Examples of R206 to R210. -/
theorem test_divide_word :
    gives (.dv 3 0 0x1000) [(3, 0xFFF9)] [(0x1000, 2)] [(3, 0xFFFD), (4, 0xFFFF)] [] 1 0 = true ∧
    gives (.dvr 3 5) [(3, 0x8000), (5, 0xFFFF)] [] [(3, 0x8000), (4, 0)] [] 1 0x800 = true ∧
    gives (.disp 3 16) [(3, 0x64)] [] [(3, 6), (4, 4)] [] 4 0 = true ∧
    gives (.disn 3 2) [(3, 7)] [] [(3, 0xFFFD), (4, 1)] [] 1 0 = true ∧
    gives (.dvim 3 0) [(3, 0x1234)] [] [(3, 0), (4, 0)] [] 2 0x800 = true := by
  decide

/-- Examples of R211 to R217. -/
theorem test_divide_long :
    gives (.d 3 0 0x1000) [(3, 1), (4, 5)] [(0x1000, 2)] [(3, 0x8002), (4, 1)] [] 1 0x800 = true ∧
    gives (.dr 3 5) [(3, 0xFFFF), (4, 0xFFF9), (5, 2)] [] [(3, 0xFFFD), (4, 0xFFFF)] [] 1 0 = true ∧
    gives (.db 12 0x10) [(2, 0), (3, 0x64), (0xC, 0xFF0)] [(0x1000, 7)] [(2, 0xE), (3, 2)] [] 4 0 = true ∧
    gives (.dbx 12 5) [(2, 1), (3, 0x2345), (0xC, 0xFF0), (5, 0x10)] [(0x1000, 1)] [(2, 0x2345), (3, 0)] [] 4 0x800 = true ∧
    gives (.dim 3 0) [(3, 0), (4, 0x1234)] [] [(3, 0), (4, 0)] [] 2 0x800 = true ∧
    gives (.dd 3 0 0x1000) [(3, 1), (4, 0x86A0)] [(0x1000, 0xFFFF), (0x1001, 0xFFF9)] [(3, 0xFFFF), (4, 0xC833)] [] 1 0 = true ∧
    gives (.ddr 3 5) [(3, 0x8000), (4, 0), (5, 0xFFFF), (6, 0xFFFF)] [] [(3, 0x8000), (4, 0)] [] 1 0x800 = true := by
  decide

/-- Examples of R218, R219 and the corner cases of 95_test_vectors.md 2.1. -/
theorem test_count_in_memory :
    gives (.incm 1 0 0x1000) [] [(0x1000, 0x7FFF)] [] [(0x1000, 0x8000)] 1 0x800 = true ∧
    gives (.incm 1 0 0x1000) [] [(0x1000, 0xFFFF)] [] [(0x1000, 0)] 10 0 = true ∧
    gives (.decm 1 0 0x1000) [] [(0x1000, 0)] [] [(0x1000, 0xFFFF)] 1 0 = true ∧
    gives (.decm 16 0 0x1000) [] [(0x1000, 0x10)] [] [(0x1000, 0)] 10 0 = true := by
  decide

/-- Examples of R222 to R237. -/
theorem test_logic :
    gives (.or 3 0 0x1000) [(3, 0xF0)] [(0x1000, 0xF00)] [(3, 0xFF0)] [] 4 0 = true ∧
    gives (.orr 3 4) [(3, 0x8000), (4, 1)] [] [(3, 0x8001)] [] 1 0 = true ∧
    gives (.orb 12 0x10) [(2, 0), (0xC, 0xFF0)] [(0x1000, 0)] [(2, 0)] [] 2 0 = true ∧
    gives (.orbx 12 5) [(2, 0x1200), (0xC, 0xFF0), (5, 0x10)] [(0x1000, 0x34)] [(2, 0x1234)] [] 4 0 = true ∧
    gives (.orim 3 0xAAAA) [(3, 0x5555)] [] [(3, 0xFFFF)] [] 1 0 = true ∧
    gives (.and 3 0 0x1000) [(3, 0xFF0F)] [(0x1000, 0xFF0)] [(3, 0xF00)] [] 4 0 = true ∧
    gives (.andr 3 4) [(3, 0x5555), (4, 0xAAAA)] [] [(3, 0)] [] 2 0 = true ∧
    gives (.andb 12 0x10) [(2, 0xFFFF), (0xC, 0xFF0)] [(0x1000, 0x8000)] [(2, 0x8000)] [] 1 0 = true ∧
    gives (.andx 12 5) [(2, 0x1234), (0xC, 0xFF0), (5, 0x10)] [(0x1000, 0xFF)] [(2, 0x34)] [] 4 0 = true ∧
    gives (.andm 3 0xF00F) [(3, 0xABCD)] [] [(3, 0xA00D)] [] 1 0 = true ∧
    gives (.xor 3 0 0x1000) [(3, 0xFFFF)] [(0x1000, 0xFF)] [(3, 0xFF00)] [] 1 0 = true ∧
    gives (.xorr 3 4) [(3, 0x1234), (4, 0x1234)] [] [(3, 0)] [] 2 0 = true ∧
    gives (.xorm 3 0x8000) [(3, 0xF0F)] [] [(3, 0x8F0F)] [] 1 0 = true ∧
    gives (.n 3 0 0x1000) [(3, 0xFFFF)] [(0x1000, 0xFFFF)] [(3, 0)] [] 2 0 = true ∧
    gives (.nr 3 4) [(3, 0xFF), (4, 0xFF)] [] [(3, 0xFF00)] [] 1 0 = true ∧
    gives (.nim 3 0) [(3, 0x1234)] [] [(3, 0xFFFF)] [] 1 0 = true := by
  decide

/-- Examples of R238 to R247. -/
theorem test_compare :
    gives (.c 3 0 0x1000) [(3, 0x7FFF)] [(0x1000, 0x8000)] [(3, 0x7FFF)] [] 4 0 = true ∧
    gives (.cr 3 4) [(3, 5), (4, 5)] [] [(3, 5)] [] 2 0 = true ∧
    gives (.cb 12 0x10) [(2, 0xFFFF), (0xC, 0xFF0)] [(0x1000, 1)] [(2, 0xFFFF)] [] 1 0 = true ∧
    gives (.cbx 12 5) [(2, 2), (0xC, 0xFF0), (5, 0x10)] [(0x1000, 1)] [(2, 2)] [] 4 0 = true ∧
    gives (.cisp 3 16) [(3, 0x10)] [] [(3, 0x10)] [] 2 0 = true ∧
    gives (.cisn 3 1) [(3, 0xFFF0)] [] [(3, 0xFFF0)] [] 1 0 = true ∧
    gives (.cim 3 0x7FFF) [(3, 0x8000)] [] [(3, 0x8000)] [] 1 0 = true ∧
    gives (.dc 3 0 0x1000) [(3, 1), (4, 0)] [(0x1000, 0), (0x1001, 0xFFFF)] [] [] 4 0 = true ∧
    gives (.dcr 3 5) [(3, 0x8000), (4, 0), (5, 0), (6, 0)] [] [] [] 1 0 = true ∧
    gives (.cbl 3 0 0x1000) [(3, 5)] [(0x1000, 1), (0x1001, 0xA)] [] [] 2 0 = true ∧
    gives (.cbl 3 0 0x1000) [(3, 0xFFFF)] [(0x1000, 1), (0x1001, 0xA)] [] [] 1 0 = true ∧
    gives (.cbl 3 0 0x1000) [(3, 0xB)] [(0x1000, 1), (0x1001, 0xA)] [] [] 4 0 = true ∧
    gives (.cbl 3 0 0x1000) [(3, 5)] [(0x1000, 0xA), (0x1001, 1)] [] [] 8 0 = true := by
  decide

/-- Examples of R270 to R275, and alignment toward minus infinity (95_test_vectors.md 2.2). -/
theorem test_float_add :
    gives (.fa 3 0 0x1000) [(3, 0x4000), (4, 1)] [(0x1000, 0x4000), (0x1001, 1)] [(3, 0x4000), (4, 2)] [] 4 0 = true ∧
    gives (.far 3 5) [(3, 0x4000), (4, 2), (5, 0x4000), (6, 0)] [] [(3, 0x5000), (4, 2)] [] 4 0 = true ∧
    gives (.fab 12 0x10) [(0, 0x7FFF), (1, 0xFF7F), (0xC, 0xFF0)] [(0x1000, 0x7FFF), (0x1001, 0xFF7F)] [(0, 0x7FFF), (1, 0xFF7F)] [] 4 0x1000 = true ∧
    gives (.fabx 12 5) [(0, 0x4000), (1, 1), (0xC, 0xFF0), (5, 0x10)] [(0x1000, 0xA000), (0x1001, 1)] [(0, 0x8000), (1, 0xFF)] [] 1 0 = true ∧
    gives (.efa 3 0 0x1000) [(3, 0x4000), (4, 1), (5, 0)] [(0x1000, 0x4000), (0x1001, 1), (0x1002, 0)] [(3, 0x4000), (4, 2), (5, 0)] [] 4 0 = true ∧
    gives (.efar 3 6) [(3, 0x4000), (4, 1), (5, 0), (6, 0x4000), (7, 0xD9), (8, 0)] [] [(3, 0x4000), (4, 1), (5, 0)] [] 4 0 = true ∧
    gives (.far 3 5) [(3, 0x4000), (4, 0x18), (5, 0xBFFF), (6, 0xFF01)] [] [(3, 0x7FFF), (4, 0xFE17)] [] 4 0 = true := by
  decide

/-- Examples of R277 to R282, and a cancellation (95_test_vectors.md 2.2). -/
theorem test_float_subtract :
    gives (.fs 3 0 0x1000) [(3, 0x4000), (4, 1)] [(0x1000, 0x4000), (0x1001, 1)] [(3, 0), (4, 0)] [] 2 0 = true ∧
    gives (.fsr 3 5) [(3, 0x4000), (4, 2), (5, 0x4000), (6, 1)] [] [(3, 0x4000), (4, 1)] [] 4 0 = true ∧
    gives (.fsb 12 0x10) [(0, 0), (1, 0), (0xC, 0xFF0)] [(0x1000, 0x4000), (0x1001, 1)] [(0, 0x8000), (1, 0)] [] 1 0 = true ∧
    gives (.fsbx 12 5) [(0, 0x8000), (1, 0x7F), (0xC, 0xFF0), (5, 0x10)] [(0x1000, 0x7FFF), (0x1001, 0xFF7F)] [(0, 0x8000), (1, 0x7F)] [] 1 0x1000 = true ∧
    gives (.efs 3 0 0x1000) [(3, 0x4000), (4, 2), (5, 0)] [(0x1000, 0x4000), (0x1001, 1), (0x1002, 0)] [(3, 0x4000), (4, 1), (5, 0)] [] 4 0 = true ∧
    gives (.efsr 3 6) [(3, 0x4000), (4, 1), (5, 1), (6, 0x4000), (7, 1), (8, 0)] [] [(3, 0x4000), (4, 0xDB), (5, 0)] [] 4 0 = true ∧
    gives (.fsr 3 5) [(3, 0x4000), (4, 1), (5, 0x7FFF), (6, 0xFF00)] [] [(3, 0x4000), (4, 0xEB)] [] 4 0 = true := by
  decide

/-- Examples of R284 to R289. -/
theorem test_float_multiply :
    gives (.fm 3 0 0x1000) [(3, 0x4000), (4, 1)] [(0x1000, 0x4000), (0x1001, 1)] [(3, 0x4000), (4, 1)] [] 4 0 = true ∧
    gives (.fmr 3 5) [(3, 0x8000), (4, 0), (5, 0x8000), (6, 0)] [] [(3, 0x4000), (4, 1)] [] 4 0 = true ∧
    gives (.fmb 12 0x10) [(0, 0x6000), (1, 2), (0xC, 0xFF0)] [(0x1000, 0xA000), (0x1001, 2)] [(0, 0xB800), (1, 4)] [] 1 0 = true ∧
    gives (.fmbx 12 5) [(0, 0x4000), (1, 0x40), (0xC, 0xFF0), (5, 0x10)] [(0x1000, 0x4000), (0x1001, 0x40)] [(0, 0x7FFF), (1, 0xFF7F)] [] 4 0x1000 = true ∧
    gives (.efm 3 0 0x1000) [(3, 0x6000), (4, 2), (5, 0)] [(0x1000, 0x4000), (0x1001, 2), (0x1002, 0)] [(3, 0x6000), (4, 3), (5, 0)] [] 4 0 = true ∧
    gives (.efmr 3 6) [(3, 0x4000), (4, 0x81), (5, 0), (6, 0x4000), (7, 0x81), (8, 0)] [] [(3, 0), (4, 0), (5, 0)] [] 2 0x200 = true := by
  decide

/-- Examples of R290 to R295, and a negative number by zero (95_test_vectors.md 2.2). -/
theorem test_float_divide :
    gives (.fd 3 0 0x1000) [(3, 0x4000), (4, 1)] [(0x1000, 0x4000), (0x1001, 2)] [(3, 0x4000), (4, 0)] [] 4 0 = true ∧
    gives (.fdr 3 5) [(3, 0x4000), (4, 1), (5, 0), (6, 0)] [] [(3, 0x7FFF), (4, 0xFF7F)] [] 4 0x1000 = true ∧
    gives (.fdb 12 0x10) [(0, 0x4000), (1, 1), (0xC, 0xFF0)] [(0x1000, 0x6000), (0x1001, 2)] [(0, 0x5555), (1, 0x55FF)] [] 4 0 = true ∧
    gives (.fdbx 12 5) [(0, 0x4000), (1, 1), (0xC, 0xFF0), (5, 0x10)] [(0x1000, 0x8000), (0x1001, 0)] [(0, 0x8000), (1, 0)] [] 1 0 = true ∧
    gives (.efd 3 0 0x1000) [(3, 0x6000), (4, 2), (5, 0)] [(0x1000, 0x4000), (0x1001, 2), (0x1002, 0)] [(3, 0x6000), (4, 1), (5, 0)] [] 4 0 = true ∧
    gives (.efdr 3 6) [(3, 0), (4, 0), (5, 0), (6, 0x4000), (7, 1), (8, 0)] [] [(3, 0), (4, 0), (5, 0)] [] 2 0 = true ∧
    gives (.fdr 3 5) [(3, 0x8000), (4, 0), (5, 0), (6, 0)] [] [(3, 0x8000), (4, 0x7F)] [] 1 0x1000 = true := by
  decide

/-- Examples of R296 to R301. -/
theorem test_float_compare :
    gives (.fc 3 0 0x1000) [(3, 0x4000), (4, 1)] [(0x1000, 0x4000), (0x1001, 2)] [] [] 1 0 = true ∧
    gives (.fcr 3 5) [(3, 0x4000), (4, 1), (5, 0x4000), (6, 1)] [] [] [] 2 0 = true ∧
    gives (.fcb 12 0x10) [(0, 0x8000), (1, 5), (0xC, 0xFF0)] [(0x1000, 0x4000), (0x1001, 0xFF)] [] [] 1 0 = true ∧
    gives (.fcbx 12 5) [(0, 0x4000), (1, 0xFF), (0xC, 0xFF0), (5, 0x10)] [(0x1000, 0), (0x1001, 0)] [] [] 4 0 = true ∧
    gives (.efc 3 0 0x1000) [(3, 0x4000), (4, 1), (5, 1)] [(0x1000, 0x4000), (0x1001, 1), (0x1002, 0)] [] [] 4 0 = true ∧
    gives (.efcr 3 6) [(3, 0xA000), (4, 2), (5, 0), (6, 0x6000), (7, 2), (8, 0)] [] [] [] 1 0 = true := by
  decide

/-- Examples of R276, R283 and S12. -/
theorem test_float_sign :
    gives (.fabs 3 5) [(5, 0xA000), (6, 3)] [] [(3, 0x6000), (4, 3)] [] 4 0 = true ∧
    gives (.fabs 3 5) [(5, 0x8000), (6, 0)] [] [(3, 0x4000), (4, 1)] [] 4 0 = true ∧
    gives (.fneg 3 5) [(5, 0x4000), (6, 1)] [] [(3, 0x8000), (4, 0)] [] 1 0 = true ∧
    gives (.fneg 3 5) [(5, 0x6000), (6, 2)] [] [(3, 0xA000), (4, 2)] [] 1 0 = true ∧
    gives (.fneg 3 5) [(5, 0x8000), (6, 0x7F)] [] [(3, 0x7FFF), (4, 0xFF7F)] [] 4 0x1000 = true ∧
    gives (.fneg 3 5) [(5, 0x4000), (6, 0x80)] [] [(3, 0), (4, 0)] [] 2 0x200 = true := by
  decide

/-- Examples of R302 to R305. -/
theorem test_convert :
    gives (.fix 3 5) [(5, 0x5000), (6, 3)] [] [(3, 5)] [] 4 0 = true ∧
    gives (.fix 3 5) [(5, 0xA800), (6, 3)] [] [(3, 0xFFFB)] [] 1 0 = true ∧
    gives (.fix 3 5) [(3, 7), (5, 0x4000), (6, 0x10)] [] [(3, 7)] [] 4 0x800 = true ∧
    gives (.flt 3 5) [(5, 1)] [] [(3, 0x4000), (4, 1)] [] 4 0 = true ∧
    gives (.flt 3 5) [(5, 0xFFFF)] [] [(3, 0x8000), (4, 0)] [] 1 0 = true ∧
    gives (.flt 3 5) [(5, 0x8000)] [] [(3, 0x8000), (4, 0xF)] [] 1 0 = true ∧
    gives (.efix 3 6) [(6, 0x5000), (7, 3), (8, 0)] [] [(3, 0), (4, 5)] [] 4 0 = true ∧
    gives (.efix 3 6) [(6, 0x8000), (7, 0x1F), (8, 0)] [] [(3, 0x8000), (4, 0)] [] 1 0 = true ∧
    gives (.eflt 3 6) [(6, 0x1234), (7, 0x5678)] [] [(3, 0x48D1), (4, 0x591D), (5, 0xE000)] [] 4 0 = true := by
  decide

/-- Examples of R321 to R326, R330 to R332. -/
theorem test_bits :
    gives (.sb 0 0 0x1000) [] [(0x1000, 1)] [] [(0x1000, 0x8001)] 0 0 = true ∧
    gives (.sb 15 0 0x1000) [] [(0x1000, 0)] [] [(0x1000, 1)] 0 0 = true ∧
    gives (.sbr 3 4) [] [] [(4, 0x1000)] [] 0 0 = true ∧
    gives (.sbi 8 0 0x1000) [] [(0x1000, 0x2000), (0x2000, 0)] [] [(0x2000, 0x80)] 0 0 = true ∧
    gives (.rb 0 0 0x1000) [] [(0x1000, 0xFFFF)] [] [(0x1000, 0x7FFF)] 0 0 = true ∧
    gives (.rbr 15 4) [(4, 0xFFFF)] [] [(4, 0xFFFE)] [] 0 0 = true ∧
    gives (.rbi 4 0 0x1000) [] [(0x1000, 0x3000), (0x3000, 0xFFF)] [] [(0x3000, 0x7FF)] 0 0 = true ∧
    gives (.tsb 0 0 0x1000) [] [(0x1000, 0)] [] [(0x1000, 0x8000)] 2 0 = true ∧
    gives (.tsb 0 0 0x1000) [] [(0x1000, 0x8000)] [] [(0x1000, 0x8000)] 1 0 = true ∧
    gives (.svbr 3 4) [(3, 0xFFF3), (4, 0)] [] [(4, 0x1000)] [] 0 0 = true ∧
    gives (.svbr 3 3) [(3, 0)] [] [(3, 0x8000)] [] 0 0 = true ∧
    gives (.rvbr 3 4) [(3, 0xF), (4, 0xFFFF)] [] [(4, 0xFFFE)] [] 0 0 = true := by
  decide

/-- Examples of R327 to R329, R333. -/
theorem test_bit_tests :
    gives (.tb 0 0 0x1000) [] [(0x1000, 0x8000)] [] [] 1 0 = true ∧
    gives (.tb 1 0 0x1000) [] [(0x1000, 0x4000)] [] [] 4 0 = true ∧
    gives (.tb 1 0 0x1000) [] [(0x1000, 0x8000)] [] [] 2 0 = true ∧
    gives (.tbr 15 4) [(4, 1)] [] [] [] 4 0 = true ∧
    gives (.tbi 7 0 0x1000) [] [(0x1000, 0x2000), (0x2000, 0x100)] [] [] 4 0 = true ∧
    gives (.tvbr 3 4) [(3, 0), (4, 0x8000)] [] [] [] 1 0 = true := by
  decide

/-- Examples of R356 to R363 and S1 to S5. -/
theorem test_shift :
    gives (.sll 1 3) [(3, 0x8001)] [] [(3, 2)] [] 4 0 = true ∧
    gives (.sll 4 3) [(3, 0x8421)] [] [(3, 0x4210)] [] 4 0 = true ∧
    gives (.srl 1 3) [(3, 0x8001)] [] [(3, 0x4000)] [] 4 0 = true ∧
    gives (.sra 4 3) [(3, 0x8010)] [] [(3, 0xF801)] [] 1 0 = true ∧
    gives (.slc 1 3) [(3, 0x8001)] [] [(3, 3)] [] 4 0 = true ∧
    gives (.slc 4 3) [(3, 0x8421)] [] [(3, 0x4218)] [] 4 0 = true ∧
    gives (.dsll 1 3) [(3, 1), (4, 0x8000)] [] [(3, 3), (4, 0)] [] 4 0 = true ∧
    gives (.dsrl 1 3) [(3, 1), (4, 0x8000)] [] [(3, 0), (4, 0xC000)] [] 4 0 = true ∧
    gives (.dsra 16 3) [(3, 0x8001), (4, 0)] [] [(3, 0xFFFF), (4, 0x8001)] [] 1 0 = true ∧
    gives (.dslc 4 3) [(3, 0x8000), (4, 1)] [] [(3, 0), (4, 0x18)] [] 4 0 = true := by
  decide

/-- Examples of R364 to R366. -/
theorem test_shift_by_register :
    gives (.slr 3 5) [(3, 0x4001), (5, 1)] [] [(3, 0x8002)] [] 1 0 = true ∧
    gives (.slr 3 5) [(3, 0x4001), (5, 0xFFFF)] [] [(3, 0x2000)] [] 4 0 = true ∧
    gives (.slr 3 5) [(3, 0x4001), (5, 0x11)] [] [(3, 0x4001)] [] 4 0x800 = true ∧
    gives (.sar 3 5) [(3, 0x4001), (5, 1)] [] [(3, 0x8002)] [] 1 0x800 = true ∧
    gives (.sar 3 5) [(3, 0x4001), (5, 0xFFFF)] [] [(3, 0x2000)] [] 4 0 = true ∧
    gives (.sar 3 5) [(3, 0x4001), (5, 0x11)] [] [(3, 0x4001)] [] 4 0x800 = true ∧
    gives (.scr 3 5) [(3, 0x4001), (5, 1)] [] [(3, 0x8002)] [] 1 0 = true ∧
    gives (.scr 3 5) [(3, 0x4001), (5, 0xFFFF)] [] [(3, 0xA000)] [] 1 0 = true ∧
    gives (.scr 3 5) [(3, 0x4001), (5, 0x11)] [] [(3, 0x4001)] [] 4 0x800 = true := by
  decide

/-- Examples of R367 to R369. -/
theorem test_shift_double_by_register :
    gives (.dslr 3 5) [(3, 0x4000), (4, 1), (5, 1)] [] [(3, 0x8000), (4, 2)] [] 1 0 = true ∧
    gives (.dslr 3 5) [(3, 0x4000), (4, 1), (5, 0xFFFF)] [] [(3, 0x2000), (4, 0)] [] 4 0 = true ∧
    gives (.dslr 3 5) [(3, 0x4000), (4, 1), (5, 0x21)] [] [(3, 0x4000), (4, 1)] [] 4 0x800 = true ∧
    gives (.dsar 3 5) [(3, 0x4000), (4, 1), (5, 1)] [] [(3, 0x8000), (4, 2)] [] 1 0x800 = true ∧
    gives (.dsar 3 5) [(3, 0x4000), (4, 1), (5, 0xFFFF)] [] [(3, 0x2000), (4, 0)] [] 4 0 = true ∧
    gives (.dsar 3 5) [(3, 0x4000), (4, 1), (5, 0x21)] [] [(3, 0x4000), (4, 1)] [] 4 0x800 = true ∧
    gives (.dscr 3 5) [(3, 0x4000), (4, 1), (5, 1)] [] [(3, 0x8000), (4, 2)] [] 1 0 = true ∧
    gives (.dscr 3 5) [(3, 0x4000), (4, 1), (5, 0xFFFF)] [] [(3, 0xA000), (4, 0)] [] 1 0 = true ∧
    gives (.dscr 3 5) [(3, 0x4000), (4, 1), (5, 0x21)] [] [(3, 0x4000), (4, 1)] [] 4 0x800 = true := by
  decide

/-- Examples of R381 to R388. -/
theorem test_load :
    gives (.l 1 0 0x1000) [] [(0x1000, 0x8000)] [(1, 0x8000)] [] 1 0 = true ∧
    gives (.lr 3 4) [(3, 9), (4, 0)] [] [(3, 0)] [] 2 0 = true ∧
    gives (.lb 12 0xFF) [(0xC, 0x2000)] [(0x20FF, 7)] [(2, 7)] [] 4 0 = true ∧
    gives (.lbx 13 5) [(0xD, 0x2000), (5, 0x10)] [(0x2010, 0xFFFF)] [(2, 0xFFFF)] [] 1 0 = true ∧
    gives (.li 4 0 0x0100) [] [(0x100, 0x3000), (0x3000, 0x1234)] [(4, 0x1234)] [] 4 0 = true ∧
    gives (.lim 1 3 0xFFFE) [(3, 5)] [] [(1, 3)] [] 4 0 = true ∧
    gives (.lisp 3 16) [] [] [(3, 0x10)] [] 4 0 = true ∧
    gives (.lisn 3 1) [] [] [(3, 0xFFFF)] [] 1 0 = true ∧
    gives (.lisn 3 16) [] [] [(3, 0xFFF0)] [] 1 0 = true := by
  decide

/-- Examples of R389 to R394. -/
theorem test_load_long :
    gives (.dl 3 0 0x1000) [] [(0x1000, 0), (0x1001, 1)] [(3, 0), (4, 1)] [] 4 0 = true ∧
    gives (.dlr 3 5) [(5, 0xFFFF), (6, 0)] [] [(3, 0xFFFF), (4, 0)] [] 1 0 = true ∧
    gives (.dlb 14 2) [(0xE, 0x4000), (0, 1)] [(0x4002, 0), (0x4003, 0)] [(0, 0), (1, 0)] [] 2 0 = true ∧
    gives (.dlbx 15 1) [(0xF, 0x1000), (1, 4)] [(0x1004, 0x8000), (0x1005, 0)] [(0, 0x8000), (1, 0)] [] 1 0 = true ∧
    gives (.dli 3 0 0x0200) [] [(0x200, 0x5000), (0x5000, 0x12), (0x5001, 0x3456)] [(3, 0x12), (4, 0x3456)] [] 4 0 = true ∧
    gives (.efl 3 0 0x1000) [] [(0x1000, 0x4000), (0x1001, 1), (0x1002, 0)] [(3, 0x4000), (4, 1), (5, 0)] [] 4 0 = true := by
  decide

/-- Examples of R396 to R399. -/
theorem test_load_byte :
    gives (.lub 3 0 0x1000) [(3, 0xFF00)] [(0x1000, 0x12AB)] [(3, 0xFF12)] [] 1 0 = true ∧
    gives (.lubi 3 0 0x1000) [] [(0x1000, 0x2000), (0x2000, 0x8001)] [(3, 0x80)] [] 4 0 = true ∧
    gives (.llb 3 0 0x1000) [(3, 0xFF00)] [(0x1000, 0x12AB)] [(3, 0xFFAB)] [] 1 0 = true ∧
    gives (.llbi 3 0 0x1000) [] [(0x1000, 0x2000), (0x2000, 0x8000)] [(3, 0)] [] 2 0 = true := by
  decide

/-- Examples of R400 to R405. -/
theorem test_store :
    gives (.st 1 0 0x1000) [(1, 0xBEEF)] [] [] [(0x1000, 0xBEEF)] 0 0 = true ∧
    gives (.stb 12 0x10) [(0xC, 0x2000), (2, 1)] [] [] [(0x2010, 1)] 0 0 = true ∧
    gives (.stbx 13 4) [(0xD, 0x3000), (4, 2), (2, 0xAAAA)] [] [] [(0x3002, 0xAAAA)] 0 0 = true ∧
    gives (.sti 3 0 0x0100) [(3, 0x5555)] [(0x100, 0x4000)] [] [(0x4000, 0x5555)] 0 0 = true ∧
    gives (.stc 15 0 0x2000) [] [] [] [(0x2000, 0xF)] 0 0 = true ∧
    gives (.stci 0 0 0x0100) [] [(0x100, 0x2000), (0x2000, 9)] [] [(0x2000, 0)] 0 0 = true := by
  decide

/-- Examples of R407 to R410, R412. -/
theorem test_store_long :
    gives (.dst 3 0 0x1000) [(3, 0x12), (4, 0x3456)] [] [] [(0x1000, 0x12), (0x1001, 0x3456)] 0 0 = true ∧
    gives (.dstb 12 0) [(0xC, 0x1000), (0, 0x1111), (1, 0x2222)] [] [] [(0x1000, 0x1111), (0x1001, 0x2222)] 0 0 = true ∧
    gives (.dstx 14 3) [(0xE, 0x1000), (3, 0x100), (0, 5), (1, 6)] [] [] [(0x1100, 5), (0x1101, 6)] 0 0 = true ∧
    gives (.dsti 3 0 0x0100) [(3, 7), (4, 8)] [(0x100, 0x6000)] [] [(0x6000, 7), (0x6001, 8)] 0 0 = true ∧
    gives (.efst 3 0 0x1000) [(3, 0x4000), (4, 1), (5, 0)] [] [] [(0x1000, 0x4000), (0x1001, 1), (0x1002, 0)] 0 0 = true := by
  decide

/-- Examples of R411, R414 to R417. -/
theorem test_store_part :
    gives (.srm 3 0 0x1000) [(3, 0xFFFF), (4, 0xF0F)] [(0x1000, 0xAAAA)] [] [(0x1000, 0xAFAF)] 0 0 = true ∧
    gives (.stub 3 0 0x1000) [(3, 0x12AB)] [(0x1000, 0x5566)] [] [(0x1000, 0xAB66)] 0 0 = true ∧
    gives (.subi 3 0 0x1000) [(3, 0xFF)] [(0x1000, 0x2000)] [] [(0x2000, 0xFF00)] 0 0 = true ∧
    gives (.stlb 3 0 0x1000) [(3, 0x12AB)] [(0x1000, 0x5566)] [] [(0x1000, 0x55AB)] 0 0 = true ∧
    gives (.slbi 3 0 0x1000) [(3, 0x34)] [(0x1000, 0x2000), (0x2000, 0x12FF)] [] [(0x2000, 0x1234)] 0 0 = true := by
  decide

/-- Examples of R418, R419. -/
theorem test_exchange :
    gives (.xbr 3) [(3, 0x80)] [] [(3, 0x8000)] [] 1 0 = true ∧
    gives (.xwr 3 4) [(3, 1), (4, 0x8000)] [] [(3, 0x8000), (4, 1)] [] 1 0 = true := by
  decide

/-- Examples of R441 to R444, S7. -/
theorem test_multiple :
    gives (.pshm 3 5) [(3, 0xA), (4, 0xB), (5, 0xC), (0xF, 0x1000)] [] [(0xF, 0xFFD)] [(0xFFD, 0xA), (0xFFE, 0xB), (0xFFF, 0xC)] 0 0 = true ∧
    gives (.pshm 14 2) [(0xE, 0xE), (0, 1), (1, 2), (2, 3), (0xF, 0x1000)] [] [(0xF, 0xFFB)] [(0xFFB, 0xE), (0xFFC, 0xFFC), (0xFFD, 1), (0xFFE, 2), (0xFFF, 3)] 0 0 = true ∧
    gives (.popm 14 2) [(0xF, 0xFFB)] [(0xFFB, 0xE), (0xFFC, 0x9999), (0xFFD, 1), (0xFFE, 2), (0xFFF, 3)] [(0xE, 0xE), (0, 1), (1, 2), (2, 3), (0xF, 0x1000)] [] 0 0 = true ∧
    gives (.lm 2 0 0x2000) [] [(0x2000, 1), (0x2001, 2), (0x2002, 3)] [(0, 1), (1, 2), (2, 3)] [] 0 0 = true ∧
    gives (.stm 1 0 0x3000) [(0, 0xAAAA), (1, 0xBBBB)] [] [] [(0x3000, 0xAAAA), (0x3001, 0xBBBB)] 0 0 = true ∧
    gives (.mov 4 6) [(4, 0x200), (5, 3), (6, 0x100)] [(0x100, 0x1111)] [(4, 0x201), (5, 2), (6, 0x101)] [(0x200, 0x1111)] 0 0 = true := by
  decide

/-- A next state that passes the test. -/
def ends (r : Result) (test : State → Bool) : Bool :=
  match r with
  | .next t => test t
  | .fault _ => false
  | .refused _ => false

/-- Right after reset, at this IC, with this SW. -/
def at_ (ic sw : Word) : State := { State.reset with ic := ic, sw := sw }

/-- Right after reset on a system whose configuration word is this. -/
def onSystem (scr : Word) : State := State.resetWith { Platform.standard with scrValue := scr }

/-- Examples of R462, R464, R463 and R465. -/
theorem test_jumps :
    ends (exec (.jc 2 0 0x1234) (at_ 0x100 0x2000)) (fun t => t.ic = 0x1234) = true ∧
    ends (exec (.jc 2 0 0x1234) (at_ 0x100 0x4000)) (fun t => t.ic = 0x102) = true ∧
    ends (exec (.jci 15 0 0x0300) (withMem (at_ 0x100 0) [(0x300, 0x4000)])) (fun t => t.ic = 0x4000) = true ∧
    ends (exec (.js 5 0 0x2000) (at_ 0x100 0)) (fun t => t.ic = 0x2000 && t.reg 5 = 0x102) = true ∧
    ends (exec (.js 5 5 0x2000) (withRegs (at_ 0x100 0) [(5, 8)])) (fun t => t.ic = 0x2008 && t.reg 5 = 0x102) = true ∧
    ends (exec (.soj 3 0 0x2000) (withRegs (at_ 0x100 0) [(3, 2)]))
      (fun t => t.ic = 0x2000 && t.reg 3 = 1 && t.sw = 0x4000) = true ∧
    ends (exec (.soj 3 0 0x2000) (withRegs (at_ 0x100 0) [(3, 1)]))
      (fun t => t.ic = 0x102 && t.reg 3 = 0 && t.sw = 0x2000) = true := by
  decide

/-- Examples of R467 to R473 and R479. -/
theorem test_branches :
    ends (exec (.br 0xFE) (at_ 0x100 0)) (fun t => t.ic = 0xFE) = true ∧
    ends (exec (.bez 8) (at_ 0x100 0xA000)) (fun t => t.ic = 0x108) = true ∧
    ends (exec (.blt 8) (at_ 0x100 0x1000)) (fun t => t.ic = 0x108) = true ∧
    ends (exec (.blt 8) (at_ 0x100 0x4000)) (fun t => t.ic = 0x101) = true ∧
    ends (exec (.ble 8) (at_ 0x100 0x2000)) (fun t => t.ic = 0x108) = true ∧
    ends (exec (.bgt 8) (at_ 0x100 0x4000)) (fun t => t.ic = 0x108) = true ∧
    ends (exec (.bgt 8) (at_ 0x100 0x2000)) (fun t => t.ic = 0x101) = true ∧
    ends (exec (.bnz 8) (at_ 0x100 0x1000)) (fun t => t.ic = 0x108) = true ∧
    ends (exec (.bnz 8) (at_ 0x100 0x2000)) (fun t => t.ic = 0x101) = true ∧
    ends (exec (.bge 8) (at_ 0x100 0x9000)) (fun t => t.ic = 0x101) = true ∧
    ends (exec .nop (at_ 0x100 0x9000)) (fun t => t.ic = 0x101 && t.sw = 0x9000) = true := by
  decide

/-- Examples of R477 and R478. -/
theorem test_stack_linkage :
    ends (exec (.sjs 15 0 0x3000) (withRegs (at_ 0x200 0) [(15, 0x1000)]))
      (fun t => t.ic = 0x3000 && t.reg 15 = 0x0FFF && t.mem.readWord 0x0FFF = 0x202) = true ∧
    ends (exec (.urs 15) (withMem (withRegs (at_ 0x3000 0) [(15, 0x0FFF)]) [(0x0FFF, 0x202)]))
      (fun t => t.ic = 0x202 && t.reg 15 = 0x1000) = true := by
  decide

/-- Example of R474. -/
theorem test_bex :
    ends (exec (.bex 2) (withMem { at_ 0x1000 0x4031 with mask := 0x00FF, inten := true }
        [(0x2A, 0x50), (0x2B, 0xA0), (0xA0, 0xFFFF), (0xA4, 0x800)]))
      (fun t => t.mask = 0xFFFF && t.sw = 0 && t.ic = 0x800 && t.inten = false && t.pir = 0 &&
        t.mem.readWord 0x50 = 0xFF && t.mem.readWord 0x51 = 0x4031 && t.mem.readWord 0x52 = 0x1001 &&
        t.trace.head? = some (.ioWrite 0x1000 0xFBFF)) = true := by
  decide

/-- Examples of R475 and R476, with an MMU; and the refused address state of R668 without one. -/
theorem test_load_status :
    ends (exec (.lst 0 0x50) (withMem (onSystem 0x8000) [(0x50, 0xFF), (0x51, 0x4031), (0x52, 0x1001)]))
      (fun t => t.mask = 0xFF && t.sw = 0x4031 && t.ic = 0x1001) = true ∧
    ends (exec (.lsti 0 0x40) (withMem (onSystem 0x8000) [(0x40, 0x50), (0x50, 0xFF), (0x51, 0x4031), (0x52, 0x1001)]))
      (fun t => t.mask = 0xFF && t.sw = 0x4031 && t.ic = 0x1001) = true ∧
    ends (exec (.lst 0 0x50) (withMem State.reset [(0x50, 0xFF), (0x51, 0x4031), (0x52, 0x1001)]))
      (fun t => t.mask = 0 && t.sw = 0 && t.ic = 2 && t.ft = 0x0010 && t.pir = 0x4000) = true := by
  decide

/-- Examples of R488, R490 and R491; and R667 without a coprocessor. -/
theorem test_console_and_coprocessor :
    ends (exec .bpt State.reset) (fun t => t.scr = 0 && t.consoleMode = false && t.ic = 1) = true ∧
    ends (exec .bpt (onSystem 0x2000)) (fun t => t.consoleMode) = true ∧
    ends (exec (.bif true 0 0 0x1234 0x2000) (onSystem 0x1000))
      (fun t => t.ic = 3 && t.trace.take 2 = [.ioWrite 0x0801 0x2000, .ioWrite 0x0800 0x1234]) = true ∧
    ends (exec (.bifi true 1 4 0x3000 0x2000) (withMem (withRegs (onSystem 0x1000) [(4, 2)]) [(0x3002, 0xAB)]))
      (fun t => t.ic = 3 && t.trace.take 2 = [.ioWrite 0x0901 0x2000, .ioWrite 0x0900 0x00AB]) = true ∧
    ends (exec (.bif true 0 0 0x1234 0x2000) State.reset) (fun t => t.ic = 3 && t.ft = 0x0040 && t.pir = 0x4000) = true ∧
    ends (exec (.bifi false 0 0 0x1234 0) (onSystem 0x1000)) (fun t => t.ic = 2 && t.ft = 0x0040) = true := by
  decide

/-- Examples of R500 and R570; the trap of R669. -/
theorem test_input_output :
    ends (exec (.xio 2 0 0xA000) { State.reset with mask := 0xFF }) (fun t => t.reg 2 = 0xFF && t.ic = 2) = true ∧
    ends (exec (.vio 1 0 0x0200) (withMem State.reset [(0x200, 0x400A), (0x201, 0x8000), (0x202, 0xFF00)]))
      (fun t => t.ta = 0xFF00 && t.taRun && t.ic = 2) = true ∧
    ends (exec (.xio 2 0 0xA000) (at_ 0 0x0010)) (fun t => t.ft = 0x0020 && t.pir = 0x4000 && t.ic = 2) = true := by
  decide

/-- XIO commands: SMK, SPI, DSBL, RPI of level 1, RCFR, OTB, and the two companion chips (47_io.md R505 to R545). -/
theorem test_commands :
    ends (exec (.xio 2 0 0x2000) (withRegs State.reset [(2, 0x1234)])) (fun t => t.mask = 0x1234) = true ∧
    ends (exec (.xio 2 0 0x2005) (withRegs State.reset [(2, 0x0800)])) (fun t => t.pir = 0x0800 && t.spi = .armed) = true ∧
    ends (exec (.xio 2 0 0x2003) { State.reset with inten := true }) (fun t => !t.inten) = true ∧
    ends (exec (.xio 2 0 0x2004) (withRegs { State.reset with ft := 4, pir := 0x4800 } [(2, 1)]))
      (fun t => t.ft = 0 && t.pir = 0x0800) = true ∧
    ends (exec (.xio 2 0 0xA00F) { State.reset with ft := 4, pir := 0x4800 })
      (fun t => t.reg 2 = 4 && t.ft = 0 && t.pir = 0x0800) = true ∧
    ends (exec (.xio 2 0 0x400E) (withRegs State.reset [(2, 0x1234)])) (fun t => t.tb = 0x1234 && t.tbRun) = true ∧
    ends (exec (.xio 2 0 0x51A3) (withRegs (onSystem 0x8000) [(2, 0x1234)])) (fun t => (t.ipr[10])[3] = 0x1234) = true ∧
    ends (exec (.xio 2 0 0xD0FF) { onSystem 0x4000 with bpuRam := (onSystem 0).bpuRam.set 127 0x1234 })
      (fun t => t.reg 2 = 0x1234) = true := by
  decide

/-- A step fetches and runs an instruction: AISP R3,1 (A230), then the boundary. -/
theorem test_step_aisp :
    ends (step (State.reset.withFetchWord 16 0xA230)) (fun t => t.reg 3 = 1 && t.ic = 1) = true := by
  decide

/-- A step with an unassigned opcode: FT bit 9, PIR bit 1, IC one word on (60_exceptions.md R667). -/
theorem test_step_illegal :
    ends (step (State.reset.withFetchWord 16 0x4400)) (fun t => t.ft = 0x0040 && t.pir = 0x4000 && t.ic = 1) = true := by
  decide

/-- The enable of ENBL comes after the next instruction (47_io.md R509): it is due after ENBL, and done after a NOP. -/
theorem test_enable_delay :
    ends (step (State.reset.withFetchWord 32 0x20024800)) (fun t => t.enbl = .due && !t.inten) = true ∧
    ends (step ({ State.reset with enbl := .due }.withFetchWord 16 0xFF00)) (fun t => t.enbl = .idle && t.inten) = true := by
  decide

/-- A timer roll-over at the end of a step is taken at its boundary: Timer A is level 7, service area at 70, linkage
area at 40 (10_state.md R39, 60_exceptions.md R680). -/
theorem test_timer_interrupt :
    ends (step ({ withMem State.reset [(0x2E, 0x40), (0x2F, 0x70), (0x72, 0x300)] with
          ta := 0xFFFF, mask := 0x0100, inten := true, env := [{ Env.quiet 0 with timerClk := 1 }]
        }.withFetchWord 16 0xFF00))
      (fun t => t.ic = 0x300 && t.pir = 0 && !t.inten && t.mask = 0 && t.mem.readWord 0x40 = 0x0100 &&
        t.mem.readWord 0x42 = 1 && t.ta = 0) = true := by
  decide

/-- The acknowledge of level 11 is FFEF (S9). -/
theorem test_acknowledge : (~~~ oneBit 11 : Word) = 0xFFEF := by
  decide

/-- Lock and key (S11): key A opens locks A and F, not B; key F opens lock F only. -/
theorem test_lock_and_key :
    keyOk 0xA 0xA = true ∧ keyOk 0xA 0xF = true ∧ keyOk 0xA 0xB = false ∧ keyOk 0 0xB = true ∧ keyOk 0xF 0xE = false := by
  decide

/-- A console deposit into FT (S10): X100 X0XX sets bits 10, 11, 13 and clears bit 9. -/
theorem test_deposit_ft : depositFt 0x0040 0x0040 = 0x0034 := by
  decide

/-- A page register gives the physical page, and refuses a locked one (48_mmu_bpu.md R584, R590). -/
theorem test_translation :
    (((onSystem 0x8000).cycle .read 0 (some 0) 0x3456).phys = 0x3456) ∧
    (({ onSystem 0x8000 with opr := (onSystem 0).opr.set 2 ((onSystem 0).opr[2].set 3 0x50AB) }.cycle .read 2 (some 5)
      0x3456).phys = 0xAB456) ∧
    (({ onSystem 0x8000 with opr := (onSystem 0).opr.set 2 ((onSystem 0).opr[2].set 3 0x50AB) }.cycle .read 2 (some 6)
      0x3456).protect = true) := by
  decide

/-- A console request examines R3, whose console address is 11 (49_console.md R626, R627). -/
theorem test_console_examine :
    ends (step { State.reset with
          consoleMode := true, scr := 0x2000, regs := State.reset.regs.set 3 0x1234, ioIn := [0x6011],
          env := [{ Env.quiet 0 with conreq := true }] })
      (fun t => t.trace.head? = some (.ioWrite 0x0400 0x1234) && t.consoleMode) = true := by
  decide

/-! ## Other masters and RESET between the cycles of an instruction -/

/-- A turn in which a DMA controller writes this word, with RESET or not. -/
def dmaTurn (addr data : Word) (reset : Bool) : Turn :=
  { writes := [{ dma := true, addr := addr.zeroExtend 24, as := 0, key := 0, data := data }]
    faults := FaultInputs.none
    reset := reset }

/-- Registers R3, R4 and DMA, with these turns to come. -/
def withTurns (ts : List Turn) : State := { withRegs State.reset [(3, 0x1111), (4, 0x2222)] with dmaen := true, turns := ts }

/-- A DMA write between the two reads of DL is seen by the second (20_memory.md R91); without DMAEN there is none. -/
theorem test_torn_load :
    ends (exec (.dl 3 0 0x1000) (withTurns [dmaTurn 0x1001 0xABCD false]))
      (fun t => t.reg 3 = 0 && t.reg 4 = 0xABCD && t.turns = []) = true ∧
    ends (exec (.dl 3 0 0x1000) { withTurns [dmaTurn 0x1001 0xABCD false] with dmaen := false })
      (fun t => t.reg 3 = 0 && t.reg 4 = 0) = true := by
  decide

/-- A RESET between the two writes of DST leaves the first word stored (70_reset_and_hazards.md R740); the turns after the two
fetched words come before. -/
theorem test_torn_store :
    ends (step ((withTurns [dmaTurn 0 0 false, dmaTurn 0 0 false, dmaTurn 0x300 7 true]).withFetchWord 32 0x10009630))
      (fun t => t.mem.readWord 0x1000 = 0x1111 && t.mem.readWord 0x1001 = 0 && t.mem.readWord 0x300 = 7 && t.ic = 0 &&
        t.reg 3 = 0 && !t.resetting && t.turns = []) = true := by
  decide

/-- No turn falls inside the bus-locked instructions (20_memory.md R95). -/
theorem test_locked : ([.sb 0 0 0x1000, .rb 0 0 0x1000, .tsb 0 0 0x1000, .incm 1 0 0x1000, .decm 1 0 0x1000, .srm 3 0 0x1000,
      .stub 3 0 0x1000, .stlb 3 0 0x1000] : List Instr).all (fun i =>
    ends (exec i (withTurns [dmaTurn 0x1000 1 false])) fun t => t.turns = [dmaTurn 0x1000 1 false]) = true ∧
    ([.sbi 0 0 0x1000, .rbi 0 0 0x1000, .subi 3 0 0x1000, .slbi 3 0 0x1000] : List Instr).all (fun i =>
    ends (exec i (withTurns [dmaTurn 0 1 false, dmaTurn 0 1 false])) fun t => t.turns = [dmaTurn 0 1 false]) = true := by
  decide

/-! ## States and operands that meet the hypotheses of the statements -/

/-- Registers for a floating operand in R3 and R5. -/
def floats (a b c d : Word) : State := withRegs State.reset [(3, a), (4, b), (5, c), (6, d)]

/-- A system where nothing answers at this physical address. -/
def hole (a : Nat) : State :=
  State.resetWith { Platform.standard with memFaults := [⟨BitVec.ofNat 24 a, BitVec.ofNat 24 a, .absent⟩] }

/-- A system with an F9452 that protects the first 16K words. -/
def blocked : State := { onSystem 0x4000 with globprt := false, bpuRam := (onSystem 0).bpuRam.set 0 0xFFFF }

theorem witness_AddWord : Shape.addWord (.a 3 0 0xFFFF) = some (3, .direct 0 0xFFFF, 2) ∧
    Source.ready State.reset 1 (.direct 0 0xFFFF) = true ∧ Shape.addWord (.aisp 15 16) = some (15, .literal 16, 1) := by
  decide

theorem witness_SubtractWord : Shape.subWord (.sbb 12 0xFF) = some (2, .base 12 0xFF, 1) ∧
    Source.ready State.reset 1 (.base 12 0xFF) = true := by
  decide

theorem witness_AddSubtractLong : Shape.addLong (.da 15 0 0xFFFF) = some (false, 15, .direct 0 0xFFFF, 2) ∧
    Source.ready State.reset 2 (.direct 0 0xFFFF) = true ∧ Shape.addLong (.dsr 15 15) = some (true, 15, .register 15, 1) := by
  decide

theorem witness_CountInMemory : isCount 1 = true ∧ isCount 16 = true ∧ State.reset.mem.wf = true ∧
    State.reset.readable (State.reset.indexed 0xFFFF 0) = true ∧
    State.reset.writable (State.reset.indexed 0xFFFF 0) = true := by
  decide

theorem witness_MultiplyLowHalf : Shape.mulShort (.misn 3 16) = some (3, .literal (-16), 1) ∧
    Source.ready State.reset 1 (.literal (-16)) = true ∧ Shape.mulLong (.dm 3 0 0) = some (3, .direct 0 0, 2) ∧
    Source.ready State.reset 2 (.direct 0 0) = true := by
  decide

theorem witness_MultiplyWhole : Shape.mulWide (.mbx 12 5) = some (2, .baseIndexed 12 5, 1) ∧
    Source.ready State.reset 1 (.baseIndexed 12 5) = true := by
  decide

/-- The divisors 0 and 1, of both widths. -/
theorem witness_Divide : Shape.divide (.dvim 3 0) = some (false, 3, .literal 0, 2) ∧
    Source.ready State.reset 1 (.literal 0) = true ∧ Shape.divide (.dim 3 1) = some (true, 3, .literal 1, 2) ∧
    ((Source.literal 1).word State.reset).toInt ≠ 0 ∧ Shape.divideLong (.ddr 3 5) = some (3, .register 5, 1) ∧
    Source.ready State.reset 2 (.register 5) = true ∧ ((Source.register 5).long State.reset).toInt = 0 ∧
    ((Source.register 5).long (floats 0 0 0 1)).toInt ≠ 0 := by
  decide

theorem witness_Logic : (Shape.logic (.n 3 0 0x1000)).map (fun p => p.2) = some (3, .direct 0 0x1000, 2) ∧
    Source.ready State.reset 1 (.direct 0 0x1000) = true := by
  decide

theorem witness_Compare : Shape.compareWord (.cisn 3 16) = some (3, .literal (-16), 1) ∧
    Source.ready State.reset 1 (.literal (-16)) = true ∧ Shape.compareLong (.dc 3 0 0) = some (3, .direct 0 0, 2) ∧
    Source.ready State.reset 2 (.direct 0 0) = true ∧ State.reset.readableSpan (State.reset.indexed 0xFFFF 0) 2 = true := by
  decide

theorem witness_BitsInRegister : (Instr.svbr 3 4, 0x5A34, (State.reset.reg 3).toNat % 16, true) ∈
    [(Instr.sbr 15 4, 0x5100 + 16 * 15 + 4, 15, true), (.rbr 15 4, 0x5400 + 16 * 15 + 4, 15, false),
      (.svbr 3 4, 0x5A00 + 16 * 3 + 4, (State.reset.reg 3).toNat % 16, true),
      (.rvbr 3 4, 0x5C00 + 16 * 3 + 4, (State.reset.reg 3).toNat % 16, false)] := by
  decide

/-- Bits 0 and 15. -/
theorem witness_BitTests : Source.ready State.reset 1 (.direct 0 0) = true ∧ Source.ready State.reset 1 (.indirect 0 0) = true ∧
    (Instr.tb 0 0 0, 0, Source.direct 0 0, (2 : Word)) ∈ [(Instr.tb 0 0 0, 0, Source.direct 0 0, (2 : Word))] ∧
    (Instr.tbr 15 4, 15, Source.register 4, (1 : Word)) ∈ [(Instr.tbr 15 4, 15, Source.register 4, (1 : Word))] := by
  decide

theorem witness_BitsInMemory : State.reset.mem.wf = true ∧ Source.ready State.reset 1 (.indirect 0 0x1000) = true ∧
    State.reset.writable ((Source.indirect 0 0x1000).address State.reset) = true := by
  decide

theorem witness_ShiftByConstant : isCount 1 = true ∧ isCount 16 = true ∧
    (Instr.slc 16 3, 0x63, Shape.Shift.cyclic, (16 : Int)) ∈ [(Instr.slc 16 3, 0x63, Shape.Shift.cyclic, ((16 : Nat) : Int))] ∧
    (Instr.dsra 1 15, 0x67, Shape.Shift.arithmetic, (-1 : Int)) ∈
      [(Instr.dsra 1 15, 0x67, Shape.Shift.arithmetic, -((1 : Nat) : Int))] := by
  simp [isCount]

/-- Counts -16 and 16, -17 and 17; -32 and 32, -33 and 33. -/
theorem witness_ShiftByRegister :
    ((withRegs State.reset [(5, 0xFFF0)]).reg 5).toInt = -16 ∧ ((withRegs State.reset [(5, 16)]).reg 5).toInt = 16 ∧
    ((withRegs State.reset [(5, 0xFFEF)]).reg 5).toInt = -17 ∧ ((withRegs State.reset [(5, 17)]).reg 5).toInt = 17 ∧
    ((withRegs State.reset [(5, 0xFFE0)]).reg 5).toInt = -32 ∧ ((withRegs State.reset [(5, 32)]).reg 5).toInt = 32 ∧
    ((withRegs State.reset [(5, 0xFFDF)]).reg 5).toInt = -33 ∧ ((withRegs State.reset [(5, 33)]).reg 5).toInt = 33 := by
  decide

/-- A turn of the others between the cycles of a DL. -/
theorem witness_Load_torn : (withTurns [dmaTurn 0x1001 0xABCD false]).readable 0x1000 = true ∧
    (withTurns [dmaTurn 0x1001 0xABCD false]).turn.readable 0x1001 = true ∧
    (withTurns [dmaTurn 0x1001 0xABCD false]).resetComes = false := by
  decide

theorem witness_Load : Shape.loadWord State.reset (.li 3 0 0xFFFF) = some (3, .indirect 0 0xFFFF, 2) ∧
    Source.ready State.reset 1 (.indirect 0 0xFFFF) = true ∧ Shape.loadLong (.dlbx 12 5) = some (0, .baseIndexed 12 5, 1) ∧
    Source.ready State.reset 2 (.baseIndexed 12 5) = true ∧ Source.ready State.reset 3 (.direct 0 0xFFFF) = true := by
  decide

theorem witness_LoadByte : Source.ready State.reset 1 (.direct 0 0xFFFF) = true ∧
    Source.ready State.reset 1 (.indirect 0 0xFFFF) = true := by
  decide

theorem witness_Store : Shape.storeWord State.reset (.stc 15 0 0xFFFF) = some (.direct 0 0xFFFF, [15], 2) ∧
    Shape.storeLong State.reset (.efst 3 0 0xFFFF) = some (.direct 0 0xFFFF, [0, 0, 0], 2) ∧ State.reset.mem.wf = true ∧
    Source.located State.reset (.direct 0 0xFFFF) = true ∧ State.reset.writableSpan 0xFFFF 3 = true := by
  decide

/-- A turn between the cycles of a DST, without RESET and with it. -/
theorem witness_Store_torn : (withTurns [dmaTurn 0 1 false]).mem.wf = true ∧
    (withTurns [dmaTurn 0 1 false]).writable 0x1000 = true ∧ (withTurns [dmaTurn 0 1 false]).resetComes = false ∧
    (withTurns [dmaTurn 0 1 false]).turn.writable 0x1001 = true ∧ (withTurns [dmaTurn 0 1 true]).resetComes = true := by
  decide

theorem witness_StorePart : State.reset.mem.wf = true ∧ Source.ready State.reset 1 (.indirect 0 0x1000) = true ∧
    State.reset.writable ((Source.indirect 0 0x1000).address State.reset) = true := by
  decide

theorem witness_LoadStoreMultiple : State.reset.readableSpan (State.reset.indexed 0xFFFF 0) 16 = true ∧
    State.reset.mem.wf = true ∧ State.reset.writableSpan (State.reset.indexed 0xFFFF 0) 16 = true ∧
    State.reset.alone = true := by
  decide

/-- The first read faults, and the last of sixteen. -/
theorem witness_LoadStoreMultiple_faulted : (hole 0x1000).alone = true ∧ (hole 0x1000).readable 0x1000 = false ∧
    (∀ k < 15, (hole 0x1000).readable ((hole 0x1000).indexed 0x0FF1 0 + BitVec.ofNat 16 k) = true) := by
  decide

/-- One register, and all sixteen. -/
theorem witness_PushMultiple : State.reset.mem.wf = true ∧ State.reset.writableSpan (State.reset.reg 15 - 1) 1 = true ∧
    ((14 : Reg) - 15).val + 1 = 16 ∧ State.reset.writableSpan (State.reset.reg 15 - 16) 16 = true := by
  decide

/-- The last word of a push of two is protected, the first is not. -/
theorem witness_PushMultiple_faulted :
    let s := { onSystem 0x4000 with globprt := false, bpuRam := (onSystem 0).bpuRam.set 3 1, regs := (onSystem 0).regs.set 15 1 }
    ((1 : Reg) - 0).val + 1 = 2 ∧ s.mem.wf = true ∧ s.alone = true ∧
      (s.ownCycle .write (s.reg 15 - 2 + BitVec.ofNat 16 0)).protect = true ∧
      (∀ k < 2, k ≠ 0 → s.writable (s.reg 15 - 2 + BitVec.ofNat 16 k) = true) := by
  decide

/-- A pop of two whose second word faults. -/
theorem witness_PopMultiple_faulted : (hole 1).alone = true ∧ ((1 : Reg) - 0).val + 1 = 2 ∧
    (hole 1).readable ((hole 1).reg 15 + BitVec.ofNat 16 0) = true ∧
    (hole 1).readable ((hole 1).reg 15 + BitVec.ofNat 16 1) = false ∧
    1 ∈ (List.range 2).filter (fun j => decide ((0 : Reg) + Fin.ofNat 16 j ≠ 15)) := by
  decide

theorem witness_PopMultiple : State.reset.alone = true ∧ ∀ j < 16, (15 : Reg) + Fin.ofNat 16 j ≠ 15 →
    State.reset.readable (State.reset.reg 15 + BitVec.ofNat 16 j) = true := by
  decide

/-- The three clauses: nothing to move; one word to move, with no interrupt and with a pending SPI; an interrupt. -/
theorem witness_BlockMove : State.reset.reg (4 + 1) = 0 ∧ (withRegs State.reset [(5, 1)]).reg (4 + 1) ≠ 0 ∧
    (withRegs State.reset [(5, 1)]).mem.wf = true ∧ (withRegs State.reset [(5, 1)]).nextLevel = none ∧
    (withRegs State.reset [(5, 1)]).readable 0 = true ∧ (withRegs State.reset [(5, 1)]).writable 0 = true ∧
    ({ withRegs State.reset [(5, 1)] with pir := 0x8000, spi := .due }).spi ≠ .idle ∧
    ({ withRegs State.reset [(5, 1)] with pir := 0x8000 }).spi = .idle ∧
    ({ withRegs State.reset [(5, 1)] with pir := 0x8000 }).nextLevel = some 0 := by
  decide

/-- The interrupt of the third clause is entered. -/
theorem witness_BlockMove_entered :
    ∃ t, ({ withRegs State.reset [(5, 1)] with pir := 0x8000 }).interrupt 0 0 = .entered t := ⟨_, rfl⟩

/-- An interrupt whose new status word is refused: the word moves; one whose service pointer cannot be read. -/
theorem witness_BlockMove_abandoned :
    let s := withMem { withRegs State.reset [(5, 1)] with pir := 0x8000 } [(0x21, 0x40), (0x41, 15)]
    let f := { hole 0x21 with pir := 0x8000 }
    s.spi = .idle ∧ s.nextLevel = some 0 ∧ (∃ v, s.interrupt 0 0 = .abandoned v ∧ v.alone = true ∧ v.mem.wf = true ∧
      v.readable (v.reg 6) = true ∧ v.writable (v.reg 4) = true) ∧
    f.nextLevel = some 0 ∧ f.spi = .idle ∧ f.interrupt 0 0 = .failed (.sequenceFault 0) :=
  ⟨rfl, by decide, ⟨_, rfl, by decide⟩, by decide⟩

/-- A word that cannot be read, one that is protected, one whose destination is absent. -/
theorem witness_BlockMove_faulted : ((withRegs (hole 0x1000) [(5, 2), (6, 0x1000)]).readable 0x1000) = false ∧
    (withRegs (hole 0x1000) [(5, 2), (6, 0x1000)]).nextLevel = none ∧
    (withRegs (hole 0x1000) [(5, 2), (6, 0x1000)]).alone = true ∧
    ((withRegs blocked [(5, 1)]).ownCycle .write 0).protect = true ∧ (withRegs blocked [(5, 1)]).readable 0 = true ∧
    ((hole 0x1000).ownCycle .write 0x1000).protect = false ∧ ((hole 0x1000).ownCycle .write 0x1000).parity = false ∧
    ((hole 0x1000).ownCycle .write 0x1000).absent = true ∧ (onSystem 0x4000).writesBlocked = true := by
  decide

/-- A MOV of two words whose first word cannot be read stores two open words and keeps its registers (log 19). -/
theorem test_mov_faulted : ends (exec (.mov 4 6) (withRegs (hole 0x1000) [(4, 0x2000), (5, 2), (6, 0x1000)])) (fun t =>
    t.reg 4 = 0x2000 && t.reg 5 = 2 && t.reg 6 = 0x1000 && t.ic = 1 && t.ft = 0x0080 && t.free = 3) = true := by
  decide

/-- Taken and not taken. -/
theorem witness_ConditionalJumps : ((7 : BitVec 4) = 7 ∨ (7 : BitVec 4) = 15 ∨
      ∃ k < 4, (7 : BitVec 4).getLsbD k = true ∧ (csField State.reset.sw).getLsbD k = true) ∧
    ¬ ((0 : BitVec 4) = 7 ∨ (0 : BitVec 4) = 15 ∨
      ∃ k < 4, (0 : BitVec 4).getLsbD k = true ∧ (csField State.reset.sw).getLsbD k = true) ∧
    State.reset.readable (State.reset.indexed 0x1000 0) = true ∧
    (hole 0x1000).readable ((hole 0x1000).indexed 0x1000 0) = false := by
  decide

theorem witness_Branches : (Instr.bez 0x80, 0x75, State.reset.sw.getMsbD 2) ∈
    [(Instr.br 0x80, 0x74, true), (.bez 0x80, 0x75, State.reset.sw.getMsbD 2)] := by
  decide

theorem witness_StackLinkage : State.reset.mem.wf = true ∧ State.reset.writable (State.reset.reg 15 - 1) = true ∧
    State.reset.readable (State.reset.reg 15) = true ∧ (hole 0).readable ((hole 0).reg 15) = false ∧
    (blocked.ownCycle .write ((withRegs blocked [(15, 1)]).reg 15 - 1)).protect = true := by
  decide

theorem witness_ExecutiveCall : State.reset.mem.wf = true ∧ State.reset.serviceReady 5 15 = true ∧
    State.reset.linkageReady (asField (State.reset.service 5 15).sw) (State.reset.service 5 15).lp = true ∧
    State.reset.refusesStatus (State.reset.service 5 15).sw = false ∧ State.reset.ioFaulty 0x1000 = false := by
  decide

/-- A status word of which the third word cannot be read, and a pointer that cannot. -/
theorem witness_LoadStatus_faulted : (hole 0x1002).readable ((hole 0x1002).indexed 0x1002 0) = false ∧
    akField (hole 0x1002).sw = 0 ∧ Source.located (hole 0x1002) (.direct 0 0x1000) = true ∧
    (hole 0x1002).alone = true ∧ Source.ready (hole 0x1002) 3 (.direct 0 0x1000) = false := by
  decide

/-- A status word that is loaded, and one whose address state is refused. -/
theorem witness_LoadStatus : akField State.reset.sw = 0 ∧ Source.ready State.reset 3 (.indirect 0 0x50) = true ∧
    ¬ (bitOf State.reset.scr 0 = false ∧ asField (State.reset.loaded 0x51) ≠ 0) ∧
    (bitOf (withMem State.reset [(0x51, 1)]).scr 0 = false ∧
      asField ((withMem State.reset [(0x51, 1)]).loaded 0x51) ≠ 0) := by
  decide

/-- A system whose I/O address `a` has this flaw. -/
def ioFlawed (flaw : IoFlaw) (a : Word) : State := State.resetWith { Platform.standard with ioFaults := [⟨a, a, flaw⟩] }

theorem witness_Breakpoint : ioFlawAt State.reset.platform .illegal 0x8410 = false ∧
    ioFlawAt (ioFlawed .parity 0x8410).platform .illegal 0x8410 = false ∧
    ioFlawAt (ioFlawed .parity 0x8410).platform .parity 0x8410 = true ∧
    ioFlawAt (ioFlawed .illegal 0x8410).platform .illegal 0x8410 = true := by
  decide

/-- With a coprocessor, and without. -/
theorem witness_BuiltInFunction : bitOf (onSystem 0x1000).scr 3 = true ∧
    (onSystem 0x1000).readable ((onSystem 0x1000).indexed 0xFFFF 0) = true ∧ bitOf State.reset.scr 3 = false ∧
    (onSystem 0x1000).alone = true ∧ ({ hole 0x1000 with scr := 0x1000 }).alone = true ∧
    bitOf ({ hole 0x1000 with scr := 0x1000 }).scr 3 = true ∧
    ({ hole 0x1000 with scr := 0x1000 }).readable (({ hole 0x1000 with scr := 0x1000 }).indexed 0x1000 0) = false := by
  decide

theorem witness_FloatArithmetic :
    (Shape.float (.fabx 12 5)).map (fun p => p.2) = some (0, .baseIndexed 12 5, 1) ∧
    Source.ready State.reset 2 (.baseIndexed 12 5) = true ∧ (unpackF (State.reset.pair 0)).valid 24 = true ∧
    (unpackF ((floats 0x8000 0x7F 0 0).pair 3)).valid 24 = true ∧
    (Shape.extended (.efd 3 0 0xFFFF)).map (fun p => p.2) = some (3, .direct 0 0xFFFF, 2) ∧
    Source.ready State.reset 3 (.direct 0 0xFFFF) = true ∧ (unpackX (State.reset.triple 3)).valid 40 = true ∧
    (unpackX ((Source.direct 0 0xFFFF).triple State.reset)).valid 40 = true := by
  decide

theorem witness_FloatOpenOperands :
    (Shape.float (.far 3 5)).map (fun p => p.2) = some (3, .register 5, 1) ∧
    State.reset.platform.unnormalizedByRtl = false ∧ (unpackF ((floats 0 0x0100 0 0).pair 3)).valid 24 = false ∧
    (Shape.extended (.efar 3 6)).map (fun p => p.2) = some (3, .register 6, 1) ∧
    (unpackX ((floats 0 0x0100 0 0).triple 3)).valid 40 = false := by
  decide

/-- Unnormalized operands of the compares, of FABS, FNEG and FIX, and of EFIX. -/
theorem witness_FloatOpenOperands_more :
    Shape.compareFloat (.fc 3 0 0xFFFF) = some (3, .direct 0 0xFFFF, 2) ∧ Source.ready State.reset 2 (.direct 0 0xFFFF) = true ∧
    Shape.compareExtended (.efcr 3 6) = some (3, .register 6, 1) ∧
    (unpackF ((floats 0 0 0 0x0100).pair 5)).valid 24 = false ∧ (unpackX ((floats 0 0 0 0x0100).triple 5)).valid 40 = false := by
  decide

theorem witness_FloatResultsValid : Shape.stored 24 ⟨-2 ^ 23, 127⟩ = true ∧ Shape.stored 24 ⟨2 ^ 22, -128⟩ = true ∧
    Shape.stored 40 ⟨2 ^ 39 - 1, 127⟩ = true := by
  decide

/-- Products at the limits of the exponent (41_float.md R266): 127 and 128, 127 with both mantissas -1.0, -128 where the exact
product normalizes to -129, -128 where it does not, -129; and the sign of an overflow. -/
theorem test_product_limits :
    (fmul 24 ⟨2 ^ 23 - 1, 63⟩ ⟨2 ^ 23 - 1, 64⟩).overflow = false ∧
    fmul 24 ⟨2 ^ 22, 64⟩ ⟨-2 ^ 23, 64⟩ = Shape.overflowResult 24 false ∧
    fmul 24 ⟨-2 ^ 23, 63⟩ ⟨-2 ^ 23, 64⟩ = Shape.overflowResult 24 true ∧
    fmul 40 ⟨2 ^ 38, -64⟩ ⟨2 ^ 38, -64⟩ = Shape.underflowResult ∧
    (fmul 40 ⟨2 ^ 39 - 1, -64⟩ ⟨2 ^ 39 - 1, -64⟩).underflow = false ∧
    fmul 40 ⟨2 ^ 39 - 1, -64⟩ ⟨2 ^ 39 - 1, -65⟩ = Shape.underflowResult := by
  decide

/-- Exponents that add up to 127, 128, -128 and -129, both mantissas -1.0 among them; sums with and without mantissa overflow;
quotients below and from 1. -/
theorem witness_FloatValues : Shape.stored 24 ⟨2 ^ 22, 1⟩ = true ∧ (fmul 24 ⟨2 ^ 22, 1⟩ ⟨2 ^ 22, 1⟩).overflow = false ∧
    (fmul 24 ⟨2 ^ 22, 1⟩ ⟨2 ^ 22, 1⟩).underflow = false ∧ Shape.stored 24 ⟨2 ^ 22, 127⟩ = true ∧
    Shape.stored 24 ⟨2 ^ 22, 63⟩ = true ∧ Shape.stored 24 ⟨-2 ^ 23, 64⟩ = true ∧ Shape.stored 24 ⟨-2 ^ 23, 63⟩ = true ∧
    Shape.stored 40 ⟨2 ^ 38, -64⟩ = true ∧ Shape.stored 40 ⟨2 ^ 38, -65⟩ = true ∧ (63 : Int) + 64 = 127 ∧ (64 : Int) + 64 = 128 ∧
    (-64 : Int) + -64 = -128 ∧ (-64 : Int) + -65 = -129 ∧ fits 24 (2 ^ 22 + 2 ^ 22) = false ∧ fits 24 (2 ^ 22 - 2 ^ 22) = true ∧ Shape.stored 24 ⟨-2 ^ 23, -128⟩ = true ∧
    Shape.stored 40 ⟨2 ^ 39 - 1, 127⟩ = true ∧ Shape.stored 40 ⟨0, 0⟩ = true := by
  decide

theorem witness_FloatCompare : Source.ready State.reset 2 (.direct 0 0xFFFF) = true ∧
    (unpackF (State.reset.pair 3)).valid 24 = true ∧
    (unpackF ((Source.direct 0 0xFFFF).long State.reset)).valid 24 = true ∧ Source.ready State.reset 3 (.register 6) = true ∧
    (unpackX (State.reset.triple 3)).valid 40 = true ∧ (unpackX ((Source.register 6).triple State.reset)).valid 40 = true := by
  decide

/-- An ordinary number, the most negative one and the least positive one. -/
theorem witness_FloatSign : (unpackF ((floats 0 0 0xA000 3).pair 5)).valid 24 = true ∧
    (unpackF ((floats 0 0 0x8000 0x7F).pair 5)).valid 24 = true ∧
    (unpackF ((floats 0 0 0x4000 0x80).pair 5)).valid 24 = true := by
  decide

/-- Exponents 15 and 16, 31 and 32. -/
theorem witness_FloatToInteger : (unpackF ((floats 0 0 0x4000 15).pair 5)).valid 24 = true ∧
    (unpackF ((floats 0 0 0x4000 15).pair 5)).e = 15 ∧ (unpackF ((floats 0 0 0x4000 16).pair 5)).valid 24 = true ∧
    (unpackF ((floats 0 0 0x4000 16).pair 5)).e = 16 ∧ (unpackX ((floats 0 0 0x4000 31).triple 5)).valid 40 = true ∧
    (unpackX ((floats 0 0 0x4000 31).triple 5)).e = 31 ∧ (unpackX ((floats 0 0 0x4000 32).triple 5)).valid 40 = true ∧
    (unpackX ((floats 0 0 0x4000 32).triple 5)).e = 32 := by
  decide

/-- SMK carries data, OTB too; CLIR and TBH do not. -/
theorem witness_XioOutput : akField State.reset.sw = 0 ∧ State.reset.ioFaulty 0x2000 = false ∧
    State.reset.ioFaulty 0x400E = false ∧ State.reset.ioFaulty 0x2001 = false ∧ State.reset.ioFaulty 0x200E = false ∧
    (Shape.outputs State.reset 0).map (fun p => (p.1, p.2.2)) =
      [(0x2000, true), (0x2001, false), (0x2002, false), (0x2003, false), (0x2004, true), (0x2005, true), (0x200A, false),
       (0x4003, false), (0x4006, false), (0x4007, false), (0x4008, false), (0x4009, false), (0x400A, true),
       (0x400B, false), (0x400C, false), (0x400D, false), (0x400E, true)] := by
  decide

/-- Unknown commands at both ends of the outputs. -/
theorem witness_XioOutput_external : Shape.externalOutput State.reset 0 ∧ Shape.externalOutput State.reset 0x7FFF ∧
    Shape.externalOutput State.reset 0x5000 ∧ Shape.externalOutput State.reset 0x52FF ∧
    State.reset.ioFaulty 0x7FFF = false ∧ State.reset.ioFaulty 0x52FF = false := by
  unfold Shape.externalOutput
  decide

/-- A listed input, a device with a word to give, an address that nothing answers. -/
theorem witness_XioInput : akField State.reset.sw = 0 ∧ State.reset.ioFaulty 0xA000 = false ∧
    ((0xA000, State.reset.mask) ∈ Shape.inputs State.reset) ∧ State.reset.ioFaulty 0x8410 = false ∧
    ({ State.reset with ioIn := [5] }).ioIn = [5] ∧ bitOf 0x8000 0 = true ∧
    (Shape.inputs State.reset).map (fun p => p.1) = [0xA000, 0xA004, 0xA00E, 0xC00A, 0xC00E] ∧
    (0x8000 : Word).toNat / 256 = 0x80 := by
  decide

/-- Inputs that a device answers, a companion chip's among them where the chip is absent. -/
theorem witness_XioInput_external : Shape.externalInput State.reset 0xD000 ∧ Shape.externalInput State.reset 0xD2FF ∧
    State.reset.ioFaulty 0xD2FF = false := by
  unfold Shape.externalInput
  and_intros <;> first | (simp [Shape.inputs]; done) | decide

/-- The lowest and the highest input, and no word to come. -/
theorem witness_XioInput_device : Shape.externalInput State.reset 0x8000 ∧ Shape.externalInput State.reset 0xFFFF ∧
    (State.reset.ioIn.isEmpty) = true := by
  unfold Shape.externalInput
  and_intros <;> first | (simp [Shape.inputs]; done) | decide

/-- The echo of an internal command at an illegal address: the effect stays, FT bit 5 and PIR bit 1 (47_io.md R502). -/
theorem test_echo_illegal :
    ends (exec (.xio 3 0 0x2000) (withRegs (ioFlawed .illegal 0x2000) [(3, 5)])) (fun t =>
      t.mask = 5 && t.ft = 0x0400 && t.pir = 0x4000) = true ∧
    ends (exec (.xio 3 0 0xA000) ({ ioFlawed .parity 0xA000 with mask := 7 })) (fun t =>
      t.reg 3 = 7 && t.ft = 0x2000 && t.pir = 0x4000) = true := by
  decide

theorem witness_XioInput_illegal :
    ioFlawAt { Platform.standard with ioFaults := [⟨0x8000, 0xFFFF, .illegal⟩] } .illegal 0x8000 = true := by
  decide

theorem witness_CompanionCommands : bitOf (onSystem 0xC000).scr 0 = true ∧ bitOf (onSystem 0xC000).scr 1 = true ∧
    (onSystem 0xC000).platform.mmuAttached = true ∧ akField (onSystem 0xC000).sw = 0 ∧
    (onSystem 0xC000).ioFaulty 0x50FF = false ∧ (onSystem 0xC000).ioFaulty 0x52FF = false ∧
    (onSystem 0xC000).ioFaulty 0xD2FF = false := by
  decide

/-- VIO R1,0x200 has this command base, this vector select and these data words. -/
def vectored (s : State) (base sel : Word) (data : List Word) : State :=
  withMem s ((0x200, base) :: (0x201, sel) :: (data.zipIdx.map fun p => (0x202 + p.2, p.1)))

/-- No element; and the example of R570 (47_io.md), an output of one data word that no register holds: OTA with FF00. -/
theorem witness_VectoredIo :
    let s := vectored State.reset 0x400A 0x8000 [0xFF00]
    akField s.sw = 0 ∧ State.reset.readableSpan 0x200 2 = true ∧ State.reset.loaded 0x201 = 0 ∧
      s.readableSpan 0x200 3 = true ∧ s.loaded 0x201 = oneBit 0 ∧ s.loaded 0x202 = 0xFF00 ∧
      ioFlawAt s.platform .illegal (s.loaded 0x200 + BitVec.ofNat 16 0 * s.reg 1) = false ∧
      bitOf (s.loaded 0x200 + BitVec.ofNat 16 0 * s.reg 1) 0 = false ∧ (∀ r : Reg, s.reg r ≠ s.loaded 0x202) ∧
      ends (exec (.xio 0 0 0x400A) (s.setReg 0 0xFF00)) (fun u => u.ta = 0xFF00 && u.taRun) = true ∧
      ends (exec (.vio 1 0 0x200) s) (fun t => t.ta = 0xFF00 && t.taRun && t.regs = s.regs) = true := by
  decide

/-- Element 15 an input, its word going to memory. -/
theorem witness_VectoredIo_input :
    let s := vectored State.reset 0xA000 1 []
    s.mem.wf = true ∧ s.readableSpan 0x200 2 = true ∧ s.writable 0x202 = true ∧ s.loaded 0x201 = oneBit 15 ∧
      ioFlawAt s.platform .illegal (s.loaded 0x200 + BitVec.ofNat 16 15 * s.reg 1) = false ∧
      bitOf (s.loaded 0x200 + BitVec.ofNat 16 15 * s.reg 1) 0 = true ∧
      ends (exec (.xio 3 0 0xA000) s) (fun _ => true) = true := by
  decide

/-- A chain of an output, OTA at 400A, and an input, ITA at C00A, with a stride of 8000: the second element stores what the
first has set. -/
theorem witness_VectoredIo_mixed :
    let s := vectored (withRegs State.reset [(1, 0x8000)]) 0x400A 0xC000 [0xFF00]
    s.readableSpan 0x200 2 = true ∧ ((List.range 16).filter fun n => bitOf (s.loaded 0x201) n) = [0, 1] ∧
      ((Shape.elements (s.loaded 0x200) (s.reg 1) [0, 1] 0x202 s).map fun t => (t.ta, t.loaded 0x203, t.regs == s.regs)) =
        some (0xFF00, 0xFF00, true) := by
  decide

/-- Two elements that only go to the bus. -/
theorem witness_VectoredIo_bus : ∀ n ∈ [0, 15], Shape.externalOutput State.reset (0x0100 + BitVec.ofNat 16 n * 1) ∧
    State.reset.ioFaulty (0x0100 + BitVec.ofNat 16 n * 1) = false := by
  unfold Shape.externalOutput
  decide

/-- SMK at 2000 and an illegal command at 4000 + 2000 after it: the first has its effect, the third is never done. -/
theorem witness_VectoredIo_illegal :
    let s := vectored (withRegs (ioFlawed .illegal 0x6000) [(1, 0x4000)]) 0x2000 0xE000 [5, 6, 7]
    s.readableSpan 0x200 2 = true ∧ ((List.range 16).filter fun n => bitOf (s.loaded 0x201) n) = [0] ++ 1 :: [2] ∧
      ioFlawAt s.platform .illegal (s.loaded 0x200 + BitVec.ofNat 16 1 * s.reg 1) = true ∧
      ((Shape.elements (s.loaded 0x200) (s.reg 1) [0] 0x202 s).map fun v =>
        (v.mask, Shape.issues v 0x6000 (v.loaded 0x203), v.readable 0x203)) = some (5, true, true) ∧
      ends (exec (.vio 1 0 0x200) s) (fun t => t.mask = 5 && t.ft = 0x0400 && t.pir = 0x4000) = true := by
  decide

/-- The data word of the second element cannot be read; an input whose store, at 0x202, is protected; the words of the table
that cannot be read. -/
theorem witness_VectoredIo_aborted :
    (let s := vectored (withRegs (hole 0x203) [(1, 0x4000)]) 0x2000 0xC000 [5]
     s.mem.wf = true ∧ s.readableSpan 0x200 2 = true ∧
       ((List.range 16).filter fun n => bitOf (s.loaded 0x201) n) = [0] ++ 1 :: [] ∧
       bitOf (s.loaded 0x200 + BitVec.ofNat 16 1 * s.reg 1) 0 = false ∧
       ((Shape.elements (s.loaded 0x200) (s.reg 1) [0] 0x202 s).map fun v => (v.mask, v.readable 0x203)) = some (5, false)) ∧
    (let s := vectored blocked 0xA000 0x8000 []
     s.mem.wf = true ∧ s.readableSpan 0x200 2 = true ∧ akField s.sw = 0 ∧
       ((List.range 16).filter fun n => bitOf (s.loaded 0x201) n) = [] ++ 0 :: [] ∧
       bitOf (s.loaded 0x200 + BitVec.ofNat 16 0 * s.reg 1) 0 = true ∧ ioFlawAt s.platform .illegal 0xA000 = false ∧
       ends (exec (.xio 0 0 0xA000) s) (fun u => (u.ownCycle .write 0x202).protect) = true) ∧
    (hole 0x200).alone = true ∧ (hole 0x200).mem.wf = true ∧ (hole 0x200).readable 0x200 = false ∧
    (hole 0x201).alone = true ∧ (hole 0x201).readable 0x200 = true ∧ (hole 0x201).readable 0x201 = false := by
  decide

theorem witness_PrivilegeTrap : akField (at_ 0 0x0010).sw ≠ 0 ∧ akField (at_ 0 0x00F0).sw ≠ 0 := by decide

theorem witness_AbortedAccess_read : Shape.ReadsWord (hole 0x1000) (.l 3 0 0x1000) (.direct 0 0x1000) 2 ∧
    Source.located (hole 0x1000) (.direct 0 0x1000) = true ∧ Source.ready (hole 0x1000) 1 (.direct 0 0x1000) = false :=
  ⟨.inl ⟨3, .inr (.inr (.inr (.inr (.inr rfl))))⟩, by decide, by decide⟩

/-- Operands of two and three words, a word of which faults; a store of which the second word does; TSB with a write that
does, and with a read that does. -/
theorem witness_AbortedAccess_more :
    Shape.loadLong (.dl 3 0 0x0FFF) = some (3, .direct 0 0x0FFF, 2) ∧ (hole 0x1000).alone = true ∧
    Source.ready (hole 0x1000) 2 (.direct 0 0x0FFF) = false ∧ Source.ready (hole 0x1000) 3 (.direct 0 0x0FFE) = false ∧
    Shape.stores blocked (.dst 3 0 0xFFFF) = some (.direct 0 0xFFFF, [0, 0], 2) ∧ blocked.alone = true ∧
    blocked.mem.wf = true ∧ (blocked.ownCycle .write (0xFFFF + BitVec.ofNat 16 1)).protect = true ∧
    Shape.changes (.tsb 0 0 0) = some (.direct 0 0) ∧ blocked.readable 0 = true ∧ (blocked.ownCycle .write 0).protect = true ∧
    (hole 0x1000).readable 0x1000 = false := by
  decide

/-- The pointers of a load, a store and a read-modify-write that cannot be read. -/
theorem witness_AbortedAccess_pointer :
    Shape.loadLong (.dli 3 0 0x1000) = some (3, .indirect 0 0x1000, 2) ∧
    Shape.stores (hole 0x1000) (.sti 3 0 0x1000) = some (.indirect 0 0x1000, [0], 2) ∧
    Shape.changes (.slbi 3 0 0x1000) = some (.indirect 0 0x1000) ∧ (hole 0x1000).alone = true ∧
    (hole 0x1000).mem.wf = true ∧ (hole 0x1000).readable ((hole 0x1000).indexed 0x1000 0) = false := by
  decide

/-- A store of three words, the first and the last of which are protected: the FT bit once, the pulse twice, the word between
open (60_exceptions.md R664, log 15). -/
theorem test_store_two_faults :
    ends (exec (.efst 3 0 0x03FF) { blocked with bpuRam := (onSystem 0).bpuRam.set 0 0x8000 }) (fun t =>
      t.ft = 0x8000 && t.trace.head? = some .majEr && t.free = 2) = true ∧
    ends (exec (.dst 3 0 0) blocked) (fun t => t.ft = 0x8000 && t.mem = [] && t.ic = 2 && t.free = 0 &&
      t.trace.take 2 = [.majEr, .majEr]) = true := by
  decide

/-- TSB with a protected write leaves CS set (42_bit.md R330, log 57). -/
theorem test_tsb_protected : ends (exec (.tsb 0 0 0) blocked) (fun t => csField t.sw = 0b0010 && t.ft = 0x8000 &&
    t.mem.readWord 0 = 0) = true := by
  decide

/-- A write with bad parity to a word that can be read. -/
theorem witness_AbortedAccess_parity :
    let s := State.resetWith { Platform.standard with memFaults := [⟨0x1000, 0x1000, .writeParity⟩] }
    (s.ownCycle .write 0x1000).parity = true ∧ s.readable 0x1000 = true ∧ s.mem.wf = true := by
  decide

theorem witness_AbortedAccess_write : Shape.stores blocked (.st 3 0 0) = some (.direct 0 0, [0], 2) ∧
    Source.located blocked (.direct 0 0) = true ∧ (blocked.ownCycle .write 0).protect = true ∧
    (blocked.ownCycle .write 0x3FFF).protect = true ∧ ((hole 0x1000).ownCycle .write 0x1000).absent = true := by
  decide

/-- Levels 0 and 15; a new status word that is refused. -/
theorem witness_InterruptSequence : State.reset.serviceReady 0 0 = true ∧ State.reset.serviceReady 15 0 = true ∧
    ¬ (bitOf State.reset.scr 0 = false ∧ asField (State.reset.service 15 0).sw ≠ 0) ∧ State.reset.mem.wf = true ∧
    State.reset.linkageReady (asField (State.reset.service 15 0).sw) (State.reset.service 15 0).lp = true ∧
    State.reset.ioFaulty 0x1000 = false ∧ (withMem State.reset [(1, 15)]).serviceReady 3 0 = true ∧
    bitOf (withMem State.reset [(1, 15)]).scr 0 = false ∧ asField ((withMem State.reset [(1, 15)]).service 3 0).sw ≠ 0 := by
  decide

/-- Level 0, level 15 with nothing before it, and no level. -/
theorem witness_LevelPriority : ({ State.reset with pir := 0x8001 }).recognisable 0 = true ∧
    ({ State.reset with pir := 1, mask := 1, inten := true }).recognisable 15 = true ∧
    (∀ m, m < 15 → ({ State.reset with pir := 1, mask := 1, inten := true }).recognisable m = false) ∧
    ∀ n, ({ State.reset with pir := 0x7BFF }).recognisable n = false := by
  decide

theorem witness_BoundaryAndWait : ({ State.reset with spi := .armed }).spi = .armed ∧ State.reset.spi ≠ .armed ∧
    State.reset.consoleMode = false ∧ ({ State.reset with consoleMode := true }).consoleMode = true ∧
    ({ State.reset with waiting := true }).waiting = true ∧ State.reset.outside.reset = false ∧
    State.reset.resetting = false := by
  decide

/-- A DMA controller with DMAEN and without, another CPU; a word that the F9452 protects against DMA only, with bad parity. -/
theorem witness_OutsideInputs :
    let s := { State.resetWith { Platform.standard with
      scrValue := 0x4000, memFaults := [⟨0, 0, .writeParity⟩] } with
      globprt := false, dmaen := true, bpuRam := (onSystem 0).bpuRam.set 64 0x8000 }
    let w : MasterWrite := { dma := true, addr := 0, as := 0, key := 0, data := 5 }
    State.reset.dmaen = false ∧ (s.masterCycle w).protect = true ∧ (s.masterCycle w).parity = true ∧
      (s.masterWrite w).ft = 0x6000 ∧ (s.masterWrite w).mem = [] ∧ s.writesBlocked = false ∧ s.mem.wf = true ∧
      (s.masterCycle { w with dma := false }).protect = false ∧ (s.masterCycle { w with dma := false }).absent = false ∧
      (s.masterWrite { w with dma := false }).mem.readWord 0 = 5 := by
  decide

/-- Other masters that the F9451 serves: a key that does not open the lock, a write-protected page, a write that passes; a DMA
write that it does not touch (60_exceptions.md R716); a turn. -/
theorem witness_OutsideInputs_translated :
    let s := { State.reset with
      platform := { Platform.standard with scrValue := 0x8000, mastersTranslated := true }, scr := 0x8000, dmaen := true
      opr := (onSystem 0).opr.set 3 #v[0x2005, 0xF806, 0xF007, 0, 0, 0, 0, 0, 0, 0, 0, 0, 0, 0, 0, 0] }
    let w : MasterWrite := { dma := false, addr := 0, as := 3, key := 1, data := 5 }
    (s.masterCycle w).protect = true ∧ (s.masterCycle { w with key := 2 }).protect = false ∧
      (s.masterCycle { w with addr := 0x1000 }).protect = true ∧ (s.masterCycle { w with addr := 0x2ABC }).phys = 0x7ABC ∧
      (s.masterWrite { w with addr := 0x2ABC }).mem.readWord 0x7ABC = 5 ∧ (s.masterWrite w).ft = 0x4000 ∧
      (s.masterCycle { w with dma := true }).protect = false ∧
      (s.masterWrite { w with dma := true, addr := 0x12ABC }).mem.readWord 0x12ABC = 5 ∧
      (withTurns [dmaTurn 0x1000 1 true]).turns = [dmaTurn 0x1000 1 true] ∧
      (withTurns [dmaTurn 0x1000 1 true]).turn.mem.readWord 0x1000 = 1 := by
  decide

/-- Three words fetched (BIF), and one. -/
theorem witness_StepRunsInstruction :
    decode [0x4F40, 0x1234, 0x2000] = .instr (.bif true 0 0 0x1234 0x2000) [] ∧
    decode [0xFF00, 0, 0] = .instr .nop [0, 0] ∧ State.reset.outside.reset = false ∧ State.reset.resetting = false ∧
    State.reset.resetComes = false ∧ (withTurns [dmaTurn 0 0 true]).resetComes = true ∧ State.reset.consoleMode = false ∧
    State.reset.waiting = false ∧ State.reset.moving = none ∧
    (∀ k < 3, (State.reset.ownCycle .fetch (State.reset.ic + BitVec.ofNat 16 k)).clean = true) ∧
    (State.reset.withFetchWord 48 0x200012344F40).mem.readWord 2 = 0x2000 ∧
    ends (exec (.bif true 0 0 0x1234 0x2000) (State.reset.withFetchWord 48 0x200012344F40)) (fun _ => true) = true := by
  decide

/-- The third word of a BIF cannot be fetched; a word whose constant field is violated. -/
theorem witness_StepWithoutInstruction_words :
    let s := (hole 2).withFetchWord 32 0x12344F40
    (∀ j < 2, (s.ownCycle .fetch (s.ic + BitVec.ofNat 16 j)).clean = true) ∧ decode [0x4F40, 0x1234] = .more ∧
      s.mem.readWord 0 = 0x4F40 ∧ s.mem.readWord 1 = 0x1234 ∧ (s.ownCycle .fetch (s.ic + 2)).clean = false ∧
      decode [0xFF01] = .reserved ∧ s.resetComes = false := by
  decide

/-- A MOV in progress, which runs. -/
theorem witness_StepRunsInstruction_moving : ({ State.reset with moving := some (4, 6) }).moving = some (4, 6) ∧
    ends (exec (.mov 4 6) { State.reset with moving := some (4, 6) }) (fun _ => true) = true := by
  decide

/-- An unassigned opcode; a fetch from a hole, with level 1 masked and not. -/
theorem witness_StepWithoutInstruction :
    ((State.reset.withFetchWord 16 0x4400).ownCycle .fetch 0).clean = true ∧ decode [0x4400] = .illegal ∧
    ((hole 0).ownCycle .fetch 0).clean = false ∧ bitOf (hole 0).mask 1 = false ∧
    bitOf ({ hole 0 with mask := 0x4000 }).mask 1 = true := by
  decide

theorem witness_ResetValues :
    ({ State.reset with env := [{ Env.quiet 0 with reset := true }] }).outside.reset = true ∧
    bitOf (onSystem 0xC000).scr 0 = true ∧ bitOf (onSystem 0xC000).scr 1 = true ∧
    (withTurns [dmaTurn 0 0 true]).turn.resetting = true := by
  decide

/-- The protect-RAM write of the initialisation at an illegal address sets FT bit 5 (log 58). -/
theorem test_reset_writes :
    (State.resetWith { Platform.standard with scrValue := 0x4000, ioFaults := [⟨0x507F, 0x507F, .illegal⟩] }).ft = 0x0400 ∧
    (State.resetWith { Platform.standard with ioFaults := [⟨0x507F, 0x507F, .illegal⟩] }).ft = 0 := by
  decide

/-- The read of 8410 at an illegal address pulses MAJ ER (60_exceptions.md R666, R672). -/
theorem test_reset_pulse : (ioFlawed .illegal 0x8410).trace = [.majEr, .ioRead 0x8410 0, .trigoRst] ∧
    State.reset.trace = [.ioRead 0x8410 0, .trigoRst] ∧ (ioFlawed .illegal 0x8410).ft = 0x0400 := by
  decide

/-- SCR bit 0 without an F9451; a block that the F9452 protects; bad parity and no memory. -/
theorem witness_MemoryCheck_more :
    bitOf (State.resetWith { Platform.standard with scrValue := 0x8000, mmuAttached := false }).scr 0 = true ∧
    (blocked.cycle .write 0 (some 0) 0).protect = true ∧ blocked.globprt = false ∧ bitOf blocked.scr 1 = true ∧
    ((hole 5).cycle .read 0 (some 0) 5).absent = true ∧ ((hole 5).cycle .read 0 (some 0) 6).absent = false ∧
    ((State.resetWith { Platform.standard with memFaults := [⟨5, 5, .readParity⟩] }).cycle .fetch 0 (some 0) 5).parity =
      true := by
  decide

theorem witness_MemoryCheck : bitOf (onSystem 0x8000).scr 0 = true ∧ (onSystem 0x8000).platform.mmuAttached = true ∧
    (onSystem 0x8000).platform.ppa11 = false ∧ bitOf State.reset.scr 0 = false ∧
    (State.resetWith { Platform.standard with scrValue := 0x8000, ppa11 := true }).platform.ppa11 = true := by
  decide

/-- A port that no companion chip decodes. -/
theorem witness_Console_port : State.reset.chipWrite 0 5 = State.reset := rfl

/-- A deposit whose switches are at an illegal address, an examine of an absent word, a display with bad parity: each locks the
deposits (49_console.md R636); a command word that is not read. -/
theorem witness_Console_faults :
    Shape.consoleFaults (ioFlawed .illegal 0x8401) 0x61 0 = oneBit 5 ∧
    Shape.consoleFaults (hole 0) 0x66 0 = oneBit 8 ∧ Shape.consoleFaults (ioFlawed .parity 0x0400) 0x60 0 = oneBit 2 ∧
    ioFlawAt (ioFlawed .illegal 0x8400).platform .illegal 0x8400 = true ∧ (ioFlawed .illegal 0x8400).alone = true ∧
    ends (({ ioFlawed .illegal 0x8401 with ioIn := [0x6110, 5] }).console false) (fun t =>
      t.reg 1 = 0 && t.depositLocked && t.ft = 0x0400) = true ∧
    ends (({ hole 0 with ioIn := [0x6600, 0] }).console false) (fun t => t.depositLocked && t.ft = 0x0080) = true := by
  decide

/-- EXAMINE MEMORY whose switches are at an illegal address reads at the IC it keeps (log 62). -/
theorem test_examine_unread :
    ends (({ ioFlawed .illegal 0x8401 with ic := 0x1234, ioIn := [0x6600] }).console false) (fun t =>
      t.ic = 0x1234 && t.ft = 0x0400) = true ∧
    ends (({ State.resetWith { Platform.standard with
        ioFaults := [⟨0x8401, 0x8401, .illegal⟩], memFaults := [⟨0x1234, 0x1234, .absent⟩] } with
      ic := 0x1234, ioIn := [0x6600] }).console false) (fun t => t.ft = 0x0480) = true := by
  decide

/-- A command, and a command with its data word, in console mode. -/
theorem witness_Console : ({ State.reset with consoleMode := true }).consoleMode = true ∧
    State.reset.outside.reset = false ∧ State.reset.outside.conreq = false ∧
    ({ State.reset with env := [{ Env.quiet 0 with conreq := true }] }).outside.conreq = true ∧
    bitOf (onSystem 0x2000).scr 2 = true ∧ State.reset.alone = true ∧ State.reset.chipRead 0 = none ∧
    State.reset.resetting = false ∧
    State.reset.ioFaulty 0x8400 = false ∧ State.reset.ioFaulty 0x8401 = false ∧ State.reset.ioFaulty 0x0400 = false ∧
    (0x6017 : Word).toNat = 0x6000 + (15 : Reg).val % 2 * 16 + (15 : Reg).val / 2 ∧ (0x7400 : Word).toNat / 256 = 0x74 ∧
    (0x6110 : Word).toNat = 0x6100 + (1 : Reg).val % 2 * 16 + (1 : Reg).val / 2 ∧ State.reset.depositLocked = false ∧
    ¬ (bitOf State.reset.scr 0 = false ∧ asField 0x4000 ≠ 0) ∧ State.reset.readable 0xFFFF = true ∧
    State.reset.mem.wf = true ∧ State.reset.writable State.reset.ic = true := by
  decide

theorem witness_DecodeInvertsEncode : (Instr.lb 12 0).wf = true ∧ (Instr.lb 15 0xFF).wf = true ∧
    (Instr.sll 1 0).wf = true ∧ (Instr.sll 16 0).wf = true ∧ (Instr.bif false 3 0 0xFFFF 0).wf = true := by
  decide

/-- An I/O read that no device answers and that has bad parity sets FT bits 5 and 2 (60_exceptions.md R662). -/
theorem test_io_read_flaws :
    ends (exec (.xio 3 0 0x8000) (State.resetWith { Platform.standard with
      ioFaults := [⟨0x8000, 0x8000, .illegal⟩, ⟨0x8000, 0x8000, .parity⟩] })) (fun t => t.ft = 0x2400 && t.reg 3 = 0) = true := by
  decide

/-- A1 does not count while the temporary registers are locked (49_console.md R636), and counts else. -/
theorem test_port_lock :
    ends ({ State.reset with depositLocked := true, ioIn := [0x6E00, 7] }.console false) (fun t => t.scratch.a1 = 0) = true ∧
    ends ({ State.reset with ioIn := [0x6E00, 7] }.console false) (fun t => t.scratch.a1 = 1) = true := by
  decide

/-- A state with the invariant from which a step goes on. -/
theorem witness_InvariantKept : Inv (State.reset.withFetchWord 16 0xA230) ∧
    ends (step (State.reset.withFetchWord 16 0xA230)) (fun _ => true) = true :=
  ⟨⟨by decide, by decide, by decide, by decide, by decide, by decide, by decide, by decide⟩, by decide⟩

/-- A program with AK 1 and with AK F, an instruction that goes on, a MOV that no interrupt suspends. -/
theorem witness_UserIsolation : akField (at_ 0 0x0010).sw ≠ 0 ∧ akField (at_ 0 0x00F0).sw ≠ 0 ∧
    ends (exec (.ar 3 4) (at_ 0 0x0010)) (fun _ => true) = true ∧ (at_ 0 0x0010).nextLevel = none ∧
    ends (exec (.mov 3 5) (at_ 0 0x00F0)) (fun _ => true) = true := by
  decide

end Sys2Proof.Tests
end

