-- ==== Sys2Proof/Proofs/BitRegister.lean ====
section
/-! PROOF. The bit instructions on a register (42_bit.md R322, R325, R331, R332): which bit `setBit` and `resetBit` change,
and which instruction a first word given by its opcode and fields holds. -/

namespace Sys2Proof.Proofs

open Sys2Proof.Machine

/-! ## One bit of a word -/

/-- The single 1 of `oneBit n` stands at bit `n` (R8). -/
theorem bitOf_oneBit {n j : Nat} (hn : n < 16) (hj : j < 16) : bitOf (oneBit n) j = decide (j = n) := by
  have hmask : (0x8000 : Word) = BitVec.twoPow 16 15 := by decide
  have hpos : 15 = n + (15 - j) ↔ j = n := by omega
  simp [bitOf, oneBit, hmask, hpos]

/-- Setting bit `n` makes it 1 and keeps the others. -/
theorem bitOf_setBit {n j : Nat} (w : Word) (hn : n < 16) (hj : j < 16) :
    bitOf (setBit n w) j = if j = n then true else bitOf w j := by
  have hor : bitOf (setBit n w) j = (bitOf w j || bitOf (oneBit n) j) := BitVec.getLsbD_or
  rw [hor, bitOf_oneBit hn hj]
  by_cases h : j = n <;> simp [h]

/-- Clearing bit `n` makes it 0 and keeps the others. -/
theorem bitOf_resetBit {n j : Nat} (w : Word) (hn : n < 16) (hj : j < 16) :
    bitOf (resetBit n w) j = if j = n then false else bitOf w j := by
  have hand : bitOf (resetBit n w) j = (bitOf w j && !bitOf (oneBit n) j) := by
    have hlt : 15 - j < 16 := by omega
    simp [bitOf, resetBit, hlt]
  rw [hand, bitOf_oneBit hn hj]
  by_cases h : j = n <;> simp [h]

/-- The variable forms name one of the sixteen bits (R320). -/
theorem variableBit_lt (s : State) (ra : Reg) : s.variableBit ra < 16 := Nat.mod_lt _ (by decide)

/-! ## A register changed in one bit -/

/-- A register changed by an `f` that gives bit `k` the value `v` and keeps the others: the next state differs from `s` in
that register and in IC alone. -/
theorem modifyReg_oneBit {f : Word → Word} {k : Nat} {v : Bool} (rb : Reg) (s : State)
    (hf : ∀ j < 16, bitOf (f (s.reg rb)) j = if j = k then v else bitOf (s.reg rb) j) :
    ∃ w : Word, (∀ j < 16, bitOf w j = if j = k then v else bitOf (s.reg rb) j) ∧
      modifyReg f rb s = .next ((s.setReg rb w).past 1) :=
  ⟨f (s.reg rb), hf, modifyReg_eq f rb s⟩

/-- The register with bit `k` set. -/
theorem modifyReg_setBit {k : Nat} (hk : k < 16) (rb : Reg) (s : State) :
    ∃ w : Word, (∀ j < 16, bitOf w j = if j = k then true else bitOf (s.reg rb) j) ∧
      modifyReg (setBit k) rb s = .next ((s.setReg rb w).past 1) :=
  modifyReg_oneBit rb s fun _ hj => bitOf_setBit (s.reg rb) hk hj

/-- The register with bit `k` cleared. -/
theorem modifyReg_resetBit {k : Nat} (hk : k < 16) (rb : Reg) (s : State) :
    ∃ w : Word, (∀ j < 16, bitOf w j = if j = k then false else bitOf (s.reg rb) j) ∧
      modifyReg (resetBit k) rb s = .next ((s.setReg rb w).past 1) :=
  modifyReg_oneBit rb s fun _ hj => bitOf_resetBit (s.reg rb) hk hj

/-! ## Words given by opcode and fields -/

/-- A first word as a number: its opcode in the upper byte, its two fields below (R123). -/
theorem ofNat_eq_firstWord (op : Byte) (hi lo : Fin 16) :
    BitVec.ofNat 16 (256 * op.toNat + 16 * hi.val + lo.val) = firstWord op (regBits hi) (regBits lo) := by
  apply BitVec.eq_of_toNat_eq
  have hop := op.isLt
  have hhi : hi.val < 2 ^ 4 := hi.isLt
  have hlo : lo.val < 2 ^ 4 := lo.isLt
  simp only [firstWord, regBits, BitVec.toNat_append, BitVec.toNat_ofNat, Nat.mod_eq_of_lt hhi, Nat.mod_eq_of_lt hlo]
  rw [← Nat.shiftLeft_add_eq_or_of_lt hhi, ← Nat.shiftLeft_add_eq_or_of_lt hlo, Nat.shiftLeft_eq, Nat.shiftLeft_eq]
  omega

/-- Decoding of such a word reads the matrix at its opcode (R150). -/
theorem decode_ofNat (op : Byte) (hi lo : Fin 16) :
    decode [BitVec.ofNat 16 (256 * op.toNat + 16 * hi.val + lo.val)] = decodeFirst op (regBits hi) (regBits lo) [] := by
  simp only [ofNat_eq_firstWord, decode, opField_firstWord, hiField_firstWord, loField_firstWord]

theorem decode_sbr (n : Fin 16) (rb : Reg) : decode [BitVec.ofNat 16 (0x5100 + 16 * n.val + rb.val)] = .instr (.sbr n rb) [] :=
  (decode_ofNat 0x51 n rb).trans (by simp [decodeFirst, decode5, one])

theorem decode_rbr (n : Fin 16) (rb : Reg) : decode [BitVec.ofNat 16 (0x5400 + 16 * n.val + rb.val)] = .instr (.rbr n rb) [] :=
  (decode_ofNat 0x54 n rb).trans (by simp [decodeFirst, decode5, one])

theorem decode_svbr (ra rb : Reg) : decode [BitVec.ofNat 16 (0x5A00 + 16 * ra.val + rb.val)] = .instr (.svbr ra rb) [] :=
  (decode_ofNat 0x5A ra rb).trans (by simp [decodeFirst, decode5, one])

theorem decode_rvbr (ra rb : Reg) : decode [BitVec.ofNat 16 (0x5C00 + 16 * ra.val + rb.val)] = .instr (.rvbr ra rb) [] :=
  (decode_ofNat 0x5C ra rb).trans (by simp [decodeFirst, decode5, one])

/-- Settles O11, one case an instruction: each is `modifyReg` with `setBit` or `resetBit` at its bit, and the variable forms
take that bit from the register as it was, which covers RA = RB. -/
theorem bitsInRegister : Obligations.BitsInRegister := by
  intro n ra rb s i code k v hmem
  simp only [List.mem_cons, Prod.mk.injEq, List.not_mem_nil, or_false] at hmem
  obtain ⟨rfl, rfl, rfl, rfl⟩ | ⟨rfl, rfl, rfl, rfl⟩ | ⟨rfl, rfl, rfl, rfl⟩ | ⟨rfl, rfl, rfl, rfl⟩ := hmem
  case inl => exact ⟨decode_sbr n rb, modifyReg_setBit n.isLt rb s⟩
  case inr.inl => exact ⟨decode_rbr n rb, modifyReg_resetBit n.isLt rb s⟩
  case inr.inr.inl => exact ⟨decode_svbr ra rb, modifyReg_setBit (variableBit_lt s ra) rb s⟩
  case inr.inr.inr => exact ⟨decode_rvbr ra rb, modifyReg_resetBit (variableBit_lt s ra) rb s⟩

end Sys2Proof.Proofs
end

