-- ==== Sys2Proof/Proofs/ShiftByConstant.lean ====
section
/-! PROOF. The shifts by a constant count (43_shift.md R356 to R363): where each shift function brings every bit of its
operand, for every width, and which instruction a first word with N - 1 in its field holds. -/

namespace Sys2Proof.Proofs

open Sys2Proof.Machine

/-! ## The bits of a shifted value (R350) -/

/-- Zeros enter from the right: a bit position beyond the last reads 0. -/
theorem getMsbD_sll {w : Nat} (v : BitVec w) (n k : Nat) :
    (sll v n).getMsbD k = Shape.shiftedBit .logical v n k := by
  have hpos : 0 ≤ (k : Int) + n := by omega
  have hidx : ((k : Int) + n).toNat = k + n := by omega
  simp [sll, Shape.shiftedBit, hpos, hidx]

/-- Zeros enter from the left. -/
theorem getMsbD_srl {w n k : Nat} (v : BitVec w) (hk : k < w) :
    (srl v n).getMsbD k = Shape.shiftedBit .logical v (-n) k := by
  have hpos : 0 ≤ (k : Int) + -n ↔ ¬ k < n := by omega
  have hidx : ((k : Int) + -n).toNat = k - n := by omega
  simp only [srl, Shape.shiftedBit, BitVec.getMsbD_ushiftRight, hpos, hidx, hk, decide_true, Bool.true_and, decide_not]

/-- Copies of the sign enter from the left. -/
theorem getMsbD_sra {w n k : Nat} (v : BitVec w) (hk : k < w) :
    (sra v n).getMsbD k = Shape.shiftedBit .arithmetic v (-n) k := by
  have hneg : (k : Int) + -n < 0 ↔ k < n := by omega
  have hidx : ((k : Int) + -n).toNat = k - n := by omega
  simp only [sra, Shape.shiftedBit, BitVec.getMsbD_sshiftRight, hneg, hidx, hk, decide_true, Bool.true_and]

/-- The bits shifted out at the left enter from the right: position `k` reads position `k + n` round the word. -/
theorem getMsbD_slc {w n k : Nat} (v : BitVec w) (hn : n ≤ w) (hk : k < w) :
    (slc v n).getMsbD k = Shape.shiftedBit .cyclic v n k := by
  have hidx : (((k : Int) + n) % w).toNat = (k + n) % w := by
    rw [← Int.natCast_add, ← Int.natCast_emod, Int.toNat_natCast]
  simp only [slc, Shape.shiftedBit, BitVec.getMsbD_or, BitVec.getMsbD_shiftLeft, BitVec.getMsbD_ushiftRight, hidx]
  by_cases hin : k + n < w
  · have hstay : k < w - n := by omega
    simp [hstay, Nat.mod_eq_of_lt hin]
  · have hwrap : ¬ k < w - n := by omega
    have hmod : (k + n) % w = k - (w - n) := by
      rw [Nat.mod_eq_sub_mod (by omega), Nat.mod_eq_of_lt (by omega)]
      omega
    simp [hk, hwrap, hmod, BitVec.getMsbD_of_ge v (k + n) (by omega)]

/-! ## A register or pair shifted -/

/-- A register shifted by an `f` whose bits are those of a shift by `c`: the next state differs from `s` in that register,
CS and IC alone. -/
theorem shiftConst_bits {f : Word → Nat → Word} {n : Nat} {kind : Shape.Shift} {c : Int} (rb : Reg) (s : State)
    (hf : ∀ k < 16, (f (s.reg rb) n).getMsbD k = Shape.shiftedBit kind (s.reg rb) c k) :
    ∃ v : Word, (∀ k < 16, v.getMsbD k = Shape.shiftedBit kind (s.reg rb) c k) ∧
      shiftConst f n rb s = .next ((s.setReg rb v).ends (signCs v.toInt) 0 1) :=
  ⟨f (s.reg rb) n, hf, shiftConst_eq f n rb s⟩

/-- The same of a register pair. -/
theorem shiftConst2_bits {f : Long → Nat → Long} {n : Nat} {kind : Shape.Shift} {c : Int} (rb : Reg) (s : State)
    (hf : ∀ k < 32, (f (s.pair rb) n).getMsbD k = Shape.shiftedBit kind (s.pair rb) c k) :
    ∃ v : Long, (∀ k < 32, v.getMsbD k = Shape.shiftedBit kind (s.pair rb) c k) ∧
      shiftConst2 f n rb s = .next ((s.setPair rb v).ends (signCs v.toInt) 0 1) :=
  ⟨f (s.pair rb) n, hf, shiftConst2_eq f n rb s⟩

/-! ## Words with a count field -/

/-- A count is 1 to 16. -/
theorem isCount_iff {n : Nat} : isCount n = true ↔ 1 ≤ n ∧ n ≤ 16 := by
  simp [isCount]

/-- Where the matrix has at `op` a one-word instruction of a count and a register, the word with N - 1 and RB in its fields
decodes to that instruction (R129, R351). -/
theorem decode_countWord {op : Byte} {mk : Nat → Reg → Instr} {n : Nat} (hn : isCount n = true) (rb : Reg)
    (hop : ∀ hi lo, decodeFirst op hi lo [] = .instr (mk (count hi) (reg lo)) []) :
    decode [BitVec.ofNat 16 (256 * op.toNat + 16 * (n - 1) + rb.val)] = .instr (mk n rb) [] := by
  have hfield : n - 1 < 16 := by
    have ⟨_, _⟩ := isCount_iff.1 hn
    omega
  calc decode [BitVec.ofNat 16 (256 * op.toNat + 16 * (n - 1) + rb.val)]
      = decodeFirst op (countBits n) (regBits rb) [] := decode_ofNat op ⟨n - 1, hfield⟩ rb
    _ = .instr (mk n rb) [] := by rw [hop, count_countBits hn, reg_regBits]

/-- Settles O14, one case an instruction: each is `shiftConst` or `shiftConst2` of a shift function whose bits are known for
every width, and its opcode stands in the matrix with a count and a register. -/
theorem shiftByConstant : Obligations.ShiftByConstant := by
  intro n rb s hn
  have ⟨_, hle⟩ := isCount_iff.1 hn
  constructor
  case left =>
    intro i op kind c hmem
    simp only [List.mem_cons, Prod.mk.injEq, List.not_mem_nil, or_false] at hmem
    obtain ⟨rfl, rfl, rfl, rfl⟩ | ⟨rfl, rfl, rfl, rfl⟩ | ⟨rfl, rfl, rfl, rfl⟩ | ⟨rfl, rfl, rfl, rfl⟩ := hmem
    case inl =>
      exact ⟨decode_countWord (op := 0x60) hn rb fun _ _ => rfl,
        shiftConst_bits (f := sll) rb s fun k _ => getMsbD_sll _ n k⟩
    case inr.inl =>
      exact ⟨decode_countWord (op := 0x61) hn rb fun _ _ => rfl,
        shiftConst_bits (f := srl) rb s fun _ hk => getMsbD_srl _ hk⟩
    case inr.inr.inl =>
      exact ⟨decode_countWord (op := 0x62) hn rb fun _ _ => rfl,
        shiftConst_bits (f := sra) rb s fun _ hk => getMsbD_sra _ hk⟩
    case inr.inr.inr =>
      exact ⟨decode_countWord (op := 0x63) hn rb fun _ _ => rfl,
        shiftConst_bits (f := slc) rb s fun _ hk => getMsbD_slc _ hle hk⟩
  case right =>
    have hle2 : n ≤ 32 := by omega
    intro i op kind c hmem
    simp only [List.mem_cons, Prod.mk.injEq, List.not_mem_nil, or_false] at hmem
    obtain ⟨rfl, rfl, rfl, rfl⟩ | ⟨rfl, rfl, rfl, rfl⟩ | ⟨rfl, rfl, rfl, rfl⟩ | ⟨rfl, rfl, rfl, rfl⟩ := hmem
    case inl =>
      exact ⟨decode_countWord (op := 0x65) hn rb fun _ _ => rfl,
        shiftConst2_bits (f := sll) rb s fun k _ => getMsbD_sll _ n k⟩
    case inr.inl =>
      exact ⟨decode_countWord (op := 0x66) hn rb fun _ _ => rfl,
        shiftConst2_bits (f := srl) rb s fun _ hk => getMsbD_srl _ hk⟩
    case inr.inr.inl =>
      exact ⟨decode_countWord (op := 0x67) hn rb fun _ _ => rfl,
        shiftConst2_bits (f := sra) rb s fun _ hk => getMsbD_sra _ hk⟩
    case inr.inr.inr =>
      exact ⟨decode_countWord (op := 0x68) hn rb fun _ _ => rfl,
        shiftConst2_bits (f := slc) rb s fun _ hk => getMsbD_slc _ hle2 hk⟩

end Sys2Proof.Proofs
end

