-- ==== Sys2Proof/Proofs/Exchange.lean ====
section
/-! PROOF. The exchanges XBR and XWR (44_load_store.md R418, R419): the word with its bytes exchanged as a number, the
registers after two of them are exchanged, and the first words of the two instructions. -/

namespace Sys2Proof.Proofs

open Sys2Proof.Machine

/-! ## The words exchanged -/

/-- A word with its bytes exchanged: the lower byte counts 256 times, the upper byte once (R89). -/
theorem toNat_lowerByte_append_upperByte (w : Word) :
    (lowerByte w ++ upperByte w).toNat = w.toNat % 256 * 256 + w.toNat / 256 := by
  have hupper : w.toNat / 2 ^ 8 < 2 ^ 8 := by have := w.isLt; omega
  simp only [lowerByte, upperByte, BitVec.toNat_append, BitVec.extractLsb'_toNat, Nat.shiftRight_eq_div_pow,
    Nat.mod_eq_of_lt hupper]
  rw [← Nat.shiftLeft_add_eq_or_of_lt hupper, Nat.shiftLeft_eq]
  omega

/-- Every register after two are exchanged. Where the two are one register, both writes give it the word it had, so the
order of the cases does not matter. -/
theorem reg_exchanged (s : State) (ra rb q : Reg) :
    ((s.setReg ra (s.reg rb)).setReg rb (s.reg ra)).reg q =
      if q = ra then s.reg rb else if q = rb then s.reg ra else s.reg q := by
  by_cases hab : ra = rb
  case pos => subst hab; simp [State.reg_setReg]
  case neg =>
    by_cases hq : q = ra
    case pos => subst hq; simp [State.reg_setReg, hab]
    case neg => simp [State.reg_setReg, hq]

/-! ## What the two instructions do -/

/-- XBR ends as a load of the exchanged word into RA does. -/
theorem exec_xbr (ra : Reg) (s : State) :
    exec (.xbr ra) s = .next ((s.setReg ra (lowerByte (s.reg ra) ++ upperByte (s.reg ra))).ends
      (signCs (lowerByte (s.reg ra) ++ upperByte (s.reg ra)).toInt) 0 1) :=
  load16_given s ra (lowerByte (s.reg ra) ++ upperByte (s.reg ra)) 1

/-- XWR writes both registers with the words they had before, and sets CS from the one RA has got. -/
theorem exec_xwr (ra rb : Reg) (s : State) :
    exec (.xwr ra rb) s =
      .next (((s.setReg ra (s.reg rb)).setReg rb (s.reg ra)).ends (signCs (s.reg rb).toInt) 0 1) := by
  have harm : exec (.xwr ra rb) s = execXwr ra rb s := rfl
  rw [harm, execXwr, State.start_setReg, State.start_setReg, State.settle_cs, pzn_eq]

/-! ## Their words -/

/-- The field of XBR that its format prints as 0000 (R158). -/
theorem regBits_zero : regBits 0 = 0 := rfl

theorem decode_xbr (ra : Reg) : decode [BitVec.ofNat 16 (0xEC00 + 16 * ra.val)] = .instr (.xbr ra) [] :=
  (decode_ofNat 0xEC ra 0).trans (by simp [decodeFirst, decodeE, one, ifZero, regBits_zero])

theorem decode_xwr (ra rb : Reg) :
    decode [BitVec.ofNat 16 (0xED00 + 16 * ra.val + rb.val)] = .instr (.xwr ra rb) [] :=
  (decode_ofNat 0xED ra rb).trans (by simp [decodeFirst, decodeE, one])

/-- Settles O20: the words by the decoder's matrix, the next states by `exec_xbr` and `exec_xwr`. -/
theorem exchange : Obligations.Exchange := fun ra rb s =>
  ⟨decode_xbr ra, decode_xwr ra rb,
    ⟨_, toNat_lowerByte_append_upperByte (s.reg ra), exec_xbr ra s⟩,
    ⟨_, exec_xwr ra rb s, rfl, reg_exchanged s ra rb⟩⟩

end Sys2Proof.Proofs
end

