-- ==== Sys2Proof/Proofs/Branches.lean ====
section
/-! PROOF. The IC-relative branches (46_control.md R466 to R473) and NOP (R479): the first word that holds a displacement in
its lower byte, the flags P, Z and N as bits of SW, and what a branch leaves. -/

namespace Sys2Proof.Proofs

open Sys2Proof.Machine

/-! ## Words given by opcode and displacement -/

/-- A first word with one field of eight bits, as a number: its opcode in the upper byte, the field in the lower (R123). -/
theorem ofNat_eq_firstWord8 (op f : Byte) : BitVec.ofNat 16 (256 * op.toNat + f.toNat) = firstWord8 op f := by
  apply BitVec.eq_of_toNat_eq
  have hop := op.isLt
  have hf : f.toNat < 2 ^ 8 := f.isLt
  simp only [firstWord8, BitVec.toNat_append, BitVec.toNat_ofNat]
  rw [← Nat.shiftLeft_add_eq_or_of_lt hf, Nat.shiftLeft_eq]
  omega

/-- Where the matrix has at `op` a one-word instruction of a displacement, the word with D in its lower byte decodes to that
instruction (R130, R466). -/
theorem decode_displacementWord {op : Byte} {mk : Byte → Instr} (d : Byte)
    (hop : ∀ hi lo, decodeFirst op hi lo [] = .instr (mk (hi ++ lo)) []) :
    decode [BitVec.ofNat 16 (256 * op.toNat + d.toNat)] = .instr (mk d) [] := by
  rw [ofNat_eq_firstWord8, firstWord8_eq, decode, opField_firstWord, hiField_firstWord, loField_firstWord, hop, halves]

/-! ## The condition and the target -/

/-- Bits are numbered from the most significant one, as `getMsbD` does (R8). -/
theorem bitOf_eq_getMsbD {n : Nat} (w : Word) (hn : n < 16) : bitOf w n = w.getMsbD n := by
  simp [bitOf, BitVec.getMsbD_eq_getLsbD, hn]

/-- P is bit 1 of SW (R26). -/
theorem flagP_eq (s : State) : s.flagP = s.sw.getMsbD 1 := bitOf_eq_getMsbD s.sw (by decide)

/-- Z is bit 2 of SW. -/
theorem flagZ_eq (s : State) : s.flagZ = s.sw.getMsbD 2 := bitOf_eq_getMsbD s.sw (by decide)

/-- N is bit 3 of SW. -/
theorem flagN_eq (s : State) : s.flagN = s.sw.getMsbD 3 := bitOf_eq_getMsbD s.sw (by decide)

/-- The target of a branch is its own address and the signed displacement (R466). -/
theorem relativeAddress_eq (s : State) (d : Byte) : s.relativeAddress d = s.ic + BitVec.ofInt 16 d.toInt := rfl

/-- An instruction that is a branch under `c` changes IC alone: to the target where `c` holds, else to the next word. -/
theorem exec_of_branchIf {i : Instr} {c : Bool} {d : Byte} {s : State} (harm : exec i s = branchIf c d s) :
    exec i s = .next { s with ic := if c then s.ic + BitVec.ofInt 16 d.toInt else s.ic + 1 } := by
  rw [harm, branchIf_eq, relativeAddress_eq, State.setIc]

/-! ## NOP -/

theorem decode_nop : decode [0xFF00] = .instr .nop [] := by decide

theorem exec_nop (s : State) : exec .nop s = .next (s.past 1) := State.start_next s 1

/-- Settles O27, one case an instruction: each opcode stands in the matrix with a displacement, and each meaning is
`branchIf` under its own flags. -/
theorem branches : Obligations.Branches := by
  simp only [Obligations.Branches, ← flagP_eq, ← flagZ_eq, ← flagN_eq]
  refine fun d s => ⟨?_, decode_nop, exec_nop s⟩
  intro i op c hmem
  simp only [List.mem_cons, Prod.mk.injEq, List.not_mem_nil, or_false] at hmem
  obtain ⟨rfl, rfl, rfl⟩ | ⟨rfl, rfl, rfl⟩ | ⟨rfl, rfl, rfl⟩ | ⟨rfl, rfl, rfl⟩ | ⟨rfl, rfl, rfl⟩ | ⟨rfl, rfl, rfl⟩ |
    ⟨rfl, rfl, rfl⟩ := hmem
  case inl => exact ⟨decode_displacementWord (op := 0x74) d fun _ _ => rfl, exec_of_branchIf rfl⟩
  case inr.inl => exact ⟨decode_displacementWord (op := 0x75) d fun _ _ => rfl, exec_of_branchIf rfl⟩
  case inr.inr.inl => exact ⟨decode_displacementWord (op := 0x76) d fun _ _ => rfl, exec_of_branchIf rfl⟩
  case inr.inr.inr.inl => exact ⟨decode_displacementWord (op := 0x78) d fun _ _ => rfl, exec_of_branchIf rfl⟩
  case inr.inr.inr.inr.inl => exact ⟨decode_displacementWord (op := 0x79) d fun _ _ => rfl, exec_of_branchIf rfl⟩
  case inr.inr.inr.inr.inr.inl => exact ⟨decode_displacementWord (op := 0x7A) d fun _ _ => rfl, exec_of_branchIf rfl⟩
  case inr.inr.inr.inr.inr.inr => exact ⟨decode_displacementWord (op := 0x7B) d fun _ _ => rfl, exec_of_branchIf rfl⟩

end Sys2Proof.Proofs
end

