-- ==== Sys2Proof/Proofs/JumpsWithRegister.lean ====
section
/-! PROOF. The jumps that change a register, JS and SOJ (46_control.md R463, R465): what each leaves, and the two words that
hold it. -/

namespace Sys2Proof.Proofs

open Sys2Proof.Machine

/-! ## Instructions of two words -/

/-- Decoding of a first word with others after it reads the matrix at its opcode, and hands the others on (R123, R150). -/
theorem decode_ofNat_cons (op : Byte) (hi lo : Fin 16) (rest : List Word) :
    decode (BitVec.ofNat 16 (256 * op.toNat + 16 * hi.val + lo.val) :: rest) =
      decodeFirst op (regBits hi) (regBits lo) rest := by
  simp only [ofNat_eq_firstWord, decode, opField_firstWord, hiField_firstWord, loField_firstWord]

theorem decode_js (ra rx : Reg) (a : Word) :
    decode [BitVec.ofNat 16 (0x7200 + 16 * ra.val + rx.val), a] = .instr (.js ra rx a) [] :=
  (decode_ofNat_cons 0x72 ra rx [a]).trans (by simp [decodeFirst, decode7, two])

theorem decode_soj (ra rx : Reg) (a : Word) :
    decode [BitVec.ofNat 16 (0x7300 + 16 * ra.val + rx.val), a] = .instr (.soj ra rx a) [] :=
  (decode_ofNat_cons 0x73 ra rx [a]).trans (by simp [decodeFirst, decode7, two])

/-! ## What the two instructions do -/

/-- The end of an instruction that sets CS and jumps: as one that goes on, but IC is the target. -/
theorem start_setCs_jump (s : State) (cs : BitVec 4) (len target : Word) :
    (s.start.setCs cs).jump len target = .next { s.ends cs 0 len with ic := target } := by
  simp [State.ends, State.setCs, State.setIc, withCs]

/-- JS writes RA and jumps; the target is formed from the registers before that, which covers RA = RX (R463). -/
theorem exec_js (ra rx : Reg) (a : Word) (s : State) :
    exec (.js ra rx a) s = .next { s.setReg ra (s.ic + 2) with ic := s.indexed a rx } := by
  have harm : exec (.js ra rx a) s = execJs ra rx a s := rfl
  rw [harm, execJs, State.start_setReg, State.start_jump, State.directAddress, State.setIc]

/-- SOJ goes on where RA was 1, and so has become 0, and jumps where it was not; RA and CS change in both cases (R465). -/
theorem exec_soj (ra rx : Reg) (a : Word) (s : State) :
    exec (.soj ra rx a) s = .next
      { (s.setReg ra (s.reg ra - 1)).ends (signCs (s.reg ra - 1).toInt) 0 2 with
        ic := if s.reg ra = 1 then s.ic + 2 else s.indexed a rx } := by
  have harm : exec (.soj ra rx a) s = execSoj ra rx a s := rfl
  rw [harm, execSoj, State.start_setReg, pzn_eq]
  by_cases hlast : s.reg ra = 1
  case pos =>
    rw [if_pos (sub_eq_zero.2 hlast), if_pos hlast, State.settle_cs]
    rfl
  case neg => rw [if_neg (mt sub_eq_zero.1 hlast), if_neg hlast, start_setCs_jump, State.directAddress]

/-- Settles O26: the words by the decoder's matrix, the next states by `exec_js` and `exec_soj`. -/
theorem jumpsWithRegister : Obligations.JumpsWithRegister := fun ra rx a s =>
  ⟨decode_js ra rx a, decode_soj ra rx a, exec_js ra rx a s, exec_soj ra rx a s⟩

end Sys2Proof.Proofs
end

