-- ==== Sys2Proof/Proofs/PrivilegeTrap.lean ====
section
/-! PROOF. The privileged instructions with AK not 0 (60_exceptions.md R669, R700): what the violation leaves, and what every
instruction behind the AK check does when the check fails. -/

namespace Sys2Proof.Proofs

open Sys2Proof.Machine

/-- Privilege is AK = 0 (R700). -/
theorem privileged_eq_false_iff (s : State) : s.privileged = false ↔ akField s.sw ≠ 0 := by
  simp [State.privileged]

/-- The violation's masks are FT bit 10 and PIR bit 1; its pulse and IC are all that changes besides (R669, R672). -/
theorem privilegeViolation_eq (s : State) :
    s.privilegeViolation = { s with
      ft := s.ft ||| oneBit 10, pir := s.pir ||| oneBit 1, ic := s.ic + 2, trace := .majEr :: s.trace } := by
  have hft : oneBit 10 = 0x0020 := by decide
  have hpir : oneBit 1 = 0x4000 := by decide
  rw [hft, hpir]
  rfl

/-- An instruction whose whole meaning `r` stands behind the AK check leaves the violation alone where AK is not 0: `r`, with
its reads and I/O cycles, has no part in the outcome. -/
theorem exec_of_privilegeCheck {i : Instr} {s : State} {r : Result}
    (harm : exec i s = if s.privileged then r else .next s.privilegeViolation) (hak : akField s.sw ≠ 0) :
    exec i s = .next { s with
      ft := s.ft ||| oneBit 10, pir := s.pir ||| oneBit 1, ic := s.ic + 2, trace := .majEr :: s.trace } := by
  have hcheck : s.privileged = false := (privileged_eq_false_iff s).2 hak
  simp only [harm, hcheck, Bool.false_eq_true, if_false, privilegeViolation_eq]

/-- Settles O45, one case an instruction: each is its own meaning behind the same AK check. -/
theorem privilegeTrap : Obligations.PrivilegeTrap := by
  intro ra rx w s i hmem hak
  simp only [List.mem_cons, List.not_mem_nil, or_false] at hmem
  obtain rfl | rfl | rfl | rfl := hmem
  case inl => exact exec_of_privilegeCheck (i := .xio ra rx w) rfl hak
  case inr.inl => exact exec_of_privilegeCheck (i := .vio ra rx w) rfl hak
  case inr.inr.inl => exact exec_of_privilegeCheck (i := .lst rx w) rfl hak
  case inr.inr.inr => exact exec_of_privilegeCheck (i := .lsti rx w) rfl hak

end Sys2Proof.Proofs
end

