-- ==== Sys2Proof/Proofs/DecodeEncode.lean ====
section
/-! PROOF. Decoding undoes encoding (30_encoding.md R120 to R157): one lemma a format, about every instruction that the matrix
has in that format, then the instructions by format. -/

namespace Sys2Proof.Proofs

open Sys2Proof.Machine

/-! ## The matrix at the opcode of an encoded word -/

/-- Decoding of a first word given by its fields reads the matrix at its opcode (R123, R150). -/
theorem decode_firstWord (op : Byte) (hi lo : BitVec 4) (rest : List Word) :
    decode (firstWord op hi lo :: rest) = decodeFirst op hi lo rest := by
  simp only [decode, opField_firstWord, hiField_firstWord, loField_firstWord]

/-- A displacement is handed to the matrix as its two halves. -/
theorem decode_firstWord8 (op f : Byte) (rest : List Word) :
    decode (firstWord8 op f :: rest) = decodeFirst op (f.extractLsb' 4 4) (f.extractLsb' 0 4) rest := by
  rw [firstWord8_eq, decode_firstWord]

/-- The quadrant 00 to 3F of the matrix is that of the base-relative instructions (R150). -/
theorem decodeFirst_of_base {op : Byte} {k : Nat} (hk : k < 16) (hop : op.toNat / 4 = k) (hi lo : BitVec 4) (rest : List Word) :
    decodeFirst op hi lo rest = decodeBase op hi lo rest := by
  have hrow : op.toNat / 16 = 0 ∨ op.toNat / 16 = 1 ∨ op.toNat / 16 = 2 ∨ op.toNat / 16 = 3 := by omega
  obtain h | h | h | h := hrow <;> simp only [decodeFirst, h]

/-- Where the matrix has at quarter `k` a base-relative instruction, its word decodes to it (format 7a, R131). -/
theorem decode_baseWord {k : Fin 16} {mk : Reg → Byte → Instr} {br : Reg} (hbr : br.isBase = true) (du : Byte) (rest : List Word)
    (hk : ∀ op hi lo, op.toNat / 4 = k.val → decodeBase op hi lo rest = one (mk (baseReg op) (hi ++ lo)) rest) :
    decode (firstWord8 (baseOp (BitVec.ofNat 8 (4 * k.val)) br) du :: rest) = .instr (mk br du) rest := by
  have hop := baseOp_div k.castSucc hbr
  have hreg := baseReg_baseOp k.castSucc hbr
  simp only [Fin.val_castSucc] at hop hreg
  rw [decode_firstWord8, decodeFirst_of_base k.isLt hop, hk _ _ _ hop, hreg, halves, one]

/-- Opcodes 40 to 43 are those of the base-relative indexed instructions (format 7b, R151). -/
theorem decode_baseIndexedWord {k : BitVec 4} {mk : Reg → Reg → Instr} {br : Reg} (hbr : br.isBase = true) (rx : Reg) (rest : List Word)
    (hk : ∀ op lo, decodeBrx op k lo rest = one (mk (baseReg op) (reg lo)) rest) :
    decode (firstWord (baseOp 0x40 br) k (regBits rx) :: rest) = .instr (mk br rx) rest := by
  have hop : (baseOp 0x40 br).toNat / 4 = 16 := baseOp_div 16 hbr
  have hreg : baseReg (baseOp 0x40 br) = br := baseReg_baseOp 16 hbr
  have hrow : (baseOp 0x40 br).toNat / 16 = 4 := by omega
  have hcol : (baseOp 0x40 br).toNat % 16 = 0 ∨ (baseOp 0x40 br).toNat % 16 = 1 ∨
      (baseOp 0x40 br).toNat % 16 = 2 ∨ (baseOp 0x40 br).toNat % 16 = 3 := by omega
  have hmatrix : ∀ hi lo, decodeFirst (baseOp 0x40 br) hi lo rest = decodeBrx (baseOp 0x40 br) hi lo rest := by
    intro hi lo
    obtain h | h | h | h := hcol <;> simp only [decodeFirst, hrow, decode4, h]
  rw [decode_firstWord, hmatrix, hk, hreg, reg_regBits, one]

/-- BIF and BIFI, both forms (R153): the field of form and coprocessor gives both back. -/
theorem decode_bifWords (direct three : Bool) (cp : Fin 4) (rx : Reg) (a1 a2 : Word) (rest : List Word)
    (h : (three || decide (a2 = 0)) = true) :
    decode (bifWords direct three cp rx a1 a2 ++ rest) =
      .instr (if direct then .bifi three cp rx a1 a2 else .bif three cp rx a1 a2) rest := by
  have hform := bifBits_div direct three cp
  have hcp := coprocessor_bifBits direct three cp
  simp only [bifWords, List.cons_append, decode_firstWord]
  have hrow : decodeFirst 0x4F = decodeBif := rfl
  rw [hrow, decodeBif, hform, hcp, reg_regBits]
  cases three
  case false =>
    have ha2 : a2 = 0 := by simpa using h
    subst ha2
    cases direct <;> rfl
  case true => cases direct <;> rfl

/-! ## Formats with two fields -/

/-- An instruction of one word and two fields of four bits. -/
theorem decode_fields {op : Byte} {mk : Fin 16 → Fin 16 → Instr} (x y : Fin 16) (rest : List Word)
    (hop : ∀ hi lo, decodeFirst op hi lo rest = one (mk (reg hi) (reg lo)) rest) :
    decode (firstWord op (regBits x) (regBits y) :: rest) = .instr (mk x y) rest := by
  rw [decode_firstWord, hop, reg_regBits, reg_regBits, one]

/-- An instruction of two words and two fields of four bits. -/
theorem decode_fields_two {op : Byte} {mk : Fin 16 → Fin 16 → Word → Instr} (x y : Fin 16) (a : Word) (rest : List Word)
    (hop : ∀ hi lo, decodeFirst op hi lo (a :: rest) = two (mk (reg hi) (reg lo)) (a :: rest)) :
    decode (firstWord op (regBits x) (regBits y) :: a :: rest) = .instr (mk x y a) rest := by
  rw [decode_firstWord, hop, reg_regBits, reg_regBits, two]

/-- An instruction whose second field alone is an operand: the first is a constant of the format, or the operand as it is. -/
theorem decode_lowField {op : Byte} {hi : BitVec 4} {mk : Fin 16 → Instr} (y : Fin 16) (rest : List Word)
    (hop : ∀ lo, decodeFirst op hi lo rest = one (mk (reg lo)) rest) :
    decode (firstWord op hi (regBits y) :: rest) = .instr (mk y) rest := by
  rw [decode_firstWord, hop, reg_regBits, one]

/-- The same with a second word. -/
theorem decode_lowField_two {op : Byte} {hi : BitVec 4} {mk : Fin 16 → Word → Instr} (y : Fin 16) (a : Word) (rest : List Word)
    (hop : ∀ lo, decodeFirst op hi lo (a :: rest) = two (mk (reg lo)) (a :: rest)) :
    decode (firstWord op hi (regBits y) :: a :: rest) = .instr (mk y a) rest := by
  rw [decode_firstWord, hop, reg_regBits, two]

/-- An instruction whose first field alone is an operand. -/
theorem decode_highField {op : Byte} {lo : BitVec 4} {mk : Fin 16 → Instr} (x : Fin 16) (rest : List Word)
    (hop : ∀ hi, decodeFirst op hi lo rest = one (mk (reg hi)) rest) :
    decode (firstWord op (regBits x) lo :: rest) = .instr (mk x) rest := by
  rw [decode_firstWord, hop, reg_regBits, one]

/-- The same with a second word: the immediate instructions, whose extension is the constant (R152). -/
theorem decode_highField_two {op : Byte} {lo : BitVec 4} {mk : Fin 16 → Word → Instr} (x : Fin 16) (a : Word) (rest : List Word)
    (hop : ∀ hi, decodeFirst op hi lo (a :: rest) = two (mk (reg hi)) (a :: rest)) :
    decode (firstWord op (regBits x) lo :: a :: rest) = .instr (mk x a) rest := by
  rw [decode_firstWord, hop, reg_regBits, two]

/-- A count in the first field. -/
theorem decode_highCount {op : Byte} {mk : Nat → Reg → Instr} {n : Nat} (hn : isCount n = true) (y : Fin 16) (rest : List Word)
    (hop : ∀ hi lo, decodeFirst op hi lo rest = one (mk (count hi) (reg lo)) rest) :
    decode (firstWord op (countBits n) (regBits y) :: rest) = .instr (mk n y) rest := by
  rw [decode_firstWord, hop, count_countBits hn, reg_regBits, one]

/-- A count in the first field, and a second word. -/
theorem decode_highCount_two {op : Byte} {mk : Nat → Reg → Word → Instr} {n : Nat} (hn : isCount n = true) (y : Fin 16) (a : Word) (rest : List Word)
    (hop : ∀ hi lo, decodeFirst op hi lo (a :: rest) = two (mk (count hi) (reg lo)) (a :: rest)) :
    decode (firstWord op (countBits n) (regBits y) :: a :: rest) = .instr (mk n y a) rest := by
  rw [decode_firstWord, hop, count_countBits hn, reg_regBits, two]

/-- A count in the second field. -/
theorem decode_lowCount {op : Byte} {mk : Reg → Nat → Instr} (x : Fin 16) {n : Nat} (hn : isCount n = true) (rest : List Word)
    (hop : ∀ hi lo, decodeFirst op hi lo rest = one (mk (reg hi) (count lo)) rest) :
    decode (firstWord op (regBits x) (countBits n) :: rest) = .instr (mk x n) rest := by
  rw [decode_firstWord, hop, count_countBits hn, reg_regBits, one]

/-- A displacement in the lower byte (format 6, R130). -/
theorem decode_displacement {op : Byte} {mk : Byte → Instr} (d : Byte) (rest : List Word)
    (hop : ∀ hi lo, decodeFirst op hi lo rest = one (mk (hi ++ lo)) rest) :
    decode (firstWord8 op d :: rest) = .instr (mk d) rest := by
  rw [decode_firstWord8, hop, halves, one]

/-! ## Every instruction -/

/-- Decoding gives back every well-formed instruction, format by format (30_encoding.md R123). -/
theorem decode_encode_append (i : Instr) (rest : List Word) (h : i.wf = true) :
    decode (encode i ++ rest) = .instr i rest := by
  cases i
  case lb br du => exact decode_baseWord (k := 0) h du rest fun _ _ _ hop => by rw [decodeBase, hop]; rfl
  case dlb br du => exact decode_baseWord (k := 1) h du rest fun _ _ _ hop => by rw [decodeBase, hop]; rfl
  case stb br du => exact decode_baseWord (k := 2) h du rest fun _ _ _ hop => by rw [decodeBase, hop]; rfl
  case dstb br du => exact decode_baseWord (k := 3) h du rest fun _ _ _ hop => by rw [decodeBase, hop]; rfl
  case ab br du => exact decode_baseWord (k := 4) h du rest fun _ _ _ hop => by rw [decodeBase, hop]; rfl
  case sbb br du => exact decode_baseWord (k := 5) h du rest fun _ _ _ hop => by rw [decodeBase, hop]; rfl
  case mb br du => exact decode_baseWord (k := 6) h du rest fun _ _ _ hop => by rw [decodeBase, hop]; rfl
  case db br du => exact decode_baseWord (k := 7) h du rest fun _ _ _ hop => by rw [decodeBase, hop]; rfl
  case fab br du => exact decode_baseWord (k := 8) h du rest fun _ _ _ hop => by rw [decodeBase, hop]; rfl
  case fsb br du => exact decode_baseWord (k := 9) h du rest fun _ _ _ hop => by rw [decodeBase, hop]; rfl
  case fmb br du => exact decode_baseWord (k := 10) h du rest fun _ _ _ hop => by rw [decodeBase, hop]; rfl
  case fdb br du => exact decode_baseWord (k := 11) h du rest fun _ _ _ hop => by rw [decodeBase, hop]; rfl
  case orb br du => exact decode_baseWord (k := 12) h du rest fun _ _ _ hop => by rw [decodeBase, hop]; rfl
  case andb br du => exact decode_baseWord (k := 13) h du rest fun _ _ _ hop => by rw [decodeBase, hop]; rfl
  case cb br du => exact decode_baseWord (k := 14) h du rest fun _ _ _ hop => by rw [decodeBase, hop]; rfl
  case fcb br du => exact decode_baseWord (k := 15) h du rest fun _ _ _ hop => by rw [decodeBase, hop]; rfl
  case lbx br rx | dlbx br rx | stbx br rx | dstx br rx | abx br rx | sbbx br rx | mbx br rx | dbx br rx | fabx br rx |
      fsbx br rx | fmbx br rx | fdbx br rx | cbx br rx | fcbx br rx | andx br rx | orbx br rx =>
    exact decode_baseIndexedWord h rx rest fun _ _ => rfl
  case sbr x y | rbr x y | tbr x y | svbr x y | rvbr x y | tvbr x y | slr x y | sar x y | scr x y | dslr x y | dsar x y
      | dscr x y | lr x y | dlr x y | popm x y | mov x y | pshm x y | ar x y | abs x y | dabs x y | dar x y | far x y
      | efar x y | fabs x y | sr x y | neg x y | dneg x y | dsr x y | fsr x y | efsr x y | fneg x y | msr x y | mr x y
      | dmr x y | fmr x y | efmr x y | dvr x y | dr x y | ddr x y | fdr x y | efdr x y | orr x y | andr x y | xorr x y
      | nr x y | fix x y | flt x y | efix x y | eflt x y | xwr x y | cr x y | dcr x y | fcr x y | efcr x y =>
    exact decode_fields x y rest fun _ _ => rfl
  case xio x y a | vio x y a | sb x y a | sbi x y a | rb x y a | rbi x y a | tb x y a | tbi x y a | tsb x y a | js x y
      a | soj x y a | sjs x y a | l x y a | li x y a | lim x y a | dl x y a | dli x y a | lm x y a | efl x y a | lub x
      y a | llb x y a | lubi x y a | llbi x y a | st x y a | stc x y a | stci x y a | sti x y a | dst x y a | srm x y
      a | dsti x y a | stm x y a | efst x y a | stub x y a | stlb x y a | subi x y a | slbi x y a | a x y a | da x y a
      | fa x y a | efa x y a | s x y a | ds x y a | fs x y a | efs x y a | ms x y a | m x y a | dm x y a | fm x y a |
      efm x y a | dv x y a | d x y a | dd x y a | fd x y a | efd x y a | or x y a | and x y a | xor x y a | n x y a |
      c x y a | cbl x y a | dc x y a | fc x y a | efc x y a =>
    exact decode_fields_two x y a rest fun _ _ => rfl
  case lisp x n | lisn x n | aisp x n | sisp x n | misp x n | misn x n | disp x n | disn x n | cisp x n | cisn x n =>
    exact decode_lowCount x h rest fun _ _ => rfl
  case sll n y | srl n y | sra n y | slc n y | dsll n y | dsrl n y | dsra n y | dslc n y =>
    exact decode_highCount h y rest fun _ _ => rfl
  case incm n y a | decm n y a =>
    exact decode_highCount_two h y a rest fun _ _ => rfl
  case urs x | xbr x =>
    exact decode_highField x rest fun _ => rfl
  case aim x a | sim x a | mim x a | msim x a | dim x a | dvim x a | andm x a | orim x a | xorm x a | cim x a | nim x a =>
    exact decode_highField_two x a rest fun _ => rfl
  case bex y =>
    exact decode_lowField y rest fun _ => rfl
  case jc c y a | jci c y a | lsti y a | lst y a =>
    exact decode_lowField_two y a rest fun _ => rfl
  case br d | bez d | blt d | ble d | bgt d | bnz d | bge d =>
    exact decode_displacement d rest fun _ _ => rfl
  case bifi three cp rx a1 a2 => exact decode_bifWords true three cp rx a1 a2 rest h
  case nop => exact decode_firstWord 0xFF 0x0 0x0 rest
  case bpt => exact decode_firstWord 0xFF 0xF 0xF rest
  -- BIF; its name is a keyword of the term language, so `case` cannot name it
  next three cp rx a1 a2 => exact decode_bifWords false three cp rx a1 a2 rest h

/-- Settles O56: the words by `decode_encode_append`, the bytes because they are decoded as the words they hold. -/
theorem decodeInvertsEncode : Obligations.DecodeInvertsEncode := fun i rest h =>
  ⟨decode_encode_append i rest h, by rw [decodeBytes_flatMap, decode_encode_append i rest h]⟩

/-- Settles O57: each word is decoded by evaluation. -/
theorem decodedWords : Obligations.DecodedWords := by
  unfold Obligations.DecodedWords
  decide

end Sys2Proof.Proofs
end

