-- ==== Sys2Proof/Proofs/Operands.lean ====
section
/-! PROOF. Operands by addressing mode (30_encoding.md R125 to R132): how every instruction that reads one gets it, what it gets
where no cycle draws a fault, and, table by table of the statements, which shared operation works on it. -/

namespace Sys2Proof.Proofs

open Sys2Proof.Machine

/-! ## How an operand is got -/

/-- The derived address, with what the cycle of an indirect pointer did; 0 where the mode has none. -/
def operandAddress (s : State) : Source → Got Word
  | .register _ | .literal _ => s.given 0
  | .direct rx a => s.given (s.indexed a rx)
  | .indirect rx a => s.indirectAddress rx a
  | .base br du => s.given (s.reg br + du.zeroExtend 16)
  | .baseIndexed br rx => s.given (s.indexed (s.reg br) rx)

/-- An operand of one word. -/
def operandWord (s : State) (o : Source) : Got Word :=
  match o with
  | .register r => s.given (s.reg r)
  | .literal w => s.given w
  | .direct _ _ | .indirect _ _ | .base _ _ | .baseIndexed _ _ => (operandAddress s o).run.read (operandAddress s o).val

/-- An operand of two words. -/
def operandLong (s : State) (o : Source) : Got Long :=
  match o with
  | .register r => s.given (s.pair r)
  | .literal w => s.given (w.zeroExtend 32)
  | .direct _ _ | .indirect _ _ | .base _ _ | .baseIndexed _ _ => (operandAddress s o).run.read2 (operandAddress s o).val

/-- An operand of three words. -/
def operandTriple (s : State) (o : Source) : Got Triple :=
  match o with
  | .register r => s.given (s.triple r)
  | .literal w => s.given (w.zeroExtend 48)
  | .direct _ _ | .indirect _ _ | .base _ _ | .baseIndexed _ _ => (operandAddress s o).run.read3 (operandAddress s o).val

/-- A derived address that is had without a fault. -/
theorem operandAddress_located {s : State} {o : Source} (h : o.located s = true) :
    operandAddress s o = s.given (o.address s) := by
  cases o with
  | indirect rx a => exact State.indirectAddress_located h
  | register _ | literal _ | direct _ _ | base _ _ | baseIndexed _ _ => rfl

/-- One word without a fault. -/
theorem operandWord_ready {s : State} {o : Source} (h : o.ready s 1 = true) : operandWord s o = s.given (o.word s) := by
  cases o with
  | register _ | literal _ => rfl
  | direct rx a => exact State.direct1_ready h
  | indirect rx a => exact State.indirect1_ready h
  | base br du => exact State.base1_ready h
  | baseIndexed br rx => exact State.baseIndexed1_ready h

/-- Two words without a fault. -/
theorem operandLong_ready {s : State} {o : Source} (h : o.ready s 2 = true) : operandLong s o = s.given (o.long s) := by
  cases o with
  | register _ | literal _ => rfl
  | direct rx a => exact State.direct2_ready h
  | indirect rx a => exact State.indirect2_ready h
  | base br du => exact State.base2_ready h
  | baseIndexed br rx => exact State.baseIndexed2_ready h

/-- Three words without a fault. -/
theorem operandTriple_ready {s : State} {o : Source} (h : o.ready s 3 = true) :
    operandTriple s o = s.given (o.triple s) := by
  have span {p : Word} (hp : s.readableSpan p 3 = true) : s.start.read3 p = s.given (s.loaded3 p) := by
    obtain ⟨h0, h1, h2, ha⟩ := State.readableSpan_three hp
    exact State.read3_clean s h0 h1 h2 ha
  cases o with
  | register _ | literal _ => rfl
  | direct _ _ | base _ _ | baseIndexed _ _ => exact span h
  | indirect rx a =>
    simp only [Source.ready, Bool.and_eq_true] at h
    obtain ⟨⟨hp, hspan⟩, ha⟩ := h
    have hloc : Source.located s (.indirect rx a) = true := by simp [Source.located, hp, ha]
    simp only [operandTriple, operandAddress_located hloc, State.given_run, State.given_val]
    exact span hspan

/-! ## Which operation works on it -/

section Tables

variable {i : Instr} {s : State} {ra : Reg} {o : Source} {len : Word}

theorem exec_addWord (h : Shape.addWord i = some (ra, o, len)) : exec i s = add16 ra (operandWord s o) len := by
  unfold Shape.addWord at h
  split at h <;> cases h <;> rfl

theorem exec_subWord (h : Shape.subWord i = some (ra, o, len)) : exec i s = sub16 ra (operandWord s o) len := by
  unfold Shape.subWord at h
  split at h <;> cases h <;> rfl

theorem exec_addLong {subtract : Bool} (h : Shape.addLong i = some (subtract, ra, o, len)) :
    exec i s = if subtract then sub32 ra (operandLong s o) len else add32 ra (operandLong s o) len := by
  unfold Shape.addLong at h
  split at h <;> cases h <;> rfl

theorem exec_mulShort (h : Shape.mulShort i = some (ra, o, len)) : exec i s = mulShort ra (operandWord s o) len := by
  unfold Shape.mulShort at h
  split at h <;> cases h <;> rfl

theorem exec_mulLong (h : Shape.mulLong i = some (ra, o, len)) : exec i s = mul32 ra (operandLong s o) len := by
  unfold Shape.mulLong at h
  split at h <;> cases h <;> rfl

theorem exec_mulWide (h : Shape.mulWide i = some (ra, o, len)) : exec i s = mul16 ra (operandWord s o) len := by
  unfold Shape.mulWide at h
  split at h <;> cases h <;> rfl

theorem exec_divide {long : Bool} (h : Shape.divide i = some (long, ra, o, len)) :
    exec i s = if long then div16 ra (operandWord s o) len else divShort ra (operandWord s o) len := by
  unfold Shape.divide at h
  split at h <;> cases h <;> rfl

theorem exec_divideLong (h : Shape.divideLong i = some (ra, o, len)) : exec i s = div32 ra (operandLong s o) len := by
  unfold Shape.divideLong at h
  split at h <;> cases h <;> rfl

theorem exec_compareWord (h : Shape.compareWord i = some (ra, o, len)) :
    exec i s = compare16 ra (operandWord s o) len := by
  unfold Shape.compareWord at h
  split at h <;> cases h <;> rfl

theorem exec_compareLong (h : Shape.compareLong i = some (ra, o, len)) :
    exec i s = compare32 ra (operandLong s o) len := by
  unfold Shape.compareLong at h
  split at h <;> cases h <;> rfl

theorem exec_loadWord (h : Shape.loadWord s i = some (ra, o, len)) : exec i s = load16 ra (operandWord s o) len := by
  unfold Shape.loadWord at h
  split at h <;> cases h <;> rfl

theorem exec_loadLong (h : Shape.loadLong i = some (ra, o, len)) : exec i s = load32 ra (operandLong s o) len := by
  unfold Shape.loadLong at h
  split at h <;> cases h <;> rfl

theorem exec_float {f : FloatNum → FloatNum → FloatResult} (h : Shape.float i = some (f, ra, o, len)) :
    exec i s = float32 f ra (operandLong s o) len := by
  unfold Shape.float at h
  split at h <;> cases h <;> rfl

theorem exec_extended {f : FloatNum → FloatNum → FloatResult} (h : Shape.extended i = some (f, ra, o, len)) :
    exec i s = float48 f ra (operandTriple s o) len := by
  unfold Shape.extended at h
  split at h <;> cases h <;> rfl

theorem exec_compareFloat (h : Shape.compareFloat i = some (ra, o, len)) :
    exec i s = compareFloat32 ra (operandLong s o) len := by
  unfold Shape.compareFloat at h
  split at h <;> cases h <;> rfl

theorem exec_compareExtended (h : Shape.compareExtended i = some (ra, o, len)) :
    exec i s = compareFloat48 ra (operandTriple s o) len := by
  unfold Shape.compareExtended at h
  split at h <;> cases h <;> rfl

/-- A logical instruction is `logic16` of the word operation that acts on each bit as its table says. -/
theorem exec_logic {f : Bool → Bool → Bool} (h : Shape.logic i = some (f, ra, o, len)) :
    ∃ g : Word → Word → Word, (∀ x y : Word, ∀ k < 16, bitOf (g x y) k = f (bitOf x k) (bitOf y k)) ∧
      exec i s = logic16 g ra (operandWord s o) len := by
  have hor : ∀ x y : Word, ∀ k < 16, bitOf (x ||| y) k = (bitOf x k || bitOf y k) := by simp [bitOf]
  have hand : ∀ x y : Word, ∀ k < 16, bitOf (x &&& y) k = (bitOf x k && bitOf y k) := by simp [bitOf]
  have hxor : ∀ x y : Word, ∀ k < 16, bitOf (x ^^^ y) k = xor (bitOf x k) (bitOf y k) := by simp [bitOf]
  have hnand : ∀ x y : Word, ∀ k < 16, bitOf (nand x y) k = !(bitOf x k && bitOf y k) := by
    intro x y k hk
    have hlt : 15 - k < 16 := by omega
    simp [bitOf, nand, hlt]
  unfold Shape.logic at h
  split at h <;> cases h
  case h_1 | h_2 | h_3 | h_4 | h_5 => exact ⟨_, hor, rfl⟩
  case h_6 | h_7 | h_8 | h_9 | h_10 => exact ⟨_, hand, rfl⟩
  case h_11 | h_12 | h_13 => exact ⟨_, hxor, rfl⟩
  case h_14 | h_15 | h_16 => exact ⟨_, hnand, rfl⟩

end Tables

end Sys2Proof.Proofs
end

