-- ==== Sys2Proof/Proofs/Integer.lean ====
section
/-! PROOF. The integer instructions (40_integer.md): each table's operation on an operand had without a fault, with its flags
as statements about exact integers. -/

namespace Sys2Proof.Proofs

open Sys2Proof.Machine

/-! ## Exact integers, narrowed -/

/-- A sum of words is the exact sum, narrowed. -/
theorem ofInt_toInt_add {w : Nat} (x y : BitVec w) : BitVec.ofInt w (x.toInt + y.toInt) = x + y := (addC_r x y).symm

/-- A difference of words is the exact difference, narrowed. -/
theorem ofInt_toInt_sub {w : Nat} (x y : BitVec w) : BitVec.ofInt w (x.toInt - y.toInt) = x - y := (subC_r x y).symm

/-- Narrowing the whole product keeps the product narrowed. -/
theorem lowWord_product16 (x y : Word) : lowWord (product16 x y) = BitVec.ofInt 16 (x.toInt * y.toInt) := by
  apply BitVec.eq_of_toNat_eq
  simp only [lowWord, product16, BitVec.extractLsb'_toNat, BitVec.toNat_ofInt, Nat.shiftRight_zero]
  omega

/-- The same of double words. -/
theorem lowLong_product32 (x y : Long) :
    (product32 x y).extractLsb' 0 32 = BitVec.ofInt 32 (x.toInt * y.toInt) := by
  apply BitVec.eq_of_toNat_eq
  simp only [product32, BitVec.extractLsb'_toNat, BitVec.toNat_ofInt, Nat.shiftRight_zero]
  omega

/-- A whole product fits a double word. -/
theorem toInt_product16 (x y : Word) : (product16 x y).toInt = x.toInt * y.toInt := by
  have h1 := BitVec.le_toInt x
  have h2 := BitVec.toInt_lt (x := x)
  have h3 := BitVec.le_toInt y
  have h4 := BitVec.toInt_lt (x := y)
  norm_num at h1 h2 h3 h4
  have hlow : -2 ^ 31 ≤ x.toInt * y.toInt := by nlinarith
  have hhigh : x.toInt * y.toInt < 2 ^ 31 := by nlinarith
  rw [product16, BitVec.toInt_ofInt, Int.bmod_eq_of_le] <;> omega

/-- A negated word is the exact negative, narrowed. -/
theorem ofInt_neg_toInt {w : Nat} (x : BitVec w) : BitVec.ofInt w (-x.toInt) = -x := by
  rw [BitVec.ofInt_neg, BitVec.ofInt_toInt]

/-- The word that ABS and DABS store is the exact absolute value, narrowed. -/
theorem ofInt_abs_toInt {w : Nat} (x : BitVec w) : BitVec.ofInt w |x.toInt| = if x.msb then -x else x := by
  rw [BitVec.msb_eq_toInt]
  by_cases h : x.toInt < 0
  · simp only [h, decide_true, if_true, abs_of_neg h, ofInt_neg_toInt]
  · simp only [h, decide_false, abs_of_nonneg (not_lt.1 h), BitVec.ofInt_toInt]
    rfl

/-- The one number whose negative does not fit is the most negative one. -/
theorem neg_not_fits_iff {w : Nat} {v : Int} (h : fits w v = true) : fits w (-v) = false ↔ v = -2 ^ (w - 1) := by
  simp only [fits, Bool.and_eq_true, decide_eq_true_eq, Bool.and_eq_false_iff, decide_eq_false_iff_not] at h ⊢
  omega

/-- So it is with the absolute value. -/
theorem abs_not_fits_iff {w : Nat} {v : Int} (h : fits w v = true) : fits w |v| = false ↔ v = -2 ^ (w - 1) := by
  have hpos : (0 : Int) < 2 ^ (w - 1) := by positivity
  simp only [fits, Bool.and_eq_true, decide_eq_true_eq, Bool.and_eq_false_iff, decide_eq_false_iff_not] at h ⊢
  rcases abs_cases v with ⟨habs, _⟩ | ⟨habs, _⟩ <;> rw [habs] <;> omega

/-- The most negative word. -/
theorem eq_min16_iff (x : Word) : decide (x = 0x8000) = decide (x.toInt = -2 ^ (16 - 1)) := by
  rw [decide_eq_decide, ← BitVec.toInt_inj]
  rfl

/-- The most negative double word. -/
theorem eq_min32_iff (x : Long) : decide (x = 0x80000000) = decide (x.toInt = -2 ^ (32 - 1)) := by
  rw [decide_eq_decide, ← BitVec.toInt_inj]
  rfl

/-- The overflow of a negative. -/
theorem not_fits_neg {w : Nat} (hw : 0 < w) (x : BitVec w) :
    (!fits w (-x.toInt)) = decide (x.toInt = -2 ^ (w - 1)) := by
  rw [Bool.eq_iff_iff, Bool.not_eq_true', neg_not_fits_iff (fits_toInt x hw), decide_eq_true_eq]

/-- The overflow of an absolute value. -/
theorem not_fits_abs {w : Nat} (hw : 0 < w) (x : BitVec w) :
    (!fits w |x.toInt|) = decide (x.toInt = -2 ^ (w - 1)) := by
  rw [Bool.eq_iff_iff, Bool.not_eq_true', abs_not_fits_iff (fits_toInt x hw), decide_eq_true_eq]

/-! ## Sums, differences and negatives -/

/-- Settles O1: the operand is got, and `add16` adds it. -/
theorem addWord : Obligations.AddWord := by
  intro i s ra o len htable hready sum
  rw [exec_addWord htable, operandWord_ready hready, add16_given, ofInt_toInt_add]

/-- Settles O2: the operand is got, and `sub16` subtracts it. -/
theorem subtractWord : Obligations.SubtractWord := by
  intro i s ra o len htable hready difference
  rw [exec_subWord htable, operandWord_ready hready, sub16_given, ofInt_toInt_sub]

/-- Settles O3, a case for the adds and one for the subtracts. -/
theorem addSubtractLong : Obligations.AddSubtractLong := by
  intro i s subtract ra o len htable hready x y exact carry
  rw [exec_addLong htable, operandLong_ready hready]
  cases subtract with
  | false =>
    have hsum : BitVec.ofInt 32 exact = x + y := ofInt_toInt_add x y
    rw [hsum]
    exact add32_given s ra y len
  | true =>
    have hdiff : BitVec.ofInt 32 exact = x - y := ofInt_toInt_sub x y
    rw [hdiff]
    exact sub32_given s ra y len

/-- ABS, NEG, DABS and DNEG over `put16` and `put32`. -/
theorem exec_abs (ra rb : Reg) (s : State) : exec (.abs ra rb) s =
    put16 ra (if (s.reg rb).msb then -s.reg rb else s.reg rb) (s.reg rb = 0x8000) s.start 1 := rfl

theorem exec_neg (ra rb : Reg) (s : State) :
    exec (.neg ra rb) s = put16 ra (-s.reg rb) (s.reg rb = 0x8000) s.start 1 := rfl

theorem exec_dabs (ra rb : Reg) (s : State) : exec (.dabs ra rb) s =
    put32 ra (if (s.pair rb).msb then -s.pair rb else s.pair rb) (s.pair rb = 0x80000000) s.start 1 := rfl

theorem exec_dneg (ra rb : Reg) (s : State) :
    exec (.dneg ra rb) s = put32 ra (-s.pair rb) (s.pair rb = 0x80000000) s.start 1 := rfl

/-- Settles O5: the stored word is the exact result, narrowed, and only the most negative number overflows. -/
theorem absoluteAndNegative : Obligations.AbsoluteAndNegative := by
  intro ra rb s x y
  have hx : 0 < 16 := by decide
  have hy : 0 < 32 := by decide
  refine ⟨?abs, ?neg, ?dabs, ?dneg⟩
  case abs => rw [exec_abs, put16_start, ofInt_abs_toInt, not_fits_abs hx, eq_min16_iff]
  case neg => rw [exec_neg, put16_start, ofInt_neg_toInt, not_fits_neg hx, eq_min16_iff]
  case dabs => rw [exec_dabs, put32_start, ofInt_abs_toInt, not_fits_abs hy, eq_min32_iff]
  case dneg => rw [exec_dneg, put32_start, ofInt_neg_toInt, not_fits_neg hy, eq_min32_iff]

/-! ## Products and quotients -/

/-- Settles O6: the low half of the exact product is the product narrowed. -/
theorem multiplyLowHalf : Obligations.MultiplyLowHalf := by
  constructor
  · intro i s ra o len htable hready p
    rw [exec_mulShort htable, operandWord_ready hready, mulShort_given, lowWord_product16]
  · intro i s ra o len htable hready p
    rw [exec_mulLong htable, operandLong_ready hready, mul32_given, lowLong_product32]

/-- Settles O7: the whole product of two words fits the pair. -/
theorem multiplyWhole : Obligations.MultiplyWhole := by
  intro i s ra o len htable hready p
  have hvalue : (product16 (s.reg ra) (o.word s)).toInt = p := toInt_product16 _ _
  refine ⟨product16 (s.reg ra) (o.word s), hvalue, ?_⟩
  rw [exec_mulWide htable, operandWord_ready hready, mul16_given, hvalue]

/-- A division by zero clears both results with overflow (D10). -/
theorem divide_zero (w : Nat) (n : Int) : divide w n 0 = { q := 0, rem := 0, overflow := true } := if_pos rfl

/-- A division by anything else truncates. -/
theorem divide_of_ne_zero (w : Nat) {n d : Int} (hd : d ≠ 0) :
    divide w n d = { q := n.tdiv d, rem := n.tmod d, overflow := !fits w (n.tdiv d) } := by
  rw [divide, if_neg hd, not_fits]

/-- The truncated quotient and remainder make up the dividend; the remainder is smaller than the divisor and of the
dividend's sign (R174). -/
theorem tdiv_tmod_spec {n d : Int} (hd : d ≠ 0) :
    n = n.tdiv d * d + n.tmod d ∧ |n.tmod d| < |d| ∧ 0 ≤ n.tmod d * n := by
  refine ⟨(Int.tdiv_mul_add_tmod n d).symm, ?_, ?_⟩
  · rw [Int.abs_eq_natAbs, Int.abs_eq_natAbs, Int.natAbs_tmod]
    exact_mod_cast Nat.mod_lt _ (Int.natAbs_pos.2 hd)
  · rcases le_total 0 n with hn | hn
    · exact mul_nonneg (Int.tmod_nonneg d hn) hn
    · have hneg : 0 ≤ -n.tmod d := Int.neg_tmod n d ▸ Int.tmod_nonneg d (neg_nonneg.2 hn)
      exact mul_nonneg_of_nonpos_of_nonpos (neg_nonneg.1 hneg) hn

/-- The division by a word, whatever the dividend. -/
theorem divInto_spec (s : State) (ra : Reg) (n : Int) (v len : Word) :
    (v.toInt = 0 → divInto ra n (s.given v) len = .next ((s.setPair ra 0).ends 0b0010 (oneBit 4) len)) ∧
    (v.toInt ≠ 0 → ∃ q r : Int, n = q * v.toInt + r ∧ |r| < |v.toInt| ∧ 0 ≤ r * n ∧
      divInto ra n (s.given v) len =
        .next ((s.setPair ra (BitVec.ofInt 16 q ++ BitVec.ofInt 16 r)).ends
          (signCs (BitVec.ofInt 16 q).toInt) (pendingIf (!fits 16 q) 4) len)) := by
  constructor
  · intro hd
    rw [divInto_given, hd, divide_zero]
    rfl
  · intro hd
    obtain ⟨hsum, hsmall, hsign⟩ := tdiv_tmod_spec (n := n) hd
    refine ⟨_, _, hsum, hsmall, hsign, ?_⟩
    rw [divInto_given, divide_of_ne_zero 16 hd]

/-- Settles O8: truncated division, and a zero divisor apart. -/
theorem divide : Obligations.Divide := by
  constructor
  · intro i s long ra o len htable hready n d
    have harm : exec i s = divInto ra n (s.given (o.word s)) len := by
      rw [exec_divide htable, operandWord_ready hready]
      cases long <;> rfl
    rw [harm]
    exact divInto_spec s ra n (o.word s) len
  · intro i s ra o len htable hready n d
    rw [exec_divideLong htable, operandLong_ready hready, div32_given]
    constructor
    · intro hd
      have hzero : (o.long s).toInt = 0 := hd
      rw [hzero, divide_zero]
      rfl
    · intro hd
      obtain ⟨hsum, hsmall, hsign⟩ := tdiv_tmod_spec (n := n) hd
      refine ⟨_, _, hsum, hsmall, hsign, ?_⟩
      rw [divide_of_ne_zero 32 hd]

/-! ## Logic and compares -/

/-- Settles O9: the word operation of each instruction acts on each bit as its table says. -/
theorem logic : Obligations.Logic := by
  intro i s f ra o len htable hready
  obtain ⟨g, hbits, harm⟩ := exec_logic (s := s) htable
  refine ⟨g (s.reg ra) (o.word s), hbits _ _, ?_⟩
  rw [harm, operandWord_ready hready, logic16_given]

/-- CBL reads its two limits as one operand of two words. -/
theorem exec_cbl (ra rx : Reg) (a : Word) (s : State) :
    exec (.cbl ra rx a) s =
      ((operandLong s (.direct rx a)).run.setCs
        (between (s.reg ra).toInt (highWord (operandLong s (.direct rx a)).val).toInt
          (lowWord (operandLong s (.direct rx a)).val).toInt)).next 2 := rfl

/-- The first of two words. -/
theorem highWord_append (a b : Word) : highWord (a ++ b) = a := by
  apply BitVec.eq_of_getLsbD_eq
  intro i hi
  have hge : ¬ 16 + i < 16 := by omega
  have hidx : 16 + i - 16 = i := by omega
  simp only [highWord, BitVec.getLsbD_extractLsb', BitVec.getLsbD_append, hi, decide_true, Bool.true_and, hge, hidx,
    if_false]

/-- The second of two words. -/
theorem lowWord_append (a b : Word) : lowWord (a ++ b) = b := by
  apply BitVec.eq_of_getLsbD_eq
  intro i hi
  simp only [lowWord, BitVec.getLsbD_extractLsb', BitVec.getLsbD_append, hi, decide_true, Bool.true_and, Nat.zero_add, if_true]

/-- Settles O10: the compares by `compare16` and `compare32`, CBL by the two words of its operand. -/
theorem compare : Obligations.Compare := by
  refine ⟨?word, ?long, ?limits⟩
  case word =>
    intro i s ra o len htable hready
    rw [exec_compareWord htable, operandWord_ready hready, compare16_given]
  case long =>
    intro i s ra o len htable hready
    rw [exec_compareLong htable, operandLong_ready hready, compare32_given]
  case limits =>
    intro s ra rx a hspan x low high
    have hready : Source.ready s 2 (.direct rx a) = true := hspan
    have hlong : Source.long s (.direct rx a) = s.loaded (s.indexed a rx) ++ s.loaded (s.indexed a rx + 1) := rfl
    rw [exec_cbl, operandLong_ready hready, State.given_run, State.given_val, hlong, highWord_append, lowWord_append,
      State.settle_cs]
    rfl

end Sys2Proof.Proofs
end

