-- ==== Sys2Proof/Proofs/Loads.lean ====
section
/-! PROOF. The loads (44_load_store.md R381 to R399) and the bit tests (42_bit.md R327 to R329, R333): what each leaves where
its operand is had without a fault, and a DL whose second word the others have changed. -/

namespace Sys2Proof.Proofs

open Sys2Proof.Machine

/-! ## Bit tests -/

/-- The pattern of a test, by the tested bit (R320). -/
theorem testBits_eq (n : Nat) (w : Word) :
    testBits n w = if bitOf w n = false then 0b0010 else if n = 0 then 0b0001 else 0b0100 := by
  cases h : bitOf w n <;> simp [testBits, h]

/-- A test of an operand that is had without a fault. -/
theorem testInto_ready {s : State} {o : Source} (k : Nat) (len : Word) (h : o.ready s 1 = true) :
    testInto k (operandWord s o) len = .next (s.ends
      (if bitOf (o.word s) k = false then 0b0010 else if k = 0 then 0b0001 else 0b0100) 0 len) := by
  rw [operandWord_ready h, testInto_given, testBits_eq]

/-- Settles O12, one case an instruction: each is `testInto` of its bit and its operand. -/
theorem bitTests : Obligations.BitTests := by
  intro n ra rb rx a s i k o len hmem hready
  simp only [List.mem_cons, Prod.mk.injEq, List.not_mem_nil, or_false] at hmem
  obtain ⟨rfl, rfl, rfl, rfl⟩ | ⟨rfl, rfl, rfl, rfl⟩ | ⟨rfl, rfl, rfl, rfl⟩ | ⟨rfl, rfl, rfl, rfl⟩ := hmem
  case inl | inr.inl | inr.inr.inl => exact testInto_ready n.val _ hready
  case inr.inr.inr => exact testInto_ready (s.variableBit ra) 1 hready

/-! ## Loads -/

/-- An instruction goes on after a turn of the others that brings no RESET. -/
theorem start_turn {s : State} (h : s.resetComes = false) : s.start.turn = s.turn.start := by
  simp [Run.turn, h, State.start]

/-- Two words read with a turn of the others between them. -/
theorem read2_torn {s : State} {addr : Word} (h0 : s.readable addr = true) (h1 : s.turn.readable (addr + 1) = true)
    (hr : s.resetComes = false) :
    s.start.read2 addr = s.turn.given (s.loaded addr ++ s.turn.loaded (addr + 1)) := by
  simp only [Run.read2, State.read_clean s h0, State.given_run, State.given_val, start_turn hr, State.read_clean _ h1]
  rfl

theorem exec_dl (ra rx : Reg) (a : Word) (s : State) :
    exec (.dl ra rx a) s = load32 ra (s.start.read2 (s.indexed a rx)) 2 := rfl

theorem exec_efl (ra rx : Reg) (a : Word) (s : State) :
    exec (.efl ra rx a) s = load48 ra (operandTriple s (.direct rx a)) 2 := rfl

/-- Settles O16: one, two and three words by their operand, the torn DL by its two reads. -/
theorem load : Obligations.Load := by
  refine ⟨?word, ?long, ?triple, ?torn⟩
  case word =>
    intro i s ra o len htable hready
    rw [exec_loadWord htable, operandWord_ready hready, load16_given]
  case long =>
    intro i s ra o len htable hready
    rw [exec_loadLong htable, operandLong_ready hready, load32_given]
  case triple =>
    intro s ra rx a hready
    rw [exec_efl, operandTriple_ready hready, load48_given]
  case torn =>
    intro s ra rx a h0 h1 hreset v
    rw [exec_dl, read2_torn h0 h1 hreset, load32_given]

/-! ## Byte loads -/

/-- A word with another lower byte, by its two halves. -/
theorem upperByte_append_div_mod (w : Word) (b : Byte) :
    (upperByte w ++ b).toNat / 256 = w.toNat / 256 ∧ (upperByte w ++ b).toNat % 256 = b.toNat := by
  have hb := b.isLt
  have hw := w.isLt
  have hvalue : (upperByte w ++ b).toNat = w.toNat / 256 * 256 + b.toNat := by
    simp only [upperByte, BitVec.toNat_append, BitVec.extractLsb'_toNat, Nat.shiftRight_eq_div_pow]
    rw [← Nat.shiftLeft_add_eq_or_of_lt hb, Nat.shiftLeft_eq]
    omega
  omega

/-- The upper byte as a number. -/
theorem toNat_upperByte (w : Word) : (upperByte w).toNat = w.toNat / 256 := by
  have hw := w.isLt
  simp only [upperByte, BitVec.extractLsb'_toNat, Nat.shiftRight_eq_div_pow]
  omega

/-- The lower byte as a number. -/
theorem toNat_lowerByte (w : Word) : (lowerByte w).toNat = w.toNat % 256 := by
  simp [lowerByte, BitVec.extractLsb'_toNat]

/-- A byte of number `k` loaded into the lower byte of a register. -/
theorem loadByte_spec (s : State) (ra : Reg) (b : Byte) {k : Nat} (hk : b.toNat = k) :
    ∃ v : Word, v.toNat / 256 = (s.reg ra).toNat / 256 ∧ v.toNat % 256 = k ∧
      loadByte ra b s.start = .next ((s.setReg ra v).ends (signCs v.toInt) 0 2) := by
  obtain ⟨hupper, hlower⟩ := upperByte_append_div_mod (s.reg ra) b
  exact ⟨_, hupper, hlower.trans hk, loadByte_start s ra b⟩

/-- LUB, LUBI, LLB and LLBI over `loadByte`. -/
theorem exec_lub (ra rx : Reg) (a : Word) (s : State) : exec (.lub ra rx a) s =
    loadByte ra (upperByte (operandWord s (.direct rx a)).val) (operandWord s (.direct rx a)).run := rfl

theorem exec_lubi (ra rx : Reg) (a : Word) (s : State) : exec (.lubi ra rx a) s =
    loadByte ra (upperByte (operandWord s (.indirect rx a)).val) (operandWord s (.indirect rx a)).run := rfl

theorem exec_llb (ra rx : Reg) (a : Word) (s : State) : exec (.llb ra rx a) s =
    loadByte ra (lowerByte (operandWord s (.direct rx a)).val) (operandWord s (.direct rx a)).run := rfl

theorem exec_llbi (ra rx : Reg) (a : Word) (s : State) : exec (.llbi ra rx a) s =
    loadByte ra (lowerByte (operandWord s (.indirect rx a)).val) (operandWord s (.indirect rx a)).run := rfl

/-- Settles O17, one case an instruction: each loads one byte of its operand. -/
theorem loadByte : Obligations.LoadByte := by
  intro ra rx a s i upper o hmem hready
  simp only [List.mem_cons, Prod.mk.injEq, List.not_mem_nil, or_false] at hmem
  obtain ⟨rfl, rfl, rfl⟩ | ⟨rfl, rfl, rfl⟩ | ⟨rfl, rfl, rfl⟩ | ⟨rfl, rfl, rfl⟩ := hmem
  case inl => rw [exec_lub, operandWord_ready hready]; exact loadByte_spec s ra _ (toNat_upperByte _)
  case inr.inl => rw [exec_lubi, operandWord_ready hready]; exact loadByte_spec s ra _ (toNat_upperByte _)
  case inr.inr.inl => rw [exec_llb, operandWord_ready hready]; exact loadByte_spec s ra _ (toNat_lowerByte _)
  case inr.inr.inr => rw [exec_llbi, operandWord_ready hready]; exact loadByte_spec s ra _ (toNat_lowerByte _)

end Sys2Proof.Proofs
end

