-- ==== Sys2Proof/Proofs/Frame.lean ====
section
/-! PROOF. What every ordinary operation leaves alone: the registers an unprivileged program cannot reach (60_exceptions.md
R700 to R702), the configuration, the modes, the form of memory and the unused FT bits. `Keeps` is that relation between two
states; it is reflexive and transitive, and each operation of the machine is shown to keep it once. -/

namespace Sys2Proof.Proofs

open Sys2Proof.Machine

/-! ## The relation -/

/-- The fields of the state that ordinary instructions do not change. -/
structure Held where
  mask : Word
  status : BitVec 12
  inten : Bool
  enbl : Delay
  spi : Delay
  ta : Word
  tb : Word
  taRun : Bool
  tbRun : Bool
  tbPhase : Fin 10
  dmaen : Bool
  nmlpwrup : Bool
  ipr : Vector (Vector Word 16) 16
  opr : Vector (Vector Word 16) 16
  bpuRam : Vector Word 128
  globprt : Bool
  platform : Platform
  scr : Word
  consoleMode : Bool
  waiting : Bool
  moving : Option (Reg × Reg)

/-- Those fields of a state; of SW all but CS. -/
def held (s : State) : Held :=
  { mask := s.mask, status := s.sw.extractLsb' 0 12, inten := s.inten, enbl := s.enbl, spi := s.spi, ta := s.ta, tb := s.tb,
    taRun := s.taRun, tbRun := s.tbRun, tbPhase := s.tbPhase, dmaen := s.dmaen, nmlpwrup := s.nmlpwrup, ipr := s.ipr,
    opr := s.opr, bpuRam := s.bpuRam, globprt := s.globprt, platform := s.platform, scr := s.scr,
    consoleMode := s.consoleMode, waiting := s.waiting, moving := s.moving }

/-- `t` comes from `s` by ordinary operations. -/
structure Keeps (s t : State) : Prop where
  held : held t = held s
  memory : s.mem.wf = true → t.mem.wf = true
  faults : s.ft &&& 0x1A0A = 0 → t.ft &&& 0x1A0A = 0

theorem Keeps.refl (s : State) : Keeps s s := ⟨rfl, id, id⟩

theorem Keeps.trans {s t u : State} (h : Keeps s t) (h' : Keeps t u) : Keeps s u :=
  ⟨h'.held.trans h.held, h'.memory ∘ h.memory, h'.faults ∘ h.faults⟩

/-- A change of held fields nowhere, of memory and FT neither. -/
theorem Keeps.of_eq {s t : State} (hheld : Proofs.held t = Proofs.held s) (hmem : t.mem = s.mem) (hft : t.ft = s.ft) :
    Keeps s t :=
  ⟨hheld, fun h => hmem ▸ h, fun h => hft ▸ h⟩

/-! ## Updates of the state -/

section Updates

variable {s t : State}

theorem Keeps.setReg (h : Keeps s t) (q : Reg) (v : Word) : Keeps s (t.setReg q v) := h.trans (.of_eq rfl rfl rfl)

theorem Keeps.setPair (h : Keeps s t) (q : Reg) (v : Long) : Keeps s (t.setPair q v) := h.trans (.of_eq rfl rfl rfl)

theorem Keeps.setTriple (h : Keeps s t) (q : Reg) (v : Triple) : Keeps s (t.setTriple q v) := h.trans (.of_eq rfl rfl rfl)

theorem Keeps.setIc (h : Keeps s t) (v : Word) : Keeps s (t.setIc v) := h.trans (.of_eq rfl rfl rfl)

theorem Keeps.pend (h : Keeps s t) (n : Nat) : Keeps s (t.pend n) := h.trans (.of_eq rfl rfl rfl)

theorem Keeps.setPir (h : Keeps s t) (v : Word) : Keeps s (t.setPir v) := h.trans (.of_eq rfl rfl rfl)

theorem Keeps.emit (h : Keeps s t) (e : BusEvent) : Keeps s (t.emit e) := h.trans (.of_eq rfl rfl rfl)

theorem Keeps.useFree (h : Keeps s t) (k : Nat) : Keeps s (t.useFree k) := h.trans (.of_eq rfl rfl rfl)

/-- CS is not among the held bits of SW. -/
theorem status_withCs (sw : Word) (cs : BitVec 4) : (withCs sw cs).extractLsb' 0 12 = sw.extractLsb' 0 12 := by
  apply BitVec.eq_of_getLsbD_eq
  intro i hi
  simp only [withCs, BitVec.getLsbD_extractLsb', BitVec.getLsbD_append, Nat.zero_add, hi, decide_true, Bool.true_and, if_true]

theorem held_setCs (s : State) (cs : BitVec 4) : Proofs.held (s.setCs cs) = Proofs.held s := by
  simp only [Proofs.held, State.setCs, status_withCs]

theorem Keeps.setCs (h : Keeps s t) (cs : BitVec 4) : Keeps s (t.setCs cs) :=
  h.trans (.of_eq (held_setCs t cs) rfl rfl)

theorem Keeps.writeWord (h : Keeps s t) (p : Phys) (v : Word) : Keeps s (t.setMem (t.mem.writeWord p v)) :=
  h.trans ⟨rfl, fun hwf => Memory.wf_writeWord p v hwf, id⟩

/-- Faults that the register has a bit for leave its unused bits 0. -/
theorem unusedFt_or {ft bits : Word} (hft : ft &&& 0x1A0A = 0) (hbits : bits &&& 0x1A0A = 0) :
    (ft ||| bits) &&& 0x1A0A = 0 := by
  have hand : (ft ||| bits) &&& 0x1A0A = (ft &&& 0x1A0A) ||| (bits &&& 0x1A0A) := by
    apply BitVec.eq_of_getLsbD_eq
    intro i _
    simp only [BitVec.getLsbD_and, BitVec.getLsbD_or, Bool.and_or_distrib_right]
  rw [hand, hft, hbits, BitVec.or_self]

theorem Keeps.raise (h : Keeps s t) {bits : Word} (hbits : bits &&& 0x1A0A = 0) (v : Severity) : Keeps s (t.raise bits v) :=
  h.trans ⟨rfl, id, fun hft => unusedFt_or hft hbits⟩

end Updates

/-! ## The FT bits that anything raises -/

theorem bits_unused (c : Cycle) : c.bits &&& 0x1A0A = 0 := by
  unfold Cycle.bits
  cases c.protect <;> cases c.parity <;> cases c.absent <;> decide

theorem masterBits_unused (c : Cycle) : c.masterBits &&& 0x1A0A = 0 := by
  unfold Cycle.masterBits
  cases c.protect <;> cases c.parity <;> decide

theorem outsideFaults_unused (f : FaultInputs) : outsideFaults f &&& 0x1A0A = 0 := by
  unfold outsideFaults
  cases f.busProtect <;> cases f.busParity <;> cases f.sysflt0 <;> cases f.sysflt1 <;> decide

/-! ## Other masters -/

section Outside

variable {s t : State}

theorem Keeps.externalFaults (h : Keeps s t) {bits : Word} (hbits : bits &&& 0x1A0A = 0) :
    Keeps s (t.externalFaults bits) := by
  unfold State.externalFaults
  split
  · exact h
  · exact h.raise hbits _

theorem Keeps.masterWrite (h : Keeps s t) (w : MasterWrite) : Keeps s (t.masterWrite w) := by
  have hraised := h.externalFaults (masterBits_unused (t.masterCycle w))
  unfold State.masterWrite
  split
  · exact h
  · dsimp only
    split
    · exact hraised.writeWord _ _
    · exact hraised

theorem Keeps.masters (h : Keeps s t) (ws : List MasterWrite) : Keeps s (t.masters ws) := by
  induction ws generalizing t with
  | nil => exact h
  | cons w ws ih => exact ih (h.masterWrite w)

theorem Keeps.turn (h : Keeps s t) : Keeps s t.turn := by
  unfold State.turn
  split
  · rename_i turn rest _
    have hstart : Keeps s { t with turns := rest } := h.trans (.of_eq rfl rfl rfl)
    have hdone := (hstart.externalFaults (outsideFaults_unused turn.faults)).masters turn.writes
    exact hdone.trans (.of_eq rfl rfl rfl)
  · exact h

end Outside

/-! ## An instruction on its way -/

section OnItsWay

variable {s : State} {r : Run}

theorem Keeps.run_turn (h : Keeps s r.s) : Keeps s r.turn.s := by
  unfold Run.turn
  split
  · exact h
  · exact h.turn

/-- A change of the state that an aborted instruction does not make. -/
theorem Keeps.run_update (h : Keeps s r.s) {f : State → State} (hf : Keeps s (f r.s)) : Keeps s (r.update f).s := by
  unfold Run.update
  split
  · exact h
  · exact hf

theorem Keeps.run_setReg (h : Keeps s r.s) (q : Reg) (v : Word) : Keeps s (r.setReg q v).s := h.run_update (h.setReg q v)

theorem Keeps.run_setPair (h : Keeps s r.s) (q : Reg) (v : Long) : Keeps s (r.setPair q v).s := h.run_update (h.setPair q v)

theorem Keeps.run_setTriple (h : Keeps s r.s) (q : Reg) (v : Triple) : Keeps s (r.setTriple q v).s :=
  h.run_update (h.setTriple q v)

theorem Keeps.run_setCs (h : Keeps s r.s) (cs : BitVec 4) : Keeps s (r.setCs cs).s := h.run_update (h.setCs cs)

theorem Keeps.run_pendIf (h : Keeps s r.s) (c : Bool) (n : Nat) : Keeps s (r.pendIf c n).s := by
  unfold Run.pendIf
  split
  · exact h.run_update (h.pend n)
  · exact h

theorem Keeps.run_freeWord (h : Keeps s r.s) : Keeps s r.freeWord.run.s := h.useFree 1

theorem Keeps.run_read (h : Keeps s r.s) (addr : Word) : Keeps s (r.read addr).run.s := by
  unfold Run.read
  dsimp only
  split
  · exact h.run_freeWord
  · split
    · exact h
    · exact (h.raise (bits_unused _) _).useFree 1

theorem Keeps.run_write (h : Keeps s r.s) (addr v : Word) : Keeps s (r.write addr v).s := by
  have hraised : ∀ severity, Keeps s
      (if (r.s.ownCycle .write addr).clean then r.s else r.s.raise (r.s.ownCycle .write addr).bits severity) := by
    intro severity
    split
    · exact h
    · exact h.raise (bits_unused _) _
  unfold Run.write
  dsimp only
  split
  · exact h
  · split
    · exact hraised _
    · split
      · exact ((hraised _).writeWord _ _).useFree 1
      · exact (hraised _).writeWord _ _

theorem Keeps.run_read2 (h : Keeps s r.s) (addr : Word) : Keeps s (r.read2 addr).run.s :=
  (h.run_read addr).run_turn.run_read (addr + 1)

theorem Keeps.run_read3 (h : Keeps s r.s) (addr : Word) : Keeps s (r.read3 addr).run.s :=
  ((h.run_read addr).run_turn.run_read (addr + 1)).run_turn.run_read (addr + 2)

theorem Keeps.run_write2 (h : Keeps s r.s) (addr : Word) (v : Long) : Keeps s (r.write2 addr v).s :=
  (h.run_write addr _).run_turn.run_write (addr + 1) _

theorem Keeps.run_write3 (h : Keeps s r.s) (addr : Word) (v : Triple) : Keeps s (r.write3 addr v).s :=
  ((h.run_write addr _).run_turn.run_write (addr + 1) _).run_turn.run_write (addr + 2) _

theorem Keeps.run_modify (h : Keeps s r.s) (da : Word) (f : Word → Word) : Keeps s (r.modify da f).s :=
  (h.run_read da).run_write da _

end OnItsWay

/-! ## Results -/

/-- Whatever next state the result is, it comes from `s` by ordinary operations. -/
def KeepsNext (s : State) (r : Result) : Prop := ∀ t, r = .next t → Keeps s t

theorem keepsNext_next {s t : State} (h : Keeps s t) : KeepsNext s (.next t) := by
  rintro _ ⟨⟩
  exact h

theorem keepsNext_run {s : State} {r : Run} (h : Keeps s r.s) (len : Word) : KeepsNext s (r.next len) :=
  keepsNext_next (h.setIc _)

theorem keepsNext_jump {s : State} {r : Run} (h : Keeps s r.s) (len target : Word) : KeepsNext s (r.jump len target) :=
  keepsNext_next (h.setIc _)

/-! ## Operands -/

theorem keeps_operandAddress (s : State) (o : Source) : Keeps s (operandAddress s o).run.s := by
  cases o with
  | indirect rx a => exact (Keeps.run_read (r := s.start) (Keeps.refl s) _).run_turn
  | register _ | literal _ | direct _ _ | base _ _ | baseIndexed _ _ => exact Keeps.refl s

theorem keeps_operandWord (s : State) (o : Source) : Keeps s (operandWord s o).run.s := by
  cases o with
  | register _ | literal _ => exact Keeps.refl s
  | direct _ _ | indirect _ _ | base _ _ | baseIndexed _ _ => exact (keeps_operandAddress s _).run_read _

theorem keeps_operandLong (s : State) (o : Source) : Keeps s (operandLong s o).run.s := by
  cases o with
  | register _ | literal _ => exact Keeps.refl s
  | direct _ _ | indirect _ _ | base _ _ | baseIndexed _ _ => exact (keeps_operandAddress s _).run_read2 _

theorem keeps_operandTriple (s : State) (o : Source) : Keeps s (operandTriple s o).run.s := by
  cases o with
  | register _ | literal _ => exact Keeps.refl s
  | direct _ _ | indirect _ _ | base _ _ | baseIndexed _ _ => exact (keeps_operandAddress s _).run_read3 _

end Sys2Proof.Proofs
end

