-- ==== Sys2Proof/Proofs/Ordinary.lean ====
section
/-! PROOF. Every instruction but BEX, BPT, MOV and the four privileged ones leaves the fields of `Keeps` alone: first the
operations the instructions share, then the instructions by the operation they are. -/

namespace Sys2Proof.Proofs

open Sys2Proof.Machine

/-! ## Operations on an operand -/

section Operations

variable {s : State} {r : Run} (ra : Reg) (len : Word)

theorem keepsNext_putWord (h : Keeps s r.s) (v : Word) (c : Bool) (n : Nat) (cs : BitVec 4) :
    KeepsNext s ((((r.setReg ra v).pendIf c n).setCs cs).next len) :=
  keepsNext_run (((h.run_setReg ra v).run_pendIf c n).run_setCs cs) len

theorem keepsNext_putLong (h : Keeps s r.s) (v : Long) (c : Bool) (n : Nat) (cs : BitVec 4) :
    KeepsNext s ((((r.setPair ra v).pendIf c n).setCs cs).next len) :=
  keepsNext_run (((h.run_setPair ra v).run_pendIf c n).run_setCs cs) len

theorem keepsNext_add16 (o : Source) : KeepsNext s (add16 ra (operandWord s o) len) :=
  keepsNext_putWord ra len (keeps_operandWord s o) _ _ _ _

theorem keepsNext_sub16 (o : Source) : KeepsNext s (sub16 ra (operandWord s o) len) :=
  keepsNext_putWord ra len (keeps_operandWord s o) _ _ _ _

theorem keepsNext_mulShort (o : Source) : KeepsNext s (mulShort ra (operandWord s o) len) :=
  keepsNext_putWord ra len (keeps_operandWord s o) _ _ _ _

theorem keepsNext_logic16 (f : Word → Word → Word) (o : Source) : KeepsNext s (logic16 f ra (operandWord s o) len) :=
  keepsNext_putWord ra len (keeps_operandWord s o) _ _ _ _

theorem keepsNext_add32 (o : Source) : KeepsNext s (add32 ra (operandLong s o) len) :=
  keepsNext_putLong ra len (keeps_operandLong s o) _ _ _ _

theorem keepsNext_sub32 (o : Source) : KeepsNext s (sub32 ra (operandLong s o) len) :=
  keepsNext_putLong ra len (keeps_operandLong s o) _ _ _ _

theorem keepsNext_mul32 (o : Source) : KeepsNext s (mul32 ra (operandLong s o) len) :=
  keepsNext_putLong ra len (keeps_operandLong s o) _ _ _ _

theorem keepsNext_div32 (o : Source) : KeepsNext s (div32 ra (operandLong s o) len) :=
  keepsNext_putLong ra len (keeps_operandLong s o) _ _ _ _

theorem keepsNext_divInto (n : Int) (o : Source) : KeepsNext s (divInto ra n (operandWord s o) len) :=
  keepsNext_putLong ra len (keeps_operandWord s o) _ _ _ _

theorem keepsNext_mul16 (o : Source) : KeepsNext s (mul16 ra (operandWord s o) len) :=
  keepsNext_run (((keeps_operandWord s o).run_setPair ra _).run_setCs _) len

theorem keepsNext_setCs (h : Keeps s r.s) (cs : BitVec 4) : KeepsNext s ((r.setCs cs).next len) :=
  keepsNext_run (h.run_setCs cs) len

theorem keepsNext_load16 (o : Source) : KeepsNext s (load16 ra (operandWord s o) len) :=
  keepsNext_run (((keeps_operandWord s o).run_setReg ra _).run_setCs _) len

theorem keepsNext_load32 (o : Source) : KeepsNext s (load32 ra (operandLong s o) len) :=
  keepsNext_run (((keeps_operandLong s o).run_setPair ra _).run_setCs _) len

theorem keepsNext_load48 (o : Source) : KeepsNext s (load48 ra (operandTriple s o) len) :=
  keepsNext_run (((keeps_operandTriple s o).run_setTriple ra _).run_setCs _) len

theorem keepsNext_loadByte (o : Source) (b : Byte) : KeepsNext s (Machine.loadByte ra b (operandWord s o).run) :=
  keepsNext_run (((keeps_operandWord s o).run_setReg ra _).run_setCs _) 2

/-! ## Floating point -/

theorem Keeps.openStatus {t : State} (h : Keeps s t) (k : Nat) : Keeps s (t.openStatus k) :=
  (h.setCs _).trans (.of_eq rfl rfl rfl)

theorem Keeps.openWord {t : State} (h : Keeps s t) : Keeps s (t.openWord ra) := ((h.setReg ra _).openStatus _).useFree 3

theorem Keeps.openPair {t : State} (h : Keeps s t) : Keeps s (t.openPair ra) := ((h.setPair ra _).openStatus _).useFree 4

theorem Keeps.openTriple {t : State} (h : Keeps s t) : Keeps s (t.openTriple ra) :=
  ((h.setTriple ra _).openStatus _).useFree 5

theorem Keeps.openCs {t : State} (h : Keeps s t) : Keeps s t.openCs := (h.setCs _).useFree 1

theorem Keeps.run_putFloat (h : Keeps s r.s) (x : FloatResult) : Keeps s (r.putFloat ra x).s :=
  (((h.run_setPair ra _).run_pendIf _ 3).run_pendIf _ 6).run_setCs _

theorem Keeps.run_putExtended (h : Keeps s r.s) (x : FloatResult) : Keeps s (r.putExtended ra x).s :=
  (((h.run_setTriple ra _).run_pendIf _ 3).run_pendIf _ 6).run_setCs _

theorem keepsNext_float32 (f : FloatNum → FloatNum → FloatResult) (o : Source) :
    KeepsNext s (float32 f ra (operandLong s o) len) := by
  have h := keeps_operandLong s o
  unfold float32
  dsimp only
  split
  · exact keepsNext_run (h.run_putFloat ra _) len
  · exact keepsNext_run (h.run_update (h.openPair ra)) len

theorem keepsNext_float48 (f : FloatNum → FloatNum → FloatResult) (o : Source) :
    KeepsNext s (float48 f ra (operandTriple s o) len) := by
  have h := keeps_operandTriple s o
  unfold float48
  dsimp only
  split
  · exact keepsNext_run (h.run_putExtended ra _) len
  · exact keepsNext_run (h.run_update (h.openTriple ra)) len

theorem keepsNext_compareFloat32 (o : Source) : KeepsNext s (compareFloat32 ra (operandLong s o) len) := by
  have h := keeps_operandLong s o
  unfold compareFloat32
  dsimp only
  split
  · exact keepsNext_setCs len h _
  · exact keepsNext_run (h.run_update h.openCs) len

theorem keepsNext_compareFloat48 (o : Source) : KeepsNext s (compareFloat48 ra (operandTriple s o) len) := by
  have h := keeps_operandTriple s o
  unfold compareFloat48
  dsimp only
  split
  · exact keepsNext_setCs len h _
  · exact keepsNext_run (h.run_update h.openCs) len

theorem keepsNext_floatUnary (f : FloatNum → FloatResult) (rb : Reg) : KeepsNext s (floatUnary f ra rb s) := by
  have h := Keeps.refl s
  unfold floatUnary
  dsimp only
  split
  · exact keepsNext_run (r := s.start.putFloat ra _) (h.run_putFloat (r := s.start) ra _) 1
  · exact keepsNext_run (r := s.start.update _) (h.run_update (r := s.start) (h.openPair ra)) 1

theorem keepsNext_fix (rb : Reg) : KeepsNext s (execFix ra rb s) := by
  have h := Keeps.refl s
  unfold execFix
  dsimp only
  split
  · exact keepsNext_run (r := s.start.update _) (h.run_update (r := s.start) (h.openWord ra)) 1
  · split
    · exact keepsNext_setCs 1 (h.run_pendIf (r := s.start) true 4) _
    · exact keepsNext_setCs 1 (h.run_setReg (r := s.start) ra _) _

theorem keepsNext_efix (rb : Reg) : KeepsNext s (execEfix ra rb s) := by
  have h := Keeps.refl s
  unfold execEfix
  dsimp only
  split
  · exact keepsNext_run (r := s.start.update _) (h.run_update (r := s.start) (h.openPair ra)) 1
  · split
    · exact keepsNext_setCs 1 (h.run_pendIf (r := s.start) true 4) _
    · exact keepsNext_setCs 1 (h.run_setPair (r := s.start) ra _) _

/-! ## Several registers -/

theorem Keeps.run_pushAll (qs : List Reg) (sp : Word) (h : Keeps s r.s) : Keeps s (pushAll qs sp r).s := by
  induction qs generalizing sp r with
  | nil => exact h
  | cons q qs ih => exact ih (sp - 1) ((h.run_setReg 15 (sp - 1)).run_write (sp - 1) _).run_turn

theorem Keeps.run_popAll (qs : List Reg) (sp : Word) (h : Keeps s r.s) : Keeps s (popAll qs sp r).s := by
  induction qs generalizing sp r with
  | nil => exact h
  | cons q qs ih =>
    unfold popAll
    split
    · exact ih (sp + 1) (h.run_setReg 15 (sp + 1))
    · exact ih (sp + 1) (((h.run_read sp).run_setReg q _).run_setReg 15 (sp + 1)).run_turn

theorem Keeps.run_loadAll (k : Nat) (q : Reg) (a : Word) (h : Keeps s r.s) : Keeps s (loadAll k q a r).s := by
  induction k generalizing q a r with
  | zero => exact h
  | succ k ih => exact ih (q + 1) (a + 1) ((h.run_read a).run_setReg q _).run_turn

theorem Keeps.run_storeAll (k : Nat) (q : Reg) (a : Word) (h : Keeps s r.s) : Keeps s (storeAll k q a r).s := by
  induction k generalizing q a r with
  | zero => exact h
  | succ k ih => exact ih (q + 1) (a + 1) (h.run_write a _).run_turn

end Operations

/-! ## I/O writes that no companion chip knows -/

section Io

variable {s t : State}

/-- The cycle of an I/O write, apart from what the chips do with it. -/
theorem Keeps.ioWrite (h : Keeps s t) (addr data : Word) : Keeps s (t.ioWrite addr data) := by
  have hparity : ∀ {u : State}, Keeps s u → Keeps s (u.ioParity addr) := by
    intro u hu
    unfold State.ioParity
    split
    · exact hu.raise (by decide) _
    · exact hu
  unfold State.ioWrite
  dsimp only
  split
  · exact hparity ((h.emit _).raise (by decide) _)
  · exact hparity (h.emit _)

/-- The page of an address is none of those the chips look at. -/
def offChips (addr : Word) : Prop :=
  (addr.extractLsb' 8 8).toNat ≠ 0x40 ∧ (addr.extractLsb' 8 8).toNat ≠ 0x50 ∧
    (addr.extractLsb' 8 8).toNat ≠ 0x51 ∧ (addr.extractLsb' 8 8).toNat ≠ 0x52

theorem Keeps.run_ioWrite {r : Run} (h : Keeps s r.s) {addr : Word} (hoff : offChips addr) (data : Word) :
    Keeps s (r.ioWrite addr data).s := by
  unfold Run.ioWrite
  split
  · exact h
  · split
    · exact (h.ioWrite addr _).useFree 1
    · rw [State.busWrite, State.chipWrite_elsewhere _ data hoff]
      exact h.ioWrite addr data

/-- The two ports of every coprocessor are off the chips (R490). -/
theorem offChips_ports (cp : Fin 4) : offChips (coprocessorPort cp) ∧ offChips (coprocessorPort cp + 1) := by
  unfold offChips
  revert cp
  decide

theorem keepsNext_handOver {r : Run} (h : Keeps s r.s) (cp : Fin 4) (command data : Word) :
    KeepsNext s (handOver cp command data r) := by
  obtain ⟨hcommand, hdata⟩ := offChips_ports cp
  exact keepsNext_run ((h.run_ioWrite hcommand command).run_turn.run_ioWrite hdata data) 3

theorem keeps_illegalInstruction (s : State) (len : Word) : Keeps s (s.illegalInstruction len) :=
  ((Keeps.refl s).raise (bits := 0x0040) (by decide) .unrecoverable).trans (.of_eq rfl rfl rfl)

end Io

/-! ## Every ordinary instruction -/

/-- All instructions but the privileged ones, BEX and BPT, and MOV, which may take an interrupt. -/
def ordinary : Instr → Bool
  | .xio _ _ _ | .vio _ _ _ | .lst _ _ | .lsti _ _ | .bex _ | .bpt | .mov _ _ => false
  | _ => true

theorem keepsNext_branchIf (c : Bool) (d : Byte) (s : State) : KeepsNext s (branchIf c d s) := by
  rw [branchIf_eq]
  exact keepsNext_next ((Keeps.refl s).setIc _)

theorem keepsNext_bif (three : Bool) (cp : Fin 4) (rx : Reg) (a1 a2 : Word) (s : State) :
    KeepsNext s (execBif three cp rx a1 a2 s) := by
  unfold execBif
  split
  · exact keepsNext_handOver (r := s.start) (Keeps.refl s) cp _ _
  · exact keepsNext_next (keeps_illegalInstruction s _)

theorem keepsNext_bifi (three : Bool) (cp : Fin 4) (rx : Reg) (a1 a2 : Word) (s : State) :
    KeepsNext s (execBifi three cp rx a1 a2 s) := by
  unfold execBifi
  split
  · exact keepsNext_handOver (Keeps.run_read (r := s.start) (Keeps.refl s) _).run_turn cp _ _
  · exact keepsNext_next (keeps_illegalInstruction s _)

theorem keepsNext_jc (c : BitVec 4) (rx : Reg) (a : Word) (s : State) : KeepsNext s (execJc c rx a s) := by
  unfold execJc
  split
  · exact keepsNext_jump (r := s.start) (Keeps.refl s) 2 _
  · exact keepsNext_run (r := s.start) (Keeps.refl s) 2

theorem keepsNext_jci (c : BitVec 4) (rx : Reg) (a : Word) (s : State) : KeepsNext s (execJci c rx a s) := by
  unfold execJci
  split
  · exact keepsNext_jump (Keeps.run_read (r := s.start) (Keeps.refl s) _) 2 _
  · exact keepsNext_run (r := s.start) (Keeps.refl s) 2

theorem keepsNext_soj (ra rx : Reg) (a : Word) (s : State) : KeepsNext s (execSoj ra rx a s) := by
  have h := (Keeps.run_setReg (r := s.start) (Keeps.refl s) ra (s.reg ra - 1)).run_setCs (pzn (s.reg ra - 1))
  unfold execSoj
  dsimp only
  split
  · exact keepsNext_run h 2
  · exact keepsNext_jump h 2 _

/-- A word counted up or down in memory. -/
theorem keepsNext_updateMemory (f : Word → Sum 16) (da : Word) (s : State) : KeepsNext s (updateMemory f da s) :=
  keepsNext_run ((((Keeps.run_read (r := s.start) (Keeps.refl s) da).run_write da _).run_pendIf _ 4).run_setCs _) 2

/-- What a store of one word at a derived address leaves. -/
theorem keepsNext_store (s : State) (o : Source) (v len : Word) :
    KeepsNext s (((operandAddress s o).run.write (operandAddress s o).val v).next len) :=
  keepsNext_run ((keeps_operandAddress s o).run_write _ v) len

/-- A store of two words. -/
theorem keepsNext_store2 (s : State) (o : Source) (v : Long) (len : Word) :
    KeepsNext s (((operandAddress s o).run.write2 (operandAddress s o).val v).next len) :=
  keepsNext_run ((keeps_operandAddress s o).run_write2 _ v) len

/-- A word changed in memory. -/
theorem keepsNext_modify (s : State) (o : Source) (f : Word → Word) (len : Word) :
    KeepsNext s (((operandAddress s o).run.modify (operandAddress s o).val f).next len) :=
  keepsNext_run ((keeps_operandAddress s o).run_modify _ f) len

/-- TSB sets CS between its two cycles. -/
theorem keepsNext_tsb (n : Fin 16) (rx : Reg) (a : Word) (s : State) : KeepsNext s (execTsb n rx a s) :=
  keepsNext_run (((keeps_operandWord s (.direct rx a)).run_setCs _).run_write _ _) 2

section Tables

variable {i : Instr} {s : State} {ra : Reg} {o : Source} {len : Word}

theorem keepsNext_of_addWord (h : Shape.addWord i = some (ra, o, len)) : KeepsNext s (exec i s) :=
  exec_addWord h ▸ keepsNext_add16 ra len o

theorem keepsNext_of_subWord (h : Shape.subWord i = some (ra, o, len)) : KeepsNext s (exec i s) :=
  exec_subWord h ▸ keepsNext_sub16 ra len o

theorem keepsNext_of_mulShort (h : Shape.mulShort i = some (ra, o, len)) : KeepsNext s (exec i s) :=
  exec_mulShort h ▸ keepsNext_mulShort ra len o

theorem keepsNext_of_mulLong (h : Shape.mulLong i = some (ra, o, len)) : KeepsNext s (exec i s) :=
  exec_mulLong h ▸ keepsNext_mul32 ra len o

theorem keepsNext_of_mulWide (h : Shape.mulWide i = some (ra, o, len)) : KeepsNext s (exec i s) :=
  exec_mulWide h ▸ keepsNext_mul16 ra len o

theorem keepsNext_of_divideLong (h : Shape.divideLong i = some (ra, o, len)) : KeepsNext s (exec i s) :=
  exec_divideLong h ▸ keepsNext_div32 ra len o

theorem keepsNext_of_compareWord (h : Shape.compareWord i = some (ra, o, len)) : KeepsNext s (exec i s) :=
  exec_compareWord h ▸ keepsNext_setCs len (keeps_operandWord s o) _

theorem keepsNext_of_compareLong (h : Shape.compareLong i = some (ra, o, len)) : KeepsNext s (exec i s) :=
  exec_compareLong h ▸ keepsNext_setCs len (keeps_operandLong s o) _

theorem keepsNext_of_loadLong (h : Shape.loadLong i = some (ra, o, len)) : KeepsNext s (exec i s) :=
  exec_loadLong h ▸ keepsNext_load32 ra len o

theorem keepsNext_of_compareFloat (h : Shape.compareFloat i = some (ra, o, len)) : KeepsNext s (exec i s) :=
  exec_compareFloat h ▸ keepsNext_compareFloat32 ra len o

theorem keepsNext_of_compareExtended (h : Shape.compareExtended i = some (ra, o, len)) : KeepsNext s (exec i s) :=
  exec_compareExtended h ▸ keepsNext_compareFloat48 ra len o

theorem keepsNext_of_loadWord (h : Shape.loadWord s i = some (ra, o, len)) : KeepsNext s (exec i s) :=
  exec_loadWord h ▸ keepsNext_load16 ra len o

theorem keepsNext_of_addLong {b : Bool} (h : Shape.addLong i = some (b, ra, o, len)) : KeepsNext s (exec i s) := by
  rw [exec_addLong h]
  cases b
  case false => exact keepsNext_add32 ra len o
  case true => exact keepsNext_sub32 ra len o

theorem keepsNext_of_divide {b : Bool} (h : Shape.divide i = some (b, ra, o, len)) : KeepsNext s (exec i s) := by
  rw [exec_divide h]
  cases b
  case false => exact keepsNext_divInto ra len _ o
  case true => exact keepsNext_divInto ra len _ o

theorem keepsNext_of_logic {f : Bool → Bool → Bool} (h : Shape.logic i = some (f, ra, o, len)) :
    KeepsNext s (exec i s) := by
  obtain ⟨g, _, harm⟩ := exec_logic (s := s) h
  exact harm ▸ keepsNext_logic16 ra len g o

theorem keepsNext_of_float {f : FloatNum → FloatNum → FloatResult} (h : Shape.float i = some (f, ra, o, len)) :
    KeepsNext s (exec i s) :=
  exec_float h ▸ keepsNext_float32 ra len f o

theorem keepsNext_of_extended {f : FloatNum → FloatNum → FloatResult} (h : Shape.extended i = some (f, ra, o, len)) :
    KeepsNext s (exec i s) :=
  exec_extended h ▸ keepsNext_float48 ra len f o

end Tables

/-- An ordinary instruction leaves the held fields, the form of memory and the unused FT bits: the instructions of each table by
their operation, the others one by one. -/
theorem keepsNext_exec {i : Instr} (h : ordinary i = true) (s : State) : KeepsNext s (exec i s) := by
  have hrefl : Keeps s s.start.s := Keeps.refl s
  cases i
  case a | ar | ab | abx | aisp | aim => exact keepsNext_of_addWord rfl
  case s | sr | sbb | sbbx | sisp | sim => exact keepsNext_of_subWord rfl
  case da | dar | ds | dsr => exact keepsNext_of_addLong rfl
  case ms | msr | misp | misn | msim => exact keepsNext_of_mulShort rfl
  case dm | dmr => exact keepsNext_of_mulLong rfl
  case m | mr | mb | mbx | mim => exact keepsNext_of_mulWide rfl
  case dv | dvr | disp | disn | dvim | d | dr | db | dbx | dim => exact keepsNext_of_divide rfl
  case dd | ddr => exact keepsNext_of_divideLong rfl
  case or | orr | orb | orbx | orim | and | andr | andb | andx | andm | xor | xorr | xorm | n | nr | nim =>
    exact keepsNext_of_logic rfl
  case c | cr | cb | cbx | cisp | cisn | cim => exact keepsNext_of_compareWord rfl
  case dc | dcr => exact keepsNext_of_compareLong rfl
  case l | lr | lb | lbx | li | lim | lisp | lisn => exact keepsNext_of_loadWord rfl
  case dl | dlr | dlb | dlbx | dli => exact keepsNext_of_loadLong rfl
  case fa | far | fab | fabx | fs | fsr | fsb | fsbx | fm | fmr | fmb | fmbx | fd | fdr | fdb | fdbx =>
    exact keepsNext_of_float rfl
  case efa | efar | efs | efsr | efm | efmr | efd | efdr => exact keepsNext_of_extended rfl
  case fc | fcr | fcb | fcbx => exact keepsNext_of_compareFloat rfl
  case efc | efcr => exact keepsNext_of_compareExtended rfl
  case st _ rx a => exact keepsNext_store s (.direct rx a) _ 2
  case stb br du => exact keepsNext_store s (.base br du) _ 1
  case stbx br rx => exact keepsNext_store s (.baseIndexed br rx) _ 1
  case sti _ rx a => exact keepsNext_store s (.indirect rx a) _ 2
  case stc _ rx a => exact keepsNext_store s (.direct rx a) _ 2
  case stci _ rx a => exact keepsNext_store s (.indirect rx a) _ 2
  case dst _ rx a => exact keepsNext_store2 s (.direct rx a) _ 2
  case dstb br du => exact keepsNext_store2 s (.base br du) _ 1
  case dstx br rx => exact keepsNext_store2 s (.baseIndexed br rx) _ 1
  case dsti _ rx a => exact keepsNext_store2 s (.indirect rx a) _ 2
  case efst _ rx a => exact keepsNext_run ((keeps_operandAddress s (.direct rx a)).run_write3 _ _) 2
  case sb _ rx a | rb _ rx a | srm _ rx a | stub _ rx a | stlb _ rx a => exact keepsNext_modify s (.direct rx a) _ 2
  case sbi _ rx a | rbi _ rx a | subi _ rx a | slbi _ rx a => exact keepsNext_modify s (.indirect rx a) _ 2
  case tsb n rx a => exact keepsNext_tsb n rx a s
  case tb _ rx a => exact keepsNext_setCs 2 (keeps_operandWord s (.direct rx a)) _
  case tbi _ rx a => exact keepsNext_setCs 2 (keeps_operandWord s (.indirect rx a)) _
  case tbr _ rb | tvbr _ rb => exact keepsNext_setCs 1 (keeps_operandWord s (.register rb)) _
  case sbr _ rb | rbr _ rb | svbr _ rb | rvbr _ rb =>
    exact keepsNext_run (r := s.start.setReg rb _) (hrefl.run_setReg rb _) 1
  case sll _ rb | srl _ rb | sra _ rb | slc _ rb => exact keepsNext_setCs 1 (hrefl.run_setReg rb _) _
  case dsll _ rb | dsrl _ rb | dsra _ rb | dslc _ rb => exact keepsNext_setCs 1 (hrefl.run_setPair rb _) _
  case slr ra _ | sar ra _ | scr ra _ => exact keepsNext_putWord ra 1 hrefl _ _ _ _
  case dslr ra _ | dsar ra _ | dscr ra _ => exact keepsNext_putLong ra 1 hrefl _ _ _ _
  case abs ra _ | neg ra _ => exact keepsNext_putWord ra 1 hrefl _ _ _ _
  case dabs ra _ | dneg ra _ => exact keepsNext_putLong ra 1 hrefl _ _ _ _
  case cbl _ rx a => exact keepsNext_setCs 2 (keeps_operandLong s (.direct rx a)) _
  case incm n rx a => exact keepsNext_updateMemory (fun m => addC m (BitVec.ofNat 16 n)) (s.indexed a rx) s
  case decm n rx a => exact keepsNext_updateMemory (fun m => subC m (BitVec.ofNat 16 n)) (s.indexed a rx) s
  case efl ra rx a => exact keepsNext_load48 ra 2 (.direct rx a)
  case lub ra rx a | llb ra rx a => exact keepsNext_loadByte ra (.direct rx a) _
  case lubi ra rx a | llbi ra rx a => exact keepsNext_loadByte ra (.indirect rx a) _
  case xbr ra => exact keepsNext_setCs 1 (hrefl.run_setReg ra _) _
  case xwr ra rb => exact keepsNext_setCs 1 ((hrefl.run_setReg ra _).run_setReg rb _) _
  case fabs ra rb | fneg ra rb => exact keepsNext_floatUnary ra _ rb
  case fix ra rb => exact keepsNext_fix ra rb
  case efix ra rb => exact keepsNext_efix ra rb
  case flt ra _ => exact keepsNext_run (hrefl.run_putFloat ra _) 1
  case eflt ra _ => exact keepsNext_run (hrefl.run_putExtended ra _) 1
  case lm => exact keepsNext_run (hrefl.run_loadAll _ _ _) 2
  case stm => exact keepsNext_run (hrefl.run_storeAll _ _ _) 2
  case pshm => exact keepsNext_run (hrefl.run_pushAll _ _) 1
  case popm => exact keepsNext_run (hrefl.run_popAll _ _) 1
  case jc c rx a => exact keepsNext_jc c rx a s
  case jci c rx a => exact keepsNext_jci c rx a s
  case js ra _ _ => exact keepsNext_jump (hrefl.run_setReg ra _) 2 _
  case soj ra rx a => exact keepsNext_soj ra rx a s
  case br d => exact keepsNext_branchIf true d s
  case bez d | blt d | ble d | bgt d | bnz d | bge d => exact keepsNext_branchIf _ d s
  case sjs ra _ _ => exact keepsNext_jump ((hrefl.run_setReg ra _).run_write _ _) 2 _
  case urs ra => exact keepsNext_jump ((hrefl.run_read _).run_setReg ra _) 1 _
  case nop => exact keepsNext_run (r := s.start) hrefl 1
  case bifi three cp rx a1 a2 => exact keepsNext_bifi three cp rx a1 a2 s
  case xio | vio | lst | lsti | bex | bpt | mov => exact Bool.noConfusion h
  -- BIF; its name is a keyword of the term language, so `case` cannot name it
  next three cp rx a1 a2 => exact keepsNext_bif three cp rx a1 a2 s

end Sys2Proof.Proofs
end

