-- ==== Sys2Proof/Proofs/Isolation.lean ====
section
/-! PROOF. What an unprivileged program cannot change (60_exceptions.md R700 to R702): the ordinary instructions by `Keeps`, the
privileged ones by their trap, BPT and MOV by themselves. -/

namespace Sys2Proof.Proofs

open Sys2Proof.Machine

/-! ## I/O reads -/

section IoRead

variable {s t : State} {r : Run}

theorem Keeps.ioParity (h : Keeps s t) (addr : Word) : Keeps s (t.ioParity addr) := by
  unfold State.ioParity
  split
  · exact h.raise (by decide) _
  · exact h

/-- An answer from outside uses up the devices' words or a free value, no more. -/
theorem Keeps.ioAnswer (h : Keeps s t) (addr : Word) : Keeps s (t.ioAnswer addr).2 := by
  unfold State.ioAnswer
  split
  · exact h
  · split
    · exact h
    · split
      · exact h.trans (.of_eq rfl rfl rfl)
      · exact h.useFree 1

theorem Keeps.run_ioRead (h : Keeps s r.s) (addr : Word) : Keeps s (r.ioRead addr).run.s := by
  unfold Run.ioRead
  split
  · exact h.run_freeWord
  · split
    · exact (((h.emit _).raise (by decide) _).ioParity addr).useFree 1
    · exact ((h.ioAnswer addr).emit _).ioParity addr

/-- The platform answers at 8410 (70_reset_and_hazards.md R746). -/
theorem ioAnswer_configuration (s : State) : s.ioAnswer 0x8410 = (s.platform.scrValue, s) := rfl

/-- A legal read brings what the bus answers. -/
theorem start_ioRead_legal {addr : Word} (h : ioFlawAt s.platform .illegal addr = false) :
    s.start.ioRead addr =
      { val := (s.ioAnswer addr).1
        run := (((s.ioAnswer addr).2.emit (.ioRead addr (s.ioAnswer addr).1)).ioParity addr).start } := by
  simp only [Run.ioRead, State.start, h, Bool.false_eq_true, if_false]

/-- An illegal read aborts and brings an open value. -/
theorem start_ioRead_illegal {addr : Word} (h : ioFlawAt s.platform .illegal addr = true) :
    s.start.ioRead addr =
      Run.freeWord
        { s := ((s.emit (.ioRead addr (Config.freeWord s.free))).raise 0x0400 .major).ioParity addr
          aborted := true
          halted := false } := by
  simp only [Run.ioRead, State.start, h, Bool.false_eq_true, if_false, if_true]

end IoRead

/-! ## Block move -/

section Move

variable {s : State} (ra rb : Reg)

theorem Keeps.moveRegisters {t : State} (h : Keeps s t) : Keeps s (t.moveRegisters ra rb) :=
  ((h.setReg ra _).setReg rb _).setReg (ra + 1) _

theorem Keeps.run_moveDiscarded {r : Run} (k : Nat) (shadow : State) (h : Keeps s r.s) :
    Keeps s (moveDiscarded ra rb k shadow r).s := by
  induction k generalizing shadow r with
  | zero => exact h
  | succ k ih => exact ih _ ((h.run_turn.run_read _).run_turn.run_write _ _)

/-- The state a plan holds; a failed one has none. -/
def planState : MovePlan → Option State
  | .finished r => some r.s
  | .more s | .suspended s => some s
  | .failed _ => none

/-- Moving one word keeps what ordinary operations keep. -/
theorem keeps_moveWord {t u : State} (h : Keeps s t) (hu : planState (t.moveWord ra rb) = some u) : Keeps s u := by
  have hmoved := ((Keeps.run_read (r := t.start) h (t.reg rb)).run_turn.run_write (t.reg ra)
    (t.start.read (t.reg rb)).val)
  unfold State.moveWord at hu
  dsimp only at hu
  split at hu
  · cases hu; exact hmoved
  · split at hu
    · cases hu; exact hmoved.run_moveDiscarded ra rb _ _
    · split at hu
      · cases hu; exact hmoved.moveRegisters ra rb
      · cases hu; exact hmoved.moveRegisters ra rb

/-- The answer of a plan is its state, with IC past the MOV where it is complete. -/
theorem keeps_movePlan_result {plan : MovePlan} {t : State} (h : ∀ u, planState plan = some u → Keeps s u)
    (ht : plan.result = .next t) : Keeps s t := by
  cases plan with
  | finished r => exact keepsNext_run (h r.s rfl) 1 t ht
  | more u => exact keepsNext_next (h u rfl) t ht
  | suspended u => exact keepsNext_next (h u rfl) t ht
  | failed f => exact nomatch ht

/-- Where no interrupt is looked for or found, MOV moves its word. -/
theorem moveInterrupt_none (h : s.spi ≠ .idle ∨ s.nextLevel = none) : s.moveInterrupt = none := by
  unfold State.moveInterrupt
  split
  · rename_i hidle
    obtain hspi | hlevel := h
    · exact absurd hidle hspi
    · rw [hlevel]; rfl
  · rfl

theorem movePlan_of_no_interrupt (h : s.moveInterrupt = none) :
    s.movePlan ra rb = if s.reg (ra + 1) = 0 then .finished s.start else s.moveWord ra rb := by
  unfold State.movePlan
  rw [h]

theorem keepsNext_mov_uninterrupted (h : s.moveInterrupt = none) : KeepsNext s (exec (.mov ra rb) s) := by
  have harm : exec (.mov ra rb) s = (s.movePlan ra rb).result := rfl
  intro t ht
  rw [harm, movePlan_of_no_interrupt ra rb h] at ht
  refine keeps_movePlan_result (fun u hu => ?_) ht
  split at hu
  · cases hu; exact Keeps.refl s
  · exact keeps_moveWord ra rb (Keeps.refl s) hu

end Move

/-! ## Breakpoint -/

/-- What BPT does with the configuration word (46_control.md R488). -/
def breakpointWith (v : Word) (s : State) : State :=
  { s with scr := v, consoleMode := bitOf v 2, depositLocked := false }

theorem exec_bpt (s : State) : exec .bpt s =
    ((s.start.ioRead 0x8410).run.update (breakpointWith (s.start.ioRead 0x8410).val)).next 1 := rfl

/-- BPT changes SCR, the console mode and the deposit lock after its read; everything else it keeps. -/
theorem bpt_next {s t : State} (h : exec .bpt s = .next t) : ∃ u scr mode locked, Keeps s u ∧
    t = { u with scr := scr, consoleMode := mode, depositLocked := locked, ic := u.ic + 1 } := by
  have hread := Keeps.run_ioRead (r := s.start) (Keeps.refl s) 0x8410
  rw [exec_bpt] at h
  cases h
  unfold Run.update
  split
  · exact ⟨_, _, _, _, hread, rfl⟩
  · exact ⟨_, _, _, _, hread, rfl⟩

/-! ## Isolation -/

/-- What UserIsolation states of a next state. -/
def Isolated (s t : State) : Prop :=
  t.mask = s.mask ∧ t.sw.extractLsb' 0 12 = s.sw.extractLsb' 0 12 ∧ t.inten = s.inten ∧ t.enbl = s.enbl ∧
    t.spi = s.spi ∧ t.ta = s.ta ∧ t.tb = s.tb ∧ t.taRun = s.taRun ∧ t.tbRun = s.tbRun ∧ t.tbPhase = s.tbPhase ∧
    t.dmaen = s.dmaen ∧ t.nmlpwrup = s.nmlpwrup ∧ t.ipr = s.ipr ∧ t.opr = s.opr ∧ t.bpuRam = s.bpuRam ∧
    t.globprt = s.globprt ∧ t.platform = s.platform

theorem isolated_of_keeps {s t : State} (h : Keeps s t) : Isolated s t := by
  have hheld := h.held
  simp only [held, Held.mk.injEq] at hheld
  obtain ⟨hmask, hstatus, hinten, henbl, hspi, hta, htb, htaRun, htbRun, hphase, hdma, hpwr, hipr, hopr, hram, hglob, hplat,
    _, _, _, _⟩ := hheld
  exact ⟨hmask, hstatus, hinten, henbl, hspi, hta, htb, htaRun, htbRun, hphase, hdma, hpwr, hipr, hopr, hram, hglob, hplat⟩

/-- The trap of a privileged instruction changes FT, PIR, IC and the trace. -/
theorem isolated_of_privilegeCheck {i : Instr} {s t : State} {r : Result}
    (harm : exec i s = if s.privileged then r else .next s.privilegeViolation) (hak : akField s.sw ≠ 0)
    (h : exec i s = .next t) : Isolated s t := by
  rw [exec_of_privilegeCheck harm hak] at h
  cases h
  exact ⟨rfl, rfl, rfl, rfl, rfl, rfl, rfl, rfl, rfl, rfl, rfl, rfl, rfl, rfl, rfl, rfl, rfl⟩

/-- Settles O60: the ordinary instructions keep all of `held`, the privileged ones trap, BPT changes its own three fields only,
and a MOV that no interrupt suspends moves its word. -/
theorem userIsolation : Obligations.UserIsolation := by
  intro i s t hak hbex hmov h
  change Isolated s t
  cases hord : ordinary i
  case true => exact isolated_of_keeps (keepsNext_exec hord s t h)
  case false =>
    cases i
    case xio ra rx w => exact isolated_of_privilegeCheck (i := .xio ra rx w) rfl hak h
    case vio ra rx a => exact isolated_of_privilegeCheck (i := .vio ra rx a) rfl hak h
    case lst rx a => exact isolated_of_privilegeCheck (i := .lst rx a) rfl hak h
    case lsti rx a => exact isolated_of_privilegeCheck (i := .lsti rx a) rfl hak h
    case bex n => exact absurd rfl (hbex n)
    case bpt =>
      obtain ⟨u, scr, mode, locked, hkeeps, rfl⟩ := bpt_next h
      have hisolated : Isolated s u := isolated_of_keeps hkeeps
      exact hisolated
    case mov ra rb =>
      exact isolated_of_keeps (keepsNext_mov_uninterrupted ra rb (moveInterrupt_none (hmov ra rb rfl)) t h)
    all_goals exact Bool.noConfusion hord

end Sys2Proof.Proofs
end

