-- ==== Sys2Proof/Proofs/Invariant.lean ====
section
/-! PROOF. The machine invariant. `Sound` is its part about memory, SW, FT and SCR; `Stays` says that an operation keeps `Sound` and
leaves the wait state and a MOV in progress as they were. Every operation of the machine is shown to do that, `Keeps` being a
special case; the steps then settle the modes. -/

namespace Sys2Proof.Proofs

open Sys2Proof.Machine

/-! ## The relation -/

/-- The part of the invariant that the operations keep one by one. -/
structure Sound (s : State) : Prop where
  memory : s.mem.wf = true
  status : s.sw &&& 0x0F00 = 0
  faults : s.ft &&& 0x1A0A = 0
  configuration : s.scr = s.platform.scrValue
  addressState : bitOf s.scr 0 = false → asField s.sw = 0

theorem sound_of_inv {s : State} (h : Inv s) : Sound s :=
  ⟨h.memory, h.status, h.faults, h.configuration, h.addressState⟩

/-- `t` comes from `s` by operations that keep `Sound`, the wait state and a MOV in progress. -/
structure Stays (s t : State) : Prop where
  sound : Sound s → Sound t
  waiting : t.waiting = s.waiting
  moving : t.moving = s.moving

theorem Stays.refl (s : State) : Stays s s := ⟨id, rfl, rfl⟩

theorem Stays.trans {s t u : State} (h : Stays s t) (h' : Stays t u) : Stays s u :=
  ⟨h'.sound ∘ h.sound, h'.waiting.trans h.waiting, h'.moving.trans h.moving⟩

/-- The fields that `Stays` speaks of. -/
def essence (s : State) : Memory × Word × Word × Word × Platform × Bool × Option (Reg × Reg) :=
  (s.mem, s.sw, s.ft, s.scr, s.platform, s.waiting, s.moving)

theorem Stays.of_essence {s t : State} (h : essence t = essence s) : Stays s t := by
  simp only [essence, Prod.mk.injEq] at h
  obtain ⟨hmem, hsw, hft, hscr, hplatform, hwaiting, hmoving⟩ := h
  refine ⟨fun hs => ⟨?_, ?_, ?_, ?_, ?_⟩, hwaiting, hmoving⟩
  · rw [hmem]; exact hs.memory
  · rw [hsw]; exact hs.status
  · rw [hft]; exact hs.faults
  · rw [hscr, hplatform]; exact hs.configuration
  · rw [hscr, hsw]; exact hs.addressState

/-- The reserved and the address-state bits of SW lie in its held part. -/
theorem status_of_low {w v : Word} (h : w.extractLsb' 0 12 = v.extractLsb' 0 12) :
    w &&& 0x0F00 = v &&& 0x0F00 ∧ asField w = asField v := by
  have hbit : ∀ i, i < 12 → w.getLsbD i = v.getLsbD i := by
    intro i hi
    have hext := congrArg (fun x : BitVec 12 => x.getLsbD i) h
    simpa only [BitVec.getLsbD_extractLsb', hi, decide_true, Bool.true_and, Nat.zero_add] using hext
  have hmask : ∀ i, 12 ≤ i → i < 16 → (0x0F00 : Word).getLsbD i = false := by decide
  constructor
  · apply BitVec.eq_of_getLsbD_eq
    intro i hi
    rw [BitVec.getLsbD_and, BitVec.getLsbD_and]
    by_cases hlow : i < 12
    · rw [hbit i hlow]
    · rw [hmask i (by omega) hi, Bool.and_false, Bool.and_false]
  · apply BitVec.eq_of_getLsbD_eq
    intro i hi
    simp only [asField, BitVec.getLsbD_extractLsb', Nat.zero_add, hbit i (by omega)]

/-- Ordinary operations are a special case. -/
theorem Stays.of_keeps {s t : State} (h : Keeps s t) : Stays s t := by
  have hheld := h.held
  simp only [held, Held.mk.injEq] at hheld
  obtain ⟨_, hstatus, _, _, _, _, _, _, _, _, _, _, _, _, _, _, hplatform, hscr, _, hwaiting, hmoving⟩ := hheld
  obtain ⟨hreserved, has⟩ := status_of_low hstatus
  refine ⟨fun hs => ⟨h.memory hs.memory, ?_, h.faults hs.faults, ?_, ?_⟩, hwaiting, hmoving⟩
  · rw [hreserved]; exact hs.status
  · rw [hscr, hplatform]; exact hs.configuration
  · rw [hscr, has]; exact hs.addressState

/-! ## Loads of SW and FT -/

section Loads

theorem maskSw_reserved (w : Word) : maskSw w &&& 0x0F00 = 0 := by
  unfold maskSw
  rw [BitVec.and_assoc]
  exact BitVec.and_zero

theorem asField_maskSw (w : Word) : asField (maskSw w) = asField w := by
  have hmask : ∀ i, i < 4 → (0xF0FF : Word).getLsbD i = true := by decide
  apply BitVec.eq_of_getLsbD_eq
  intro i hi
  simp only [asField, maskSw, BitVec.getLsbD_extractLsb', Nat.zero_add, BitVec.getLsbD_and, hmask i hi, Bool.and_true]

/-- An accepted status word respects SCR bit 0 (60_exceptions.md R668). -/
theorem asField_of_accepted {s : State} {w : Word} (h : s.refusesStatus w = false) (hscr : bitOf s.scr 0 = false) :
    asField (maskSw w) = 0 := by
  rw [asField_maskSw]
  simpa [State.refusesStatus, hscr] using h

/-- A load of SW that is not refused. -/
theorem Stays.loadSw {s : State} {w : Word} (h : s.refusesStatus w = false) : Stays s { s with sw := maskSw w } :=
  ⟨fun hs => ⟨hs.memory, maskSw_reserved w, hs.faults, hs.configuration, asField_of_accepted h⟩, rfl, rfl⟩

/-- A load of FT that leaves its unused bits 0. -/
theorem Stays.loadFt {s : State} {w : Word} (h : s.ft &&& 0x1A0A = 0 → w &&& 0x1A0A = 0) : Stays s { s with ft := w } :=
  ⟨fun hs => ⟨hs.memory, hs.status, h hs.faults, hs.configuration, hs.addressState⟩, rfl, rfl⟩

end Loads

/-! ## An instruction on its way -/

section OnItsWay

variable {s t : State} {r : Run}

theorem Stays.keeps (h : Stays s t) {u : State} (hu : Keeps t u) : Stays s u := h.trans (.of_keeps hu)

theorem Stays.essence (h : Stays s t) {u : State} (hu : Proofs.essence u = Proofs.essence t) : Stays s u :=
  h.trans (.of_essence hu)

theorem Stays.run_turn (h : Stays s r.s) : Stays s r.turn.s := h.keeps (Keeps.refl r.s).run_turn

theorem Stays.run_read (h : Stays s r.s) (addr : Word) : Stays s (r.read addr).run.s :=
  h.keeps ((Keeps.refl r.s).run_read addr)

theorem Stays.run_write (h : Stays s r.s) (addr v : Word) : Stays s (r.write addr v).s :=
  h.keeps ((Keeps.refl r.s).run_write addr v)

theorem Stays.run_ioRead (h : Stays s r.s) (addr : Word) : Stays s (r.ioRead addr).run.s :=
  h.keeps ((Keeps.refl r.s).run_ioRead addr)

theorem Stays.ioWrite (h : Stays s t) (addr data : Word) : Stays s (t.ioWrite addr data) :=
  h.keeps ((Keeps.refl t).ioWrite addr data)

theorem Stays.useFree (h : Stays s t) (k : Nat) : Stays s (t.useFree k) := h.essence rfl

/-- A change that an aborted instruction does not make. -/
theorem Stays.run_update (h : Stays s r.s) {f : State → State} (hf : Stays s (f r.s)) : Stays s (r.update f).s := by
  unfold Run.update
  split
  · exact h
  · exact hf

/-- The companion chips have registers of their own. -/
theorem essence_chipWrite (s : State) (addr data : Word) : essence (s.chipWrite addr data) = essence s := by
  unfold State.chipWrite
  split
  case h_1 | h_2 | h_3 | h_4 => split <;> rfl
  case h_5 => rfl

theorem Stays.busWrite (h : Stays s t) (addr data : Word) : Stays s (t.busWrite addr data) :=
  (h.essence (essence_chipWrite t addr data)).ioWrite addr data

theorem Stays.run_ioWrite (h : Stays s r.s) (addr data : Word) : Stays s (r.ioWrite addr data).s := by
  unfold Run.ioWrite
  split
  · exact h
  · split
    · exact (h.ioWrite addr _).useFree 1
    · exact h.busWrite addr data

theorem Stays.run_ioWriteOpen (h : Stays s r.s) (addr : Word) : Stays s (r.ioWriteOpen addr).s := by
  unfold Run.ioWriteOpen
  split
  · exact h
  · dsimp only
    split
    · exact (h.ioWrite addr _).useFree 1
    · exact (h.busWrite addr _).useFree 1

end OnItsWay

/-! ## Input and output -/

section Io

variable {s : State} {r : Run}

/-- A change of fields outside `essence`, then an I/O write. -/
theorem Stays.run_update_ioWrite (h : Stays s r.s) {f : State → State} (hf : ∀ u, Stays u (f u)) (cmd data : Word) :
    Stays s ((r.update f).ioWrite cmd data).s :=
  (h.run_update (h.trans (hf r.s))).run_ioWrite cmd data

theorem Stays.run_update_ioWriteOpen (h : Stays s r.s) {f : State → State} (hf : ∀ u, Stays u (f u)) (cmd : Word) :
    Stays s ((r.update f).ioWriteOpen cmd).s :=
  (h.run_update (h.trans (hf r.s))).run_ioWriteOpen cmd

theorem stays_clearRequests (s : State) : Stays s s.clearRequests :=
  (Stays.loadFt (w := 0) fun _ => by decide).essence rfl

theorem stays_clearFaults (s : State) : Stays s s.clearFaults :=
  (Stays.loadFt (w := 0) fun _ => by decide).essence rfl

theorem stays_resetPending (s : State) (code : Word) : Stays s (s.resetPending code) := by
  refine (Stays.loadFt (w := if code.extractLsb' 0 4 = 1 then 0 else s.ft) fun h => ?_).essence rfl
  split
  · decide
  · exact h

theorem keeps_addressStateFault (s : State) : Keeps s s.addressStateFault := (Keeps.refl s).raise (by decide) _

/-- A check made only where nothing is aborted, in its two failing branches. -/
theorem eq_false_of_not_and {a b : Bool} (h : ¬ (!a && b) = true) (ha : ¬ a = true) : b = false := by
  revert a b
  decide

/-- WSW loads an accepted status word or raises the address-state fault (47_io.md R511). -/
theorem Stays.run_writeStatus (h : Stays s r.s) (cmd data : Word) : Stays s (r.writeStatus cmd data).s := by
  unfold Run.writeStatus
  split
  · exact h.keeps (keeps_addressStateFault r.s)
  · rename_i haccepted
    refine Stays.run_ioWrite ?_ cmd data
    unfold Run.update
    split
    · exact h
    · rename_i hruns
      exact h.trans (.loadSw (eq_false_of_not_and haccepted hruns))

theorem Stays.run_goPulse (h : Stays s r.s) : Stays s r.goPulse.s := by
  unfold Run.goPulse
  split
  · exact h
  · exact h.essence rfl

theorem Stays.run_output (h : Stays s r.s) (cmd data : Word) : Stays s (r.output cmd data).s := by
  unfold Run.output
  split
  case h_1 => exact h.run_update_ioWrite (fun _ => .of_essence (by rfl)) cmd data
  case h_2 => exact h.run_update_ioWriteOpen stays_clearRequests cmd
  case h_3 | h_4 => exact h.run_update_ioWriteOpen (fun _ => .of_essence (by rfl)) cmd
  case h_5 => exact h.run_update_ioWrite (fun u => stays_resetPending u data) cmd data
  case h_6 => exact h.run_update_ioWrite (fun _ => .of_essence (by rfl)) cmd data
  case h_7 => exact h.run_update_ioWriteOpen (fun _ => .of_essence (by rfl)) cmd
  case h_8 => exact h.run_writeStatus cmd data
  case h_9 =>
    split
    · exact h.run_ioWrite cmd data
    · exact h
  case h_10 => exact h.run_ioWriteOpen cmd
  case h_11 | h_12 | h_13 | h_14 => exact h.run_update_ioWriteOpen (fun _ => .of_essence (by rfl)) cmd
  case h_15 => exact h.run_update_ioWrite (fun _ => .of_essence (by rfl)) cmd data
  case h_16 => exact h.run_goPulse.run_ioWriteOpen cmd
  case h_17 | h_18 => exact h.run_update_ioWriteOpen (fun _ => .of_essence (by rfl)) cmd
  case h_19 => exact h.run_update_ioWrite (fun _ => .of_essence (by rfl)) cmd data
  all_goals exact h.run_ioWrite cmd data

theorem Stays.run_input (h : Stays s r.s) (cmd : Word) : Stays s (r.input cmd).run.s := by
  unfold Run.input
  split
  case h_1 | h_2 | h_3 | h_5 | h_6 => exact h.run_ioWrite cmd _
  case h_4 =>
    have hecho := h.run_ioWrite cmd r.s.ft
    exact hecho.run_update (hecho.trans (stays_clearFaults _))
  all_goals exact h.run_ioRead cmd

theorem Stays.run_ioWriteIgnored (h : Stays s r.s) (cmd : Word) (data : Option Word) :
    Stays s (r.ioWriteIgnored cmd data).s := by
  unfold Run.ioWriteIgnored
  split
  · split
    · exact (h.ioWrite cmd _).useFree 1
    · exact h.ioWrite cmd _
  · exact (h.ioWrite cmd _).useFree 1

theorem Stays.run_illegalElement (h : Stays s r.s) (cmd data : Word) : Stays s (r.illegalElement cmd data).run.s := by
  unfold Run.illegalElement
  split
  · exact h
  · split
    · exact h.run_ioRead cmd
    all_goals exact h.run_ioWriteIgnored cmd _

theorem Stays.run_element (h : Stays s r.s) (cmd addr : Word) : Stays s (r.element cmd addr).run.s := by
  unfold Run.element
  dsimp only
  split
  · split
    · exact h.run_turn.run_illegalElement cmd 0
    · exact (h.run_turn.run_input cmd).run_turn.run_write addr _
  · have hread := (h.run_turn.run_read addr).run_turn
    split
    · exact hread.run_illegalElement cmd _
    · exact hread.run_output cmd _

theorem Stays.run_chain (cmd stride sel : Word) (bits : List Nat) (addr : Word) (h : Stays s r.s) :
    Stays s (chain cmd stride sel bits addr r).s := by
  induction bits generalizing addr r with
  | nil => exact h
  | cons n bits ih =>
    have helement := h.run_element (cmd + BitVec.ofNat 16 n * stride) addr
    unfold chain
    split
    · dsimp only
      split
      · exact helement
      · exact ih (addr + 1) helement
    · exact ih addr h

end Io

/-! ## Status words -/

section Status

variable {s : State} {r : Run}

/-- Whatever next state the result is, it comes from `s` by operations that stay. -/
def StaysNext (s : State) (r : Result) : Prop := ∀ t, r = .next t → Stays s t

theorem staysNext_next {s t : State} (h : Stays s t) : StaysNext s (.next t) := by
  rintro _ ⟨⟩
  exact h

theorem staysNext_run (h : Stays s r.s) (len : Word) : StaysNext s (r.next len) := staysNext_next (h.essence rfl)

theorem staysNext_of_keeps {result : Result} (h : KeepsNext s result) : StaysNext s result :=
  fun t ht => .of_keeps (h t ht)

theorem staysNext_loadStatus (h : Stays s r.s) (mask sw ic : Word) : StaysNext s (r.loadStatus mask sw ic) := by
  unfold Run.loadStatus
  split
  · exact staysNext_run h 2
  · split
    · exact staysNext_next ((h.keeps (keeps_addressStateFault r.s)).essence rfl)
    · rename_i haccepted
      have hmask : Stays s (r.s.setMask mask) := h.essence rfl
      have hload : Stays s ((r.s.setMask mask).setSw sw) :=
        hmask.trans (.loadSw (s := r.s.setMask mask) (show r.s.refusesStatus sw = false by simpa using haccepted))
      exact staysNext_next (hload.essence rfl)

theorem keeps_run_sequenceRead {g : Got Word} {addr : Word} (h : Keeps s r.s) (hg : r.sequenceRead addr = some g) :
    Keeps s g.run.s := by
  obtain hturn | ⟨_, hfree⟩ := Run.sequenceRead_run hg
  · rw [hturn]; exact h.run_turn
  · rw [hfree]; exact h.run_freeWord

theorem keeps_run_newStatus {g : Got NewStatus} {n : Fin 16} {entry : Word} (h : Keeps s r.s)
    (hg : r.newStatus n entry = some g) : Keeps s g.run.s := by
  simp only [Run.newStatus, Option.bind_eq_some_iff, Option.map_eq_some_iff] at hg
  obtain ⟨svp, hsvp, mask, hmask, sw, hsw, ic, hic, lp, hlp, rfl⟩ := hg
  have h1 := keeps_run_sequenceRead h hsvp
  have h2 := keeps_run_sequenceRead h1 hmask
  have h3 := keeps_run_sequenceRead h2 hsw
  have h4 := keeps_run_sequenceRead h3 hic
  exact keeps_run_sequenceRead h4 hlp

theorem keeps_run_sequenceWrite {t : Run} {as : BitVec 4} {addr v : Word} (h : Keeps s r.s)
    (ht : r.sequenceWrite as addr v = some t) : Keeps s t.s := by
  unfold Run.sequenceWrite at ht
  split at ht
  · cases ht; exact h
  · dsimp only at ht
    split at ht
    · cases ht
      refine Keeps.run_turn ?_
      split
      · exact h.writeWord _ _
      · exact h
    · exact nomatch ht

theorem keeps_run_saveStatus {t : Run} {as : BitVec 4} {lp mask sw ic : Word} (h : Keeps s r.s)
    (ht : r.saveStatus as lp mask sw ic = some t) : Keeps s t.s := by
  simp only [Run.saveStatus, Option.bind_eq_some_iff] at ht
  obtain ⟨r1, h1, r2, h2, h3⟩ := ht
  exact keeps_run_sequenceWrite (keeps_run_sequenceWrite (keeps_run_sequenceWrite h h1) h2) h3

/-- Ordinary operations leave SCR, so a status word is refused before and after them alike. -/
theorem refusesStatus_of_keeps {t : State} (h : Keeps s t) (w : Word) : t.refusesStatus w = s.refusesStatus w := by
  have hscr : t.scr = s.scr := congrArg Held.scr h.held
  simp only [State.refusesStatus, hscr]

/-- An abandoned sequence has only raised FT bit 11. -/
theorem keeps_of_abandoned {t : State} {n : Fin 16} {entry : Word} (h : s.interrupt n entry = .abandoned t) :
    Keeps s t := by
  obtain ⟨f, hf⟩ | ⟨g, _, _, hres⟩ | ⟨g, hg, _, hres⟩ | ⟨g, saved, _, _, _, ⟨_, hres⟩ | hres⟩ := s.interrupt_cases n entry
  case inr.inr.inl =>
    rw [hres] at h
    cases h
    exact (keeps_run_newStatus (r := s.start) (Keeps.refl s) hg).trans (keeps_addressStateFault _)
  case inl => rw [hf] at h; exact nomatch h
  all_goals rw [hres] at h; exact nomatch h

/-- An interrupt sequence stays, however it ends: the new SW it loads is an accepted one. -/
theorem staysNext_interrupt (s : State) (n : Fin 16) (entry : Word) : StaysNext s (s.interrupt n entry).result := by
  obtain ⟨f, hf⟩ | ⟨g, hg, _, hres⟩ | ⟨g, hg, _, hres⟩ | ⟨g, saved, hg, haccepted, hsaved, hend⟩ := s.interrupt_cases n entry
  case inl => rw [hf]; exact fun t ht => nomatch ht
  case inr.inl =>
    rw [hres]
    exact staysNext_next (.of_keeps (keeps_run_newStatus (r := s.start) (Keeps.refl s) hg))
  case inr.inr.inl =>
    rw [hres]
    exact staysNext_next (.of_keeps ((keeps_run_newStatus (r := s.start) (Keeps.refl s) hg).trans (keeps_addressStateFault _)))
  case inr.inr.inr =>
    have hread := keeps_run_newStatus (r := s.start) (Keeps.refl s) hg
    have hloaded : Stays s (g.run.update fun u =>
        { u with inten := false, enbl := .idle, mask := g.val.mask, sw := maskSw g.val.sw, ic := g.val.ic }).s := by
      have hsw : Stays s { g.run.s with sw := maskSw g.val.sw } :=
        (Stays.of_keeps hread).trans (.loadSw ((refusesStatus_of_keeps hread _).trans haccepted))
      exact (Stays.of_keeps hread).run_update (hsw.essence rfl)
    have hstored := hloaded.keeps (keeps_run_saveStatus (Keeps.refl _) hsaved)
    obtain ⟨_, hres⟩ | hres := hend
    · rw [hres]
      exact staysNext_next hstored
    · rw [hres]
      exact staysNext_next ((hstored.essence (u := saved.s.setPir (saved.s.pir &&& ~~~ oneBit n.val)) rfl).ioWrite 0x1000 _)

end Status

/-! ## Every instruction -/

section Instructions

variable (s : State)

theorem staysNext_bpt : StaysNext s (exec .bpt s) := by
  have hread := Keeps.run_ioRead (r := s.start) (Keeps.refl s) 0x8410
  rw [exec_bpt]
  refine staysNext_run ?_ 1
  unfold Run.update
  split
  · exact .of_keeps hread
  · rename_i hruns
    have hval : (s.start.ioRead 0x8410).val = s.platform.scrValue := by
      cases hflaw : ioFlawAt s.platform .illegal 0x8410
      case false =>
        rw [start_ioRead_legal hflaw]
        rfl
      case true =>
        rw [start_ioRead_illegal hflaw] at hruns
        exact absurd rfl hruns
    have hheld := hread.held
    have hscr : (s.start.ioRead 0x8410).run.s.scr = s.scr := congrArg Held.scr hheld
    have hplatform : (s.start.ioRead 0x8410).run.s.platform = s.platform := congrArg Held.platform hheld
    have hstays : Stays s (s.start.ioRead 0x8410).run.s := .of_keeps hread
    refine ⟨fun hs => ?_, hstays.waiting, hstays.moving⟩
    have hafter := hstays.sound hs
    have hsame : (s.start.ioRead 0x8410).val = (s.start.ioRead 0x8410).run.s.scr := by
      rw [hval, hscr, hs.configuration]
    exact ⟨hafter.memory, hafter.status, hafter.faults, hsame.trans hafter.configuration,
      fun hbit => hafter.addressState (by rw [← hsame]; exact hbit)⟩

/-- The state a MOV has reached: moved on, complete, or past its interrupt sequence. -/
theorem stays_movePlan (ra rb : Reg) (t : State) (h : planState (s.movePlan ra rb) = some t) : Stays s t := by
  unfold State.movePlan at h
  split at h
  · cases h; exact .refl s
  · split at h
    case h_1 u hseq | h_2 u hseq =>
      cases h
      simp only [State.moveInterrupt] at hseq
      split at hseq
      · obtain ⟨n, _, hseq⟩ := Option.map_eq_some_iff.1 hseq
        exact staysNext_interrupt s n 0 _ (by rw [hseq]; rfl)
      · exact nomatch hseq
    case h_3 => exact nomatch h
    case h_4 u hseq =>
      simp only [State.moveInterrupt] at hseq
      split at hseq
      · obtain ⟨n, _, hseq⟩ := Option.map_eq_some_iff.1 hseq
        exact .of_keeps (keeps_moveWord ra rb (keeps_of_abandoned hseq) h)
      · exact nomatch hseq
    case h_5 => exact .of_keeps (keeps_moveWord ra rb (Keeps.refl s) h)

theorem staysNext_mov (ra rb : Reg) : StaysNext s (exec (.mov ra rb) s) := by
  have harm : exec (.mov ra rb) s = (s.movePlan ra rb).result := rfl
  have hplan := stays_movePlan s ra rb
  rw [harm]
  revert hplan
  cases s.movePlan ra rb with
  | finished r => exact fun hplan => staysNext_run (hplan r.s rfl) 1
  | more u => exact fun hplan => staysNext_next (hplan u rfl)
  | suspended u => exact fun hplan => staysNext_next (hplan u rfl)
  | failed f => exact fun _ t ht => nomatch ht

theorem keeps_privilegeViolation : Keeps s s.privilegeViolation :=
  ((Keeps.refl s).raise (bits := 0x0020) (by decide) .major).trans (.of_eq rfl rfl rfl)

/-- A privileged instruction stays where its meaning does. -/
theorem staysNext_privileged {i : Instr} {r : Result}
    (harm : exec i s = if s.privileged then r else .next s.privilegeViolation) (h : StaysNext s r) :
    StaysNext s (exec i s) := by
  rw [harm]
  split
  · exact h
  · exact staysNext_next (.of_keeps (keeps_privilegeViolation s))

theorem staysNext_loadStatusFrom (p : Got Word) (h : Keeps s p.run.s) : StaysNext s (loadStatusFrom p) :=
  staysNext_loadStatus (.of_keeps (h.run_read3 p.val)) _ _ _

theorem staysNext_xio (ra rx : Reg) (w : Word) : StaysNext s (exec (.xio ra rx w) s) := by
  have hrefl : Stays s s.start.s := .refl s
  refine staysNext_privileged s (i := .xio ra rx w) rfl ?_
  dsimp only
  split
  · have hinput := hrefl.run_input (s.indexed w rx)
    exact staysNext_run (hinput.run_update (hinput.essence rfl)) 2
  · exact staysNext_run (hrefl.run_output _ _) 2

theorem staysNext_vio (ra rx : Reg) (a : Word) : StaysNext s (exec (.vio ra rx a) s) := by
  have hrefl : Stays s s.start.s := .refl s
  refine staysNext_privileged s (i := .vio ra rx a) rfl ?_
  exact staysNext_run (((hrefl.run_read _).run_turn.run_read _).run_chain _ _ _ _ _) 2

theorem staysNext_bex (n : Fin 16) : StaysNext s (exec (.bex n) s) := by
  have harm : exec (.bex n) s = ({ s.pend 5 with ic := s.ic + 1 }.interrupt 5 (BitVec.ofNat 16 n.val)).result := rfl
  have hpend : Stays s { s.pend 5 with ic := s.ic + 1 } := .of_essence rfl
  intro t ht
  rw [harm] at ht
  exact hpend.trans (staysNext_interrupt _ _ _ t ht)

theorem staysNext_exec (i : Instr) : StaysNext s (exec i s) := by
  cases hord : ordinary i
  case true => exact staysNext_of_keeps (keepsNext_exec hord s)
  case false =>
    cases i
    case xio ra rx w => exact staysNext_xio s ra rx w
    case vio ra rx a => exact staysNext_vio s ra rx a
    case lst rx a =>
      exact staysNext_privileged s (i := .lst rx a) rfl
        (staysNext_loadStatusFrom s _ (keeps_operandAddress s (.direct rx a)))
    case lsti rx a =>
      exact staysNext_privileged s (i := .lsti rx a) rfl
        (staysNext_loadStatusFrom s _ (keeps_operandAddress s (.indirect rx a)))
    case bex n => exact staysNext_bex s n
    case bpt => exact staysNext_bpt s
    case mov ra rb => exact staysNext_mov s ra rb
    all_goals exact Bool.noConfusion hord

end Instructions

end Sys2Proof.Proofs
end

