-- ==== Sys2Proof/Proofs/Steps.lean ====
section
/-! PROOF. The steps of the machine keep its invariant: console commands, what the outside does, the boundary, fetch and RESET,
each by `Stays`, then the four kinds of step. -/

namespace Sys2Proof.Proofs

open Sys2Proof.Machine

/-! ## Reset -/

theorem resetFt_unused (p : Platform) : resetFt p &&& 0x1A0A = 0 := by
  unfold resetFt
  refine unusedFt_or (unusedFt_or (unusedFt_or ?_ ?_) ?_) ?_
  · split <;> decide
  · rw [BitVec.and_assoc]
    exact BitVec.and_zero
  · split <;> decide
  · split <;> decide

theorem inv_resetWith (p : Platform) : Inv (State.resetWith p) where
  running := rfl
  memory := rfl
  status := BitVec.zero_and
  faults := resetFt_unused p
  configuration := rfl
  addressState := fun _ => rfl
  stopped := fun h => Bool.noConfusion h.1
  moving := fun h => absurd rfl h

/-- Settles O59. -/
theorem invariantAtReset : Obligations.InvariantAtReset := ⟨inv_resetWith _, inv_resetWith⟩

/-- The reset sequence makes the invariant out of canonical memory. -/
theorem inv_restart {s : State} (h : s.mem.wf = true) : Inv s.restart :=
  { inv_resetWith s.platform with memory := h }

theorem inv_halt {s : State} (h : s.mem.wf = true) : Inv s.halt := inv_restart (s := { s with env := s.env.tail }) h

/-! ## The invariant apart from a reset half done -/

/-- All of the invariant but `running`. -/
structure Coherent (s : State) : Prop where
  sound : Sound s
  stopped : ¬ (s.consoleMode = true ∧ s.waiting = true)
  moving : s.moving ≠ none → s.consoleMode = false ∧ s.waiting = false

theorem Coherent.inv {s : State} (h : Coherent s) (hrun : s.resetting = false) : Inv s :=
  { running := hrun, memory := h.sound.memory, status := h.sound.status, faults := h.sound.faults,
    configuration := h.sound.configuration, addressState := h.sound.addressState, stopped := h.stopped,
    moving := h.moving }

/-- Between instructions: neither waiting nor in the midst of a MOV. -/
structure Between (s : State) : Prop where
  sound : Sound s
  waiting : s.waiting = false
  moving : s.moving = none

theorem Between.coherent {s : State} (h : Between s) : Coherent s :=
  ⟨h.sound, fun hstop => Bool.noConfusion (h.waiting.symm.trans hstop.2), fun hmove => absurd h.moving hmove⟩

theorem Between.stays {s t : State} (h : Between s) (ht : Stays s t) : Between t :=
  ⟨ht.sound h.sound, ht.waiting.trans h.waiting, ht.moving.trans h.moving⟩

/-- The end of a step with an interrupt sequence: a RESET in it is carried out. -/
theorem inv_closeReset {r : Result} {t : State} (h : ∀ u, r = .next u → Coherent u) (ht : closeReset r = .next t) :
    Inv t := by
  cases r with
  | next u =>
    have hu := h u rfl
    simp only [closeReset] at ht
    cases ht
    split
    · exact inv_restart hu.sound.memory
    · rename_i hrun
      exact hu.inv (by simpa using hrun)
  | fault f => exact nomatch ht
  | refused f => exact nomatch ht

/-! ## The console -/

section Console

variable {s : State} {r : Run}

theorem Stays.run_lockIf (h : Stays s r.s) (c : Bool) : Stays s (r.lockIf c).s := by
  unfold Run.lockIf
  split
  · exact h.essence rfl
  · exact h

theorem Stays.run_consoleTake (h : Stays s r.s) (addr : Word) : Stays s (r.consoleTake addr).run.s :=
  (h.run_ioRead addr).run_lockIf _

theorem Stays.run_consolePut (h : Stays s r.s) (addr v : Word) : Stays s (r.consolePut addr v).s :=
  (h.run_ioWrite addr v).run_lockIf _

theorem Stays.run_consoleLoad (h : Stays s r.s) (addr : Word) : Stays s (r.consoleLoad addr).run.s :=
  (h.run_read addr).run_lockIf _

theorem Stays.run_consoleStore (h : Stays s r.s) (addr v : Word) : Stays s (r.consoleStore addr v).s :=
  (h.run_write addr v).run_lockIf _

/-- A deposit into FT reaches bits 9, 10, 11 and 13 only (49_console.md R629). -/
theorem depositFt_unused {ft d : Word} (h : ft &&& 0x1A0A = 0) : depositFt ft d &&& 0x1A0A = 0 := by
  unfold depositFt
  refine unusedFt_or ?_ ?_
  · rw [BitVec.and_assoc, BitVec.and_comm (0xFF8B : Word), ← BitVec.and_assoc, h]
    exact BitVec.zero_and
  · rw [BitVec.and_assoc]
    exact BitVec.and_zero

theorem stays_deposit (s : State) (q : ConsoleRegister) (d : Word) : Stays s (s.deposit q d) := by
  cases q with
  | ft => exact .loadFt depositFt_unused
  | general | a1 | a2 | q1 | q2 | do0 | do1 | pir | mk | ta | tb | sw | ic | ir => exact .of_essence rfl

theorem Stays.run_depositRegister (h : Stays s r.s) (q : ConsoleRegister) : Stays s (r.depositRegister q).s := by
  have htake := h.run_consoleTake 0x8401
  unfold Run.depositRegister
  dsimp only
  split
  · exact htake
  · exact htake.run_update (htake.trans (stays_deposit _ q _))

theorem Stays.run_depositStatus (h : Stays s r.s) : Stays s r.depositStatus.s := by
  have htake := h.run_consoleTake 0x8401
  unfold Run.depositStatus
  dsimp only
  split
  · exact htake.keeps (keeps_addressStateFault _)
  · rename_i haccepted
    unfold Run.update
    split
    · exact htake
    · rename_i hruns
      exact htake.trans (.loadSw (eq_false_of_not_and haccepted hruns))

theorem Stays.run_nextAddress (h : Stays s r.s) : Stays s r.nextAddress.s := h.run_update (h.essence rfl)

theorem Stays.run_nextPort (h : Stays s r.s) : Stays s r.nextPort.s := by
  refine h.run_update ?_
  split
  · exact h
  · exact h.essence rfl

theorem Stays.run_showMemory (h : Stays s r.s) : Stays s r.showMemory.s :=
  (h.run_consoleLoad _).run_turn.run_consolePut _ _

theorem Stays.run_depositMemory (h : Stays s r.s) : Stays s r.depositMemory.s :=
  (h.run_consoleTake _).run_turn.run_consoleStore _ _

theorem Stays.run_showPort (h : Stays s r.s) : Stays s r.showPort.s := (h.run_consoleTake _).run_turn.run_consolePut _ _

theorem Stays.run_depositPort (h : Stays s r.s) : Stays s r.depositPort.s :=
  (h.run_consoleTake _).run_turn.run_consolePut _ _

theorem Stays.run_examineMemory (h : Stays s r.s) : Stays s r.examineMemory.s := by
  have htake := h.run_consoleTake 0x8401
  exact (htake.run_update (htake.essence rfl)).run_turn.run_showMemory

/-- What a console command leaves of the modes: only DISABLE starts the wait, and it ends console mode. -/
structure ConsoleStays (s t : State) : Prop where
  sound : Sound s → Sound t
  moving : t.moving = s.moving
  modes : t.waiting = s.waiting ∨ t.consoleMode = false

theorem Stays.console {s t : State} (h : Stays s t) : ConsoleStays s t := ⟨h.sound, h.moving, .inl h.waiting⟩

theorem consoleStays_command (h : Stays s r.s) (c : Word) (held : Bool) {t : State}
    (ht : consoleCommand c held r = .next t) : ConsoleStays s t := by
  unfold consoleCommand at ht
  split at ht
  case h_1 =>
    cases ht
    have hsound : Stays s { r.s with depositLocked := false } := h.essence rfl
    exact ⟨fun hs => ⟨(hsound.sound hs).memory, (hsound.sound hs).status, (hsound.sound hs).faults,
      (hsound.sound hs).configuration, (hsound.sound hs).addressState⟩, h.moving, .inr rfl⟩
  case h_2 =>
    cases ht
    exact (h.essence (u := { r.s with consoleMode := held, depositLocked := false }) rfl).console
  case h_3 =>
    split at ht
    · cases ht; exact (h.run_consolePut _ _).console
    · exact nomatch ht
  case h_4 =>
    split at ht
    · split at ht
      · cases ht; exact (h.run_depositRegister _).console
      · exact nomatch ht
    · exact nomatch ht
  case h_5 =>
    cases ht
    have hshow := h.run_consolePut 0x0400 r.s.ft
    exact (hshow.run_update (hshow.trans (.loadFt fun _ => by decide))).console
  case h_6 => cases ht; exact h.run_depositStatus.console
  case h_7 => cases ht; exact h.run_examineMemory.console
  case h_8 => cases ht; exact h.run_depositMemory.console
  case h_9 => cases ht; exact h.run_nextAddress.run_showMemory.console
  case h_10 => cases ht; exact h.run_nextAddress.run_depositMemory.console
  case h_11 => cases ht; exact h.run_showPort.console
  case h_12 => cases ht; exact h.run_depositPort.console
  case h_13 => cases ht; exact h.run_nextPort.run_showPort.console
  case h_14 => cases ht; exact h.run_nextPort.run_depositPort.console
  case h_15 => cases ht; exact h.console

theorem consoleStays_console {t : State} {held : Bool} (ht : s.console held = .next t) : ConsoleStays s t := by
  have htake := (Stays.run_consoleTake (r := s.start) (Stays.refl s) 0x8400).run_turn
  unfold State.console at ht
  dsimp only at ht
  split at ht
  · cases ht; exact htake.console
  · exact consoleStays_command htake _ held ht

end Console

/-! ## What the outside does -/

section Arrive

variable (s : State) (e : Env)

theorem stays_arrive (clock : Bool) : Stays s (s.arrive e clock) := by
  have hclock : Stays s (if clock then ({ s with env := s.env.tail } : State).tick e.timerClk else { s with env := s.env.tail }) := by
    split
    · exact .of_essence rfl
    · exact .of_essence rfl
  have hwrites := hclock.keeps (((Keeps.refl _).externalFaults (outsideFaults_unused e.faults)).masters e.writes)
  exact hwrites.essence rfl

/-- The outside changes neither the console mode nor a RESET under way. -/
theorem arrive_modes (clock : Bool) :
    (s.arrive e clock).consoleMode = s.consoleMode ∧ (s.arrive e clock).resetting = s.resetting := by
  unfold State.arrive
  dsimp only
  generalize hclock : (if clock = true then ({ s with env := s.env.tail } : State).tick e.timerClk
    else { s with env := s.env.tail }) = u
  obtain ⟨_, _, _, hfaults⟩ := State.externalFaults_frame u (outsideFaults e.faults)
  obtain ⟨_, _, _, _, hwrites⟩ := State.masters_frame (u.externalFaults (outsideFaults e.faults)) e.writes
  have hu : u.consoleMode = s.consoleMode ∧ u.resetting = s.resetting := by
    rw [← hclock]
    split
    · exact ⟨rfl, rfl⟩
    · exact ⟨rfl, rfl⟩
  rw [hwrites, hfaults]
  exact hu

theorem stays_enableStep : Stays s s.enableStep := by
  unfold State.enableStep
  split <;> exact .of_essence rfl

end Arrive

/-! ## The boundary -/

section Boundary

variable {s t : State} (e : Env)

theorem between_recognise (h : Between s) (conreq : Bool) (ht : s.recognise conreq = .next t) : Between t := by
  unfold State.recognise at ht
  split at ht
  · exact h.stays (staysNext_interrupt s _ 0 t ht)
  · cases ht
    split
    · exact h.stays (.of_essence rfl)
    · exact h

theorem between_boundary (h : Between s) (ht : s.boundary e = .next t) : Between t := by
  have harrived := (h.stays (stays_enableStep s)).stays (stays_arrive _ e true)
  unfold State.boundary at ht
  dsimp only at ht
  split at ht
  · cases ht
    exact harrived.stays (.of_essence rfl)
  all_goals
    have hidle : Between { s.enableStep.arrive e true with spi := .idle } := harrived.stays (.of_essence rfl)
    split at ht
    · cases ht
      exact hidle
    · exact between_recognise hidle _ ht

/-- After an instruction the console's registers hold anything, and no MOV is in progress. -/
theorem between_scramble (hsound : Sound s) (hwaiting : s.waiting = false) : Between { s.scramble with moving := none } :=
  ⟨⟨hsound.memory, hsound.status, hsound.faults, hsound.configuration, hsound.addressState⟩, hwaiting, rfl⟩

/-- What follows an instruction: for a MOV between two words, console mode is off. -/
theorem coherent_follow {ending : Ending} (hsound : Sound s) (hwaiting : s.waiting = false)
    (hmov : ∀ ra rb, ending = .between ra rb → s.consoleMode = false) (ht : s.follow e ending = .next t) : Coherent t := by
  have hscrambled := between_scramble hsound hwaiting
  cases ending with
  | boundary => exact (between_boundary e hscrambled ht).coherent
  | taken =>
    cases ht
    exact (hscrambled.stays (stays_arrive _ e true)).coherent
  | between ra rb =>
    cases ht
    have harrive := stays_arrive { s.scramble with moving := some (ra, rb) } e true
    have hmode : (State.arrive { s.scramble with moving := some (ra, rb) } e true).consoleMode = false :=
      (arrive_modes _ e true).1.trans (hmov ra rb rfl)
    have hwait : (State.arrive { s.scramble with moving := some (ra, rb) } e true).waiting = false :=
      harrive.waiting.trans hwaiting
    have hsound' : Sound { s.scramble with moving := some (ra, rb) } :=
      ⟨hsound.memory, hsound.status, hsound.faults, hsound.configuration, hsound.addressState⟩
    exact ⟨harrive.sound hsound', fun hstop => Bool.noConfusion (hmode.symm.trans hstop.1), fun _ => ⟨hmode, hwait⟩⟩

theorem inv_finish {ending : Ending} (hsound : Sound s) (hwaiting : s.waiting = false)
    (hmov : ∀ ra rb, ending = .between ra rb → s.consoleMode = false) (ht : s.finish e ending = .next t) : Inv t := by
  unfold State.finish at ht
  split at ht
  · cases ht
    exact inv_halt hsound.memory
  · exact inv_closeReset (fun u hu => coherent_follow e hsound hwaiting hmov hu) ht

end Boundary

/-! ## Running an instruction -/

section Run

variable {s t : State} (e : Env)

/-- A MOV with more words to move has taken no interrupt. -/
theorem keeps_movePlan_more {ra rb : Reg} (h : s.movePlan ra rb = .more t) : Keeps s t := by
  unfold State.movePlan at h
  split at h
  · exact nomatch h
  · split at h
    case h_4 u hseq =>
      simp only [State.moveInterrupt] at hseq
      split at hseq
      · obtain ⟨n, _, hseq⟩ := Option.map_eq_some_iff.1 hseq
        exact keeps_moveWord ra rb (keeps_of_abandoned hseq) (by rw [h]; rfl)
      · exact nomatch hseq
    case h_5 => exact keeps_moveWord ra rb (Keeps.refl s) (by rw [h]; rfl)
    all_goals exact nomatch h

theorem ending_between {i : Instr} {ra rb : Reg} (h : s.ending i = .between ra rb) :
    i = .mov ra rb ∧ ∃ u, s.movePlan ra rb = .more u := by
  unfold State.ending at h
  split at h
  · split at h
    case h_2 u hplan =>
      cases h
      exact ⟨rfl, u, hplan⟩
    all_goals exact nomatch h
  · exact nomatch h

theorem inv_runInstr {i : Instr} (hsound : Sound s) (hmode : s.consoleMode = false) (hwaiting : s.waiting = false)
    (ht : s.runInstr e i = .next t) : Inv t := by
  have hexec := staysNext_exec s i
  unfold State.runInstr at ht
  split at ht
  · rename_i u hu
    have hstays := hexec u hu
    refine inv_finish e (hstays.sound hsound) (hstays.waiting.trans hwaiting) (fun ra rb hend => ?_) ht
    obtain ⟨rfl, v, hplan⟩ := ending_between hend
    have harm : exec (.mov ra rb) s = (s.movePlan ra rb).result := rfl
    rw [harm, hplan] at hu
    cases hu
    exact (congrArg Held.consoleMode (keeps_movePlan_more hplan).held).trans hmode
  · exact nomatch ht
  · exact nomatch ht

/-! ## Fetch -/

/-- What a fetch has left comes from `s` by ordinary operations, and a faulted one has drawn bits of a cycle. -/
def FetchKeeps (s : State) : Fetched → Prop
  | .word _ _ t => Keeps s t
  | .faulted bits t => Keeps s t ∧ bits &&& 0x1A0A = 0
  | .stopped t => Keeps s t

theorem fetchKeeps_turn {k : State → Fetched} (h : Keeps s t) (hk : ∀ u, Keeps s u → FetchKeeps s (k u)) :
    FetchKeeps s (t.fetchTurn k) := by
  unfold State.fetchTurn
  split
  · exact h.turn
  · exact hk _ h.turn

theorem fetchCycle_error {addr bits : Word} (h : s.fetchCycle addr = .error bits) : bits &&& 0x1A0A = 0 := by
  simp only [State.fetchCycle] at h
  split at h
  · exact nomatch h
  · cases h
    exact bits_unused _

theorem fetchKeeps_third (w0 w1 : Word) (h : Keeps s t) : FetchKeeps s (State.fetchThird w0 w1 t) := by
  unfold State.fetchThird
  split
  · rename_i hcycle
    exact ⟨h, fetchCycle_error hcycle⟩
  · exact fetchKeeps_turn h fun _ hu => hu

theorem fetchKeeps_second (w0 : Word) (h : Keeps s t) : FetchKeeps s (State.fetchSecond w0 t) := by
  unfold State.fetchSecond
  split
  · rename_i hcycle
    exact ⟨h, fetchCycle_error hcycle⟩
  · split
    · exact fetchKeeps_turn h fun _ hu => fetchKeeps_third w0 _ hu
    · exact fetchKeeps_turn h fun _ hu => hu

theorem fetchKeeps_fetch (s : State) : FetchKeeps s s.fetch := by
  have h := Keeps.refl s
  unfold State.fetch
  split
  · rename_i hcycle
    exact ⟨h, fetchCycle_error hcycle⟩
  · split
    · exact fetchKeeps_turn h fun _ hu => fetchKeeps_second _ hu
    · exact fetchKeeps_turn h fun _ hu => hu

theorem inv_fetchFault {bits : Word} (hbetween : Between s) (hbits : bits &&& 0x1A0A = 0)
    (ht : s.fetchFault bits e = .next t) : Inv t := by
  unfold State.fetchFault at ht
  split at ht
  · have hraised := hbetween.stays (.of_keeps ((Keeps.refl s).raise hbits .unrecoverable))
    have harrived := hraised.stays (stays_arrive _ e true)
    exact inv_closeReset (fun u hu => (harrived.stays (staysNext_interrupt _ 1 0 u hu)).coherent) ht
  · exact nomatch ht

theorem inv_fetchRun (hbetween : Between s) (hmode : s.consoleMode = false) (ht : s.fetchRun e = .next t) : Inv t := by
  have hfetch := fetchKeeps_fetch s
  unfold State.fetchRun at ht
  cases hcase : s.fetch with
  | stopped u =>
    rw [hcase] at ht hfetch
    cases ht
    exact inv_halt (Keeps.memory hfetch hbetween.sound.memory)
  | faulted bits u =>
    rw [hcase] at ht hfetch
    obtain ⟨hkeeps, hbits⟩ := hfetch
    exact inv_fetchFault e (hbetween.stays (.of_keeps hkeeps)) hbits ht
  | word d w u =>
    rw [hcase] at ht hfetch
    have hkeeps : Keeps s u := hfetch
    have hu := hbetween.stays (.of_keeps hkeeps)
    have hmode' : u.consoleMode = false := (congrArg Held.consoleMode hkeeps.held).trans hmode
    cases d with
    | instr i n => exact inv_runInstr e hu.sound hmode' hu.waiting ht
    | illegal =>
      have hpast := hu.stays (.of_keeps (keeps_illegalInstruction u 1))
      exact inv_finish (ending := .boundary) e hpast.sound hpast.waiting (fun _ _ hend => nomatch hend) ht
    | reserved => exact nomatch ht
    | more => exact nomatch ht

end Run

/-! ## The wait and the console -/

section Stopped

variable {s t : State} (e : Env)

theorem inv_wait (h : Inv s) (hmode : s.consoleMode = false) (hwaiting : s.waiting = true) (ht : s.wait e = .next t) :
    Inv t := by
  have harrive := stays_arrive s e true
  obtain ⟨hmodeA, hresetA⟩ := arrive_modes s e true
  have hmoving : (s.arrive e true).moving = none := by
    rw [harrive.moving]
    by_contra hmov
    exact Bool.noConfusion (hwaiting.symm.trans (h.moving hmov).2)
  have hsound := harrive.sound (sound_of_inv h)
  have hbetween : Between { s.arrive e true with waiting := false } :=
    ⟨⟨hsound.memory, hsound.status, hsound.faults, hsound.configuration, hsound.addressState⟩, rfl, hmoving⟩
  unfold State.wait at ht
  dsimp only at ht
  split at ht
  · exact inv_closeReset (fun u hu => (hbetween.stays (staysNext_interrupt _ _ 0 u hu)).coherent) ht
  · cases ht
    split
    · exact (hbetween.stays (t := { s.arrive e true with waiting := false, consoleMode := true, depositLocked := false })
        (.of_essence rfl)).coherent.inv (hresetA.trans h.running)
    · exact Coherent.inv ⟨hsound, fun hstop => Bool.noConfusion ((hmodeA.trans hmode).symm.trans hstop.1),
        fun hmov => absurd hmoving hmov⟩ (hresetA.trans h.running)

/-- In console mode no MOV is in progress and the wait is off. -/
theorem console_modes (h : Inv s) (hmode : s.consoleMode = true) : s.moving = none ∧ s.waiting = false := by
  constructor
  · by_contra hmov
    exact Bool.noConfusion (hmode.symm.trans (h.moving hmov).1)
  · by_contra hwait
    exact h.stopped ⟨hmode, by simpa using hwait⟩

theorem inv_arriveInConsole {r : Result} (h : Inv s) (hmode : s.consoleMode = true)
    (hr : ∀ u, r = .next u → ConsoleStays s u) (ht : arriveInConsole r e = .next t) : Inv t := by
  obtain ⟨hmoving, hwaiting⟩ := console_modes h hmode
  cases r with
  | next u =>
    have hu := hr u rfl
    simp only [arriveInConsole] at ht
    cases ht
    split
    · exact inv_halt (hu.sound (sound_of_inv h)).memory
    · rename_i hrun
      have harrive := stays_arrive u e false
      obtain ⟨hmodeA, hresetA⟩ := arrive_modes u e false
      refine Coherent.inv ⟨harrive.sound (hu.sound (sound_of_inv h)), ?_, ?_⟩ (hresetA.trans (by simpa using hrun))
      · rintro ⟨hon, hwait⟩
        obtain hsame | hoff := hu.modes
        · exact Bool.noConfusion (((harrive.waiting.trans hsame).trans hwaiting).symm.trans hwait)
        · exact Bool.noConfusion ((hmodeA.trans hoff).symm.trans hon)
      · exact fun hmov => absurd ((harrive.moving.trans hu.moving).trans hmoving) hmov
  | fault f => exact nomatch ht
  | refused f => exact nomatch ht

end Stopped

/-- Settles O58, one case a kind of step: RESET, the console, the wait, a MOV in progress, an instruction fetched. -/
theorem invariantKept : Obligations.InvariantKept := by
  intro s t h ht
  unfold step at ht
  dsimp only at ht
  split at ht
  · cases ht
    exact inv_halt h.memory
  · split at ht
    · rename_i hmode
      split at ht
      · exact inv_arriveInConsole _ h hmode (fun _ hu => consoleStays_console hu) ht
      · cases ht
        exact inv_arriveInConsole (r := .next s) s.outside h hmode (fun u hu => by cases hu; exact (Stays.refl s).console)
          (by simp only [arriveInConsole, h.running]; rfl)
    · rename_i hmode
      have hoff : s.consoleMode = false := by simpa using hmode
      split at ht
      · rename_i hwaiting
        exact inv_wait _ h hoff hwaiting ht
      · rename_i hwaiting
        have hrunning : s.waiting = false := by simpa using hwaiting
        split at ht
        · exact inv_runInstr _ (sound_of_inv h) hoff hrunning ht
        · rename_i hmoving
          exact inv_fetchRun _ ⟨sound_of_inv h, hrunning, hmoving⟩ hoff ht

end Sys2Proof.Proofs
end

