-- ==== Sys2Proof/Proofs/MemoryWords.lean ====
section
/-! PROOF. The instructions that change one word of memory under a locked bus (40_integer.md R218, R219, 42_bit.md R321 to R330,
44_load_store.md R411 to R417), where its cycles draw no fault. -/

namespace Sys2Proof.Proofs

open Sys2Proof.Machine

/-! ## An operand in memory -/

/-- The operand stands in memory. -/
def inMemory : Source → Bool
  | .register _ | .literal _ => false
  | .direct _ _ | .indirect _ _ | .base _ _ | .baseIndexed _ _ => true

section Operand

variable {s : State} {o : Source}

theorem located_of_ready {n : Nat} (h : o.ready s n = true) : o.located s = true := by
  cases o with
  | indirect rx a =>
    simp only [Source.ready, Bool.and_eq_true] at h
    simp only [Source.located, Bool.and_eq_true]
    exact ⟨h.1.1, h.2⟩
  | register _ | literal _ | direct _ _ | base _ _ | baseIndexed _ _ => rfl

theorem readableSpan_of_ready {n : Nat} (hmem : inMemory o = true) (h : o.ready s n = true) :
    s.readableSpan (o.address s) n = true := by
  cases o with
  | register _ | literal _ => exact Bool.noConfusion hmem
  | indirect rx a =>
    simp only [Source.ready, Bool.and_eq_true] at h
    exact h.1.2
  | direct _ _ | base _ _ | baseIndexed _ _ => exact h

theorem word_inMemory (hmem : inMemory o = true) : o.word s = s.loaded (o.address s) := by
  cases o with
  | register _ | literal _ => exact Bool.noConfusion hmem
  | indirect _ _ | direct _ _ | base _ _ | baseIndexed _ _ => rfl

end Operand

/-! ## One word changed -/

section Change

variable {s : State} {o : Source}

/-- A word that is read, changed and written back without a fault. -/
theorem modify_ready (hmem : inMemory o = true) (hready : o.ready s 1 = true) (hw : s.writable (o.address s) = true)
    (f : Word → Word) :
    (operandAddress s o).run.modify (operandAddress s o).val f =
      (s.setMem (s.mem.writeWord (s.place (o.address s)) (f (o.word s)))).start := by
  have hread := State.readableSpan_one (readableSpan_of_ready hmem hready)
  rw [operandAddress_located (located_of_ready hready), State.given_run, State.given_val,
    State.modify_clean s f hread hw, word_inMemory hmem]

/-- The state with one word of memory replaced, as the statements describe it. -/
theorem exists_stored {r : Result} {w : Word} {p : Phys} (hwf : s.mem.wf = true) {g : Memory → State}
    (hg : ∀ m, (g m).mem = m) (hr : r = .next (g (s.mem.writeWord p w))) :
    ∃ t, r = .next t ∧ t = g t.mem ∧ t.mem.wf = true ∧ Stored s.mem t.mem [(p, w)] := by
  refine ⟨_, hr, ?_, ?_, ?_⟩
  · rw [hg]
  · rw [hg]; exact Memory.wf_writeWord p w hwf
  · rw [hg]; exact Memory.stored_writeWord p w hwf

end Change

/-! ## Counting in memory -/

/-- INCM and DECM on a word that can be read and written. -/
theorem updateMemory_clean {s : State} {da : Word} (f : Word → Sum 16) (hr : s.readable da = true)
    (hw : s.writable da = true) :
    updateMemory f da s = .next { s.ends (cpzn (f (s.loaded da)).c (f (s.loaded da)).r)
      (pendingIf (f (s.loaded da)).v 4) 2 with mem := s.mem.writeWord (s.place da) (f (s.loaded da)).r } := by
  unfold updateMemory
  dsimp only
  rw [State.read_clean s hr, State.given_run, State.given_val, State.write_clean s _ hw, State.start_pendIf]
  rfl

theorem toInt_ofNat_count {n : Nat} (h : isCount n = true) : (BitVec.ofNat 16 n).toInt = n := by
  simp only [isCount, Bool.and_eq_true, decide_eq_true_eq] at h
  rw [BitVec.toInt_eq_toNat_cond, BitVec.toNat_ofNat]
  omega

theorem toNat_ofNat_count {n : Nat} (h : isCount n = true) : (BitVec.ofNat 16 n).toNat = n := by
  simp only [isCount, Bool.and_eq_true, decide_eq_true_eq] at h
  rw [BitVec.toNat_ofNat]
  omega

/-- Settles O4: the shared update with the sum and with the difference. -/
theorem countInMemory : Obligations.CountInMemory := by
  intro n rx a s hn hwf hr hw
  have hint := toInt_ofNat_count hn
  have hnat := toNat_ofNat_count hn
  constructor
  · have hexec := updateMemory_clean (s := s) (da := s.indexed a rx) (fun m => addC m (BitVec.ofNat 16 n)) hr hw
    dsimp only at hexec
    rw [cpzn_eq, addC_v, addC_r, hint] at hexec
    have hcarry : (addC (s.loaded (s.indexed a rx)) (BitVec.ofNat 16 n)).c =
        decide (2 ^ 16 ≤ (s.loaded (s.indexed a rx)).toNat + n) := by simp only [addC, hnat]
    rw [hcarry] at hexec
    exact exists_stored (g := fun m => { s.ends _ _ 2 with mem := m }) hwf (fun _ => rfl) hexec
  · have hexec := updateMemory_clean (s := s) (da := s.indexed a rx) (fun m => subC m (BitVec.ofNat 16 n)) hr hw
    dsimp only at hexec
    rw [cpzn_eq, subC_v, subC_r, subC_c, hint, hnat] at hexec
    exact exists_stored (g := fun m => { s.ends _ _ 2 with mem := m }) hwf (fun _ => rfl) hexec

/-! ## Bits in memory -/

/-- A locked change of one word, IC past it. -/
theorem exec_of_modify {i : Instr} {s : State} {o : Source} {f : Word → Word}
    (harm : exec i s = ((operandAddress s o).run.modify (operandAddress s o).val f).next 2) (hmem : inMemory o = true)
    (hwf : s.mem.wf = true) (hready : o.ready s 1 = true) (hw : s.writable (o.address s) = true) :
    ∃ t, exec i s = .next t ∧ t = { s.past 2 with mem := t.mem } ∧ t.mem.wf = true ∧
      Stored s.mem t.mem [(s.place (o.address s), f (o.word s))] := by
  rw [modify_ready hmem hready hw f] at harm
  exact exists_stored (g := fun m => { s.past 2 with mem := m }) hwf (fun _ => rfl) harm

/-- AS and AK do not stand in CS, so a cycle does not see it (20_memory.md R84). -/
theorem setCs_ownCycle (s : State) (cs : BitVec 4) (kind : CycleKind) (addr : Word) :
    (s.setCs cs).ownCycle kind addr = s.ownCycle kind addr := by
  have has : asField (withCs s.sw cs) = asField s.sw := (status_of_low (status_withCs s.sw cs)).2
  have hak : akField (withCs s.sw cs) = akField s.sw := by
    apply BitVec.eq_of_getLsbD_eq
    intro i hi
    have hlow : 4 + i < 12 := by omega
    simp only [akField, withCs, BitVec.getLsbD_extractLsb', BitVec.getLsbD_append, hlow, decide_true, Bool.true_and,
      Nat.zero_add, if_true]
  have hcycle : (s.setCs cs).ownCycle kind addr =
      s.cycle kind (asField (withCs s.sw cs)) (some (akField (withCs s.sw cs))) addr := rfl
  rw [hcycle, has, hak]
  rfl

theorem setCs_writable (s : State) (cs : BitVec 4) (addr : Word) : (s.setCs cs).writable addr = s.writable addr := by
  simp only [State.writable, setCs_ownCycle]
  rfl

theorem setCs_place (s : State) (cs : BitVec 4) (addr : Word) : (s.setCs cs).place addr = s.place addr := by
  simp only [State.place, setCs_ownCycle]

/-- TSB: CS from the bit as it was, then the bit set. -/
theorem exec_tsb_ready {n rx : Fin 16} {a : Word} {s : State} (hready : Source.ready s 1 (.direct rx a) = true)
    (hw : s.writable (s.indexed a rx) = true) :
    exec (.tsb n rx a) s = .next { s.past 2 with
      sw := testBits n.val (Source.word s (.direct rx a)) ++ s.sw.extractLsb' 0 12
      mem := s.mem.writeWord (s.place (s.indexed a rx)) (setBit n.val (Source.word s (.direct rx a))) } := by
  have harm : exec (.tsb n rx a) s = (((s.direct1 rx a).run.setCs (testBits n.val (s.direct1 rx a).val)).write
    (s.indexed a rx) (setBit n.val (s.direct1 rx a).val)).next 2 := rfl
  rw [harm, State.direct1_ready hready, State.given_run, State.given_val, State.start_setCs,
    State.write_clean _ _ (by rw [setCs_writable]; exact hw), setCs_place, State.start_next]
  rfl

/-- Settles O13. -/
theorem bitsInMemory : Obligations.BitsInMemory := by
  intro n rx a s i v tests o hmem hwf hready hw
  simp only [List.mem_cons, Prod.mk.injEq, List.not_mem_nil, or_false] at hmem
  obtain ⟨rfl, rfl, rfl, rfl⟩ | ⟨rfl, rfl, rfl, rfl⟩ | ⟨rfl, rfl, rfl, rfl⟩ | ⟨rfl, rfl, rfl, rfl⟩ | ⟨rfl, rfl, rfl, rfl⟩ := hmem
  case inr.inr.inr.inr =>
    have hexec := exec_tsb_ready (n := n) hready hw
    rw [testBits_eq] at hexec
    obtain ⟨t, ht⟩ := exists_stored (g := fun m => { s.past 2 with mem := m, sw := _ }) hwf (fun _ => rfl) hexec
    exact ⟨_, t, fun j hj => bitOf_setBit _ n.isLt hj, ht⟩
  case inl =>
    obtain ⟨t, ht⟩ := exec_of_modify (i := .sb n rx a) (f := setBit n.val) rfl rfl hwf hready hw
    exact ⟨_, t, fun j hj => bitOf_setBit _ n.isLt hj, ht⟩
  case inr.inl =>
    obtain ⟨t, ht⟩ := exec_of_modify (i := .sbi n rx a) (f := setBit n.val) rfl rfl hwf hready hw
    exact ⟨_, t, fun j hj => bitOf_setBit _ n.isLt hj, ht⟩
  case inr.inr.inl =>
    obtain ⟨t, ht⟩ := exec_of_modify (i := .rb n rx a) (f := resetBit n.val) rfl rfl hwf hready hw
    exact ⟨_, t, fun j hj => bitOf_resetBit _ n.isLt hj, ht⟩
  case inr.inr.inr.inl =>
    obtain ⟨t, ht⟩ := exec_of_modify (i := .rbi n rx a) (f := resetBit n.val) rfl rfl hwf hready hw
    exact ⟨_, t, fun j hj => bitOf_resetBit _ n.isLt hj, ht⟩

/-! ## Parts of a word -/

/-- SRM: the bits that the mask selects (R411). -/
theorem bitOf_throughMask (v m q : Word) {k : Nat} (hk : k < 16) :
    bitOf (throughMask v m q) k = if bitOf m k then bitOf v k else bitOf q k := by
  have hlt : 15 - k < 16 := by omega
  simp only [bitOf, throughMask, BitVec.getLsbD_or, BitVec.getLsbD_and, BitVec.getLsbD_not, hlt, decide_true, Bool.true_and]
  by_cases hm : m.getLsbD (15 - k) = true
  · simp [hm]
  · simp [hm]

/-- A new upper byte, bits 0 to 7: bits 8 to 15 of the register. -/
theorem bitOf_withUpper (v q : Word) {k : Nat} (hk : k < 16) :
    bitOf (withUpper (lowerByte v) q) k = if decide (k < 8) then bitOf v (k + 8) else bitOf q k := by
  by_cases h8 : k < 8
  · have hhigh : ¬ 15 - k < 8 := by omega
    have hsub : 15 - k - 8 = 15 - (k + 8) := by omega
    have hlt : 15 - (k + 8) < 8 := by omega
    simp only [bitOf, withUpper, lowerByte, BitVec.getLsbD_append, hhigh, decide_false, BitVec.getLsbD_extractLsb', hsub, hlt,
      h8, decide_true, Bool.true_and, Nat.zero_add, if_true]
    rfl
  · have hlow : 15 - k < 8 := by omega
    simp only [bitOf, withUpper, lowerByte, BitVec.getLsbD_append, hlow, decide_true, BitVec.getLsbD_extractLsb', h8,
      decide_false, Bool.true_and, Nat.zero_add, if_true]
    rfl

/-- A new lower byte, bits 8 to 15. -/
theorem bitOf_withLower (v q : Word) {k : Nat} (hk : k < 16) :
    bitOf (withLower (lowerByte v) q) k = if decide (8 ≤ k) then bitOf v k else bitOf q k := by
  by_cases h8 : 8 ≤ k
  · have hlow : 15 - k < 8 := by omega
    simp only [bitOf, withLower, lowerByte, upperByte, BitVec.getLsbD_append, hlow, decide_true, BitVec.getLsbD_extractLsb',
      h8, Bool.true_and, Nat.zero_add, if_true]
  · have hhigh : ¬ 15 - k < 8 := by omega
    have hsub : 15 - k - 8 < 8 := by omega
    have hadd : 8 + (15 - k - 8) = 15 - k := by omega
    simp only [bitOf, withLower, lowerByte, upperByte, BitVec.getLsbD_append, hhigh, decide_false, BitVec.getLsbD_extractLsb',
      hsub, hadd, h8, decide_true, Bool.true_and]
    rfl

/-- Settles O19. -/
theorem storePart : Obligations.StorePart := by
  intro ra rx a s i o new taken hmem hwf hready hw
  simp only [List.mem_cons, Prod.mk.injEq, List.not_mem_nil, or_false] at hmem
  obtain ⟨rfl, rfl, rfl, rfl⟩ | ⟨rfl, rfl, rfl, rfl⟩ | ⟨rfl, rfl, rfl, rfl⟩ | ⟨rfl, rfl, rfl, rfl⟩ | ⟨rfl, rfl, rfl, rfl⟩ := hmem
  case inl =>
    obtain ⟨t, ht⟩ := exec_of_modify (i := .srm ra rx a) (f := throughMask (s.reg ra) (s.reg (ra + 1))) rfl rfl hwf hready hw
    exact ⟨_, t, fun _ hk => bitOf_throughMask _ _ _ hk, ht⟩
  case inr.inl =>
    obtain ⟨t, ht⟩ := exec_of_modify (i := .stub ra rx a) (f := withUpper (lowerByte (s.reg ra))) rfl rfl hwf hready hw
    exact ⟨_, t, fun _ hk => bitOf_withUpper _ _ hk, ht⟩
  case inr.inr.inl =>
    obtain ⟨t, ht⟩ := exec_of_modify (i := .subi ra rx a) (f := withUpper (lowerByte (s.reg ra))) rfl rfl hwf hready hw
    exact ⟨_, t, fun _ hk => bitOf_withUpper _ _ hk, ht⟩
  case inr.inr.inr.inl =>
    obtain ⟨t, ht⟩ := exec_of_modify (i := .stlb ra rx a) (f := withLower (lowerByte (s.reg ra))) rfl rfl hwf hready hw
    exact ⟨_, t, fun _ hk => bitOf_withLower _ _ hk, ht⟩
  case inr.inr.inr.inr =>
    obtain ⟨t, ht⟩ := exec_of_modify (i := .slbi ra rx a) (f := withLower (lowerByte (s.reg ra))) rfl rfl hwf hready hw
    exact ⟨_, t, fun _ hk => bitOf_withLower _ _ hk, ht⟩

end Sys2Proof.Proofs
end

