-- ==== Sys2Proof/Proofs/Cycles.lean ====
section
/-! PROOF. What memory cycles leave, faults and all (20_memory.md R96, R97, 60_exceptions.md R664): one read and one write, then
sequences of them on a machine that no other master disturbs. -/

namespace Sys2Proof.Proofs

open Sys2Proof.Machine

/-! ## One write -/

/-- FT bits 0, 2 and 8 as single bits (R96). -/
theorem bits_eq_cycleFaults (c : Cycle) : c.bits = Shape.cycleFaults c := by
  have h0 : oneBit 0 = 0x8000 := by decide
  have h2 : oneBit 2 = 0x2000 := by decide
  have h8 : oneBit 8 = 0x0080 := by decide
  simp only [Cycle.bits, Shape.cycleFaults, pendingIf, h0, h2, h8]

theorem cycleFaults_of_clean {c : Cycle} (h : c.clean = true) : Shape.cycleFaults c = 0 := by
  simp only [Cycle.clean, Bool.and_eq_true, Bool.not_eq_true'] at h
  obtain ⟨⟨hprotect, hparity⟩, habsent⟩ := h
  simp [Shape.cycleFaults, pendingIf, hprotect, hparity, habsent]

/-- The cycle aborts the instruction that makes it (R664). -/
def cycleAborts (c : Cycle) : Bool := c.protect || c.parity

theorem cycleAborts_of_clean {c : Cycle} (h : c.clean = true) : cycleAborts c = false := by
  simp only [Cycle.clean, Bool.and_eq_true, Bool.not_eq_true'] at h
  simp [cycleAborts, h.1.1, h.1.2]

/-- The pulse of a cycle that aborts. -/
def abortPulse (c : Cycle) : List BusEvent := if cycleAborts c then [.majEr] else []

/-- What the faults of a cycle change. -/
def faulted (s : State) (c : Cycle) : State :=
  { s with ft := s.ft ||| Shape.cycleFaults c, pir := s.pir ||| pendingIf (!c.clean) 1, trace := abortPulse c ++ s.trace }

theorem raise_writeFaults (s : State) (c : Cycle) :
    (if c.clean then s else s.raise c.bits (if c.protect || c.parity then .major else .unclassified)) = faulted s c := by
  cases hclean : c.clean
  case true =>
    simp [faulted, hclean, cycleFaults_of_clean hclean, abortPulse, cycleAborts_of_clean hclean, pendingIf]
  case false =>
    have hpir : oneBit 1 = 0x4000 := by decide
    have hpulse : (if c.protect || c.parity then Severity.major else .unclassified).pulse = abortPulse c := by
      unfold abortPulse cycleAborts
      split <;> rfl
    simp only [State.raise, hpulse, bits_eq_cycleFaults, faulted, hclean, pendingIf, hpir, Bool.not_false, if_true]
    rfl

/-- The word that a write stores: an open one once the instruction is aborted. -/
def storedWord (s : State) (isOpen : Bool) (v : Word) : Word := if isOpen then Config.freeWord s.free else v

/-- What a write cycle leaves: its faults, and memory where it lands. -/
def afterWrite (s : State) (c : Cycle) (isOpen : Bool) (v : Word) : State :=
  { faulted s c with
    free := s.free + (if isOpen && s.lands c then 1 else 0)
    mem := if s.lands c then s.mem.writeWord c.phys (storedWord s isOpen v) else s.mem }

theorem run_write_eq {r : Run} (h : r.halted = false) (addr v : Word) :
    r.write addr v =
      { s := afterWrite r.s (r.s.ownCycle .write addr) (r.aborted || cycleAborts (r.s.ownCycle .write addr)) v
        aborted := r.aborted || cycleAborts (r.s.ownCycle .write addr)
        halted := false } := by
  unfold Run.write
  dsimp only
  rw [raise_writeFaults, Bool.or_assoc]
  rw [h]
  simp only [Bool.false_eq_true, if_false]
  generalize r.s.ownCycle .write addr = c
  cases hlands : r.s.lands c
  case false => simp [afterWrite, hlands, cycleAborts]; rfl
  case true =>
    cases hopen : r.aborted || (c.protect || c.parity)
    case false => simp [afterWrite, hlands, cycleAborts, hopen, storedWord]; rfl
    case true => simp [afterWrite, hlands, cycleAborts, hopen, storedWord]; rfl

/-! ## Places -/

/-- Translation leaves the offset in the page (48_mmu_bpu.md R584). -/
theorem physical_offset (s : State) (kind : CycleKind) (as : BitVec 4) (addr : Word) :
    (s.physical kind as addr).extractLsb' 0 12 = addr.extractLsb' 0 12 := by
  apply BitVec.eq_of_getLsbD_eq
  intro i hi
  have hi16 : i < 16 := by omega
  unfold State.physical
  split
  · split
    · simp only [BitVec.getLsbD_extractLsb', hi, decide_true, Bool.true_and, Nat.zero_add, BitVec.getLsbD_append, if_true]
    · simp only [BitVec.getLsbD_extractLsb', hi, decide_true, Bool.true_and, Nat.zero_add, BitVec.getLsbD_append, if_true]
  · split
    · simp only [BitVec.getLsbD_extractLsb', hi, hi16, decide_true, Bool.true_and, Nat.zero_add, BitVec.getLsbD_append,
        if_true]
    · simp only [BitVec.getLsbD_extractLsb', hi, hi16, decide_true, Bool.true_and, Nat.zero_add, BitVec.getLsbD_append,
        if_true]

/-- Words less than a page apart go to different places. -/
theorem physical_ne (s : State) (kind : CycleKind) (as : BitVec 4) (addr : Word) {j k : Nat} (hj : j < 4096) (hk : k < 4096)
    (hne : j ≠ k) : s.physical kind as (addr + BitVec.ofNat 16 j) ≠ s.physical kind as (addr + BitVec.ofNat 16 k) := by
  intro heq
  have hoffset := congrArg (fun p : Phys => (p.extractLsb' 0 12).toNat) heq
  simp only [physical_offset, BitVec.extractLsb'_toNat, BitVec.toNat_add, BitVec.toNat_ofNat, Nat.shiftRight_zero] at hoffset
  omega

theorem place_ne (s : State) (addr : Word) {j k : Nat} (hj : j < 4096) (hk : k < 4096) (hne : j ≠ k) :
    s.place (addr + BitVec.ofNat 16 j) ≠ s.place (addr + BitVec.ofNat 16 k) :=
  physical_ne s .write _ addr hj hk hne

/-! ## Writes one after another -/

/-- The words written from `addr` on, with no turn of the others between them. -/
def writeEach : List Word → Word → Run → Run
  | [], _, r => r
  | v :: vs, addr, r => writeEach vs (addr + 1) (r.write addr v)

/-- `addr + 1 + k` is `addr + (k + 1)`. -/
theorem add_one_add_ofNat (addr : Word) (k : Nat) : addr + 1 + BitVec.ofNat 16 k = addr + BitVec.ofNat 16 (k + 1) := by
  rw [BitVec.add_assoc, Nat.add_comm k 1, BitVec.ofNat_add]
  rfl

theorem writeEach_append (vs : List Word) (v addr : Word) (r : Run) :
    writeEach (vs ++ [v]) addr r = (writeEach vs addr r).write (addr + BitVec.ofNat 16 vs.length) v := by
  induction vs generalizing addr r with
  | nil =>
    have hzero : addr + BitVec.ofNat 16 0 = addr := BitVec.add_zero addr
    simp only [List.nil_append, writeEach, List.length_nil, hzero]
  | cons w vs ih =>
    simp only [List.cons_append, writeEach, ih, add_one_add_ofNat, List.length_cons]

/-- One more element in a list of pulses that are all alike. -/
theorem map_const_snoc {α β : Type} (l : List α) (x : α) (e : β) :
    (l ++ [x]).map (fun _ => e) = e :: l.map (fun _ => e) := by
  induction l with
  | nil => rfl
  | cons y l ih => simp only [List.cons_append, List.map_cons, ih]

theorem pendingIf_or (a b : Bool) (n : Nat) : pendingIf (a || b) n = pendingIf a n ||| pendingIf b n := by
  cases a
  · cases b <;> simp [pendingIf]
  · cases b <;> simp [pendingIf]

/-! ### The faults of the first `n` of a sequence of cycles -/

section Sequence

variable (c : Nat → Cycle) (aborted : Bool) (lands : Nat → Bool)

/-- The FT bits they add. -/
def ftAfter (ft : Word) (n : Nat) : Word := (List.range n).foldl (fun f k => f ||| Shape.cycleFaults (c k)) ft

/-- One of them draws a fault. -/
def anyFault (n : Nat) : Bool := (List.range n).any fun k => !(c k).clean

/-- Their pulses. -/
def pulsesOf (n : Nat) : List BusEvent := ((List.range n).filter fun k => (c k).protect || (c k).parity).map fun _ => .majEr

/-- Cycle `k` stores an open word: one up to it has aborted, or an earlier one. -/
def openFrom (k : Nat) : Bool := aborted || (List.range (k + 1)).any fun k => (c k).protect || (c k).parity

/-- The free values they use. -/
def freeUsed (n : Nat) : Nat := ((List.range n).filter fun k => openFrom c aborted k && lands k).length

theorem ftAfter_succ (ft : Word) (n : Nat) : ftAfter c ft (n + 1) = ftAfter c ft n ||| Shape.cycleFaults (c n) := by
  simp only [ftAfter, List.range_succ, List.foldl_append, List.foldl_cons, List.foldl_nil]

theorem anyFault_succ (n : Nat) : anyFault c (n + 1) = (anyFault c n || !(c n).clean) := by
  simp only [anyFault, List.range_succ, List.any_append, List.any_cons, List.any_nil, Bool.or_false]

theorem pulsesOf_succ (n : Nat) : pulsesOf c (n + 1) = abortPulse (c n) ++ pulsesOf c n := by
  unfold pulsesOf abortPulse cycleAborts
  rw [List.range_succ, List.filter_append]
  cases h : (c n).protect || (c n).parity
  case false => simp [h]
  case true =>
    have hsingle : [n].filter (fun k => (c k).protect || (c k).parity) = [n] := by
      rw [List.filter_cons_of_pos (by exact h), List.filter_nil]
    rw [hsingle, map_const_snoc]
    rfl

theorem freeUsed_succ (n : Nat) :
    freeUsed c aborted lands (n + 1) = freeUsed c aborted lands n + if openFrom c aborted n && lands n then 1 else 0 := by
  unfold freeUsed
  rw [List.range_succ, List.filter_append, List.length_append]
  cases h : openFrom c aborted n && lands n <;> simp [h]

end Sequence

/-- `s` after the first `n` writes from `addr` on, memory being `m`. -/
def storesState (s : State) (addr : Word) (aborted : Bool) (n : Nat) (m : Memory) : State :=
  let c := fun k : Nat => s.ownCycle .write (addr + BitVec.ofNat 16 k)
  { s with
    ft := ftAfter c s.ft n
    pir := s.pir ||| pendingIf (anyFault c n) 1
    trace := pulsesOf c n ++ s.trace
    free := s.free + freeUsed c aborted (fun k => s.lands (c k)) n
    mem := m }

/-- The next write, on that state. -/
theorem afterWrite_storesState (s : State) (addr v : Word) (aborted : Bool) (n : Nat) (m : Memory) :
    let c := fun k : Nat => s.ownCycle .write (addr + BitVec.ofNat 16 k)
    let t := storesState s addr aborted n m
    afterWrite t (c n) (openFrom c aborted n) v =
      storesState s addr aborted (n + 1)
        (if s.lands (c n) then m.writeWord (c n).phys (storedWord t (openFrom c aborted n) v) else m) := by
  dsimp only
  unfold storesState
  simp only [ftAfter_succ, anyFault_succ, pulsesOf_succ, freeUsed_succ, pendingIf_or, List.append_assoc,
    ← BitVec.or_assoc, ← Nat.add_assoc]
  rfl

/-- What a sequence of writes has left. -/
structure Wrote (r : Run) (addr : Word) (ws : List Word) (r' : Run) : Prop where
  state : r'.s = storesState r.s addr r.aborted ws.length r'.s.mem
  aborted : r'.aborted = (r.aborted || (List.range ws.length).any fun k =>
    (r.s.ownCycle .write (addr + BitVec.ofNat 16 k)).protect || (r.s.ownCycle .write (addr + BitVec.ofNat 16 k)).parity)
  halted : r'.halted = false
  memory : r'.s.mem.wf = true
  words : ∃ vs : List Word, vs.length = ws.length ∧
    (∀ k < ws.length, openFrom (fun k => r.s.ownCycle .write (addr + BitVec.ofNat 16 k)) r.aborted k = false →
      vs[k]? = ws[k]?) ∧
    Stored r.s.mem r'.s.mem (((List.range ws.length).filter fun k =>
      r.s.lands (r.s.ownCycle .write (addr + BitVec.ofNat 16 k))).map fun k =>
        (r.s.place (addr + BitVec.ofNat 16 k), vs.getD k 0))

theorem wrote_nil {r : Run} (addr : Word) (hwf : r.s.mem.wf = true) (h : r.halted = false) : Wrote r addr [] r where
  state := by
    have hpir : r.s.pir ||| pendingIf false 1 = r.s.pir := BitVec.or_zero
    simp only [storesState, List.length_nil, ftAfter, anyFault, pulsesOf, freeUsed, List.range_zero, List.foldl_nil,
      List.any_nil, List.filter_nil, List.map_nil, List.nil_append, hpir]
    rfl
  aborted := by simp
  halted := h
  memory := hwf
  words := ⟨[], rfl, fun k hk => absurd hk (Nat.not_lt_zero k), fun pw hpw => absurd hpw (by simp), fun _ _ => rfl⟩

/-- One more element read from the end of a list with another appended. -/
theorem getD_snoc {us : List Word} (x : Word) {k : Nat} (h : k < us.length) : (us ++ [x]).getD k 0 = us.getD k 0 := by
  simp only [List.getD_eq_getElem?_getD, List.getElem?_append_left h]

theorem wrote_snoc {r r' : Run} {addr v : Word} {vs : List Word} (hlen : vs.length < 4096) (h : Wrote r addr vs r') :
    Wrote r addr (vs ++ [v]) (r'.write (addr + BitVec.ofNat 16 vs.length) v) := by
  obtain ⟨hstate, haborted, hhalted, hwf, us, hus, hsame, hstored⟩ := h
  have hcycle : r'.s.ownCycle .write (addr + BitVec.ofNat 16 vs.length) =
      r.s.ownCycle .write (addr + BitVec.ofNat 16 vs.length) := by rw [hstate]; rfl
  have hopen : (r'.aborted || cycleAborts (r.s.ownCycle .write (addr + BitVec.ofNat 16 vs.length))) =
      openFrom (fun k => r.s.ownCycle .write (addr + BitVec.ofNat 16 k)) r.aborted vs.length := by
    rw [haborted, openFrom, List.range_succ, List.any_append, List.any_cons, List.any_nil, Bool.or_false, Bool.or_assoc]
    rfl
  have hlength : (vs ++ [v]).length = vs.length + 1 := by simp
  have hrun : r'.write (addr + BitVec.ofNat 16 vs.length) v = _ := run_write_eq hhalted _ _
  rw [hcycle, hopen, hstate, afterWrite_storesState] at hrun
  rw [hrun]
  refine ⟨?_, ?_, rfl, ?_, us ++ [storedWord (storesState r.s addr r.aborted vs.length r'.s.mem)
    (openFrom (fun k => r.s.ownCycle .write (addr + BitVec.ofNat 16 k)) r.aborted vs.length) v], ?_, ?_, ?_⟩
  · rw [hlength]; rfl
  · rw [hlength]; rfl
  · change Memory.wf (if _ then _ else _) = true
    split
    · exact Memory.wf_writeWord _ _ hwf
    · exact hwf
  · rw [List.length_append, hus, hlength]; rfl
  · intro k hk hclosed
    rw [hlength] at hk
    by_cases hlast : k = vs.length
    · subst hlast
      rw [List.getElem?_append_right (by omega), List.getElem?_append_right (le_refl _), hus, hclosed]
      rfl
    · have hlt : k < vs.length := by omega
      rw [List.getElem?_append_left (by omega), List.getElem?_append_left hlt]
      exact hsame k hlt hclosed
  · have hbefore : ((List.range vs.length).filter fun k => r.s.lands (r.s.ownCycle .write (addr + BitVec.ofNat 16 k))).map
        (fun k => (r.s.place (addr + BitVec.ofNat 16 k), (us ++ [storedWord (storesState r.s addr r.aborted vs.length r'.s.mem)
          (openFrom (fun k => r.s.ownCycle .write (addr + BitVec.ofNat 16 k)) r.aborted vs.length) v]).getD k 0)) =
        ((List.range vs.length).filter fun k => r.s.lands (r.s.ownCycle .write (addr + BitVec.ofNat 16 k))).map
          fun k => (r.s.place (addr + BitVec.ofNat 16 k), us.getD k 0) := by
      refine List.map_congr_left fun k hk => ?_
      have hlt : k < us.length := by
        rw [hus]
        exact List.mem_range.1 (List.mem_filter.1 hk).1
      rw [getD_snoc _ hlt]
    have hlast : ∀ x : Word, (us ++ [x]).getD vs.length 0 = x := by
      intro x
      rw [← hus, List.getD_eq_getElem?_getD, List.getElem?_append_right (le_refl _), Nat.sub_self]
      rfl
    rw [hlength, List.range_succ, List.filter_append, List.map_append, hbefore]
    cases hland : r.s.lands (r.s.ownCycle .write (addr + BitVec.ofNat 16 vs.length))
    case false =>
      rw [List.filter_cons_of_neg (by simp [hland]), List.filter_nil, List.map_nil, List.append_nil]
      exact hstored
    case true =>
      have hplaces : ∀ pw ∈ ((List.range vs.length).filter fun k =>
          r.s.lands (r.s.ownCycle .write (addr + BitVec.ofNat 16 k))).map
            fun k => (r.s.place (addr + BitVec.ofNat 16 k), us.getD k 0),
          pw.1 ≠ r.s.place (addr + BitVec.ofNat 16 vs.length) := by
        intro pw hpw
        obtain ⟨k, hk, rfl⟩ := List.mem_map.1 hpw
        have hlt : k < vs.length := List.mem_range.1 (List.mem_filter.1 hk).1
        exact place_ne r.s addr (by omega) hlen (by omega)
      have hmore := Memory.Stored_writeWord (r.s.place (addr + BitVec.ofNat 16 vs.length))
        (storedWord (storesState r.s addr r.aborted vs.length r'.s.mem)
          (openFrom (fun k => r.s.ownCycle .write (addr + BitVec.ofNat 16 k)) r.aborted vs.length) v) hstored hwf hplaces
      rw [List.filter_cons_of_pos (by exact hland), List.filter_nil, List.map_singleton, hlast]
      exact hmore

/-- A sequence of writes, word by word. -/
theorem wrote_writeEach {r : Run} {ws : List Word} (addr : Word) (hlen : ws.length ≤ 4096) (hwf : r.s.mem.wf = true)
    (h : r.halted = false) : Wrote r addr ws (writeEach ws addr r) := by
  induction ws using List.reverseRecOn with
  | nil => exact wrote_nil addr hwf h
  | append_singleton vs v ih =>
    rw [List.length_append, List.length_singleton] at hlen
    rw [writeEach_append]
    exact wrote_snoc (by omega) (ih (by omega))

/-- A sequence of writes ends as the statements say. -/
theorem Wrote.stores {r r' : Run} {addr : Word} {ws : List Word} (h : Wrote r addr ws r') (len : Word) :
    Shape.Stores r.s addr ws r.aborted len (r'.s.past len) := by
  obtain ⟨hstate, _, _, hwf, hwords⟩ := h
  refine ⟨?_, hwf, hwords⟩
  rw [hstate]
  rfl

end Sys2Proof.Proofs
end

