-- ==== Sys2Proof/Proofs/StoreCycles.lean ====
section
/-! PROOF. The stores (44_load_store.md R400 to R412, 45_multiple.md R444) as sequences of write cycles, where no other master comes
between them, and a DST that one cuts in two. -/

namespace Sys2Proof.Proofs

open Sys2Proof.Machine

/-! ## Stores as sequences of writes -/

section Alone

variable {r : Run}

/-- A write leaves what the others are going to do. -/
theorem run_write_turns (r : Run) (addr v : Word) : (r.write addr v).s.turns = r.s.turns := by
  cases h : r.halted
  case false =>
    rw [run_write_eq h]
    rfl
  case true => simp only [Run.write, h, if_true]

/-- A write leaves the registers. -/
theorem run_write_regs (r : Run) (addr v : Word) : (r.write addr v).s.regs = r.s.regs := by
  cases h : r.halted
  case false =>
    rw [run_write_eq h]
    rfl
  case true => simp only [Run.write, h, if_true]

theorem run_write_reg (r : Run) (addr v : Word) (q : Reg) : (r.write addr v).s.reg q = r.s.reg q := by
  simp only [State.reg, run_write_regs]

theorem run_write_alone (h : r.s.alone = true) (addr v : Word) : (r.write addr v).s.alone = true := by
  unfold State.alone at h ⊢
  rw [run_write_turns]
  exact h

theorem write2_alone (h : r.s.alone = true) (addr a b : Word) : r.write2 addr (a ++ b) = writeEach [a, b] addr r := by
  simp only [Run.write2, highWord_append, lowWord_append, Run.turn_alone (run_write_alone h addr a), writeEach]

theorem add_one_add_one (addr : Word) : addr + 1 + 1 = addr + 2 := by
  rw [BitVec.add_assoc]
  rfl

theorem write3_alone (h : r.s.alone = true) (addr a b c : Word) :
    r.write3 addr (a ++ b ++ c) = writeEach [a, b, c] addr r := by
  have hfirst := run_write_alone h addr a
  have hsecond := run_write_alone hfirst (addr + 1) b
  simp only [Run.write3, word0_append, word1_append, word2_append, Run.turn_alone hfirst, Run.turn_alone hsecond, writeEach,
    add_one_add_one]

theorem storeAll_alone (k : Nat) (q : Reg) (a : Word) (h : r.s.alone = true) :
    storeAll k q a r = writeEach ((List.range k).map fun j => r.s.reg (q + Fin.ofNat 16 j)) a r := by
  induction k generalizing q a r with
  | zero => rfl
  | succ k ih =>
    have hnext : ∀ j, q + 1 + Fin.ofNat 16 j = q + Fin.ofNat 16 (j + 1) := by
      intro j
      apply Fin.ext
      simp only [Fin.val_add, Fin.ofNat]
      omega
    have hzero : q + Fin.ofNat 16 0 = q := by simp
    rw [storeAll, Run.turn_alone (run_write_alone h _ _), ih _ _ (run_write_alone h _ _), List.range_succ_eq_map,
      List.map_cons, List.map_map, writeEach, hzero]
    simp only [run_write_reg, hnext, Function.comp_def]

end Alone

/-! ## The instructions that store -/

section Stores

variable {s : State} {i : Instr} {o : Source} {ws : List Word} {len : Word}

/-- A store of one word. -/
theorem exec_storeWord (h : Shape.storeWord s i = some (o, ws, len)) :
    inMemory o = true ∧ ws.length = 1 ∧
      exec i s = (writeEach ws (operandAddress s o).val (operandAddress s o).run).next len := by
  unfold Shape.storeWord at h
  split at h <;> cases h <;> exact ⟨rfl, rfl, rfl⟩

theorem storeLong_length (h : Shape.storeLong s i = some (o, ws, len)) : 1 < ws.length ∧ ws.length ≤ 3 := by
  unfold Shape.storeLong at h
  split at h <;> cases h <;> simp

/-- A store of two or three words, alone. -/
theorem exec_storeLong (h : Shape.storeLong s i = some (o, ws, len)) (halone : (operandAddress s o).run.s.alone = true) :
    exec i s = (writeEach ws (operandAddress s o).val (operandAddress s o).run).next len := by
  unfold Shape.storeLong at h
  split at h
  case h_5 =>
    cases h
    exact congrArg (fun r => Run.next r 2) (write3_alone halone _ _ _ _)
  case h_6 => exact nomatch h
  case h_1 | h_4 =>
    cases h
    exact congrArg (fun r => Run.next r 2) (write2_alone halone _ _ _)
  case h_2 | h_3 =>
    cases h
    exact congrArg (fun r => Run.next r 1) (write2_alone halone _ _ _)

end Stores

/-! ## Stores that draw no fault -/

section Clean

variable {c : Nat → Cycle} {n : Nat}

theorem ftAfter_clean (h : ∀ k < n, (c k).clean = true) (ft : Word) : ftAfter c ft n = ft := by
  induction n with
  | zero => rfl
  | succ n ih =>
    rw [ftAfter_succ, ih fun k hk => h k (by omega), cycleFaults_of_clean (h n (by omega))]
    exact BitVec.or_zero

theorem anyFault_clean (h : ∀ k < n, (c k).clean = true) : anyFault c n = false := by
  induction n with
  | zero => rfl
  | succ n ih =>
    rw [anyFault_succ, ih fun k hk => h k (by omega), h n (by omega)]
    rfl

theorem pulsesOf_clean (h : ∀ k < n, (c k).clean = true) : pulsesOf c n = [] := by
  induction n with
  | zero => rfl
  | succ n ih =>
    rw [pulsesOf_succ, ih fun k hk => h k (by omega), abortPulse, cycleAborts_of_clean (h n (by omega))]
    rfl

theorem openFrom_clean (h : ∀ k < n, (c k).clean = true) {k : Nat} (hk : k < n) : openFrom c false k = false := by
  simp only [openFrom, Bool.false_or, List.any_eq_false, List.mem_range]
  intro j hj
  have habort := cycleAborts_of_clean (h j (by omega))
  simpa [cycleAborts] using habort

theorem freeUsed_clean (h : ∀ k < n, (c k).clean = true) (lands : Nat → Bool) : freeUsed c false lands n = 0 := by
  unfold freeUsed
  rw [List.length_eq_zero_iff, List.filter_eq_nil_iff]
  intro k hk
  rw [openFrom_clean h (List.mem_range.1 hk)]
  simp

end Clean

theorem placed_eq (s : State) (addr : Word) (ws : List Word) :
    s.placed addr ws = (List.range ws.length).map fun k => (s.place (addr + BitVec.ofNat 16 k), ws.getD k 0) := by
  induction ws generalizing addr with
  | nil => rfl
  | cons v vs ih =>
    have hzero : addr + BitVec.ofNat 16 0 = addr := BitVec.add_zero addr
    rw [State.placed, ih, List.length_cons, List.range_succ_eq_map, List.map_cons, List.map_map, hzero]
    simp only [add_one_add_ofNat, Function.comp_def, List.getD_cons_zero, List.getD_cons_succ]

theorem clean_of_writable {s : State} {addr : Word} (h : s.writable addr = true) :
    (s.ownCycle .write addr).clean = true ∧ s.lands (s.ownCycle .write addr) = true := by
  simp only [State.writable, Bool.and_eq_true, Bool.not_eq_true'] at h
  obtain ⟨hclean, hblocked⟩ := h
  refine ⟨hclean, ?_⟩
  simp only [Cycle.clean, Bool.and_eq_true, Bool.not_eq_true'] at hclean
  simp [State.lands, hclean.1.1, hclean.2, hblocked]

/-- Writes that all draw no fault and land: memory holds the words, nothing else has changed. -/
theorem stores_clean {s t : State} {addr len : Word} {ws : List Word} (h : Shape.Stores s addr ws false len t)
    (hw : ∀ k < ws.length, s.writable (addr + BitVec.ofNat 16 k) = true) :
    t = { s.past len with mem := t.mem } ∧ t.mem.wf = true ∧ Stored s.mem t.mem (s.placed addr ws) := by
  have hclean : ∀ k < ws.length, (s.ownCycle .write (addr + BitVec.ofNat 16 k)).clean = true :=
    fun k hk => (clean_of_writable (hw k hk)).1
  obtain ⟨hfields, hwf, vs, hvs, hsame, hstored⟩ := h
  refine ⟨?_, hwf, ?_⟩
  · have hstate : t = { storesState s addr false ws.length t.mem with ic := s.ic + len } := hfields
    have hnone : s.pir ||| pendingIf false 1 = s.pir := BitVec.or_zero
    rw [hstate]
    simp only [storesState, ftAfter_clean (c := fun k => s.ownCycle .write (addr + BitVec.ofNat 16 k)) hclean,
      anyFault_clean (c := fun k => s.ownCycle .write (addr + BitVec.ofNat 16 k)) hclean,
      pulsesOf_clean (c := fun k => s.ownCycle .write (addr + BitVec.ofNat 16 k)) hclean,
      freeUsed_clean (c := fun k => s.ownCycle .write (addr + BitVec.ofNat 16 k)) hclean, hnone]
    rfl
  · have hwords : vs = ws := by
      refine List.ext_getElem? fun k => ?_
      by_cases hk : k < ws.length
      · exact hsame k hk (openFrom_clean (c := fun k => s.ownCycle .write (addr + BitVec.ofNat 16 k)) hclean hk)
      · rw [List.getElem?_eq_none (by omega), List.getElem?_eq_none (by omega)]
    have hall : (List.range ws.length).filter (fun k => s.lands (s.ownCycle .write (addr + BitVec.ofNat 16 k))) =
        List.range ws.length :=
      List.filter_eq_self.2 fun k hk => (clean_of_writable (hw k (List.mem_range.1 hk))).2
    rw [placed_eq, ← hwords, hvs, ← hall]
    exact hstored

/-! ## Settling -/

/-- What a sequence of writes that all land leaves of an instruction. -/
theorem exists_writeEach_clean {i : Instr} {s : State} {addr len : Word} {ws : List Word} (hlen : ws.length ≤ 4096)
    (hexec : exec i s = (writeEach ws addr s.start).next len) (hwf : s.mem.wf = true)
    (hw : ∀ k < ws.length, s.writable (addr + BitVec.ofNat 16 k) = true) :
    ∃ t, exec i s = .next t ∧ t = { s.past len with mem := t.mem } ∧ t.mem.wf = true ∧
      Stored s.mem t.mem (s.placed addr ws) :=
  ⟨_, hexec, stores_clean ((wrote_writeEach (r := s.start) addr hlen hwf rfl).stores len) hw⟩

theorem writable_of_span {s : State} {addr : Word} {n : Nat} (h : s.writableSpan addr n = true) :
    (∀ k < n, s.writable (addr + BitVec.ofNat 16 k) = true) ∧ (1 < n → s.alone = true) := by
  simp only [State.writableSpan, Bool.and_eq_true, List.all_eq_true, List.mem_range, Bool.or_eq_true, decide_eq_true_eq] at h
  obtain ⟨hall, halone⟩ := h
  exact ⟨hall, fun hn => halone.resolve_left (by omega)⟩

theorem exec_dst (ra rx : Reg) (a : Word) (s : State) :
    exec (.dst ra rx a) s = (s.start.write2 (s.indexed a rx) (s.pair ra)).next 2 := rfl

/-- A DST whose first word is stored: the second write comes after a turn of the others. -/
theorem exec_dst_clean {ra rx : Reg} {a : Word} {s : State} (h : s.writable (s.indexed a rx) = true) :
    exec (.dst ra rx a) s =
      ((s.setMem (s.mem.writeWord (s.place (s.indexed a rx)) (s.reg ra))).start.turn.write (s.indexed a rx + 1)
        (s.reg (ra + 1))).next 2 := by
  rw [exec_dst, Run.write2, State.pair, highWord_append, lowWord_append, State.write_clean s _ h]

/-- A RESET in a turn halts the instruction, which makes no more cycles (70_reset_and_hazards.md R740). -/
theorem start_turn_reset {s : State} (h : s.resetComes = true) :
    s.start.turn = { s := s.turn, aborted := true, halted := true } ∧ s.turn.resetting = true := by
  refine ⟨?_, ?_⟩
  · simp only [Run.turn, State.start, h, Bool.false_eq_true, if_false, Bool.or_true]
  · obtain ⟨_, _, _, _, hturn⟩ := s.turn_frame
    rw [hturn, h]
    exact Bool.or_true _

/-- A write after a turn of the others that brings no RESET. -/
theorem exists_second_store {i : Instr} {s v : State} {addr w len : Word}
    (hexec : exec i s = (v.start.turn.write addr w).next len) (hreset : v.resetComes = false) (hwf : v.mem.wf = true)
    (hw : v.turn.writable addr = true) :
    ∃ t, exec i s = .next t ∧ t = { v.turn.past len with mem := t.mem } ∧ t.mem.wf = true ∧
      Stored v.turn.mem t.mem [(v.turn.place addr, w)] := by
  rw [start_turn hreset, State.write_clean _ _ hw] at hexec
  exact exists_stored (s := v.turn) (g := fun m => { v.turn.past len with mem := m })
    ((Keeps.refl v).turn.memory hwf) (fun _ => rfl) hexec

/-- Settles O18: the words of a store as a sequence of writes; a DST cut in two by its first write and the turn after it. -/
theorem store : Obligations.Store := by
  constructor
  · intro i s o ws len hshape hwf hlocated hspan
    obtain ⟨hw, halone⟩ := writable_of_span hspan
    have haddr := operandAddress_located hlocated
    obtain hword | hlong := hshape
    · obtain ⟨_, hone, hexec⟩ := exec_storeWord hword
      rw [haddr] at hexec
      exact exists_writeEach_clean (by omega) hexec hwf hw
    · obtain ⟨hmore, hlen⟩ := storeLong_length hlong
      have hexec := exec_storeLong hlong (by rw [haddr]; exact halone hmore)
      rw [haddr] at hexec
      exact exists_writeEach_clean (by omega) hexec hwf hw
  · intro s ra rx a hwf hw
    refine ⟨_, Memory.wf_writeWord _ _ hwf, Memory.stored_writeWord _ _ hwf, ?_, ?_⟩
    · intro hreset
      obtain ⟨hturn, hresetting⟩ := start_turn_reset (s := s.setMem (s.mem.writeWord (s.place (s.indexed a rx)) (s.reg ra))) hreset
      refine ⟨?_, hresetting⟩
      rw [exec_dst_clean hw, hturn]
      rfl
    · intro hreset hw1
      exact exists_second_store (v := s.setMem (s.mem.writeWord (s.place (s.indexed a rx)) (s.reg ra)))
        (exec_dst_clean hw) hreset (Memory.wf_writeWord _ _ hwf) hw1

/-! ## An aborted access on a busy bus -/

/-- A turn in which nothing happens. -/
def quietTurn : Turn := { writes := [], faults := .none, reset := false }

/-- The machine after reset, one such turn to come. -/
def busyReset : State := { State.reset with turns := [quietTurn] }

/-- STM of one register lets the others have their turn after its one store. -/
theorem exec_stm_busyReset : ∃ t, exec (.stm 0 0 0) busyReset = .next t ∧ t.turns = [] := by
  refine ⟨_, rfl, ?_⟩
  decide

/-- Refutes O46: for STM with N = 0, one word on a bus that is not quiet, the statement's `Shape.Stores` keeps the coming turns of
the others, but the turn after the store has used one up. -/
theorem not_abortedAccess : ¬ Obligations.AbortedAccess := by
  rintro ⟨_, hstores, _⟩
  obtain ⟨hlocated, _⟩ := hstores (.stm 0 0 0) busyReset (.direct 0 0) [0] 2 rfl rfl
  obtain ⟨t, hexec, hfields, _⟩ := hlocated rfl (.inl rfl)
  obtain ⟨u, hexec', hturns⟩ := exec_stm_busyReset
  obtain rfl : t = u := by
    rw [hexec] at hexec'
    exact Host.Outcome.next.inj hexec'
  have hkept : t.turns = [quietTurn] := by
    rw [hfields]
    rfl
  rw [hturns] at hkept
  exact absurd hkept (List.cons_ne_nil _ _).symm

end Sys2Proof.Proofs
end

