-- ==== Sys2Proof/Proofs/Multiple.lean ====
section
/-! PROOF. Load, store, push and pop multiple (45_multiple.md R440 to R444) where no other master comes between the cycles: word by
word, to the end or to the first cycle that aborts. -/

namespace Sys2Proof.Proofs

open Sys2Proof.Machine

/-! ## Reads one after another -/

/-- A run that has made the reads of `addrs`: as it was where none draws a fault, else aborted. -/
def readsLeave (r : Run) (addrs : List Word) : Run :=
  if addrs.all r.s.readable then r else { r with s := Shape.readsFaulted r.s addrs 0, aborted := true }

theorem readsFaulted_past (s : State) (addrs : List Word) (len : Word) :
    (Shape.readsFaulted s addrs 0).past len = Shape.readsFaulted s addrs len := by
  have hzero : s.ic + 0 + len = s.ic + len := congrArg (· + len) (BitVec.add_zero s.ic)
  simp only [Shape.readsFaulted, State.past, hzero]

/-- Reads that draw no fault leave nothing behind. -/
theorem readsFaulted_append {s : State} {xs : List Word} (h : ∀ a ∈ xs, s.readable a = true) (ys : List Word) (len : Word) :
    Shape.readsFaulted s (xs ++ ys) len = Shape.readsFaulted s ys len := by
  have hnone : xs.filter (fun a => !s.readable a) = [] := by
    rw [List.filter_eq_nil_iff]
    intro a ha
    simp [h a ha]
  simp only [Shape.readsFaulted, List.filter_append, hnone, List.nil_append]

/-- Two sequences of reads, the first of them with a fault. -/
theorem readsFaulted_trans (s : State) (xs ys : List Word) :
    (if ys.all s.readable then Shape.readsFaulted s xs 0 else Shape.readsFaulted (Shape.readsFaulted s xs 0) ys 0) =
      Shape.readsFaulted s (xs ++ ys) 0 := by
  split
  · rename_i hys
    have hnone : ys.filter (fun a => !s.readable a) = [] := by
      rw [List.filter_eq_nil_iff]
      intro a ha
      simp [List.all_eq_true.1 hys a ha]
    simp only [Shape.readsFaulted, List.filter_append, hnone, List.append_nil]
  · have hzero : s.ic + 0 + 0 = s.ic + 0 := BitVec.add_zero _
    have hor : s.pir ||| oneBit 1 ||| oneBit 1 = s.pir ||| oneBit 1 := by rw [BitVec.or_assoc, BitVec.or_self]
    have hpulses : ∀ l l' : List Word, l'.map (fun _ => BusEvent.majEr) ++ (l.map (fun _ => BusEvent.majEr) ++ s.trace) =
        (l ++ l').map (fun _ => BusEvent.majEr) ++ s.trace := by
      intro l l'
      rw [← List.append_assoc, List.map_const', List.map_const', List.map_const', List.replicate_append_replicate,
        List.length_append, Nat.add_comm]
    have hfree : ∀ l l' : List Word, s.free + l.length + l'.length = s.free + (l ++ l').length := by
      intro l l'
      rw [List.length_append, Nat.add_assoc]
    have hreadable : ∀ a, (Shape.readsFaulted s xs 0).readable a = s.readable a := fun _ => rfl
    have hcycle : ∀ a, (Shape.readsFaulted s xs 0).ownCycle .read a = s.ownCycle .read a := fun _ => rfl
    rw [Shape.readsFaulted]
    simp only [hreadable, hcycle]
    simp only [Shape.readsFaulted, List.filter_append, List.foldl_append, hzero, hor, hpulses, hfree]

theorem readsLeave_append (r : Run) (xs ys : List Word) : readsLeave (readsLeave r xs) ys = readsLeave r (xs ++ ys) := by
  unfold readsLeave
  rw [List.all_append]
  cases hxs : xs.all r.s.readable
  case true =>
    have hall : ∀ a ∈ xs, r.s.readable a = true := List.all_eq_true.1 hxs
    simp only [if_true, Bool.true_and, readsFaulted_append hall]
  case false =>
    have hreadable : ys.all (Shape.readsFaulted r.s xs 0).readable = ys.all r.s.readable := rfl
    simp only [Bool.false_eq_true, if_false, Bool.false_and, ← readsFaulted_trans, hreadable]
    split <;> rfl

/-- One read. -/
theorem read_leaves {r : Run} (h : r.halted = false) (addr : Word) : (r.read addr).run = readsLeave r [addr] := by
  unfold readsLeave Run.read
  dsimp only
  rw [h]
  have hcell : r.s.readable addr = (r.s.ownCycle .read addr).clean := rfl
  cases hclean : (r.s.ownCycle .read addr).clean
  case true =>
    simp only [Bool.false_eq_true, if_false, if_true, List.all_cons, List.all_nil, hcell, hclean, Bool.and_true]
  case false =>
    have hpir : oneBit 1 = 0x4000 := by decide
    have hone : r.s.ic + 0 = r.s.ic := BitVec.add_zero _
    simp only [Bool.false_eq_true, if_false, List.all_cons, List.all_nil, hcell, hclean, Bool.and_true, Run.freeWord,
      Shape.readsFaulted, List.filter_cons, List.filter_nil, Bool.not_false, if_true, List.foldl_cons, List.foldl_nil,
      List.length_singleton, hpir, hone, ← bits_eq_cycleFaults, h]
    rfl

theorem readsLeave_halted (r : Run) (addrs : List Word) : (readsLeave r addrs).halted = r.halted := by
  unfold readsLeave
  split <;> rfl

theorem readsLeave_alone (r : Run) (addrs : List Word) : (readsLeave r addrs).s.alone = r.s.alone := by
  unfold readsLeave
  split <;> rfl

theorem readsLeave_aborted {r : Run} (h : r.aborted = true) (addrs : List Word) : (readsLeave r addrs).aborted = true := by
  unfold readsLeave
  split
  · exact h
  · rfl

/-- A sequence of reads with a fault in it. -/
theorem readsLeave_faulted {r : Run} {addrs : List Word} {a : Word} (hmem : a ∈ addrs) (h : r.s.readable a = false) :
    readsLeave r addrs = { r with s := Shape.readsFaulted r.s addrs 0, aborted := true } := by
  unfold readsLeave
  rw [if_neg]
  intro hall
  exact Bool.noConfusion ((List.all_eq_true.1 hall a hmem).symm.trans h)

/-! ## Load multiple -/

/-- The registers after `k` words have been loaded from `a` on into the registers from `q` on. -/
def loadRegs : Nat → Reg → Word → State → State
  | 0, _, _, s => s
  | k + 1, q, a, s => loadRegs k (q + 1) (a + 1) (s.setReg q (s.loaded a))

theorem loadAll_clean {k : Nat} {q : Reg} {a : Word} {s : State} (halone : s.alone = true)
    (h : ∀ j < k, s.readable (a + BitVec.ofNat 16 j) = true) : loadAll k q a s.start = (loadRegs k q a s).start := by
  induction k generalizing q a s with
  | zero => rfl
  | succ k ih =>
    have hzero : a + BitVec.ofNat 16 0 = a := BitVec.add_zero a
    have hfirst : s.readable a = true := hzero ▸ h 0 (Nat.succ_pos k)
    rw [loadAll, State.read_clean s hfirst, State.given_run, State.given_val, State.start_setReg,
      State.start_turn_alone (s := s.setReg q (s.loaded a)) halone]
    exact ih halone fun j hj => by
      rw [add_one_add_ofNat]
      exact h (j + 1) (by omega)

/-- One word of an aborted load: it is read, and no register changes. -/
theorem loadAll_step {k : Nat} {q : Reg} {a : Word} {r : Run} (halone : r.s.alone = true) (hhalted : r.halted = false)
    (habort : (readsLeave r [a]).aborted = true) :
    loadAll (k + 1) q a r = loadAll k (q + 1) (a + 1) (readsLeave r [a]) := by
  rw [loadAll, read_leaves hhalted a, Run.setReg, Run.update_aborted habort,
    Run.turn_alone (by rw [readsLeave_alone]; exact halone)]

/-- The addresses from `a` on. -/
def addresses (a : Word) (k : Nat) : List Word := (List.range k).map fun j => a + BitVec.ofNat 16 j

theorem addresses_succ (a : Word) (k : Nat) : addresses a (k + 1) = a :: addresses (a + 1) k := by
  have hzero : a + BitVec.ofNat 16 0 = a := BitVec.add_zero a
  rw [addresses, List.range_succ_eq_map, List.map_cons, List.map_map, hzero, addresses]
  simp only [add_one_add_ofNat, Function.comp_def]

theorem addresses_add (a : Word) (j k : Nat) : addresses a (j + k) = addresses a j ++ addresses (a + BitVec.ofNat 16 j) k := by
  rw [addresses, List.range_add, List.map_append, List.map_map, addresses, addresses]
  simp only [Function.comp_def, BitVec.ofNat_add, BitVec.add_assoc]

/-- An aborted load only goes on reading. -/
theorem loadAll_aborted {k : Nat} {q : Reg} {a : Word} {r : Run} (halone : r.s.alone = true) (hhalted : r.halted = false)
    (habort : r.aborted = true) : loadAll k q a r = readsLeave r (addresses a k) := by
  induction k generalizing q a r with
  | zero => rfl
  | succ k ih =>
    have habort' := readsLeave_aborted habort [a]
    rw [loadAll_step halone hhalted habort', ih (by rw [readsLeave_alone]; exact halone)
      (by rw [readsLeave_halted]; exact hhalted) habort', readsLeave_append, addresses_succ, List.singleton_append]

/-- A load whose first word cannot be read. -/
theorem loadAll_faulted {k : Nat} {q : Reg} {a : Word} {r : Run} (halone : r.s.alone = true) (hhalted : r.halted = false)
    (hbad : r.s.readable a = false) :
    loadAll (k + 1) q a r = { r with s := Shape.readsFaulted r.s (addresses a (k + 1)) 0, aborted := true } := by
  have habort : (readsLeave r [a]).aborted = true := by
    rw [readsLeave_faulted (List.mem_singleton.2 rfl) hbad]
  rw [loadAll_step halone hhalted habort, loadAll_aborted (by rw [readsLeave_alone]; exact halone)
    (by rw [readsLeave_halted]; exact hhalted) habort, readsLeave_append, addresses_succ, List.singleton_append,
    readsLeave_faulted List.mem_cons_self hbad]

theorem loadAll_add (j k : Nat) (q : Reg) (a : Word) (r : Run) :
    loadAll (j + k) q a r = loadAll k (q + Fin.ofNat 16 j) (a + BitVec.ofNat 16 j) (loadAll j q a r) := by
  induction j generalizing q a r with
  | zero =>
    have hq : q + Fin.ofNat 16 0 = q := by simp
    have ha : a + BitVec.ofNat 16 0 = a := BitVec.add_zero a
    rw [Nat.zero_add, hq, ha]
    rfl
  | succ j ih =>
    have hq : q + 1 + Fin.ofNat 16 j = q + Fin.ofNat 16 (j + 1) := by
      apply Fin.ext
      simp only [Fin.val_add, Fin.ofNat]
      omega
    rw [Nat.add_right_comm, loadAll, ih, hq, add_one_add_ofNat]
    rfl

theorem loadRegs_succ (k : Nat) (q : Reg) (a : Word) (s : State) :
    loadRegs (k + 1) q a s = (loadRegs k q a s).setReg (q + Fin.ofNat 16 k) (s.loaded (a + BitVec.ofNat 16 k)) := by
  induction k generalizing q a s with
  | zero =>
    have hq : q + Fin.ofNat 16 0 = q := by simp
    have ha : a + BitVec.ofNat 16 0 = a := BitVec.add_zero a
    rw [hq, ha]
    rfl
  | succ k ih =>
    have hq : q + 1 + Fin.ofNat 16 k = q + Fin.ofNat 16 (k + 1) := by
      apply Fin.ext
      simp only [Fin.val_add, Fin.ofNat]
      omega
    rw [loadRegs, ih, hq, add_one_add_ofNat, State.setReg_loaded]
    rfl

/-- Loading changes registers only. -/
theorem loadRegs_frame (k : Nat) (q : Reg) (a : Word) (s : State) :
    loadRegs k q a s = { s with regs := (loadRegs k q a s).regs } := by
  induction k generalizing q a s with
  | zero => rfl
  | succ k ih => exact ih (q + 1) (a + 1) (s.setReg q (s.loaded a))

/-- The registers from R0 on hold the words from `a` on. -/
theorem loadRegs_reg {k : Nat} (hk : k ≤ 16) (a : Word) (s : State) (q : Reg) :
    (loadRegs k 0 a s).reg q = if q.val < k then s.loaded (a + BitVec.ofNat 16 q.val) else s.reg q := by
  induction k with
  | zero => rfl
  | succ k ih =>
    rw [loadRegs_succ, State.reg_setReg, ih (by omega)]
    have hval : ((0 : Reg) + Fin.ofNat 16 k).val = k := by simp only [zero_add, Fin.ofNat]; omega
    by_cases hq : q = 0 + Fin.ofNat 16 k
    · have hqk : q.val = k := by rw [hq, hval]
      simp only [hq, if_true, hval, Nat.lt_succ_self]
    · have hqk : q.val ≠ k := fun e => hq (Fin.ext (by rw [e, hval]))
      have hlt : q.val < k + 1 ↔ q.val < k := by omega
      simp only [hq, if_false, hlt]

theorem exec_lm (n : Fin 16) (rx : Reg) (a : Word) (s : State) :
    exec (.lm n rx a) s = (loadAll (n.val + 1) 0 (s.indexed a rx) s.start).next 2 := rfl

theorem exec_stm (n : Fin 16) (rx : Reg) (a : Word) (s : State) :
    exec (.stm n rx a) s = (storeAll (n.val + 1) 0 (s.indexed a rx) s.start).next 2 := rfl

/-- LM to its end. -/
theorem lm_clean {n : Fin 16} {rx : Reg} {a : Word} {s : State} (halone : s.alone = true)
    (h : ∀ k < n.val + 1, s.readable (s.indexed a rx + BitVec.ofNat 16 k) = true) :
    ∃ t, exec (.lm n rx a) s = .next t ∧ t = { s.past 2 with regs := t.regs } ∧
      ∀ q : Reg, t.reg q = if q.val ≤ n.val then s.loaded (s.indexed a rx + BitVec.ofNat 16 q.val) else s.reg q := by
  refine ⟨(loadRegs (n.val + 1) 0 (s.indexed a rx) s).past 2, ?_, ?_, fun q => ?_⟩
  · rw [exec_lm, loadAll_clean halone h, State.start_next]
  · rw [loadRegs_frame]
    rfl
  · rw [State.past_reg, loadRegs_reg (by omega)]
    simp only [Nat.lt_succ_iff]

/-- LM to a word that cannot be read. -/
theorem lm_faulted {n : Fin 16} {rx : Reg} {a : Word} {s : State} (halone : s.alone = true) {j : Nat} (hj : j ≤ n.val)
    (h : ∀ k < j, s.readable (s.indexed a rx + BitVec.ofNat 16 k) = true)
    (hbad : s.readable (s.indexed a rx + BitVec.ofNat 16 j) = false) :
    ∃ t, exec (.lm n rx a) s = .next t ∧
      t = { Shape.readsFaulted s ((List.range (n.val + 1)).map fun k => s.indexed a rx + BitVec.ofNat 16 k) 2 with
        regs := t.regs } ∧
      ∀ q : Reg, t.reg q = if q.val < j then s.loaded (s.indexed a rx + BitVec.ofNat 16 q.val) else s.reg q := by
  have hloaded := loadRegs_frame j 0 (s.indexed a rx) s
  have hsplit : n.val + 1 = j + (n.val - j + 1) := by omega
  have hexec : exec (.lm n rx a) s = .next (Shape.readsFaulted (loadRegs j 0 (s.indexed a rx) s)
      (addresses (s.indexed a rx + BitVec.ofNat 16 j) (n.val - j + 1)) 2) := by
    rw [exec_lm, hsplit, loadAll_add, loadAll_clean halone h,
      loadAll_faulted (r := (loadRegs j 0 (s.indexed a rx) s).start) (by rw [State.start_s, hloaded]; exact halone) rfl
        (by rw [State.start_s, hloaded]; exact hbad)]
    exact congrArg Host.Outcome.next (readsFaulted_past _ _ 2)
  have hreads : ∀ x ∈ addresses (s.indexed a rx) j, s.readable x = true := by
    intro x hx
    obtain ⟨k, hk, rfl⟩ := List.mem_map.1 hx
    exact h k (List.mem_range.1 hk)
  have hall : Shape.readsFaulted s ((List.range (n.val + 1)).map fun k => s.indexed a rx + BitVec.ofNat 16 k) 2 =
      Shape.readsFaulted s (addresses (s.indexed a rx + BitVec.ofNat 16 j) (n.val - j + 1)) 2 := by
    change Shape.readsFaulted s (addresses (s.indexed a rx) (n.val + 1)) 2 = _
    rw [hsplit, addresses_add, readsFaulted_append hreads]
  refine ⟨_, hexec, ?_, fun q => loadRegs_reg (by omega) _ _ q⟩
  rw [hall]
  generalize loadRegs j 0 (s.indexed a rx) s = u at hloaded
  rw [hloaded]
  rfl

/-- Settles O21. -/
theorem loadStoreMultiple : Obligations.LoadStoreMultiple := by
  intro n rx a s halone
  refine ⟨fun hspan => ?_, fun hwf hspan => ?_, fun j hj hbefore hbad => lm_faulted halone hj hbefore hbad⟩
  · simp only [State.readableSpan, Bool.and_eq_true, List.all_eq_true, List.mem_range] at hspan
    exact lm_clean halone hspan.1
  · have hexec := exec_stm n rx a s
    have hlist : ((List.range (n.val + 1)).map fun j => s.start.s.reg (0 + Fin.ofNat 16 j)) =
        (List.range (n.val + 1)).map fun k => s.reg (Fin.ofNat 16 k) := by simp only [zero_add, State.start_s]
    rw [storeAll_alone (r := s.start) _ _ _ halone, hlist] at hexec
    refine exists_writeEach_clean (by simp; omega) hexec hwf fun k hk => ?_
    rw [List.length_map, List.length_range] at hk
    exact (writable_of_span hspan).1 k hk

end Sys2Proof.Proofs
end

