-- ==== Sys2Proof/Proofs/Pop.lean ====
section
/-! PROOF. POPM (45_multiple.md R442) where no other master comes between its reads: to the end, or to the first word that cannot be
read. -/

namespace Sys2Proof.Proofs

open Sys2Proof.Machine

/-! ## A list of registers -/

/-- The addresses that the pops of these registers read, the word of R15 being skipped. -/
def popAddresses : List Reg → Word → List Word
  | [], _ => []
  | q :: qs, sp => if q = 15 then popAddresses qs (sp + 1) else sp :: popAddresses qs (sp + 1)

/-- The state after the pops of these registers, none of them faulted. -/
def popRegs : List Reg → Word → State → State
  | [], _, s => s
  | q :: qs, sp, s =>
    if q = 15 then popRegs qs (sp + 1) (s.setReg 15 (sp + 1))
    else popRegs qs (sp + 1) ((s.setReg q (s.loaded sp)).setReg 15 (sp + 1))

/-- `sp` after `k` words and one. -/
theorem add_ofNat_length {α : Type} (sp : Word) (q : α) (qs : List α) :
    sp + 1 + BitVec.ofNat 16 qs.length = sp + BitVec.ofNat 16 (q :: qs).length := by
  rw [add_one_add_ofNat, List.length_cons]

theorem popAddresses_append (xs ys : List Reg) (sp : Word) :
    popAddresses (xs ++ ys) sp = popAddresses xs sp ++ popAddresses ys (sp + BitVec.ofNat 16 xs.length) := by
  induction xs generalizing sp with
  | nil =>
    have hzero : sp + BitVec.ofNat 16 0 = sp := BitVec.add_zero sp
    simp only [List.nil_append, popAddresses, List.length_nil, hzero]
  | cons q xs ih =>
    simp only [List.cons_append, popAddresses, ih, add_ofNat_length sp q xs]
    split <;> rfl

theorem popRegs_append (xs ys : List Reg) (sp : Word) (s : State) :
    popRegs (xs ++ ys) sp s = popRegs ys (sp + BitVec.ofNat 16 xs.length) (popRegs xs sp s) := by
  induction xs generalizing sp s with
  | nil =>
    have hzero : sp + BitVec.ofNat 16 0 = sp := BitVec.add_zero sp
    simp only [List.nil_append, popRegs, List.length_nil, hzero]
  | cons q xs ih =>
    simp only [List.cons_append, popRegs, ih, add_ofNat_length sp q xs]
    split <;> rfl

theorem popAll_append (xs ys : List Reg) (sp : Word) (r : Run) :
    popAll (xs ++ ys) sp r = popAll ys (sp + BitVec.ofNat 16 xs.length) (popAll xs sp r) := by
  induction xs generalizing sp r with
  | nil =>
    have hzero : sp + BitVec.ofNat 16 0 = sp := BitVec.add_zero sp
    simp only [List.nil_append, popAll, List.length_nil, hzero]
  | cons q xs ih =>
    simp only [List.cons_append, popAll, ih, add_ofNat_length sp q xs]
    split <;> rfl

/-- Pops change registers only. -/
theorem popRegs_frame (qs : List Reg) (sp : Word) (s : State) :
    popRegs qs sp s = { s with regs := (popRegs qs sp s).regs } := by
  induction qs generalizing sp s with
  | nil => rfl
  | cons q qs ih =>
    unfold popRegs
    split
    · exact ih (sp + 1) (s.setReg 15 (sp + 1))
    · exact ih (sp + 1) ((s.setReg q (s.loaded sp)).setReg 15 (sp + 1))

theorem popAll_clean {qs : List Reg} {sp : Word} {s : State} (halone : s.alone = true)
    (h : ∀ a ∈ popAddresses qs sp, s.readable a = true) : popAll qs sp s.start = (popRegs qs sp s).start := by
  induction qs generalizing sp s with
  | nil => rfl
  | cons q qs ih =>
    unfold popAll popRegs
    unfold popAddresses at h
    split
    · rename_i hq
      rw [if_pos hq] at h
      exact ih (s := s.setReg 15 (sp + 1)) halone h
    · rename_i hq
      rw [if_neg hq] at h
      dsimp only
      rw [State.read_clean s (h sp List.mem_cons_self), State.given_run, State.given_val, State.start_setReg, State.start_setReg,
        State.start_turn_alone (s := (s.setReg q (s.loaded sp)).setReg 15 (sp + 1)) halone]
      exact ih (s := (s.setReg q (s.loaded sp)).setReg 15 (sp + 1)) halone fun a ha => h a (List.mem_cons_of_mem _ ha)

theorem setReg_aborted {r : Run} (h : r.aborted = true) (q : Reg) (v : Word) : r.setReg q v = r := Run.update_aborted h _

/-- One pop of an aborted instruction: its word is read, and no register changes. -/
theorem popAll_step {q : Reg} {qs : List Reg} {sp : Word} {r : Run} (hq : q ≠ 15) (halone : r.s.alone = true)
    (hhalted : r.halted = false) (habort : (readsLeave r [sp]).aborted = true) :
    popAll (q :: qs) sp r = popAll qs (sp + 1) (readsLeave r [sp]) := by
  rw [popAll, if_neg hq]
  dsimp only
  rw [read_leaves hhalted sp, setReg_aborted habort, setReg_aborted habort,
    Run.turn_alone (by rw [readsLeave_alone]; exact halone)]

/-- An aborted pop only goes on reading. -/
theorem popAll_aborted {qs : List Reg} {sp : Word} {r : Run} (halone : r.s.alone = true) (hhalted : r.halted = false)
    (habort : r.aborted = true) : popAll qs sp r = readsLeave r (popAddresses qs sp) := by
  induction qs generalizing sp r with
  | nil => rfl
  | cons q qs ih =>
    by_cases hq : q = 15
    · rw [popAll, popAddresses, if_pos hq, if_pos hq, Run.setReg, Run.update_aborted habort]
      exact ih halone hhalted habort
    · have habort' := readsLeave_aborted habort [sp]
      rw [popAll_step hq halone hhalted habort', ih (by rw [readsLeave_alone]; exact halone)
        (by rw [readsLeave_halted]; exact hhalted) habort', readsLeave_append, popAddresses, if_neg hq, List.singleton_append]

/-- Pops whose first word cannot be read. -/
theorem popAll_faulted {q : Reg} {qs : List Reg} {sp : Word} {r : Run} (hq : q ≠ 15) (halone : r.s.alone = true)
    (hhalted : r.halted = false) (hbad : r.s.readable sp = false) :
    popAll (q :: qs) sp r = { r with s := Shape.readsFaulted r.s (popAddresses (q :: qs) sp) 0, aborted := true } := by
  have habort : (readsLeave r [sp]).aborted = true := by
    rw [readsLeave_faulted (List.mem_singleton.2 rfl) hbad]
  rw [popAll_step hq halone hhalted habort, popAll_aborted (by rw [readsLeave_alone]; exact halone)
    (by rw [readsLeave_halted]; exact hhalted) habort, readsLeave_append, popAddresses, if_neg hq, List.singleton_append,
    readsLeave_faulted List.mem_cons_self hbad]

/-! ## A range of registers -/

section Range

variable (ra : Reg) (sp : Word)

/-- The `n` registers from `ra` on. -/
def registersFrom (n : Nat) : List Reg := (List.range n).map fun k => ra + Fin.ofNat 16 k

theorem registersFrom_length (n : Nat) : (registersFrom ra n).length = n := by simp [registersFrom]

theorem registersFrom_succ (n : Nat) : registersFrom ra (n + 1) = registersFrom ra n ++ [ra + Fin.ofNat 16 n] := by
  rw [registersFrom, List.range_succ, List.map_append, List.map_singleton, registersFrom]

/-- The addresses read are those of all words but R15's. -/
theorem popAddresses_registersFrom (n : Nat) :
    popAddresses (registersFrom ra n) sp =
      ((List.range n).filter fun j => decide (ra + Fin.ofNat 16 j ≠ 15)).map fun j => sp + BitVec.ofNat 16 j := by
  induction n with
  | zero => rfl
  | succ n ih =>
    rw [registersFrom_succ, popAddresses_append, ih, registersFrom_length, List.range_succ, List.filter_append, List.map_append]
    by_cases hq : ra + Fin.ofNat 16 n = 15
    · rw [popAddresses, if_pos hq, popAddresses, List.filter_cons_of_neg (by rw [decide_eq_true_eq, not_not]; exact hq),
        List.filter_nil, List.map_nil]
    · rw [popAddresses, if_neg hq, popAddresses, List.filter_cons_of_pos (by rw [decide_eq_true_eq]; exact hq),
        List.filter_nil, List.map_singleton]

/-- The registers after `n` pops. -/
theorem popRegs_reg {n : Nat} (hn : n ≤ 16) (s : State) (hsp : s.reg 15 = sp) (q : Reg) :
    (popRegs (registersFrom ra n) sp s).reg q =
      if q = 15 then sp + BitVec.ofNat 16 n
      else if (q - ra).val < n then s.loaded (sp + BitVec.ofNat 16 (q - ra).val) else s.reg q := by
  induction n with
  | zero =>
    have hzero : sp + BitVec.ofNat 16 0 = sp := BitVec.add_zero sp
    rw [hzero, ← hsp]
    split
    · rename_i hq
      rw [hq]
      rfl
    · rfl
  | succ n ih =>
    have hframe := popRegs_frame (registersFrom ra n) sp s
    have hnext : sp + BitVec.ofNat 16 n + 1 = sp + BitVec.ofNat 16 (n + 1) := by
      rw [BitVec.add_assoc, BitVec.ofNat_add]
      rfl
    have hone : ∀ u : State, u = { s with regs := u.regs } → u.loaded (sp + BitVec.ofNat 16 n) = s.loaded (sp + BitVec.ofNat 16 n) := by
      intro u hu
      rw [hu]
      rfl
    have hidx : q = ra + Fin.ofNat 16 n ↔ (q - ra).val = n := by
      constructor
      · rintro rfl
        simp only [Fin.val_sub, Fin.val_add, Fin.ofNat]
        omega
      · intro h
        apply Fin.ext
        simp only [Fin.val_sub] at h
        simp only [Fin.val_add, Fin.ofNat]
        omega
    rw [registersFrom_succ, popRegs_append, registersFrom_length, popRegs, popRegs, popRegs, hnext]
    by_cases h15 : q = 15
    · rw [if_pos h15]
      split
      · rw [State.reg_setReg, if_pos h15]
      · rw [State.reg_setReg, if_pos h15]
    · rw [if_neg h15]
      split
      · rename_i hlast
        have hne : ¬ (q - ra).val = n := fun e => h15 ((hidx.2 e).trans hlast)
        have hlt : (q - ra).val < n + 1 ↔ (q - ra).val < n := by omega
        rw [State.reg_setReg, if_neg h15, ih (by omega), if_neg h15]
        simp only [hlt]
      · rw [State.reg_setReg, if_neg h15, State.reg_setReg, hone _ hframe, ih (by omega), if_neg h15]
        by_cases hlast : (q - ra).val = n
        · simp only [hidx, hlast, if_true, Nat.lt_succ_self]
        · have hlt : (q - ra).val < n + 1 ↔ (q - ra).val < n := by omega
          simp only [hidx, hlast, if_false, hlt]

end Range

/-! ## The instruction -/

theorem exec_popm (ra rb : Reg) (s : State) :
    exec (.popm ra rb) s = (popAll (registersFrom ra ((rb - ra).val + 1)) (s.reg 15) s.start).next 1 := rfl

/-- Settles O23: all pops, or the pops before the word that cannot be read. -/
theorem popMultiple : Obligations.PopMultiple := by
  intro ra rb s halone
  have hcount : (rb - ra).val + 1 ≤ 16 := (rb - ra).isLt
  constructor
  · intro hreads
    refine ⟨(popRegs (registersFrom ra ((rb - ra).val + 1)) (s.reg 15) s).past 1, ?_, ?_, fun q => ?_⟩
    · rw [exec_popm, popAll_clean halone, State.start_next]
      intro a ha
      rw [popAddresses_registersFrom] at ha
      obtain ⟨j, hj, rfl⟩ := List.mem_map.1 ha
      exact hreads j hj
    · rw [popRegs_frame]
      rfl
    · rw [State.past_reg, popRegs_reg ra (s.reg 15) hcount s rfl q]
  · intro j hj hbefore hbad
    obtain ⟨hjlt, hj15⟩ := List.mem_filter.1 hj
    have hjlt := List.mem_range.1 hjlt
    have hsplit : registersFrom ra ((rb - ra).val + 1) = registersFrom ra j ++
        (ra + Fin.ofNat 16 j) :: (List.range ((rb - ra).val - j)).map fun k => ra + Fin.ofNat 16 (j + (k + 1)) := by
      have hlen : (rb - ra).val + 1 = j + ((rb - ra).val - j + 1) := by omega
      rw [registersFrom, hlen, List.range_add, List.map_append, List.map_map, List.range_succ_eq_map, List.map_cons, List.map_map]
      rfl
    have hframe := popRegs_frame (registersFrom ra j) (s.reg 15) s
    have hreadable : ∀ a ∈ popAddresses (registersFrom ra j) (s.reg 15), s.readable a = true := by
      intro a ha
      rw [popAddresses_registersFrom] at ha
      obtain ⟨k, hk, rfl⟩ := List.mem_map.1 ha
      obtain ⟨hkj, hk15⟩ := List.mem_filter.1 hk
      have hkj := List.mem_range.1 hkj
      exact hbefore k (List.mem_filter.2 ⟨List.mem_range.2 (by omega), hk15⟩) hkj
    have hexec : exec (.popm ra rb) s = .next (Shape.readsFaulted (popRegs (registersFrom ra j) (s.reg 15) s)
        (popAddresses ((ra + Fin.ofNat 16 j) :: (List.range ((rb - ra).val - j)).map fun k => ra + Fin.ofNat 16 (j + (k + 1)))
          (s.reg 15 + BitVec.ofNat 16 j)) 1) := by
      rw [exec_popm, hsplit, popAll_append, popAll_clean halone hreadable, registersFrom_length,
        popAll_faulted (r := (popRegs (registersFrom ra j) (s.reg 15) s).start) (by simpa using hj15)
          (by rw [State.start_s, hframe]; exact halone) rfl (by rw [State.start_s, hframe]; exact hbad)]
      exact congrArg Host.Outcome.next (readsFaulted_past _ _ 1)
    have hall : Shape.readsFaulted s (((List.range ((rb - ra).val + 1)).filter fun j => decide (ra + Fin.ofNat 16 j ≠ 15)).map
        fun j => s.reg 15 + BitVec.ofNat 16 j) 1 = Shape.readsFaulted s
        (popAddresses ((ra + Fin.ofNat 16 j) :: (List.range ((rb - ra).val - j)).map fun k => ra + Fin.ofNat 16 (j + (k + 1)))
          (s.reg 15 + BitVec.ofNat 16 j)) 1 := by
      rw [← popAddresses_registersFrom, hsplit, popAddresses_append, registersFrom_length, readsFaulted_append hreadable]
    refine ⟨_, hexec, ?_, fun q => popRegs_reg ra (s.reg 15) (by omega) s rfl q⟩
    rw [hall]
    generalize popRegs (registersFrom ra j) (s.reg 15) s = u at hframe
    rw [hframe]
    rfl

end Sys2Proof.Proofs
end

