-- ==== Sys2Proof/Proofs/Push.lean ====
section
/-! PROOF. PSHM (45_multiple.md R441) where no other master comes between its writes: to the end, or past a push that draws MEM PRT
ER; and the stack linkage of SJS and URS (46_control.md R477, R478). -/

namespace Sys2Proof.Proofs

open Sys2Proof.Machine

/-! ## Stores one after another -/

/-- Stores at other places after stores. -/
theorem stored_trans {m m1 m2 : Memory} {l1 l2 : List (Phys × Word)} (h1 : Stored m m1 l1) (h2 : Stored m1 m2 l2)
    (hdisjoint : ∀ p ∈ l1, ∀ q ∈ l2, p.1 ≠ q.1) : Stored m m2 (l2 ++ l1) := by
  have hbyte : ∀ p ∈ l1, ∀ b, b = 2 * p.1.toNat ∨ b = 2 * p.1.toNat + 1 → m2.readByte b = m1.readByte b := by
    intro p hp b hb
    refine h2.2 b fun q hq => ?_
    have hne : p.1.toNat ≠ q.1.toNat := fun e => hdisjoint p hp q hq (BitVec.eq_of_toNat_eq e)
    omega
  constructor
  · intro p hp
    obtain hin | hin := List.mem_append.1 hp
    · exact h2.1 p hin
    · rw [← h1.1 p hin, Memory.readWord, Memory.readWord, hbyte p hin _ (.inl rfl), hbyte p hin _ (.inr rfl)]
  · intro b hb
    rw [h2.2 b fun p hp => hb p (List.mem_append.2 (.inl hp)), h1.2 b fun p hp => hb p (List.mem_append.2 (.inr hp))]

section Placed

variable (s : State) (addr : Word)

theorem placed_append (xs ys : List Word) :
    s.placed addr (xs ++ ys) = s.placed addr xs ++ s.placed (addr + BitVec.ofNat 16 xs.length) ys := by
  induction xs generalizing addr with
  | nil =>
    have hzero : addr + BitVec.ofNat 16 0 = addr := BitVec.add_zero addr
    simp only [List.nil_append, State.placed, List.length_nil, hzero]
  | cons v xs ih => simp only [List.cons_append, State.placed, ih, add_ofNat_length addr v xs]

theorem placed_length (ws : List Word) : (s.placed addr ws).length = ws.length := by
  induction ws generalizing addr with
  | nil => rfl
  | cons v ws ih => simp only [State.placed, List.length_cons, ih]

theorem placed_congr {t : State} (h : ∀ a, t.place a = s.place a) (ws : List Word) : t.placed addr ws = s.placed addr ws := by
  induction ws generalizing addr with
  | nil => rfl
  | cons v ws ih => simp only [State.placed, h, ih]

theorem mem_placed {ws : List Word} {p : Phys × Word} (h : p ∈ s.placed addr ws) :
    ∃ k < ws.length, p.1 = s.place (addr + BitVec.ofNat 16 k) := by
  rw [placed_eq] at h
  obtain ⟨k, hk, rfl⟩ := List.mem_map.1 h
  exact ⟨k, List.mem_range.1 hk, rfl⟩

/-- Stretches of a page that do not overlap. -/
theorem placed_disjoint {xs ys : List Word} {d : Nat} (hd : xs.length ≤ d) (hlen : d + ys.length ≤ 4096) :
    ∀ p ∈ s.placed addr xs, ∀ q ∈ s.placed (addr + BitVec.ofNat 16 d) ys, p.1 ≠ q.1 := by
  intro p hp q hq
  obtain ⟨j, hj, hp⟩ := mem_placed s addr hp
  obtain ⟨k, hk, hq⟩ := mem_placed s _ hq
  rw [hp, hq, BitVec.add_assoc, ← BitVec.ofNat_add]
  exact place_ne s addr (by omega) (by omega) (by omega)

end Placed

/-! ## The words a push stores -/

/-- The words that the pushes of these registers store, by rising address; R15 as it is at its turn. -/
def pushWords : List Reg → Word → State → List Word
  | [], _, _ => []
  | q :: qs, sp, s => pushWords qs (sp - 1) s ++ [if q = 15 then sp - 1 else s.reg q]

theorem pushWords_length (qs : List Reg) (sp : Word) (s : State) : (pushWords qs sp s).length = qs.length := by
  induction qs generalizing sp with
  | nil => rfl
  | cons q qs ih => simp only [pushWords, List.length_append, ih, List.length_cons, List.length_nil]

theorem pushWords_congr {s t : State} (h : ∀ q, q ≠ 15 → t.reg q = s.reg q) (qs : List Reg) (sp : Word) :
    pushWords qs sp t = pushWords qs sp s := by
  induction qs generalizing sp with
  | nil => rfl
  | cons q qs ih =>
    by_cases hq : q = 15
    · simp only [pushWords, ih, hq, if_true]
    · simp only [pushWords, ih, hq, if_false, h q hq]

/-- `sp - 1 - k` is `sp - (k + 1)`. -/
theorem sub_ofNat_length {α : Type} (sp : Word) (q : α) (qs : List α) :
    sp - 1 - BitVec.ofNat 16 qs.length = sp - BitVec.ofNat 16 (q :: qs).length := by
  rw [List.length_cons, BitVec.ofNat_add]
  bv_omega

theorem pushWords_append (xs ys : List Reg) (sp : Word) (s : State) :
    pushWords (xs ++ ys) sp s = pushWords ys (sp - BitVec.ofNat 16 xs.length) s ++ pushWords xs sp s := by
  induction xs generalizing sp with
  | nil =>
    have hzero : sp - BitVec.ofNat 16 0 = sp := BitVec.sub_zero sp
    simp only [List.nil_append, pushWords, List.length_nil, hzero, List.append_nil]
  | cons q xs ih => simp only [List.cons_append, pushWords, ih, sub_ofNat_length sp q xs, List.append_assoc]

theorem pushAll_append (xs ys : List Reg) (sp : Word) (r : Run) :
    pushAll (xs ++ ys) sp r = pushAll ys (sp - BitVec.ofNat 16 xs.length) (pushAll xs sp r) := by
  induction xs generalizing sp r with
  | nil =>
    have hzero : sp - BitVec.ofNat 16 0 = sp := BitVec.sub_zero sp
    simp only [List.nil_append, pushAll, List.length_nil, hzero]
  | cons q xs ih => simp only [List.cons_append, pushAll, ih, sub_ofNat_length sp q xs]

/-- The words of a range of registers pushed down to `sp`. -/
theorem pushWords_registersFrom (ra : Reg) (sp : Word) (n : Nat) (s : State) :
    pushWords (registersFrom ra n).reverse (sp + BitVec.ofNat 16 n) s =
      (List.range n).map fun j =>
        if ra + Fin.ofNat 16 j = 15 then sp + BitVec.ofNat 16 j else s.reg (ra + Fin.ofNat 16 j) := by
  induction n with
  | zero => rfl
  | succ n ih =>
    have hdown : sp + BitVec.ofNat 16 (n + 1) - 1 = sp + BitVec.ofNat 16 n := by
      rw [BitVec.ofNat_add]
      bv_omega
    rw [registersFrom_succ, List.reverse_append, List.reverse_singleton, List.singleton_append, pushWords, hdown, ih,
      List.range_succ, List.map_append, List.map_singleton]

/-! ## Pushes that draw no fault -/

theorem setReg_self (s : State) (q : Reg) : s.setReg q (s.reg q) = s := by
  simp only [State.setReg, State.reg, Vector.set_getElem_self]

theorem setReg_setReg (s : State) (q : Reg) (v w : Word) : (s.setReg q v).setReg q w = s.setReg q w := by
  simp only [State.setReg, Vector.set_set]

/-- The last of the addresses below `sp`. -/
theorem sub_add_last {α : Type} (sp : Word) (q : α) (qs : List α) :
    sp - BitVec.ofNat 16 (q :: qs).length + BitVec.ofNat 16 qs.length = sp - 1 := by
  rw [List.length_cons, BitVec.ofNat_add]
  bv_omega

/-- All pushes land: R15 is down by their number and the words stand above it. -/
theorem pushAll_clean {qs : List Reg} {sp : Word} {s : State} (hsp : s.reg 15 = sp) (hwf : s.mem.wf = true)
    (halone : s.alone = true) (hlen : qs.length ≤ 4096)
    (hw : ∀ k < qs.length, s.writable (sp - BitVec.ofNat 16 qs.length + BitVec.ofNat 16 k) = true) :
    ∃ m, pushAll qs sp s.start = ({ s.setReg 15 (sp - BitVec.ofNat 16 qs.length) with mem := m } : State).start ∧
      m.wf = true ∧ Stored s.mem m (s.placed (sp - BitVec.ofNat 16 qs.length) (pushWords qs sp s)) := by
  induction qs generalizing sp s with
  | nil =>
    have hzero : sp - BitVec.ofNat 16 0 = sp := BitVec.sub_zero sp
    refine ⟨s.mem, ?_, hwf, fun p hp => absurd hp (by simp [pushWords, State.placed]), fun _ _ => rfl⟩
    rw [List.length_nil, hzero, ← hsp, setReg_self]
    rfl
  | cons q qs ih =>
    have hlast : s.writable (sp - 1) = true := by
      have hw' := hw qs.length (by simp)
      rwa [sub_add_last sp q qs] at hw'
    have hlen' : qs.length ≤ 4096 := by
      rw [List.length_cons] at hlen
      omega
    have hvalue : (s.setReg 15 (sp - 1)).reg q = if q = 15 then sp - 1 else s.reg q := State.reg_setReg s 15 (sp - 1) q
    have hfirst : pushAll (q :: qs) sp s.start = pushAll qs (sp - 1)
        ({ s.setReg 15 (sp - 1) with
          mem := s.mem.writeWord (s.place (sp - 1)) (if q = 15 then sp - 1 else s.reg q) } : State).start := by
      rw [pushAll, State.start_setReg, State.start_s, hvalue, State.write_clean (s.setReg 15 (sp - 1)) _ hlast,
        State.start_turn_alone (by exact halone)]
      rfl
    generalize hs1 : ({ s.setReg 15 (sp - 1) with
      mem := s.mem.writeWord (s.place (sp - 1)) (if q = 15 then sp - 1 else s.reg q) } : State) = s1 at hfirst
    have hsp1 : s1.reg 15 = sp - 1 := by
      rw [← hs1]
      exact (State.reg_setReg s 15 (sp - 1) 15).trans (if_pos rfl)
    have hregs : ∀ r, r ≠ 15 → s1.reg r = s.reg r := by
      intro r hr
      rw [← hs1]
      exact (State.reg_setReg s 15 (sp - 1) r).trans (if_neg hr)
    have hplace : ∀ a, s1.place a = s.place a := by
      rw [← hs1]
      exact fun _ => rfl
    have hwritable : ∀ a, s1.writable a = s.writable a := by
      rw [← hs1]
      exact fun _ => rfl
    have hmem : s1.mem = s.mem.writeWord (s.place (sp - 1)) (if q = 15 then sp - 1 else s.reg q) := by rw [← hs1]
    obtain ⟨m, hrun, hmwf, hstored⟩ := ih (s := s1) hsp1 (by rw [hmem]; exact Memory.wf_writeWord _ _ hwf)
      (by rw [← hs1]; exact halone) hlen' fun k hk => by
        rw [sub_ofNat_length sp q qs, hwritable]
        exact hw k (by rw [List.length_cons]; omega)
    refine ⟨m, ?_, hmwf, ?_⟩
    · rw [hfirst, hrun, sub_ofNat_length sp q qs, ← hs1]
      change (State.start { (s.setReg 15 (sp - 1)).setReg 15 _ with mem := m }) = _
      rw [setReg_setReg]
    · rw [placed_congr s _ hplace, pushWords_congr hregs, sub_ofNat_length sp q qs, hmem] at hstored
      have hword := Memory.stored_writeWord (s.place (sp - 1)) (if q = 15 then sp - 1 else s.reg q) hwf
      have hlastPlaced : [(s.place (sp - 1), if q = 15 then sp - 1 else s.reg q)] =
          s.placed (sp - BitVec.ofNat 16 (q :: qs).length + BitVec.ofNat 16 qs.length)
            [if q = 15 then sp - 1 else s.reg q] := by
        rw [sub_add_last sp q qs]
        rfl
      rw [pushWords, placed_append, pushWords_length]
      rw [hlastPlaced] at hword
      refine stored_trans hword hstored fun p hp r hr => ?_
      exact (placed_disjoint s _ (by rw [pushWords_length]) (by simpa using hlen) r hr p hp).symm

/-! ## Pushes of an aborted instruction -/

/-- A cycle without a fault changes nothing by itself. -/
theorem faulted_clean (s : State) {c : Cycle} (h : c.clean = true) : faulted s c = s := by
  have hft : s.ft ||| 0 = s.ft := BitVec.or_zero
  have hpir : s.pir ||| pendingIf (!true) 1 = s.pir := BitVec.or_zero
  have hpulse : abortPulse c = [] := by rw [abortPulse, cycleAborts_of_clean h]; rfl
  simp only [faulted, cycleFaults_of_clean h, hft, h, hpir, hpulse, List.nil_append]

/-- `s` after an open word has been stored at `addr`. -/
def openStore (s : State) (addr : Word) : State :=
  { s with mem := s.mem.writeWord (s.place addr) (Config.freeWord s.free), free := s.free + 1 }

theorem openStore_placed (s : State) (addr a : Word) (ws : List Word) : (openStore s addr).placed a ws = s.placed a ws :=
  placed_congr (t := openStore s addr) s a (fun _ => rfl) ws

/-- A write of an aborted instruction stores an open word. -/
theorem write_aborted {r : Run} (habort : r.aborted = true) (hhalted : r.halted = false) {addr : Word}
    (hw : r.s.writable addr = true) (v : Word) :
    r.write addr v = { r with s := openStore r.s addr } := by
  obtain ⟨hclean, hlands⟩ := clean_of_writable hw
  rw [run_write_eq hhalted, afterWrite, faulted_clean _ hclean, hlands, habort, hhalted]
  rfl

/-- They store open words and change no register. -/
theorem pushAll_aborted {qs : List Reg} {sp : Word} {r : Run} (hwf : r.s.mem.wf = true) (halone : r.s.alone = true)
    (hhalted : r.halted = false) (habort : r.aborted = true) (hlen : qs.length ≤ 4096)
    (hw : ∀ k < qs.length, r.s.writable (sp - BitVec.ofNat 16 qs.length + BitVec.ofNat 16 k) = true) :
    ∃ m us, us.length = qs.length ∧
      pushAll qs sp r = { r with s := { r.s with mem := m, free := r.s.free + qs.length } } ∧ m.wf = true ∧
      Stored r.s.mem m (r.s.placed (sp - BitVec.ofNat 16 qs.length) us) := by
  induction qs generalizing sp r with
  | nil => exact ⟨r.s.mem, [], rfl, rfl, hwf, fun p hp => absurd hp (by simp [State.placed]), fun _ _ => rfl⟩
  | cons q qs ih =>
    have hlast : r.s.writable (sp - 1) = true := by
      have hw' := hw qs.length (by simp)
      rwa [sub_add_last sp q qs] at hw'
    have hlen' : qs.length ≤ 4096 := by
      rw [List.length_cons] at hlen
      omega
    have hfirst : pushAll (q :: qs) sp r = pushAll qs (sp - 1) { r with s := openStore r.s (sp - 1) } := by
      rw [pushAll, setReg_aborted habort, write_aborted habort hhalted hlast]
      rw [Run.turn_alone (by exact halone)]
    obtain ⟨m, us, hus, hrun, hmwf, hstored⟩ := ih (sp := sp - 1) (r := { r with s := openStore r.s (sp - 1) })
      (Memory.wf_writeWord _ _ hwf) halone hhalted habort hlen' fun k hk => by
        rw [sub_ofNat_length sp q qs]
        exact hw k (by rw [List.length_cons]; omega)
    refine ⟨m, us ++ [Config.freeWord r.s.free], by rw [List.length_append, hus]; rfl, ?_, hmwf, ?_⟩
    · rw [hfirst, hrun, List.length_cons, Nat.add_comm qs.length 1, ← Nat.add_assoc]
      rfl
    · have hword := Memory.stored_writeWord (r.s.place (sp - 1)) (Config.freeWord r.s.free) hwf
      have hlastPlaced : [(r.s.place (sp - 1), Config.freeWord r.s.free)] =
          r.s.placed (sp - BitVec.ofNat 16 (q :: qs).length + BitVec.ofNat 16 us.length) [Config.freeWord r.s.free] := by
        rw [hus, sub_add_last sp q qs]
        rfl
      rw [openStore_placed, sub_ofNat_length sp q qs] at hstored
      rw [hlastPlaced] at hword
      rw [placed_append]
      refine stored_trans hword hstored fun p hp x hx => ?_
      exact (placed_disjoint r.s _ (le_refl _) (by rw [hus]; simpa using hlen) x hx p hp).symm

/-! ## The instruction -/

theorem exec_pshm (ra rb : Reg) (s : State) :
    exec (.pshm ra rb) s = (pushAll (registersFrom ra ((rb - ra).val + 1)).reverse (s.reg 15) s.start).next 1 := rfl

/-- `s` after a write at `addr` that draws MEM PRT ER. -/
def refusedStore (s : State) (addr : Word) : State :=
  { s with
    ft := s.ft ||| Shape.cycleFaults (s.ownCycle .write addr)
    pir := s.pir ||| oneBit 1
    trace := .majEr :: s.trace }

/-- A write that draws MEM PRT ER: nothing is stored, the instruction is aborted. -/
theorem write_refused {s : State} {addr : Word} (h : (s.ownCycle .write addr).protect = true) (v : Word) :
    s.start.write addr v = { s := refusedStore s addr, aborted := true, halted := false } := by
  have hlands : s.lands (s.ownCycle .write addr) = false := by simp [State.lands, h]
  have hclean : (s.ownCycle .write addr).clean = false := by simp [Cycle.clean, h]
  have haborts : cycleAborts (s.ownCycle .write addr) = true := by simp [cycleAborts, h]
  rw [run_write_eq rfl, State.start_s, afterWrite, hlands, faulted, hclean, abortPulse, haborts]
  rfl

/-- A range of pushes, cut at register `ra + j`. -/
theorem registersFrom_reverse_cut (ra : Reg) {n j : Nat} (hj : j < n) :
    (registersFrom ra n).reverse =
      (registersFrom (ra + Fin.ofNat 16 (j + 1)) (n - 1 - j)).reverse ++
        (ra + Fin.ofNat 16 j) :: (registersFrom ra j).reverse := by
  have hsplit : n = j + 1 + (n - 1 - j) := by omega
  have hupper : registersFrom ra (j + 1 + (n - 1 - j)) =
      registersFrom ra (j + 1) ++ registersFrom (ra + Fin.ofNat 16 (j + 1)) (n - 1 - j) := by
    rw [registersFrom, List.range_add, List.map_append, List.map_map]
    refine congrArg (_ ++ ·) (List.map_congr_left fun k _ => ?_)
    apply Fin.ext
    simp only [Function.comp_def, Fin.val_add, Fin.ofNat]
    omega
  conv_lhs => rw [hsplit]
  rw [hupper, registersFrom_succ, List.reverse_append, List.reverse_append]
  rfl

/-- Words around the one that a list of three parts holds in its middle. -/
theorem placed_eraseIdx (s : State) (sp : Word) (us upper : List Word) (x : Word) :
    (s.placed sp (us ++ x :: upper)).eraseIdx us.length =
      s.placed sp us ++ s.placed (sp + BitVec.ofNat 16 (us.length + 1)) upper := by
  have hcons : s.placed (sp + BitVec.ofNat 16 us.length) (x :: upper) =
      (s.place (sp + BitVec.ofNat 16 us.length), x) :: s.placed (sp + BitVec.ofNat 16 (us.length + 1)) upper := by
    rw [State.placed, BitVec.add_assoc, BitVec.ofNat_add]
    rfl
  rw [placed_append, hcons, List.eraseIdx_append_of_length_le (by rw [placed_length]), placed_length, Nat.sub_self]
  rfl

section Push

variable {ra rb : Reg} {s : State}

theorem pshm_clean (hwf : s.mem.wf = true) (halone : s.alone = true)
    (hw : s.writableSpan (s.reg 15 - BitVec.ofNat 16 ((rb - ra).val + 1)) ((rb - ra).val + 1) = true) :
    ∃ t, exec (.pshm ra rb) s = .next t ∧
      t = { (s.setReg 15 (s.reg 15 - BitVec.ofNat 16 ((rb - ra).val + 1))).past 1 with mem := t.mem } ∧ t.mem.wf = true ∧
      Stored s.mem t.mem (s.placed (s.reg 15 - BitVec.ofNat 16 ((rb - ra).val + 1))
        (pushWords (registersFrom ra ((rb - ra).val + 1)).reverse (s.reg 15) s)) := by
  have hlength : (registersFrom ra ((rb - ra).val + 1)).reverse.length = (rb - ra).val + 1 := by
    rw [List.length_reverse, registersFrom_length]
  obtain ⟨m, hrun, hmwf, hstored⟩ := pushAll_clean (qs := (registersFrom ra ((rb - ra).val + 1)).reverse) rfl hwf halone
    (by rw [hlength]; omega) fun k hk => by
      rw [hlength] at hk ⊢
      exact (writable_of_span hw).1 k hk
  rw [hlength] at hrun hstored
  refine ⟨({ s.setReg 15 (s.reg 15 - BitVec.ofNat 16 ((rb - ra).val + 1)) with mem := m } : State).past 1, ?_, rfl, hmwf, hstored⟩
  rw [exec_pshm, hrun, State.start_next]

/-- The pushes above the refused one, the refused one, the open ones below it. -/
theorem pshm_refused {sp : Word} {n j : Nat} (hj : j < n) (hn : n ≤ 16) (hsp : s.reg 15 = sp + BitVec.ofNat 16 n)
    (hwf : s.mem.wf = true) (halone : s.alone = true)
    (hbad : (s.ownCycle .write (sp + BitVec.ofNat 16 j)).protect = true)
    (hw : ∀ k < n, k ≠ j → s.writable (sp + BitVec.ofNat 16 k) = true) :
    ∃ (m : Memory) (us : List Word), us.length = j ∧ m.wf = true ∧
      (pushAll (registersFrom ra n).reverse (s.reg 15) s.start).s =
        { s.setReg 15 (sp + BitVec.ofNat 16 j) with
          ft := s.ft ||| Shape.cycleFaults (s.ownCycle .write (sp + BitVec.ofNat 16 j))
          pir := s.pir ||| oneBit 1, trace := .majEr :: s.trace, free := s.free + j, mem := m } ∧
      Stored s.mem m (s.placed sp us ++ s.placed (sp + BitVec.ofNat 16 (j + 1))
        (pushWords (registersFrom (ra + Fin.ofNat 16 (j + 1)) (n - 1 - j)).reverse (s.reg 15) s)) := by
  have hupperLength : (registersFrom (ra + Fin.ofNat 16 (j + 1)) (n - 1 - j)).reverse.length = n - 1 - j := by
    rw [List.length_reverse, registersFrom_length]
  have hlowerLength : (registersFrom ra j).reverse.length = j := by rw [List.length_reverse, registersFrom_length]
  have hbottom : s.reg 15 - BitVec.ofNat 16 (n - 1 - j) = sp + BitVec.ofNat 16 (j + 1) := by
    have hparts : BitVec.ofNat 16 n = BitVec.ofNat 16 (j + 1) + BitVec.ofNat 16 (n - 1 - j) := by
      rw [← BitVec.ofNat_add]
      congr 1
      omega
    rw [hsp, hparts, ← BitVec.add_assoc, BitVec.add_sub_cancel]
  obtain ⟨m1, hupper, hwf1, hstored1⟩ := pushAll_clean (qs := (registersFrom (ra + Fin.ofNat 16 (j + 1)) (n - 1 - j)).reverse) rfl
    hwf halone (by omega) fun k hk => by
      rw [hupperLength] at hk ⊢
      rw [hbottom, BitVec.add_assoc, ← BitVec.ofNat_add]
      exact hw _ (by omega) (by omega)
  rw [hupperLength, hbottom] at hupper hstored1
  have hstep : sp + BitVec.ofNat 16 (j + 1) - 1 = sp + BitVec.ofNat 16 j := by
    rw [BitVec.ofNat_add]
    bv_omega
  have hmiddle : pushAll ((ra + Fin.ofNat 16 j) :: (registersFrom ra j).reverse) (sp + BitVec.ofNat 16 (j + 1))
      ({ s.setReg 15 (sp + BitVec.ofNat 16 (j + 1)) with mem := m1 } : State).start =
      pushAll (registersFrom ra j).reverse (sp + BitVec.ofNat 16 j)
        { s := { refusedStore (s.setReg 15 (sp + BitVec.ofNat 16 j)) (sp + BitVec.ofNat 16 j) with mem := m1 }
          aborted := true, halted := false } := by
    have hregister : (({ s.setReg 15 (sp + BitVec.ofNat 16 (j + 1)) with mem := m1 } : State).setReg 15
        (sp + BitVec.ofNat 16 j)) = { s.setReg 15 (sp + BitVec.ofNat 16 j) with mem := m1 } := by
      change { (s.setReg 15 (sp + BitVec.ofNat 16 (j + 1))).setReg 15 (sp + BitVec.ofNat 16 j) with mem := m1 } = _
      rw [setReg_setReg]
    rw [pushAll, hstep, State.start_setReg, hregister,
      write_refused (s := { s.setReg 15 (sp + BitVec.ofNat 16 j) with mem := m1 }) hbad, Run.turn_alone (by exact halone)]
    rfl
  obtain ⟨m, us, hus, hlower, hmwf, hstored⟩ := pushAll_aborted (qs := (registersFrom ra j).reverse)
    (sp := sp + BitVec.ofNat 16 j)
    (r := { s := { refusedStore (s.setReg 15 (sp + BitVec.ofNat 16 j)) (sp + BitVec.ofNat 16 j) with mem := m1 }
            aborted := true, halted := false })
    hwf1 halone rfl rfl (by omega) fun k hk => by
      rw [hlowerLength] at hk ⊢
      rw [BitVec.add_sub_cancel]
      exact hw k (by omega) (by omega)
  rw [hlowerLength] at hlower hus hstored
  refine ⟨m, us, hus, hmwf, ?_, ?_⟩
  · rw [registersFrom_reverse_cut ra hj, pushAll_append, hupper, hupperLength, hbottom, hmiddle, hlower]
    rfl
  · rw [placed_congr (t := { refusedStore (s.setReg 15 (sp + BitVec.ofNat 16 j)) (sp + BitVec.ofNat 16 j) with mem := m1 }) s _
      (fun _ => rfl), BitVec.add_sub_cancel] at hstored
    refine stored_trans hstored1 hstored fun p hp x hx => ?_
    exact (placed_disjoint s sp (by omega) (by rw [pushWords_length]; omega) x hx p hp).symm

end Push

/-- Settles O22. -/
theorem pushMultiple : Obligations.PushMultiple := by
  intro ra rb s count sp ws hwf halone
  have hcount : count ≤ 16 := (rb - ra).isLt
  have htop : s.reg 15 = sp + BitVec.ofNat 16 count := (BitVec.sub_add_cancel _ _).symm
  have hwords : pushWords (registersFrom ra count).reverse (s.reg 15) s = ws := by
    rw [htop]
    exact pushWords_registersFrom ra sp count s
  constructor
  · intro hw
    obtain ⟨t, hexec, ht, htwf, hstored⟩ := pshm_clean hwf halone hw
    exact ⟨t, hexec, ht, htwf, hwords ▸ hstored⟩
  · intro j hj hbad hw
    obtain ⟨m, us, hus, hmwf, hstate, hstored⟩ := pshm_refused (ra := ra) hj hcount htop hwf halone hbad hw
    have hupper : pushWords (registersFrom (ra + Fin.ofNat 16 (j + 1)) (count - 1 - j)).reverse (s.reg 15) s = ws.drop (j + 1) := by
      rw [← hwords, registersFrom_reverse_cut ra hj, pushWords_append, List.drop_left']
      rw [pushWords_length, List.length_cons, List.length_reverse, registersFrom_length]
    rw [hupper] at hstored
    have hlength : ws.length = count := by simp only [ws, List.length_map, List.length_range]
    refine ⟨({ s.setReg 15 (sp + BitVec.ofNat 16 j) with
      ft := s.ft ||| Shape.cycleFaults (s.ownCycle .write (sp + BitVec.ofNat 16 j))
      pir := s.pir ||| oneBit 1, trace := .majEr :: s.trace, free := s.free + j, mem := m } : State).past 1,
      us ++ 0 :: ws.drop (j + 1), ?_, ?_, ?_, rfl, hmwf, ?_⟩
    · rw [exec_pshm]
      exact congrArg Host.Outcome.next (congrArg (fun u : State => u.past 1) hstate)
    · rw [List.length_append, List.length_cons, List.length_drop, hus, hlength]
      omega
    · have hskip : (us ++ [0]).length = j + 1 := by rw [List.length_append, hus]; rfl
      rw [List.append_cons, ← hskip, List.drop_left]
    · have herase := placed_eraseIdx s sp us (ws.drop (j + 1)) 0
      rw [hus] at herase
      rw [herase]
      exact hstored

/-! ## Stack linkage -/

theorem exec_sjs (ra rx : Reg) (a : Word) (s : State) :
    exec (.sjs ra rx a) s =
      ((s.start.setReg ra (s.reg ra - 1)).write (s.reg ra - 1) (s.ic + 2)).jump 2 (s.indexed a rx) := rfl

theorem exec_urs (ra : Reg) (s : State) :
    exec (.urs ra) s = ((s.start.read (s.reg ra)).run.setReg ra (s.reg ra + 1)).jump 1 (s.start.read (s.reg ra)).val := rfl

/-- A read that draws a fault, as the statements describe it. -/
theorem read_faulted {s : State} {addr : Word} (h : s.readable addr = false) :
    (s.start.read addr).run = { s := Shape.readsFaulted s [addr] 0, aborted := true, halted := false } := by
  rw [read_leaves rfl, readsLeave_faulted (r := s.start) (a := addr) (List.mem_singleton.2 rfl) h]
  rfl

/-- An aborted instruction does not jump. -/
theorem jump_aborted {r : Run} (h : r.aborted = true) (len target : Word) : r.jump len target = r.next len := by
  simp only [Run.jump, Run.next, h, if_true]

/-- SJS whose push draws MEM PRT ER or PAR ER. -/
theorem sjs_refused {ra rx : Reg} {a : Word} {s : State} (hwf : s.mem.wf = true)
    (hbad : (s.ownCycle .write (s.reg ra - 1)).protect = true ∨ (s.ownCycle .write (s.reg ra - 1)).parity = true) :
    ∃ t, exec (.sjs ra rx a) s = .next t ∧
      Shape.Stores (s.setReg ra (s.reg ra - 1)) (s.reg ra - 1) [s.ic + 2] false 2 t := by
  have hwrote := wrote_writeEach (r := (s.setReg ra (s.reg ra - 1)).start) (ws := [s.ic + 2]) (s.reg ra - 1) (by simp) hwf rfl
  have habort : (writeEach [s.ic + 2] (s.reg ra - 1) (s.setReg ra (s.reg ra - 1)).start).aborted = true := by
    have hzero : s.reg ra - 1 + BitVec.ofNat 16 0 = s.reg ra - 1 := BitVec.add_zero _
    have hcycle : (s.setReg ra (s.reg ra - 1)).ownCycle .write (s.reg ra - 1) = s.ownCycle .write (s.reg ra - 1) := rfl
    rw [hwrote.aborted, List.length_singleton, List.range_one, List.any_cons, List.any_nil, State.start_s, hzero, hcycle,
      Bool.or_false, State.start_aborted, Bool.false_or, Bool.or_eq_true]
    exact hbad
  refine ⟨_, ?_, hwrote.stores 2⟩
  rw [exec_sjs, State.start_setReg]
  exact jump_aborted habort 2 _

/-- Settles O28. -/
theorem stackLinkage : Obligations.StackLinkage := by
  intro ra rx a s
  refine ⟨fun hwf hw => ?_, fun hwf hbad => sjs_refused hwf hbad, fun hr => ?_, fun hr => ?_⟩
  · have hexec := exec_sjs ra rx a s
    rw [State.start_setReg, State.write_clean (s.setReg ra (s.reg ra - 1)) _ hw, State.start_jump] at hexec
    exact exists_stored (g := fun m => { s.setReg ra (s.reg ra - 1) with ic := s.indexed a rx, mem := m }) hwf
      (fun _ => rfl) hexec
  · rw [exec_urs, State.read_clean s hr]
    rfl
  · rw [exec_urs, read_faulted hr, Run.setReg, Run.update_aborted rfl, jump_aborted rfl]
    exact congrArg Host.Outcome.next (readsFaulted_past s _ 1)

end Sys2Proof.Proofs
end

