-- ==== Sys2Proof/Proofs/Move.lean ====
section
/-! PROOF. One step of MOV (45_multiple.md R446, 60_exceptions.md R664, R689): a word moved, an interrupt taken, or the cycles of
all remaining words after one that aborts. -/

namespace Sys2Proof.Proofs

open Sys2Proof.Machine

section Move

variable (ra rb : Reg) {s v : State}

theorem exec_mov (s : State) : exec (.mov ra rb) s = (s.movePlan ra rb).result := rfl

/-- What follows a step of MOV is told by its plan. -/
def planEnding : MovePlan → Ending
  | .finished _ => .boundary
  | .more _ => .between ra rb
  | .suspended _ | .failed _ => .taken

theorem ending_mov (s : State) : s.ending (.mov ra rb) = planEnding ra rb (s.movePlan ra rb) := by
  unfold State.ending
  dsimp only
  cases s.movePlan ra rb <;> rfl

/-! ## Which way a step goes -/

theorem movePlan_zero (h : s.reg (ra + 1) = 0) : s.movePlan ra rb = .finished s.start := by
  rw [State.movePlan, if_pos h]

/-- A word is moved where nothing disturbs, and where a sequence has been abandoned. -/
theorem movePlan_word (hcount : s.reg (ra + 1) ≠ 0)
    (hv : ((s.spi ≠ .idle ∨ s.nextLevel = none) ∧ v = s) ∨
      (s.spi = .idle ∧ ∃ n, s.nextLevel = some n ∧ s.interrupt n 0 = .abandoned v)) :
    s.movePlan ra rb = v.moveWord ra rb := by
  rw [State.movePlan, if_neg hcount]
  obtain ⟨hundisturbed, rfl⟩ | ⟨hspi, n, hlevel, hseq⟩ := hv
  · rw [moveInterrupt_none hundisturbed]
  · rw [State.moveInterrupt, if_pos hspi, hlevel, Option.map_some, hseq]

theorem movePlan_interrupt (hcount : s.reg (ra + 1) ≠ 0) (hspi : s.spi = .idle) {n : Fin 16} (hlevel : s.nextLevel = some n) :
    (∀ t, s.interrupt n 0 = .entered t → s.movePlan ra rb = .suspended t) ∧
      ∀ f, s.interrupt n 0 = .failed f → s.movePlan ra rb = .failed f := by
  constructor
  · intro t hseq
    rw [State.movePlan, if_neg hcount, State.moveInterrupt, if_pos hspi, hlevel, Option.map_some, hseq]
  · intro f hseq
    rw [State.movePlan, if_neg hcount, State.moveInterrupt, if_pos hspi, hlevel, Option.map_some, hseq]

/-! ## A word moved -/

/-- Both addresses up, the count down, each change seeing the one before. -/
theorem moveRegisters_reg (v : State) (q : Reg) :
    (v.moveRegisters ra rb).reg q =
      v.reg q + (if q = ra then 1 else 0) + (if q = rb then 1 else 0) - (if q = ra + 1 then 1 else 0) := by
  have hra : ∀ q, (v.setReg ra (v.reg ra + 1)).reg q = v.reg q + if q = ra then 1 else 0 := by
    intro q
    rw [State.reg_setReg]
    split
    · rename_i hq
      rw [hq]
    · exact (BitVec.add_zero _).symm
  have hrb : ∀ q, ((v.setReg ra (v.reg ra + 1)).setReg rb ((v.setReg ra (v.reg ra + 1)).reg rb + 1)).reg q =
      v.reg q + (if q = ra then 1 else 0) + if q = rb then 1 else 0 := by
    intro q
    rw [State.reg_setReg, hra]
    split
    · rename_i hq
      rw [hq]
    · rw [hra]
      exact (BitVec.add_zero _).symm
  unfold State.moveRegisters
  dsimp only
  rw [State.reg_setReg, hrb]
  split
  · rename_i hq
    rw [hq]
  · rw [hrb]
    exact (BitVec.sub_zero _).symm

/-- Where the count stands after a word. -/
def planAfter (t : State) : MovePlan := if t.reg (ra + 1) = 0 then .finished t.start else .more t

theorem planAfter_result (t : State) :
    (planAfter ra t).result = .next { t with ic := if t.reg (ra + 1) = 0 then t.ic + 1 else t.ic } ∧
      planEnding ra rb (planAfter ra t) = if t.reg (ra + 1) = 0 then .boundary else .between ra rb := by
  unfold planAfter
  split
  · exact ⟨rfl, rfl⟩
  · exact ⟨rfl, rfl⟩

/-- A word whose read draws no fault: what its write does decides. -/
theorem moveWord_read (halone : v.alone = true) (hr : v.readable (v.reg rb) = true)
    (hgo : (v.start.write (v.reg ra) (v.loaded (v.reg rb))).aborted = false)
    (hrun : (v.start.write (v.reg ra) (v.loaded (v.reg rb))).halted = false) :
    v.moveWord ra rb = planAfter ra ((v.start.write (v.reg ra) (v.loaded (v.reg rb))).s.moveRegisters ra rb) := by
  unfold State.moveWord
  dsimp only
  rw [State.read_clean v hr, State.given_run, State.given_val, State.start_turn_alone halone, hrun, hgo]
  rfl

theorem moveWord_clean (hwf : v.mem.wf = true) (halone : v.alone = true) (hr : v.readable (v.reg rb) = true)
    (hw : v.writable (v.reg ra) = true) :
    ∃ t, (v.moveWord ra rb).result = .next t ∧ Shape.Moves v ra rb t ∧
      planEnding ra rb (v.moveWord ra rb) = if t.reg (ra + 1) = 0 then .boundary else .between ra rb := by
  have hwrite := State.write_clean v (v.loaded (v.reg rb)) hw
  have hplan := moveWord_read ra rb halone hr (by rw [hwrite]; rfl) (by rw [hwrite]; rfl)
  rw [hwrite, State.start_s] at hplan
  obtain ⟨hresult, hending⟩ := planAfter_result ra rb
    ((v.setMem (v.mem.writeWord (v.place (v.reg ra)) (v.loaded (v.reg rb)))).moveRegisters ra rb)
  rw [hplan]
  exact ⟨_, hresult, ⟨fun q => moveRegisters_reg ra rb _ q, rfl, Memory.wf_writeWord _ _ hwf,
    Memory.stored_writeWord _ _ hwf⟩, hending⟩

/-- A write to an absent address, or one under global protection, changes no memory, and the MOV goes on. -/
theorem moveWord_lost (halone : v.alone = true) (hr : v.readable (v.reg rb) = true)
    (hprotect : (v.ownCycle .write (v.reg ra)).protect = false) (hparity : (v.ownCycle .write (v.reg ra)).parity = false)
    (hlost : (v.ownCycle .write (v.reg ra)).absent = true ∨ v.writesBlocked = true) :
    ∃ t, (v.moveWord ra rb).result = .next t ∧
      t = { v with
        ft := v.ft ||| pendingIf (v.ownCycle .write (v.reg ra)).absent 8
        pir := v.pir ||| pendingIf (v.ownCycle .write (v.reg ra)).absent 1, regs := t.regs
        ic := if t.reg (ra + 1) = 0 then v.ic + 1 else v.ic } ∧
      planEnding ra rb (v.moveWord ra rb) = (if t.reg (ra + 1) = 0 then .boundary else .between ra rb) ∧
      ∀ q, t.reg q = v.reg q + (if q = ra then 1 else 0) + (if q = rb then 1 else 0) - (if q = ra + 1 then 1 else 0) := by
  have haborts : cycleAborts (v.ownCycle .write (v.reg ra)) = false := by simp [cycleAborts, hprotect, hparity]
  have hlands : v.lands (v.ownCycle .write (v.reg ra)) = false := by
    obtain h | h := hlost <;> simp [State.lands, h]
  have hclean : (!(v.ownCycle .write (v.reg ra)).clean) = (v.ownCycle .write (v.reg ra)).absent := by
    simp [Cycle.clean, hprotect, hparity]
  have hfaults : Shape.cycleFaults (v.ownCycle .write (v.reg ra)) = pendingIf (v.ownCycle .write (v.reg ra)).absent 8 := by
    simp [Shape.cycleFaults, hprotect, hparity, pendingIf]
  have hwrite : v.start.write (v.reg ra) (v.loaded (v.reg rb)) = State.start { v with
      ft := v.ft ||| pendingIf (v.ownCycle .write (v.reg ra)).absent 8
      pir := v.pir ||| pendingIf (v.ownCycle .write (v.reg ra)).absent 1 } := by
    rw [run_write_eq rfl, State.start_s, afterWrite, hlands, faulted, hclean, hfaults, abortPulse, haborts]
    rfl
  have hplan := moveWord_read ra rb halone hr (by rw [hwrite]; rfl) (by rw [hwrite]; rfl)
  rw [hwrite, State.start_s] at hplan
  obtain ⟨hresult, hending⟩ := planAfter_result ra rb (State.moveRegisters { v with
      ft := v.ft ||| pendingIf (v.ownCycle .write (v.reg ra)).absent 8
      pir := v.pir ||| pendingIf (v.ownCycle .write (v.reg ra)).absent 1 } ra rb)
  rw [hplan]
  exact ⟨_, hresult, rfl, hending, fun q => moveRegisters_reg ra rb _ q⟩

/-! ## A word that aborts -/

/-- The state whose registers would have held the addresses of word `k`. -/
def shadow (s : State) (k : Nat) : State := (fun v : State => v.moveRegisters ra rb)^[k] s

theorem shadow_succ (s : State) (k : Nat) : shadow ra rb s (k + 1) = (shadow ra rb s k).moveRegisters ra rb :=
  Function.iterate_succ_apply' _ _ _

/-- The FT bits of the cycles of the first `n` words. -/
def moveFaults (s : State) (n : Nat) : Word :=
  (List.range n).foldl (fun f k => f ||| Shape.cycleFaults (s.ownCycle .read ((shadow ra rb s k).reg rb)) |||
    Shape.cycleFaults (s.ownCycle .write ((shadow ra rb s k).reg ra))) s.ft

theorem moveFaults_succ (s : State) (n : Nat) :
    moveFaults ra rb s (n + 1) = moveFaults ra rb s n ||| Shape.cycleFaults (s.ownCycle .read ((shadow ra rb s n).reg rb)) |||
      Shape.cycleFaults (s.ownCycle .write ((shadow ra rb s n).reg ra)) := by
  rw [moveFaults, List.range_succ, List.foldl_append]
  rfl

/-- An aborted MOV after the cycles of its first `n` words. -/
structure MoveAborted (s : State) (n : Nat) (r : Run) : Prop where
  state : r.s = { s with
    ft := moveFaults ra rb s n, pir := s.pir ||| oneBit 1, trace := r.s.trace, free := r.s.free, mem := r.s.mem }
  aborted : r.aborted = true
  halted : r.halted = false
  memory : r.s.mem.wf = true
  bytes : ∀ b, (∀ k < n, b ≠ 2 * (s.place ((shadow ra rb s k).reg ra)).toNat ∧
    b ≠ 2 * (s.place ((shadow ra rb s k).reg ra)).toNat + 1) → r.s.mem.readByte b = s.mem.readByte b

/-- A read, whatever it draws, in what it leaves apart from pulses and free values. -/
theorem read_state {r : Run} (h : r.halted = false) (addr : Word) :
    (r.read addr).run.s = { r.s with
        ft := r.s.ft ||| Shape.cycleFaults (r.s.ownCycle .read addr)
        pir := r.s.pir ||| pendingIf (!(r.s.ownCycle .read addr).clean) 1
        trace := (r.read addr).run.s.trace, free := (r.read addr).run.s.free } ∧
      (r.read addr).run.halted = false ∧
      (r.read addr).run.aborted = (r.aborted || !(r.s.ownCycle .read addr).clean) := by
  rw [read_leaves h]
  have hcell : r.s.readable addr = (r.s.ownCycle .read addr).clean := rfl
  cases hclean : (r.s.ownCycle .read addr).clean
  case true =>
    have hft : r.s.ft ||| 0 = r.s.ft := BitVec.or_zero
    have hpir : r.s.pir ||| pendingIf (!true) 1 = r.s.pir := BitVec.or_zero
    have hsame : readsLeave r [addr] = r := by
      rw [readsLeave, List.all_cons, List.all_nil, hcell, hclean]
      rfl
    rw [hsame, cycleFaults_of_clean hclean, hft, hpir]
    exact ⟨rfl, h, by simp⟩
  case false =>
    rw [readsLeave_faulted (r := r) (a := addr) (List.mem_singleton.2 rfl) (hcell.trans hclean)]
    have hbad : [addr].filter (fun a => !r.s.readable a) = [addr] := by
      rw [List.filter_cons_of_pos (by rw [hcell, hclean]; rfl), List.filter_nil]
    have hic : r.s.ic + 0 = r.s.ic := BitVec.add_zero _
    refine ⟨?_, h, by simp⟩
    simp only [Shape.readsFaulted, hbad, List.foldl_cons, List.foldl_nil, hic]
    rfl

/-- What the two cycles of one word leave, apart from pulses and free values. -/
structure WordCycles (r : Run) (src dst : Word) (r' : Run) : Prop where
  state : r'.s = { r.s with
    ft := r.s.ft ||| Shape.cycleFaults (r.s.ownCycle .read src) ||| Shape.cycleFaults (r.s.ownCycle .write dst)
    pir := r.s.pir ||| pendingIf (!(r.s.ownCycle .read src).clean) 1 ||| pendingIf (!(r.s.ownCycle .write dst).clean) 1
    trace := r'.s.trace, free := r'.s.free, mem := r'.s.mem }
  aborted : r'.aborted = (r.aborted || !(r.s.ownCycle .read src).clean || cycleAborts (r.s.ownCycle .write dst))
  halted : r'.halted = false
  memory : r'.s.mem.wf = true
  bytes : ∀ b, b ≠ 2 * (r.s.place dst).toNat ∧ b ≠ 2 * (r.s.place dst).toNat + 1 → r'.s.mem.readByte b = r.s.mem.readByte b

theorem wordCycles {r : Run} (hhalted : r.halted = false) (halone : r.s.alone = true) (hwf : r.s.mem.wf = true)
    (src dst w : Word) : WordCycles r src dst ((r.turn.read src).run.turn.write dst w) := by
  obtain ⟨hread, hreadHalted, hreadAborted⟩ := read_state hhalted src
  rw [Run.turn_alone halone]
  generalize (r.read src).run = u at hread hreadHalted hreadAborted
  have hmem : u.s.mem = r.s.mem := by rw [hread]
  have halone' : u.s.alone = true := by
    rw [hread]
    exact halone
  have hcycle : u.s.ownCycle .write dst = r.s.ownCycle .write dst := by
    rw [hread]
    rfl
  rw [Run.turn_alone halone', run_write_eq hreadHalted, hcycle, hreadAborted]
  refine ⟨?_, rfl, rfl, ?_, ?_⟩
  · simp only [afterWrite, faulted]
    rw [hread]
  · simp only [afterWrite, hmem]
    split
    · exact Memory.wf_writeWord _ _ hwf
    · exact hwf
  · rintro b ⟨hlow, hhigh⟩
    simp only [afterWrite, hmem]
    split
    · rw [Memory.readByte_writeWord _ _ _ hwf]
      simp only [State.place] at hlow hhigh
      rw [if_neg hhigh, if_neg hlow]
    · rfl

theorem pir_raised (p : Word) (b : Bool) : p ||| oneBit 1 ||| pendingIf b 1 = p ||| oneBit 1 := by
  cases b
  · exact BitVec.or_zero
  · rw [pendingIf, if_pos rfl, BitVec.or_assoc, BitVec.or_self]

/-- One more word of an aborted MOV. -/
theorem moveAborted_succ {n : Nat} {r : Run} (halone : s.alone = true) (h : MoveAborted ra rb s n r) :
    MoveAborted ra rb s (n + 1)
      ((r.turn.read ((shadow ra rb s n).reg rb)).run.turn.write ((shadow ra rb s n).reg ra) 0) := by
  obtain ⟨hstate, habort, hhalted, hwf, hbytes⟩ := h
  obtain ⟨hnew, hnewAbort, hnewHalted, hnewWf, hnewBytes⟩ := wordCycles hhalted (by rw [hstate]; exact halone) hwf
    ((shadow ra rb s n).reg rb) ((shadow ra rb s n).reg ra) 0
  generalize (r.turn.read ((shadow ra rb s n).reg rb)).run.turn.write ((shadow ra rb s n).reg ra) 0 = u at *
  have hcycle : ∀ kind a, r.s.ownCycle kind a = s.ownCycle kind a := by
    intro kind a
    rw [hstate]
    rfl
  refine ⟨?_, by rw [hnewAbort, habort]; rfl, hnewHalted, hnewWf, fun b hb => ?_⟩
  · rw [hcycle, hcycle] at hnew
    rw [hnew, hstate]
    simp only [pir_raised, moveFaults_succ]
  · have hlast := hnewBytes b (by
      rw [State.place, hcycle]
      exact hb n (Nat.lt_succ_self n))
    rw [hlast, hbytes b fun k hk => hb k (by omega)]

/-- The cycles that an aborted MOV still makes. -/
theorem moveAborted_discarded {n : Nat} (k : Nat) {r : Run} (halone : s.alone = true) (h : MoveAborted ra rb s n r) :
    MoveAborted ra rb s (n + k) (moveDiscarded ra rb k (shadow ra rb s n) r) := by
  induction k generalizing n r with
  | zero => exact h
  | succ k ih =>
    have hrest := ih (moveAborted_succ ra rb halone h)
    rw [shadow_succ] at hrest
    have hsum : n + (k + 1) = n + 1 + k := by omega
    rw [hsum]
    exact hrest

/-- The word that aborts the MOV. -/
theorem moveAborted_first (hwf : s.mem.wf = true) (halone : s.alone = true)
    (hbad : s.readable (s.reg rb) = false ∨ (s.ownCycle .write (s.reg ra)).protect = true ∨
      (s.ownCycle .write (s.reg ra)).parity = true) :
    MoveAborted ra rb s 1 ((s.start.read (s.reg rb)).run.turn.write (s.reg ra) (s.start.read (s.reg rb)).val) := by
  have hturn : s.start.turn = s.start := State.start_turn_alone halone
  obtain ⟨hnew, hnewAbort, hnewHalted, hnewWf, hnewBytes⟩ := wordCycles (r := s.start) rfl halone hwf (s.reg rb) (s.reg ra)
    (s.start.read (s.reg rb)).val
  rw [hturn] at hnew hnewAbort hnewHalted hnewWf hnewBytes
  generalize (s.start.read (s.reg rb)).run.turn.write (s.reg ra) (s.start.read (s.reg rb)).val = u at *
  have hraised : s.pir ||| pendingIf (!(s.ownCycle .read (s.reg rb)).clean) 1 |||
      pendingIf (!(s.ownCycle .write (s.reg ra)).clean) 1 = s.pir ||| oneBit 1 := by
    obtain hread | hwrite := hbad
    · have hclean : (s.ownCycle .read (s.reg rb)).clean = false := hread
      rw [hclean]
      exact pir_raised _ _
    · have hclean : (s.ownCycle .write (s.reg ra)).clean = false := by
        obtain h | h := hwrite <;> simp [Cycle.clean, h]
      rw [hclean, BitVec.or_assoc, BitVec.or_comm (pendingIf _ 1), ← BitVec.or_assoc]
      exact pir_raised _ _
  refine ⟨?_, ?_, hnewHalted, hnewWf, fun b hb => hnewBytes b (hb 0 (Nat.succ_pos 0))⟩
  · rw [State.start_s, hraised] at hnew
    rw [hnew]
    rfl
  · rw [hnewAbort, State.start_aborted, State.start_s, Bool.false_or]
    obtain hread | hwrite := hbad
    · have hclean : (s.ownCycle .read (s.reg rb)).clean = false := hread
      rw [hclean]
      rfl
    · have haborts : cycleAborts (s.ownCycle .write (s.reg ra)) = true := by
        obtain h | h := hwrite <;> simp [cycleAborts, h]
      rw [haborts, Bool.or_true]

/-- The plan of a MOV whose first word aborts. -/
theorem moveWord_aborted (hcount : s.reg (ra + 1) ≠ 0) (hwf : s.mem.wf = true) (halone : s.alone = true)
    (hbad : s.readable (s.reg rb) = false ∨ (s.ownCycle .write (s.reg ra)).protect = true ∨
      (s.ownCycle .write (s.reg ra)).parity = true) :
    ∃ r, s.moveWord ra rb = .finished r ∧ MoveAborted ra rb s (s.reg (ra + 1)).toNat r := by
  have hfirst := moveAborted_first ra rb hwf halone hbad
  have hpos : 0 < (s.reg (ra + 1)).toNat := by
    rw [Nat.pos_iff_ne_zero]
    exact fun h => hcount (BitVec.eq_of_toNat_eq h)
  have hrest := moveAborted_discarded ra rb ((s.reg (ra + 1)).toNat - 1) halone hfirst
  have hsum : 1 + ((s.reg (ra + 1)).toNat - 1) = (s.reg (ra + 1)).toNat := by omega
  rw [hsum] at hrest
  refine ⟨_, ?_, hrest⟩
  unfold State.moveWord
  dsimp only
  rw [hfirst.halted, hfirst.aborted]
  rfl

end Move

/-- Settles O24, one clause a way that a step of MOV can go. -/
theorem blockMove : Obligations.BlockMove := by
  intro ra rb s
  refine ⟨fun hzero => ?_, fun hcount v hv hwf halone hr => ⟨fun hw => ?_, fun hprotect hparity hlost => ?_⟩,
    fun n hcount hspi hlevel => ⟨fun t hseq => ?_, fun f hseq => ?_⟩, fun hcount hundisturbed hwf halone hbad => ?_⟩
  · rw [exec_mov, ending_mov, movePlan_zero ra rb hzero]
    exact ⟨rfl, rfl⟩
  · rw [exec_mov, ending_mov, movePlan_word ra rb hcount hv]
    exact moveWord_clean ra rb hwf halone hr hw
  · rw [exec_mov, ending_mov, movePlan_word ra rb hcount hv]
    exact moveWord_lost ra rb halone hr hprotect hparity hlost
  · rw [exec_mov, ending_mov, (movePlan_interrupt ra rb hcount hspi hlevel).1 t hseq]
    exact ⟨rfl, rfl⟩
  · rw [exec_mov, (movePlan_interrupt ra rb hcount hspi hlevel).2 f hseq]
    rfl
  · obtain ⟨r, hplan, hstate, _, _, hrwf, hbytes⟩ := moveWord_aborted ra rb hcount hwf halone hbad
    rw [exec_mov, ending_mov, movePlan_word ra rb hcount (.inl ⟨hundisturbed, rfl⟩), hplan]
    refine ⟨r.s.past 1, rfl, rfl, ?_, hrwf, hbytes⟩
    rw [hstate]
    rfl

end Sys2Proof.Proofs
end

