-- ==== Sys2Proof/Proofs/Control.lean ====
section
/-! PROOF. Conditional jumps, status loads, the breakpoint and the built-in function (46_control.md R461 to R491), with what the
faults of their cycles leave. -/

namespace Sys2Proof.Proofs

open Sys2Proof.Machine

/-! ## Conditional jumps -/

/-- A 1 in common. -/
theorem and_ne_zero_iff (c cs : BitVec 4) : c &&& cs ≠ 0 ↔ ∃ k < 4, c.getLsbD k = true ∧ cs.getLsbD k = true := by
  constructor
  · intro h
    by_contra hnone
    refine h (BitVec.eq_of_getLsbD_eq fun k hk => ?_)
    have hzero : (0 : BitVec 4).getLsbD k = false := BitVec.getLsbD_zero
    rw [BitVec.getLsbD_and, hzero]
    by_contra hboth
    rw [Bool.not_eq_false, Bool.and_eq_true] at hboth
    exact hnone ⟨k, hk, hboth⟩
  · rintro ⟨k, _, hc, hcs⟩ hzero
    have hbit := congrArg (fun x : BitVec 4 => x.getLsbD k) hzero
    simp only [BitVec.getLsbD_and, hc, hcs, Bool.and_self] at hbit
    exact Bool.noConfusion (hbit.trans BitVec.getLsbD_zero)

theorem conditionHolds_iff (c cs : BitVec 4) :
    conditionHolds c cs = true ↔ c = 7 ∨ c = 15 ∨ ∃ k < 4, c.getLsbD k = true ∧ cs.getLsbD k = true := by
  rw [← and_ne_zero_iff]
  simp only [conditionHolds, Bool.or_eq_true, decide_eq_true_eq, bne_iff_ne, or_assoc]

theorem exec_jc (c : BitVec 4) (rx : Reg) (a : Word) (s : State) :
    exec (.jc c rx a) s =
      if conditionHolds c (csField s.sw) then .next (s.setIc (s.indexed a rx)) else .next (s.past 2) := rfl

theorem exec_jci (c : BitVec 4) (rx : Reg) (a : Word) (s : State) :
    exec (.jci c rx a) s = if conditionHolds c (csField s.sw) then
      (s.start.read (s.indexed a rx)).run.jump 2 (s.start.read (s.indexed a rx)).val else .next (s.past 2) := rfl

/-- Settles O25. -/
theorem conditionalJumps : Obligations.ConditionalJumps := by
  intro c rx a s
  dsimp only
  rw [← conditionHolds_iff]
  refine ⟨fun ht => ?_, fun hn => ?_, fun ht hr => ?_, fun ht hr => ?_, fun hn => ?_⟩
  · rw [exec_jc, if_pos ht]
    rfl
  · rw [exec_jc, if_neg hn]
  · rw [exec_jci, if_pos ht, State.read_clean s hr]
    rfl
  · rw [exec_jci, if_pos ht, read_faulted hr, jump_aborted rfl]
    exact congrArg Host.Outcome.next (readsFaulted_past s _ 2)
  · rw [exec_jci, if_neg hn]

/-! ## Status loads -/

/-- Three reads. -/
theorem read3_leaves {r : Run} (hhalted : r.halted = false) (halone : r.s.alone = true) (addr : Word) :
    (r.read3 addr).run = readsLeave r [addr, addr + 1, addr + 2] := by
  unfold Run.read3
  dsimp only
  have h1 : ((r.read addr).run.turn.read (addr + 1)).run = readsLeave r [addr, addr + 1] := by
    rw [read_leaves hhalted, Run.turn_alone (by rw [readsLeave_alone]; exact halone),
      read_leaves (by rw [readsLeave_halted]; exact hhalted), readsLeave_append]
    rfl
  rw [h1, Run.turn_alone (by rw [readsLeave_alone]; exact halone),
    read_leaves (by rw [readsLeave_halted]; exact hhalted), readsLeave_append]
  rfl

/-- One of the three words cannot be read. -/
theorem exists_unreadable {s : State} {addr : Word} (halone : s.alone = true) (h : s.readableSpan addr 3 = false) :
    ∃ a ∈ [addr, addr + 1, addr + 2], s.readable a = false := by
  by_contra hnone
  have hall : ∀ a ∈ [addr, addr + 1, addr + 2], s.readable a = true := by
    intro a ha
    by_contra hbad
    exact hnone ⟨a, ha, by simpa using hbad⟩
  have hspan : s.readableSpan addr 3 = true := by
    have h0 := hall addr (by simp)
    have h1 := hall (addr + 1) (by simp)
    have h2 := hall (addr + 2) (by simp)
    have hzero : addr + 0#16 = addr := BitVec.add_zero addr
    simp only [State.readableSpan, List.range_succ, List.range_zero, List.nil_append, List.cons_append, List.all_cons,
      List.all_nil, hzero, h0, halone, Bool.or_true, Bool.and_true, Bool.true_and, Bool.and_eq_true]
    exact ⟨h1, h2⟩
  exact Bool.noConfusion (h.symm.trans hspan)

/-- A status load that a faulted read has aborted loads nothing (60_exceptions.md R664). -/
theorem loadStatus_aborted {r : Run} (h : r.aborted = true) (mask sw ic : Word) : r.loadStatus mask sw ic = r.next 2 := by
  rw [Run.loadStatus, if_pos h]

theorem exec_lst {rx : Reg} {a : Word} {s : State} {i : Instr} {o : Source}
    (h : (i, o) ∈ [(Instr.lst rx a, Source.direct rx a), (.lsti rx a, .indirect rx a)]) (hak : akField s.sw = 0) :
    inMemory o = true ∧ exec i s = loadStatusFrom (operandAddress s o) := by
  have hpriv : s.privileged = true := by simp [State.privileged, hak]
  simp only [List.mem_cons, Prod.mk.injEq, List.not_mem_nil, or_false] at h
  obtain ⟨rfl, rfl⟩ | ⟨rfl, rfl⟩ := h
  · have harm : exec (.lst rx a) s = if s.privileged then loadStatusFrom (operandAddress s (.direct rx a))
        else .next s.privilegeViolation := rfl
    rw [harm, if_pos hpriv]
    exact ⟨rfl, rfl⟩
  · have harm : exec (.lsti rx a) s = if s.privileged then loadStatusFrom (operandAddress s (.indirect rx a))
        else .next s.privilegeViolation := rfl
    rw [harm, if_pos hpriv]
    exact ⟨rfl, rfl⟩

/-- A status word is refused for its address state (60_exceptions.md R668). -/
theorem refusesStatus_iff (s : State) (w : Word) : s.refusesStatus w = true ↔ bitOf s.scr 0 = false ∧ asField w ≠ 0 := by
  simp only [State.refusesStatus, Bool.and_eq_true, Bool.not_eq_true', bne_iff_ne]

/-- FT bit 11 and PIR bit 1, with the pulse of an unrecoverable error. -/
theorem addressStateFault_eq (s : State) :
    s.addressStateFault = { s with ft := s.ft ||| oneBit 11, pir := s.pir ||| oneBit 1, trace := .unrcvEr :: s.trace } := by
  have hft : oneBit 11 = 0x0010 := by decide
  have hpir : oneBit 1 = 0x4000 := by decide
  rw [hft, hpir]
  rfl

/-- The three words from a pointer that cannot be read, at the open address it has brought. -/
theorem lsti_pointer_faulted {rx : Reg} {a : Word} {s : State} (halone : s.alone = true)
    (hr : s.readable (s.indexed a rx) = false) :
    ∃ p, loadStatusFrom (operandAddress s (.indirect rx a)) =
      .next (Shape.readsFaulted s [s.indexed a rx, p, p + 1, p + 2] 2) := by
  have hrun : (operandAddress s (.indirect rx a)).run = readsLeave s.start [s.indexed a rx] := by
    have hturn : (operandAddress s (.indirect rx a)).run = (s.start.read (s.indexed a rx)).run.turn := rfl
    rw [hturn, read_leaves rfl, Run.turn_alone (by rw [readsLeave_alone]; exact halone)]
  refine ⟨(operandAddress s (.indirect rx a)).val, ?_⟩
  have hreads : ((operandAddress s (.indirect rx a)).run.read3 (operandAddress s (.indirect rx a)).val).run =
      { s := Shape.readsFaulted s [s.indexed a rx, (operandAddress s (.indirect rx a)).val,
          (operandAddress s (.indirect rx a)).val + 1, (operandAddress s (.indirect rx a)).val + 2] 0
        aborted := true, halted := false } := by
    rw [hrun, read3_leaves (by rw [readsLeave_halted]; rfl) (by rw [readsLeave_alone]; exact halone), readsLeave_append,
      List.singleton_append, readsLeave_faulted (r := s.start) (a := s.indexed a rx) List.mem_cons_self hr]
    rfl
  unfold loadStatusFrom
  dsimp only
  rw [hreads, loadStatus_aborted rfl]
  exact congrArg Host.Outcome.next (readsFaulted_past s _ 2)

/-- Settles O30. -/
theorem loadStatus : Obligations.LoadStatus := by
  intro rx a s i o hmem hak
  obtain ⟨hin, hexec⟩ := exec_lst hmem hak
  dsimp only
  rw [hexec, ← refusesStatus_iff]
  refine ⟨fun hready haccept => ?_, fun hready hrefuse => ?_, fun hlocated halone hbad => ?_, fun hi halone hr => ?_⟩
  · rw [operandAddress_located (located_of_ready hready), loadStatusFrom_given s (readableSpan_of_ready hin hready),
      if_neg haccept]
    rfl
  · rw [operandAddress_located (located_of_ready hready), loadStatusFrom_given s (readableSpan_of_ready hin hready),
      if_pos hrefuse, addressStateFault_eq]
    rfl
  · have hspan : s.readableSpan (o.address s) 3 = false := by
      cases o with
      | register _ | literal _ => exact Bool.noConfusion hin
      | direct _ _ | base _ _ | baseIndexed _ _ => exact hbad
      | indirect rx a =>
        simp only [Source.located, Bool.and_eq_true] at hlocated
        simp only [Source.ready, hlocated.1, halone, Bool.true_and, Bool.and_true] at hbad
        exact hbad
    obtain ⟨x, hx, hxbad⟩ := exists_unreadable halone hspan
    unfold loadStatusFrom
    dsimp only
    rw [operandAddress_located hlocated, State.given_run, State.given_val, read3_leaves rfl halone,
      readsLeave_faulted (r := s.start) hx hxbad, loadStatus_aborted rfl]
    exact congrArg Host.Outcome.next (readsFaulted_past s _ 2)
  · subst hi
    simp only [List.mem_cons, Prod.mk.injEq, reduceCtorEq, false_and, List.not_mem_nil, or_false, false_or] at hmem
    obtain ⟨_, rfl⟩ := hmem
    exact lsti_pointer_faulted halone hr

/-! ## I/O cycles and their flaws -/

section IoCycles

variable (s : State) (addr data : Word)

/-- PAR ER of an I/O cycle sets FT bit 2 and PIR bit 1 (20_memory.md R96). -/
theorem ioParity_eq : s.ioParity addr =
    { s with ft := s.ft ||| pendingIf (ioFlawAt s.platform .parity addr) 2
             pir := s.pir ||| pendingIf (ioFlawAt s.platform .parity addr) 1 } := by
  have hft : oneBit 2 = 0x2000 := by decide
  have hpir : oneBit 1 = 0x4000 := by decide
  unfold State.ioParity
  cases ioFlawAt s.platform .parity addr
  case false =>
    have hft0 : s.ft ||| pendingIf false 2 = s.ft := BitVec.or_zero
    have hpir0 : s.pir ||| pendingIf false 1 = s.pir := BitVec.or_zero
    rw [hft0, hpir0]
    rfl
  case true =>
    simp only [if_true, pendingIf, hft, hpir]
    rfl

/-- An I/O write cycle, whatever it draws (47_io.md R502). -/
theorem ioWrite_eq : s.ioWrite addr data = Shape.ioWritten s addr data := by
  have hft : oneBit 5 = 0x0400 := by decide
  have hpir : oneBit 1 = 0x4000 := by decide
  have hone : s.pir ||| oneBit 1 ||| pendingIf (ioFlawAt s.platform .parity addr) 1 = s.pir ||| oneBit 1 := pir_raised _ _
  have hzero : s.ft ||| pendingIf false 5 = s.ft := BitVec.or_zero
  unfold State.ioWrite Shape.ioWritten State.ioFaulty
  dsimp only
  rw [ioParity_eq]
  cases hflaw : ioFlawAt s.platform .illegal addr
  case false =>
    rw [hzero, Bool.false_or]
    rfl
  case true =>
    simp only [if_true, pendingIf, Bool.true_or, hft] at hone ⊢
    rw [← hone, hpir]
    rfl

/-- An I/O write of an instruction off the chips. -/
theorem start_ioWrite_off (h : offChips addr) : s.start.ioWrite addr data = (Shape.ioWritten s addr data).start := by
  have hchip : s.chipWrite addr data = s := State.chipWrite_elsewhere s data h
  rw [← ioWrite_eq]
  change State.start ((s.chipWrite addr data).ioWrite addr data) = _
  rw [hchip]

/-- An I/O write of an aborted instruction has open data. -/
theorem ioWrite_aborted {r : Run} (habort : r.aborted = true) (hhalted : r.halted = false) :
    r.ioWrite addr data = { r with s := (Shape.ioWritten r.s addr (Config.freeWord r.s.free)).useFree 1 } := by
  rw [← ioWrite_eq, Run.ioWrite, hhalted, habort]
  rfl

end IoCycles

/-! ## Breakpoint -/

/-- Settles O31. -/
theorem breakpoint : Obligations.Breakpoint := by
  intro s
  refine ⟨fun hlegal => ?_, fun hillegal => ⟨Config.freeWord s.free, ?_⟩⟩
  · rw [exec_bpt, start_ioRead_legal hlegal, ioAnswer_configuration, ioParity_eq]
    rfl
  · have hft : oneBit 5 = 0x0400 := by decide
    have hpir : oneBit 1 = 0x4000 := by decide
    have hone : s.pir ||| oneBit 1 ||| pendingIf (ioFlawAt s.platform .parity 0x8410) 1 = s.pir ||| oneBit 1 := pir_raised _ _
    rw [exec_bpt, start_ioRead_illegal hillegal, ioParity_eq, ← hone, hft, hpir]
    rfl

/-! ## Built-in function -/

theorem coprocessorPort_eq (cp : Fin 4) : coprocessorPort cp = 0x0800 + BitVec.ofNat 16 (256 * cp.val) := by
  revert cp
  decide

/-- Two port cycles of an instruction that goes on. -/
theorem handOver_start (cp : Fin 4) (command data : Word) {s : State} (halone : s.alone = true) :
    handOver cp command data s.start = .next ((Shape.ioWritten (Shape.ioWritten s (coprocessorPort cp) command)
      (coprocessorPort cp + 1) data).past 3) := by
  obtain ⟨hfirst, hsecond⟩ := offChips_ports cp
  rw [handOver, start_ioWrite_off _ _ _ hfirst, State.start_turn_alone (by exact halone), start_ioWrite_off _ _ _ hsecond,
    State.start_next]

/-- Those of an aborted one. -/
theorem handOver_aborted (cp : Fin 4) (command data : Word) {r : Run} (halone : r.s.alone = true)
    (habort : r.aborted = true) (hhalted : r.halted = false) : ∃ x y,
    handOver cp command data r = .next { Shape.ioWritten (Shape.ioWritten (r.s.past 3) (coprocessorPort cp) x)
      (coprocessorPort cp + 1) y with free := r.s.free + 2 } := by
  refine ⟨Config.freeWord r.s.free, Config.freeWord (r.s.free + 1), ?_⟩
  have hsecond := ioWrite_aborted (coprocessorPort cp + 1) data
    (r := { r with s := (Shape.ioWritten r.s (coprocessorPort cp) (Config.freeWord r.s.free)).useFree 1 }) habort hhalted
  rw [handOver, ioWrite_aborted _ _ habort hhalted, Run.turn_alone (by exact halone), hsecond]
  rfl

theorem illegalInstruction_eq (s : State) (len : Word) : s.illegalInstruction len =
    { s with ft := s.ft ||| oneBit 9, pir := s.pir ||| oneBit 1, ic := s.ic + len, trace := .unrcvEr :: s.trace } := by
  have hft : oneBit 9 = 0x0040 := by decide
  have hpir : oneBit 1 = 0x4000 := by decide
  rw [hft, hpir]
  rfl

section BuiltIn

variable {three : Bool} {cp : Fin 4} {rx : Reg} {a1 a2 : Word} {s : State} {i : Instr} {command : Word} {ready : Bool}

/-- BIF and BIFI, the latter once its command has been read. -/
theorem exec_builtIn (h : (i, command, ready) ∈ [(Instr.bif three cp rx a1 a2, s.indexed a1 rx, true),
      (.bifi three cp rx a1 a2, s.loaded (s.indexed a1 rx), s.readable (s.indexed a1 rx))]) :
    ∃ r : Result, (exec i s = if three && bitOf s.scr 3 then r else .next (s.illegalInstruction (if three then 3 else 2))) ∧
      (s.alone = true → ready = true → r = handOver cp command a2 s.start) ∧
      (s.alone = true → ready = false → s.readable (s.indexed a1 rx) = false ∧
        r = handOver cp (s.start.read (s.indexed a1 rx)).val a2
          { s := Shape.readsFaulted s [s.indexed a1 rx] 0, aborted := true, halted := false }) := by
  simp only [List.mem_cons, Prod.mk.injEq, List.not_mem_nil, or_false] at h
  obtain ⟨rfl, rfl, rfl⟩ | ⟨rfl, rfl, rfl⟩ := h
  · exact ⟨_, rfl, fun _ _ => rfl, fun _ hready => Bool.noConfusion hready⟩
  · refine ⟨handOver cp (s.start.read (s.indexed a1 rx)).val a2 (s.start.read (s.indexed a1 rx)).run.turn, rfl,
      fun halone hr => ?_, fun halone hr => ⟨hr, ?_⟩⟩
    · rw [State.read_clean s hr, State.given_run, State.given_val, State.start_turn_alone halone]
    · rw [read_faulted hr, Run.turn_alone (by exact halone)]

end BuiltIn

/-- One faulted read uses one free value. -/
theorem readsFaulted_free {s : State} {addr : Word} (h : s.readable addr = false) (len : Word) :
    (Shape.readsFaulted s [addr] len).free = s.free + 1 := by
  simp only [Shape.readsFaulted, List.filter_cons, List.filter_nil, h, Bool.not_false, if_true, List.length_singleton]

/-- Settles O32. -/
theorem builtInFunction : Obligations.BuiltInFunction := by
  intro three cp rx a1 a2 s i command ready hmem
  obtain ⟨r, hexec, hgo, hstop⟩ := exec_builtIn hmem
  dsimp only
  rw [← coprocessorPort_eq]
  refine ⟨fun hthree hbit halone hready => ?_, fun hthree hbit halone hready => ?_, fun hnone => ?_⟩
  · rw [hexec, hthree, hbit, hgo halone hready]
    exact handOver_start cp command a2 halone
  · obtain ⟨hr, hrest⟩ := hstop halone hready
    obtain ⟨x, y, hports⟩ := handOver_aborted cp (s.start.read (s.indexed a1 rx)).val a2
      (r := { s := Shape.readsFaulted s [s.indexed a1 rx] 0, aborted := true, halted := false }) halone rfl rfl
    rw [readsFaulted_past, readsFaulted_free hr] at hports
    refine ⟨x, y, ?_⟩
    rw [hexec, hthree, hbit, hrest]
    exact hports
  · have hcond : (three && bitOf s.scr 3) = false := by
      obtain h | h := hnone <;> simp [h]
    rw [hexec, hcond, illegalInstruction_eq]
    rfl

end Sys2Proof.Proofs
end

