-- ==== Sys2Proof/Proofs/Sequence.lean ====
section
/-! PROOF. The interrupt sequence (60_exceptions.md R679 to R682) where its cycles draw no fault and no other master comes between
them, and BEX, which runs the one of level 5 (46_control.md R474). -/

namespace Sys2Proof.Proofs

open Sys2Proof.Machine

/-! ## Its cycles -/

theorem sequenceRead_clean {s : State} {addr : Word} (halone : s.alone = true) (h : s.vectorReady addr = true) :
    s.start.sequenceRead addr = some (s.given (s.vectorWord addr)) := by
  simp only [State.vectorReady] at h
  simp only [Run.sequenceRead, State.start_halted, State.start_s, h, Bool.false_eq_true, if_false, if_true,
    State.start_turn_alone halone]
  rfl

/-- The linkage and service pointers of level n (R679). -/
theorem linkage_eq (n : Fin 16) :
    linkage n = 0x0020 + BitVec.ofNat 16 (2 * n.val) ∧ linkage n + 1 = 0x0021 + BitVec.ofNat 16 (2 * n.val) := by
  revert n
  decide

theorem newStatus_clean {s : State} {n : Fin 16} {entry : Word} (h : s.serviceReady n entry = true) :
    s.start.newStatus n entry = some (s.given (s.service n entry)) := by
  simp only [State.serviceReady, Bool.and_eq_true] at h
  obtain ⟨⟨⟨⟨⟨hsvp, hmask⟩, hsw⟩, hic⟩, hlp⟩, halone⟩ := h
  obtain ⟨hlinkage, hservice⟩ := linkage_eq n
  rw [Run.newStatus, hservice, sequenceRead_clean halone hsvp, Option.bind_some, State.given_run, State.given_val,
    sequenceRead_clean halone hmask, Option.bind_some, State.given_run, sequenceRead_clean halone hsw, Option.bind_some,
    State.given_run, sequenceRead_clean halone hic, Option.bind_some, State.given_run, hlinkage,
    sequenceRead_clean halone hlp, Option.map_some]
  rfl

/-- A store of the sequence. -/
theorem sequenceWrite_clean {s : State} {as : BitVec 4} {addr : Word} (v : Word) (halone : s.alone = true)
    (hblocked : s.writesBlocked = false) (h : (s.keylessCycle .write as addr).clean = true) :
    s.start.sequenceWrite as addr v =
      some (s.setMem (s.mem.writeWord (s.keylessCycle .write as addr).phys v)).start := by
  have hlands : s.lands (s.keylessCycle .write as addr) = true := by
    have hc := h
    simp only [Cycle.clean, Bool.and_eq_true, Bool.not_eq_true'] at hc
    simp [State.lands, hc.1.1, hc.2, hblocked]
  have hturn := State.start_turn_alone (s := s.setMem (s.mem.writeWord (s.keylessCycle .write as addr).phys v)) halone
  simp only [Run.sequenceWrite, State.start_halted, State.start_s, h, hlands, Bool.false_eq_true, if_false, if_true]
  exact congrArg some hturn

/-- Memory after the three stores of the old status. -/
def savedMemory (s : State) (as : BitVec 4) (lp mask sw ic : Word) : Memory :=
  ((s.mem.writeWord (s.keylessCycle .write as lp).phys mask).writeWord (s.keylessCycle .write as (lp + 1)).phys sw).writeWord
    (s.keylessCycle .write as (lp + 2)).phys ic

theorem saveStatus_clean {s : State} {as : BitVec 4} {lp : Word} (mask sw ic : Word) (halone : s.alone = true)
    (h : s.linkageReady as lp = true) :
    s.start.saveStatus as lp mask sw ic = some (s.setMem (savedMemory s as lp mask sw ic)).start := by
  simp only [State.linkageReady, Bool.and_eq_true, Bool.not_eq_true'] at h
  obtain ⟨⟨⟨hblocked, h0⟩, h1⟩, h2⟩ := h
  rw [Run.saveStatus, sequenceWrite_clean mask halone hblocked h0, Option.bind_some]
  have hsecond := sequenceWrite_clean (s := s.setMem (s.mem.writeWord (s.keylessCycle .write as lp).phys mask)) sw halone
    hblocked h1
  have hthird := sequenceWrite_clean (s := s.setMem ((s.mem.writeWord (s.keylessCycle .write as lp).phys mask).writeWord
    (s.keylessCycle .write as (lp + 1)).phys sw)) ic halone hblocked h2
  rw [hsecond, Option.bind_some]
  exact hthird

theorem stored_savedMemory {s : State} (as : BitVec 4) (lp mask sw ic : Word) (hwf : s.mem.wf = true) :
    (savedMemory s as lp mask sw ic).wf = true ∧
      Stored s.mem (savedMemory s as lp mask sw ic) [((s.keylessCycle .write as lp).phys, mask),
        ((s.keylessCycle .write as (lp + 1)).phys, sw), ((s.keylessCycle .write as (lp + 2)).phys, ic)] := by
  have hzero : lp + BitVec.ofNat 16 0 = lp := BitVec.add_zero lp
  have h01 : (s.keylessCycle .write as lp).phys ≠ (s.keylessCycle .write as (lp + 1)).phys := by
    have h := physical_ne s .write as lp (j := 0) (k := 1) (by omega) (by omega) (by omega)
    rw [hzero] at h
    exact h
  have h02 : (s.keylessCycle .write as lp).phys ≠ (s.keylessCycle .write as (lp + 2)).phys := by
    have h := physical_ne s .write as lp (j := 0) (k := 2) (by omega) (by omega) (by omega)
    rw [hzero] at h
    exact h
  have h12 : (s.keylessCycle .write as (lp + 1)).phys ≠ (s.keylessCycle .write as (lp + 2)).phys :=
    physical_ne s .write as lp (j := 1) (k := 2) (by omega) (by omega) (by omega)
  have hwf1 := Memory.wf_writeWord (s.keylessCycle .write as lp).phys mask hwf
  have hwf2 := Memory.wf_writeWord (s.keylessCycle .write as (lp + 1)).phys sw hwf1
  refine ⟨Memory.wf_writeWord _ _ hwf2, ?_⟩
  have hfirst := Memory.stored_writeWord (s.keylessCycle .write as lp).phys mask hwf
  have hsecond := Memory.Stored_writeWord (s.keylessCycle .write as (lp + 1)).phys sw hfirst hwf1 (by simpa using h01)
  exact Memory.Stored_writeWord (s.keylessCycle .write as (lp + 2)).phys ic hsecond hwf2 (by simpa using ⟨h02, h12⟩)

/-! ## The sequence -/

theorem interrupt_refused {s : State} {n : Fin 16} {entry : Word} (h : s.serviceReady n entry = true)
    (hrefused : s.refusesStatus (s.service n entry).sw = true) : s.interrupt n entry = .abandoned s.addressStateFault := by
  rw [State.interrupt, newStatus_clean h]
  dsimp only
  rw [State.given_run, State.given_val, hrefused]
  rfl

/-- The state in which level n has been entered, with new status `v` and the old one saved in `m`. -/
def entered (s : State) (n : Fin 16) (v : NewStatus) (m : Memory) : State :=
  { s with
    inten := false, enbl := .idle, mask := v.mask, sw := maskSw v.sw, ic := v.ic
    pir := s.pir &&& ~~~ oneBit n.val, mem := m, trace := .ioWrite 0x1000 (~~~ oneBit n.val) :: s.trace }

/-- The memory that holds the status of `s` in the linkage area of level n. -/
def linkedMemory (s : State) (n : Fin 16) (entry : Word) : Memory :=
  savedMemory s (asField (s.service n entry).sw) (s.service n entry).lp s.mask s.sw s.ic

theorem interrupt_entered {s : State} {n : Fin 16} {entry : Word} (h : s.serviceReady n entry = true)
    (haccepted : s.refusesStatus (s.service n entry).sw = false)
    (hlinkage : s.linkageReady (asField (s.service n entry).sw) (s.service n entry).lp = true)
    (hack : s.ioFaulty 0x1000 = false) :
    s.interrupt n entry = .entered (entered s n (s.service n entry) (linkedMemory s n entry)) := by
  have halone : s.alone = true := by
    simp only [State.serviceReady, Bool.and_eq_true] at h
    exact h.2
  simp only [State.ioFaulty, Bool.or_eq_false_iff] at hack
  let u : State := { s with
    inten := false, enbl := .idle, mask := (s.service n entry).mask, sw := maskSw (s.service n entry).sw
    ic := (s.service n entry).ic }
  have hsave := saveStatus_clean (s := u) s.mask s.sw s.ic halone hlinkage
  have hwrite := State.ioWrite_legal ((u.setMem (linkedMemory s n entry)).setPir (s.pir &&& ~~~ oneBit n.val))
    (~~~ oneBit n.val) hack.1 hack.2
  rw [State.interrupt, newStatus_clean h]
  dsimp only
  rw [State.given_run, State.given_val, haccepted, State.start_halted, State.start_update, hsave]
  exact congrArg Sequence.entered hwrite

theorem enters_entered {s : State} {n : Fin 16} {entry : Word} (hwf : s.mem.wf = true) :
    Enters s n entry (entered s n (s.service n entry) (linkedMemory s n entry)) :=
  ⟨rfl, stored_savedMemory (asField (s.service n entry).sw) (s.service n entry).lp s.mask s.sw s.ic hwf⟩

/-- Settles O47. -/
theorem interruptSequence : Obligations.InterruptSequence := by
  intro n entry s h
  dsimp only
  rw [← refusesStatus_iff]
  refine ⟨fun hrefused => ?_, fun haccepted hwf hlinkage hack => ?_⟩
  · rw [interrupt_refused h hrefused, addressStateFault_eq]
  · exact ⟨_, interrupt_entered h (by simpa using haccepted) hlinkage hack, enters_entered hwf⟩

/-- The sequence sees PIR and IC only where it saves and clears them. -/
theorem interrupt_entered_with {s : State} {n : Fin 16} {entry : Word} (p ic : Word) (h : s.serviceReady n entry = true)
    (haccepted : s.refusesStatus (s.service n entry).sw = false)
    (hlinkage : s.linkageReady (asField (s.service n entry).sw) (s.service n entry).lp = true)
    (hack : s.ioFaulty 0x1000 = false) :
    ((s.setPir p).setIc ic).interrupt n entry =
      .entered (entered ((s.setPir p).setIc ic) n (s.service n entry) (linkedMemory (s.setIc ic) n entry)) :=
  interrupt_entered (s := (s.setPir p).setIc ic) h haccepted hlinkage hack

/-- Settles O29: BEX pends level 5 itself, and the sequence takes the pending bit away again. -/
theorem executiveCall : Obligations.ExecutiveCall := by
  intro n s entry hwf h hlinkage haccepted hack
  have hbit : (s.pir ||| oneBit 5) &&& ~~~ oneBit 5 = s.pir &&& ~~~ oneBit 5 := by
    have hnone : ~~~ oneBit 5 &&& oneBit 5 = 0 := by decide
    rw [BitVec.and_comm, BitVec.and_or_distrib_left, hnone, BitVec.and_comm]
    exact BitVec.or_zero
  refine ⟨entered (s.past 1) 5 (s.service 5 entry) (linkedMemory (s.past 1) 5 entry), ?_, enters_entered (s := s.past 1) hwf⟩
  have harm : exec (.bex n) s = (((s.setPir (s.pir ||| oneBit 5)).setIc (s.ic + 1)).interrupt 5 entry).result := rfl
  have hpir : entered ((s.setPir (s.pir ||| oneBit 5)).setIc (s.ic + 1)) 5 (s.service 5 entry)
      (linkedMemory (s.past 1) 5 entry) = entered (s.past 1) 5 (s.service 5 entry) (linkedMemory (s.past 1) 5 entry) :=
    congrArg (fun p => { entered (s.past 1) 5 (s.service 5 entry) (linkedMemory (s.past 1) 5 entry) with pir := p }) hbit
  rw [harm, interrupt_entered_with (s.pir ||| oneBit 5) (s.ic + 1) h haccepted hlinkage hack]
  exact congrArg Host.Outcome.next hpir

end Sys2Proof.Proofs
end

