-- ==== Sys2Proof/Proofs/Boundary.lean ====
section
/-! PROOF. Recognition and what stands between two instructions (60_exceptions.md R676 to R678): the level taken, the boundary,
the wait that DISABLE leaves. -/

namespace Sys2Proof.Proofs

open Sys2Proof.Machine

/-! ## The level taken -/

/-- R676: pending, not masked, enabled. -/
theorem recognisable_iff (s : State) (n : Fin 16) :
    s.recognisable n = true ↔ bitOf s.pir n.val = true ∧ (n = 0 ∨ n = 5 ∨ bitOf s.mask n.val = true) ∧
      (n = 0 ∨ n = 1 ∨ n = 5 ∨ s.inten = true) := by
  simp only [State.recognisable, Bool.and_eq_true, Bool.or_eq_true, decide_eq_true_eq, or_assoc, and_assoc]

/-- The first of the numbers below 16 that `p` holds for is the least one. -/
theorem find_levels {p : Fin 16 → Bool} {n : Fin 16} (hn : p n = true) (hleast : ∀ m, m < n → p m = false) :
    levels.find? p = some n := by
  have hlevels : levels = List.finRange 16 := by decide
  rw [hlevels, List.find?_eq_some_iff_getElem]
  refine ⟨hn, n.val, by simp, by simp, fun j hj => ?_⟩
  rw [List.getElem_finRange]
  simpa using hleast _ hj

theorem nextLevel_least {s : State} {n : Fin 16} (hn : s.recognisable n = true)
    (hleast : ∀ m, m < n → ¬ s.recognisable m = true) : s.nextLevel = some n :=
  find_levels hn fun m hm => by simpa using hleast m hm

theorem nextLevel_none {s : State} (h : ∀ n, ¬ s.recognisable n = true) : s.nextLevel = none :=
  List.find?_eq_none.mpr fun n _ => h n

/-- Settles O48. -/
theorem levelPriority : Obligations.LevelPriority := by
  intro s conreq
  dsimp only
  simp only [← recognisable_iff]
  refine ⟨fun n hn hleast => ?_, fun hnone => ?_⟩
  · rw [State.recognise, nextLevel_least hn hleast]
  · rw [State.recognise, nextLevel_none hnone]

/-! ## The boundary -/

/-- The outside leaves the simulated interrupt, SCR and the system around the CPU. -/
theorem arrive_leaves (s : State) (e : Env) (clock : Bool) :
    (s.arrive e clock).spi = s.spi ∧ (s.arrive e clock).scr = s.scr ∧ (s.arrive e clock).platform = s.platform := by
  unfold State.arrive
  dsimp only
  generalize hclock : (if clock = true then ({ s with env := s.env.tail } : State).tick e.timerClk
    else { s with env := s.env.tail }) = u
  obtain ⟨_, _, _, hfaults⟩ := State.externalFaults_frame u (outsideFaults e.faults)
  obtain ⟨_, _, _, _, hwrites⟩ := State.masters_frame (u.externalFaults (outsideFaults e.faults)) e.writes
  have hu : u.spi = s.spi ∧ u.scr = s.scr ∧ u.platform = s.platform := by
    rw [← hclock]
    split
    · exact ⟨rfl, rfl, rfl⟩
    · exact ⟨rfl, rfl, rfl⟩
  rw [hwrites, hfaults]
  exact hu

theorem asked_arrive (s : State) (e : Env) (clock conreq : Bool) :
    (s.arrive e clock).asked conreq = s.asked conreq := by
  obtain ⟨_, hscr, hplatform⟩ := arrive_leaves s e clock
  rw [State.asked, hscr, hplatform]
  rfl

/-- Step 1 of the boundary in one expression. -/
theorem enableStep_eq (s : State) : s.enableStep = { s with
    inten := s.inten || decide (s.enbl = Delay.due), enbl := if s.enbl = Delay.armed then .due else .idle } := by
  unfold State.enableStep
  split
  next h => simp [h]
  next h => simp [h]
  next h =>
    simp only [h, reduceCtorEq, decide_false, Bool.or_false, if_false]
    exact congrArg (fun d => { s with enbl := d }) h

theorem boundary_eq (s : State) (e : Env) :
    let t := s.enableStep.arrive e true
    (s.spi = .armed → s.boundary e = .next { t with spi := .due }) ∧
    (s.spi ≠ .armed → s.consoleMode = true → s.boundary e = .next { t with spi := .idle }) ∧
    (s.spi ≠ .armed → s.consoleMode = false →
      s.boundary e = { t with spi := .idle }.recognise (s.asked e.conreq)) := by
  have henable : s.enableStep.spi = s.spi ∧ s.enableStep.consoleMode = s.consoleMode ∧
      s.enableStep.asked e.conreq = s.asked e.conreq := by
    rw [enableStep_eq]
    exact ⟨rfl, rfl, rfl⟩
  obtain ⟨hspi, hmode, hasked⟩ := henable
  have hspiA := (arrive_leaves s.enableStep e true).1.trans hspi
  have hmodeA := (arrive_modes s.enableStep e true).1.trans hmode
  have haskedA := (asked_arrive s.enableStep e true e.conreq).trans hasked
  dsimp only
  rw [← hspiA, ← hmodeA, ← haskedA]
  unfold State.boundary
  dsimp only
  refine ⟨fun h => ?_, fun h hm => ?_, fun h hm => ?_⟩
  · rw [h]
  · cases hcase : (s.enableStep.arrive e true).spi with
    | armed => exact absurd hcase h
    | due => simp only [hm, if_true]
    | idle => simp only [hm, if_true]
  · cases hcase : (s.enableStep.arrive e true).spi with
    | armed => exact absurd hcase h
    | due => simp only [hm, Bool.false_eq_true, if_false]
    | idle => simp only [hm, Bool.false_eq_true, if_false]

/-- A step in the wait that DISABLE leaves. -/
theorem step_waiting {s : State} (hreset : s.outside.reset = false) (hresetting : s.resetting = false)
    (hmode : s.consoleMode = false) (hwaiting : s.waiting = true) : step s = s.wait s.outside := by
  simp only [step, hreset, hresetting, hmode, hwaiting, Bool.or_self, Bool.false_eq_true, if_false, if_true]

/-- Settles O50. -/
theorem boundaryAndWait : Obligations.BoundaryAndWait := by
  intro s e
  have hboundary := boundary_eq s e
  rw [enableStep_eq] at hboundary
  refine ⟨hboundary.1, hboundary.2.1, hboundary.2.2, fun he hreset hresetting hmode hwaiting => ?_⟩
  subst he
  have hasked := asked_arrive s s.outside true s.outside.conreq
  rw [step_waiting hreset hresetting hmode hwaiting]
  unfold State.wait
  refine ⟨fun n hn => ?_, fun hn => ?_⟩
  · have hlevel : (s.arrive s.outside true).nextLevel = some n := hn
    dsimp only
    rw [hlevel]
    rfl
  · have hlevel : (s.arrive s.outside true).nextLevel = none := hn
    dsimp only
    rw [hlevel, hasked]
    rfl

end Sys2Proof.Proofs
end

