-- ==== Sys2Proof/Proofs/Fetching.lean ====
section
/-! PROOF. A step that fetches an instruction (20_memory.md R103, 60_exceptions.md R663, R720): how many words the decoder asks
for, the turns of the others between them, and what the step does with the words or with a fault. -/

namespace Sys2Proof.Proofs

open Sys2Proof.Machine

/-! ## How many words an instruction has -/

/-- What the decoder does with the words after the first: it takes none, one or two, whatever they are. -/
inductive Form : (List Word → Decoded) → Prop
  | one (i : Instr) : Form (one i)
  | two (k : Word → Instr) : Form (two k)
  | three (k : Word → Word → Instr) : Form (three k)
  | illegal : Form fun _ => .illegal
  | reserved : Form fun _ => .reserved

theorem Form.ifZero {d : List Word → Decoded} (f : BitVec 4) (h : Form d) : Form fun rest => ifZero f (d rest) := by
  unfold Sys2Proof.ifZero
  split
  · exact h
  · exact .reserved

theorem form_decodeBase (op : Byte) (hi lo : BitVec 4) : Form (decodeBase op hi lo) := by
  unfold decodeBase
  generalize op.toNat / 4 = n
  match n with
  | 0 | 1 | 2 | 3 | 4 | 5 | 6 | 7 | 8 | 9 | 10 | 11 | 12 | 13 | 14 | 15 => constructor
  | n + 16 => exact .illegal

theorem form_decodeBrx (op : Byte) (hi lo : BitVec 4) : Form (decodeBrx op hi lo) := by
  unfold decodeBrx
  generalize hi.toNat = n
  match n with
  | 0 | 1 | 2 | 3 | 4 | 5 | 6 | 7 | 8 | 9 | 10 | 11 | 12 | 13 | 14 | 15 => constructor
  | n + 16 => exact .illegal

theorem form_decodeImml (hi lo : BitVec 4) : Form (decodeImml hi lo) := by
  unfold decodeImml
  generalize lo.toNat = n
  match n with
  | 0 | 1 | 2 | 3 | 4 | 5 | 6 | 7 | 8 | 9 | 10 | 11 | 12 | 13 | 14 | 15 => constructor
  | n + 16 => exact .illegal

theorem form_decodeBif (hi lo : BitVec 4) : Form (decodeBif hi lo) := by
  unfold decodeBif
  generalize hi.toNat / 4 = n
  match n with
  | 0 | 1 | 2 | 3 | 4 | 5 | 6 | 7 | 8 | 9 | 10 | 11 | 12 | 13 | 14 | 15 => constructor
  | n + 16 => exact .illegal

theorem form_decode4 (op : Byte) (hi lo : BitVec 4) : Form (decode4 op hi lo) := by
  unfold decode4
  generalize op.toNat % 16 = n
  match n with
  | 4 | 5 | 6 | 7 | 8 | 9 | 11 | 12 | 13 | 14 => constructor
  | 0 | 1 | 2 | 3 => exact form_decodeBrx op hi lo
  | 10 => exact form_decodeImml hi lo
  | 15 => exact form_decodeBif hi lo
  | n + 16 => exact .illegal

theorem form_decode5 (op : Byte) (hi lo : BitVec 4) : Form (decode5 op hi lo) := by
  unfold decode5
  generalize op.toNat % 16 = n
  match n with
  | 0 | 1 | 2 | 3 | 4 | 5 | 6 | 7 | 8 | 9 | 10 | 11 | 12 | 13 | 14 | 15 => constructor
  | n + 16 => exact .illegal

theorem form_decode6 (op : Byte) (hi lo : BitVec 4) : Form (decode6 op hi lo) := by
  unfold decode6
  generalize op.toNat % 16 = n
  match n with
  | 0 | 1 | 2 | 3 | 4 | 5 | 6 | 7 | 8 | 9 | 10 | 11 | 12 | 13 | 14 | 15 => constructor
  | n + 16 => exact .illegal

theorem form_decode7 (op : Byte) (hi lo : BitVec 4) : Form (decode7 op hi lo) := by
  unfold decode7
  generalize op.toNat % 16 = n
  match n with
  | 0 | 1 | 2 | 3 | 4 | 5 | 6 | 8 | 9 | 10 | 11 | 14 => constructor
  | 7 => exact (Form.one (.bex (reg lo))).ifZero hi
  | 12 => exact (Form.two (.lsti (reg lo))).ifZero hi
  | 13 => exact (Form.two (.lst (reg lo))).ifZero hi
  | 15 => exact (Form.one (.urs (reg hi))).ifZero lo
  | n + 16 => exact .illegal

theorem form_decode8 (op : Byte) (hi lo : BitVec 4) : Form (decode8 op hi lo) := by
  unfold decode8
  generalize op.toNat % 16 = n
  match n with
  | 0 | 1 | 2 | 3 | 4 | 5 | 6 | 7 | 8 | 9 | 10 | 11 | 12 | 13 | 14 | 15 => constructor
  | n + 16 => exact .illegal

theorem form_decode9 (op : Byte) (hi lo : BitVec 4) : Form (decode9 op hi lo) := by
  unfold decode9
  generalize op.toNat % 16 = n
  match n with
  | 0 | 1 | 2 | 3 | 4 | 5 | 6 | 7 | 8 | 9 | 10 | 11 | 12 | 13 | 14 | 15 => constructor
  | n + 16 => exact .illegal

theorem form_decodeA (op : Byte) (hi lo : BitVec 4) : Form (decodeA op hi lo) := by
  unfold decodeA
  generalize op.toNat % 16 = n
  match n with
  | 0 | 1 | 2 | 3 | 4 | 5 | 6 | 7 | 8 | 9 | 10 | 11 | 12 | 13 | 14 | 15 => constructor
  | n + 16 => exact .illegal

theorem form_decodeB (op : Byte) (hi lo : BitVec 4) : Form (decodeB op hi lo) := by
  unfold decodeB
  generalize op.toNat % 16 = n
  match n with
  | 0 | 1 | 2 | 3 | 4 | 5 | 6 | 7 | 8 | 9 | 10 | 11 | 12 | 13 | 14 | 15 => constructor
  | n + 16 => exact .illegal

theorem form_decodeC (op : Byte) (hi lo : BitVec 4) : Form (decodeC op hi lo) := by
  unfold decodeC
  generalize op.toNat % 16 = n
  match n with
  | 0 | 1 | 2 | 3 | 4 | 5 | 6 | 7 | 8 | 9 | 10 | 11 | 12 | 13 | 14 | 15 => constructor
  | n + 16 => exact .illegal

theorem form_decodeD (op : Byte) (hi lo : BitVec 4) : Form (decodeD op hi lo) := by
  unfold decodeD
  generalize op.toNat % 16 = n
  match n with
  | 0 | 1 | 2 | 3 | 4 | 5 | 6 | 7 | 8 | 9 | 10 | 11 | 12 | 13 | 14 | 15 => constructor
  | n + 16 => exact .illegal

theorem form_decodeE (op : Byte) (hi lo : BitVec 4) : Form (decodeE op hi lo) := by
  unfold decodeE
  generalize op.toNat % 16 = n
  match n with
  | 0 | 1 | 2 | 3 | 4 | 5 | 6 | 7 | 8 | 9 | 10 | 11 | 13 | 14 | 15 => constructor
  | 12 => exact (Form.one (.xbr (reg hi))).ifZero lo
  | n + 16 => exact .illegal

theorem form_decodeF (op : Byte) (hi lo : BitVec 4) : Form (decodeF op hi lo) := by
  unfold decodeF
  generalize op.toNat % 16 = n
  match n with
  | 0 | 1 | 2 | 3 | 4 | 5 | 6 | 7 | 8 | 9 | 10 | 11 | 12 | 13 | 14 => constructor
  | 15 =>
    show Form fun rest => if hi ++ lo = (0x00 : Byte) then one .nop rest else
      if hi ++ lo = (0xFF : Byte) then one .bpt rest else .reserved
    split
    · exact .one .nop
    · split
      · exact .one .bpt
      · exact .reserved
  | n + 16 => exact .illegal

theorem form_decodeFirst (op : Byte) (hi lo : BitVec 4) : Form (decodeFirst op hi lo) := by
  unfold decodeFirst
  generalize op.toNat / 16 = n
  match n with
  | 0 | 1 | 2 | 3 => exact form_decodeBase op hi lo
  | 4 => exact form_decode4 op hi lo
  | 5 => exact form_decode5 op hi lo
  | 6 => exact form_decode6 op hi lo
  | 7 => exact form_decode7 op hi lo
  | 8 => exact form_decode8 op hi lo
  | 9 => exact form_decode9 op hi lo
  | 10 => exact form_decodeA op hi lo
  | 11 => exact form_decodeB op hi lo
  | 12 => exact form_decodeC op hi lo
  | 13 => exact form_decodeD op hi lo
  | 14 => exact form_decodeE op hi lo
  | 15 => exact form_decodeF op hi lo
  | n + 16 => exact .illegal

theorem form_decode (w : Word) : Form fun rest => decode (w :: rest) := form_decodeFirst (opField w) (hiField w) (loField w)

/-- The words of an instruction among three. -/
theorem decode_three {w0 w1 w2 : Word} {i : Instr} {rest : List Word} (h : decode [w0, w1, w2] = .instr i rest) :
    (rest.length = 2 ∧ decode [w0] = .instr i []) ∨
    (rest.length = 1 ∧ decode [w0] = .more ∧ decode [w0, w1] = .instr i []) ∨
    (rest.length = 0 ∧ decode [w0] = .more ∧ decode [w0, w1] = .more ∧ decode [w0, w1, w2] = .instr i []) := by
  have hform := form_decode w0
  generalize hd : (fun ws => decode (w0 :: ws)) = d at hform
  have hdecode : ∀ ws, decode (w0 :: ws) = d ws := fun ws => congrFun hd ws
  rw [hdecode] at h
  rw [hdecode, hdecode, hdecode]
  cases hform with
  | one i' =>
    cases h
    exact .inl ⟨rfl, rfl⟩
  | two k =>
    cases h
    exact .inr (.inl ⟨rfl, rfl, rfl⟩)
  | three k =>
    cases h
    exact .inr (.inr ⟨rfl, rfl, rfl, rfl⟩)
  | illegal => exact nomatch h
  | reserved => exact nomatch h

theorem decode_more_of_two {w0 w1 : Word} (h : decode [w0, w1] = .more) : decode [w0] = .more := by
  have hform := form_decode w0
  generalize hd : (fun ws => decode (w0 :: ws)) = d at hform
  have hdecode : ∀ ws, decode (w0 :: ws) = d ws := fun ws => congrFun hd ws
  rw [hdecode] at h ⊢
  cases hform with
  | one i => exact nomatch h
  | two k => exact nomatch h
  | three k => rfl
  | illegal => exact nomatch h
  | reserved => exact nomatch h

/-! ## The words, and the turns between them -/

/-- The state after `k` turns of the others. -/
def after (s : State) (k : Nat) : State := State.turn^[k] s

/-- The cycle that fetches word `k`. -/
def fetchedCycle (s : State) (k : Nat) : Cycle := (after s k).ownCycle .fetch (s.ic + BitVec.ofNat 16 k)

/-- Word `k` of the instruction. -/
def fetchedWord (s : State) (k : Nat) : Word := (after s k).mem.readWord (fetchedCycle s k).phys

/-- What the turns leave. -/
theorem after_leaves (s : State) (k : Nat) :
    (after s k).ic = s.ic ∧ (after s k).mask = s.mask ∧
      (s.resetting = false → (∀ j < k, (after s j).resetComes = false) → (after s k).resetting = false) := by
  induction k with
  | zero => exact ⟨rfl, rfl, fun h _ => h⟩
  | succ k ih =>
    obtain ⟨hic, hmask, hreset⟩ := ih
    obtain ⟨_, _, _, _, hturn⟩ := State.turn_frame (after s k)
    have hsucc : after s (k + 1) = (after s k).turn := Function.iterate_succ_apply' State.turn k s
    rw [hsucc, hturn]
    refine ⟨hic, hmask, fun h hall => ?_⟩
    dsimp only
    rw [hreset h fun j hj => hall j (Nat.lt_succ_of_lt hj), hall k (Nat.lt_succ_self k), Bool.or_false]

theorem after_stopped (s : State) (k : Nat) (h : (after s k).resetComes = true) : (after s (k + 1)).resetting = true := by
  obtain ⟨_, _, _, _, hturn⟩ := State.turn_frame (after s k)
  have hsucc : after s (k + 1) = (after s k).turn := Function.iterate_succ_apply' State.turn k s
  rw [hsucc, hturn]
  exact (congrArg (Bool.or (after s k).resetting) h).trans (Bool.or_true _)

/-- A fetch that goes through `n` turns before `k`. -/
def throughTurns (k : State → Fetched) : Nat → State → Fetched
  | 0, s => k s
  | n + 1, s => s.fetchTurn (throughTurns k n)

theorem throughTurns_passes (k : State → Fetched) (n : Nat) {s : State} (hreset : s.resetting = false)
    (h : ∀ j < n, (after s j).resetComes = false) : throughTurns k n s = k (after s n) := by
  induction n generalizing s with
  | zero => rfl
  | succ n ih =>
    have hturn : s.turn.resetting = false := (after_leaves s 1).2.2 hreset fun j hj => h j (by omega)
    rw [throughTurns, State.fetchTurn, hturn]
    exact ih hturn fun j hj => h (j + 1) (Nat.succ_lt_succ hj)

theorem throughTurns_stops (k : State → Fetched) (n j : Nat) (hj : j < n) {s : State} (hreset : s.resetting = false)
    (h : ∀ m < j, (after s m).resetComes = false) (hcomes : (after s j).resetComes = true) :
    throughTurns k n s = .stopped (after s (j + 1)) := by
  induction n generalizing s j with
  | zero => exact absurd hj (Nat.not_lt_zero j)
  | succ n ih =>
    rw [throughTurns, State.fetchTurn]
    cases j with
    | zero =>
      have hturn : s.turn.resetting = true := after_stopped s 0 hcomes
      rw [hturn]
      rfl
    | succ j =>
      have hturn : s.turn.resetting = false := (after_leaves s 1).2.2 hreset fun m hm => h m (by omega)
      rw [hturn]
      exact ih j (Nat.lt_of_succ_lt_succ hj) hturn (fun m hm => h (m + 1) (Nat.succ_lt_succ hm)) hcomes

/-! ## The fetch -/

theorem fetchCycle_eq (s : State) (k : Nat) {addr : Word} (haddr : addr = s.ic + BitVec.ofNat 16 k) :
    (after s k).fetchCycle addr =
      if (fetchedCycle s k).clean then .ok (fetchedWord s k) else .error (fetchedCycle s k).bits := by
  rw [haddr]
  rfl

theorem fetchCycle_first (s : State) : s.fetchCycle s.ic =
    if (fetchedCycle s 0).clean then .ok (fetchedWord s 0) else .error (fetchedCycle s 0).bits :=
  fetchCycle_eq s 0 (BitVec.add_zero s.ic).symm

theorem fetchCycle_later (s : State) (k : Nat) : (after s k).fetchCycle ((after s k).ic + BitVec.ofNat 16 k) =
    if (fetchedCycle s k).clean then .ok (fetchedWord s k) else .error (fetchedCycle s k).bits := by
  rw [(after_leaves s k).1]
  exact fetchCycle_eq s k rfl

/-- The first word is fetched and is enough. -/
theorem fetch_one {s : State} (h0 : (fetchedCycle s 0).clean = true) {d : Decoded} (hd : decode [fetchedWord s 0] = d)
    (hmore : d ≠ .more) : s.fetch = throughTurns (.word d (fetchedWord s 0)) 1 s := by
  rw [State.fetch, fetchCycle_first, h0, if_pos rfl]
  dsimp only
  rw [hd]
  cases d with
  | more => exact absurd rfl hmore
  | instr i rest => rfl
  | illegal => rfl
  | reserved => rfl

/-- The first word is fetched and needs a second. -/
theorem fetch_first {s : State} (h0 : (fetchedCycle s 0).clean = true) (hd : decode [fetchedWord s 0] = .more) :
    s.fetch = s.fetchTurn (State.fetchSecond (fetchedWord s 0)) := by
  rw [State.fetch, fetchCycle_first, h0, if_pos rfl]
  dsimp only
  rw [hd]

/-- Only the state after the turn matters to the rest of the fetch. -/
theorem fetchTurn_congr {s : State} {k k' : State → Fetched} (h : k s.turn = k' s.turn) : s.fetchTurn k = s.fetchTurn k' := by
  rw [State.fetchTurn, State.fetchTurn, h]

theorem fetch_two {s : State} (h0 : (fetchedCycle s 0).clean = true) (h1 : (fetchedCycle s 1).clean = true)
    (hmore : decode [fetchedWord s 0] = .more) {d : Decoded} (hd : decode [fetchedWord s 0, fetchedWord s 1] = d)
    (hd' : d ≠ .more) : s.fetch = throughTurns (.word d (fetchedWord s 0)) 2 s := by
  rw [fetch_first h0 hmore]
  refine fetchTurn_congr ?_
  have hcycle : s.turn.fetchCycle (s.turn.ic + 1) = _ := fetchCycle_later s 1
  rw [State.fetchSecond, hcycle, h1, if_pos rfl]
  dsimp only
  rw [hd]
  cases d with
  | more => exact absurd rfl hd'
  | instr i rest => rfl
  | illegal => rfl
  | reserved => rfl

theorem fetch_second {s : State} (h0 : (fetchedCycle s 0).clean = true) (h1 : (fetchedCycle s 1).clean = true)
    (hmore : decode [fetchedWord s 0] = .more) (hmore' : decode [fetchedWord s 0, fetchedWord s 1] = .more) :
    s.fetch = throughTurns (State.fetchThird (fetchedWord s 0) (fetchedWord s 1)) 2 s := by
  rw [fetch_first h0 hmore]
  refine fetchTurn_congr ?_
  have hcycle : s.turn.fetchCycle (s.turn.ic + 1) = _ := fetchCycle_later s 1
  rw [State.fetchSecond, hcycle, h1, if_pos rfl]
  dsimp only
  rw [hmore']
  rfl

theorem fetch_three {s : State} (h0 : (fetchedCycle s 0).clean = true) (h1 : (fetchedCycle s 1).clean = true)
    (h2 : (fetchedCycle s 2).clean = true) (hmore : decode [fetchedWord s 0] = .more)
    (hmore' : decode [fetchedWord s 0, fetchedWord s 1] = .more) :
    s.fetch = throughTurns (.word (decode [fetchedWord s 0, fetchedWord s 1, fetchedWord s 2]) (fetchedWord s 0)) 3 s := by
  rw [fetch_second h0 h1 hmore hmore']
  refine fetchTurn_congr (fetchTurn_congr ?_)
  have hcycle : (after s 2).fetchCycle ((after s 2).ic + 2) = _ := fetchCycle_later s 2
  change State.fetchThird (fetchedWord s 0) (fetchedWord s 1) (after s 2) = _
  rw [State.fetchThird, hcycle, h2, if_pos rfl]
  rfl

/-- The fetch of the words that an instruction has. -/
theorem fetch_words {s : State} {i : Instr} {rest : List Word}
    (hd : decode [fetchedWord s 0, fetchedWord s 1, fetchedWord s 2] = .instr i rest)
    (h : ∀ k < 3 - rest.length, (fetchedCycle s k).clean = true) :
    s.fetch = throughTurns (.word (.instr i []) (fetchedWord s 0)) (3 - rest.length) s := by
  rcases decode_three hd with ⟨hlen, h1⟩ | ⟨hlen, h1, h2⟩ | ⟨hlen, h1, h2, h3⟩
  · rw [hlen] at h ⊢
    exact fetch_one (h 0 (by omega)) h1 (by simp)
  · rw [hlen] at h ⊢
    exact fetch_two (h 0 (by omega)) (h 1 (by omega)) h1 h2 (by simp)
  · rw [hlen] at h ⊢
    rw [fetch_three (h 0 (by omega)) (h 1 (by omega)) (h 2 (by omega)) h1 h2, h3]

/-- The fetch whose word `k` draws a fault. -/
theorem fetch_faulted {s : State} {k : Nat} (hk : k < 3) (hclean : ∀ j < k, (fetchedCycle s j).clean = true)
    (hreset : s.resetting = false) (hresets : ∀ j < k, (after s j).resetComes = false)
    (hmore : k = 0 ∨ decode ((List.range k).map (fetchedWord s)) = .more) (hfault : (fetchedCycle s k).clean = false) :
    s.fetch = .faulted (fetchedCycle s k).bits (after s k) := by
  match k, hk with
  | 0, _ =>
    rw [State.fetch, fetchCycle_first, hfault]
    rfl
  | 1, _ =>
    have hone : decode [fetchedWord s 0] = .more := hmore.resolve_left (by omega)
    have hcycle : (after s 1).fetchCycle ((after s 1).ic + 1) = _ := fetchCycle_later s 1
    rw [fetch_first (hclean 0 (by omega)) hone,
      show s.fetchTurn (State.fetchSecond (fetchedWord s 0)) = throughTurns (State.fetchSecond (fetchedWord s 0)) 1 s from rfl,
      throughTurns_passes _ 1 hreset hresets, State.fetchSecond, hcycle, hfault]
    rfl
  | 2, _ =>
    have htwo : decode [fetchedWord s 0, fetchedWord s 1] = .more := hmore.resolve_left (by omega)
    have hcycle : (after s 2).fetchCycle ((after s 2).ic + 2) = _ := fetchCycle_later s 2
    rw [fetch_second (hclean 0 (by omega)) (hclean 1 (by omega)) (decode_more_of_two htwo) htwo,
      throughTurns_passes _ 2 hreset hresets, State.fetchThird, hcycle, hfault]
    rfl

/-! ## The step -/

theorem step_fetches {s : State} (houtside : s.outside.reset = false) (hreset : s.resetting = false)
    (hmode : s.consoleMode = false) (hwaiting : s.waiting = false) (hmoving : s.moving = none) :
    step s = s.fetchRun s.outside := by
  simp only [step, houtside, hreset, hmode, hwaiting, hmoving, Bool.or_self, Bool.false_eq_true, if_false]

theorem step_moves {s : State} {ra rb : Reg} (houtside : s.outside.reset = false) (hreset : s.resetting = false)
    (hmode : s.consoleMode = false) (hwaiting : s.waiting = false) (hmoving : s.moving = some (ra, rb)) :
    step s = s.runInstr s.outside (.mov ra rb) := by
  simp only [step, houtside, hreset, hmode, hwaiting, hmoving, Bool.or_self, Bool.false_eq_true, if_false]

/-- The answer of a step that runs `i` is given by the answer of `exec`. -/
theorem runInstr_answers {r : Result} {u : State} {e : Env} {i : Instr} (h : r = u.runInstr e i) :
    (∀ t, exec i u = .next t → r = t.finish e (u.ending i)) ∧ (∀ f, exec i u = .fault f → r = .fault f) ∧
      ∀ x, exec i u = .refused x → r = .refused x := by
  rw [h, State.runInstr]
  refine ⟨fun t ht => ?_, fun f hf => ?_, fun x hx => ?_⟩
  · rw [ht]
  · rw [hf]
  · rw [hx]

theorem ending_boundary (s : State) {i : Instr} (h : ∀ ra rb, i ≠ .mov ra rb) : s.ending i = .boundary := by
  unfold State.ending
  split
  next ra rb => exact absurd rfl (h ra rb)
  next => rfl

/-- What follows an instruction, by its ending. -/
theorem finish_follows {t : State} (e : Env) (hreset : t.resetting = false) :
    let left := fun m : Option (Reg × Reg) => { t.scramble with moving := m }
    (∀ u, (left none).boundary e = .next u → t.finish e .boundary = .next (if u.resetting then u.restart else u)) ∧
    (∀ f, (left none).boundary e = .fault f → t.finish e .boundary = .fault f) ∧
    (∀ ra rb, t.finish e (.between ra rb) = .next ((left (some (ra, rb))).arrive e true)) ∧
    t.finish e .taken = .next ((left none).arrive e true) := by
  have hfinish : ∀ ending, t.finish e ending = closeReset (t.follow e ending) := fun ending => by
    rw [State.finish, hreset]
    rfl
  have hleft : ∀ m, ({ t.scramble with moving := m }.arrive e true).resetting = false := fun m =>
    (arrive_modes _ e true).2.trans hreset
  refine ⟨fun u hu => ?_, fun f hf => ?_, fun ra rb => ?_, ?_⟩
  · rw [hfinish, State.follow, hu, closeReset]
  · rw [hfinish, State.follow, hf, closeReset]
  · rw [hfinish, State.follow, closeReset, hleft, if_neg Bool.false_ne_true]
  · rw [hfinish, State.follow, closeReset, hleft, if_neg Bool.false_ne_true]

/-- Settles O51. -/
theorem stepRunsInstruction : Obligations.StepRunsInstruction := by
  intro s i houtside hreset hmode hwaiting
  refine ⟨fun rest hmoving hd hclean => ?_, fun ra rb hmoving hi => ?_, fun hi => ending_boundary s hi, fun t e ht =>
    ⟨t.scramble.scratch, finish_follows e ht⟩⟩
  · have hstep := step_fetches houtside hreset hmode hwaiting hmoving
    have hfetch := fetch_words hd hclean
    refine ⟨fun hresets => ?_, fun k hk hbefore hcomes => ?_⟩
    · refine runInstr_answers ?_
      rw [hstep, State.fetchRun, hfetch, throughTurns_passes _ _ hreset hresets]
      rfl
    · rw [hstep, State.fetchRun, hfetch, throughTurns_stops _ _ k hk hreset hbefore hcomes]
      rfl
  · subst hi
    exact runInstr_answers (step_moves houtside hreset hmode hwaiting hmoving)

theorem fetchFault_eq (s : State) (c : Cycle) (e : Env) :
    (bitOf s.mask 1 = true → s.fetchFault c.bits e = closeReset (({ s with
      ft := s.ft ||| Shape.cycleFaults c, pir := s.pir ||| oneBit 1, trace := .unrcvEr :: s.trace }.arrive e true).interrupt
        1 0).result) ∧
    (bitOf s.mask 1 = false → s.fetchFault c.bits e = .fault .fetchFaultMasked) := by
  have hpir : oneBit 1 = 0x4000 := by decide
  refine ⟨fun h => ?_, fun h => ?_⟩
  · rw [State.fetchFault, h, bits_eq_cycleFaults, hpir]
    rfl
  · rw [State.fetchFault, h]
    rfl

/-- Settles O52. -/
theorem stepWithoutInstruction : Obligations.StepWithoutInstruction := by
  intro s houtside hreset hmode hwaiting hmoving
  have hstep := step_fetches houtside hreset hmode hwaiting hmoving
  refine ⟨fun hclean hcomes => ⟨fun hd => ?_, fun hd => ?_⟩, fun k hk hbefore hmore hfault => ?_⟩
  · rw [hstep, State.fetchRun, fetch_one hclean hd (by simp),
      throughTurns_passes _ 1 hreset fun j hj => by rw [Nat.lt_one_iff.mp hj]; exact hcomes]
    change (s.turn.illegalInstruction 1).finish s.outside .boundary = _
    have hic : s.turn.ic = s.ic := (after_leaves s 1).1
    rw [illegalInstruction_eq, hic]
  · rw [hstep, State.fetchRun, fetch_one hclean hd (by simp),
      throughTurns_passes _ 1 hreset fun j hj => by rw [Nat.lt_one_iff.mp hj]; exact hcomes]
    rfl
  · have hfetch := fetch_faulted hk (fun j hj => (hbefore j hj).1) hreset (fun j hj => (hbefore j hj).2) hmore hfault
    have hmask : (after s k).mask = s.mask := (after_leaves s k).2.1
    rw [hstep, State.fetchRun, hfetch, ← hmask]
    exact fetchFault_eq (after s k) (fetchedCycle s k) s.outside

end Sys2Proof.Proofs
end

