-- ==== Sys2Proof/Proofs/Reset.lean ====
section
/-! PROOF. The registers after the reset sequence, and the steps that are it (70_reset_and_hazards.md R740 to R747). -/

namespace Sys2Proof.Proofs

open Sys2Proof.Machine

theorem bitOf_or (v w : Word) (n : Nat) : bitOf (v ||| w) n = (bitOf v n || bitOf w n) := by simp [bitOf]

theorem bitOf_and (v w : Word) (n : Nat) : bitOf (v &&& w) n = (bitOf v n && bitOf w n) := by simp [bitOf]

theorem bitOf_ite (c : Prop) [Decidable c] (v : Word) (n : Nat) :
    bitOf (if c then v else 0) n = (decide c && bitOf v n) := by
  split
  next h => simp [h]
  next h => simp [h, bitOf]

/-- FT after reset: the self-test bit, what the inputs left during it, what the I/O cycles of the initialisation drew (R741,
R743). -/
theorem bitOf_resetFt (p : Platform) :
    bitOf (resetFt p) 13 = (!p.selftestOk || bitOf p.selftestFaults 13) ∧
    bitOf (resetFt p) 5 = (bitOf p.selftestFaults 5 || (resetAddresses p).any (ioFlawAt p .illegal)) ∧
    bitOf (resetFt p) 2 = (bitOf p.selftestFaults 2 || (resetAddresses p).any (ioFlawAt p .parity)) := by
  have hzero : ∀ n, bitOf (if p.selftestOk = true then 0 else 0x0004) n = (!p.selftestOk && bitOf 0x0004 n) := fun n => by
    cases p.selftestOk
    · exact (Bool.true_and _).symm
    · simp [bitOf]
  have hbits : bitOf 0x0004 13 = true ∧ bitOf 0x0004 5 = false ∧ bitOf 0x0004 2 = false ∧
      bitOf selftestMask 13 = true ∧ bitOf selftestMask 5 = true ∧ bitOf selftestMask 2 = true ∧
      bitOf 0x0400 13 = false ∧ bitOf 0x0400 5 = true ∧ bitOf 0x0400 2 = false ∧
      bitOf 0x2000 13 = false ∧ bitOf 0x2000 5 = false ∧ bitOf 0x2000 2 = true := by decide
  obtain ⟨h1, h2, h3, h4, h5, h6, h7, h8, h9, h10, h11, h12⟩ := hbits
  simp only [resetFt, bitOf_or, bitOf_and, bitOf_ite, hzero, h1, h2, h3, h4, h5, h6, h7, h8, h9, h10, h11, h12, Bool.and_true,
    Bool.and_false, Bool.or_false, Bool.false_or, Bool.decide_eq_true, and_self]

/-- The page registers after reset map one to one (D30). -/
theorem identity_page (g r : Fin 16) :
    ((Vector.replicate 16 identityGroup)[g.val])[r.val] = BitVec.ofNat 16 r.val := by
  rw [Vector.getElem_replicate]
  revert r
  decide

/-- Settles O53. -/
theorem resetValues : Obligations.ResetValues := by
  refine ⟨fun s => ?_, fun s => rfl, fun s hreset => ?_, fun t e ending hresetting => ?_, fun t e hresetting => ?_⟩
  · obtain ⟨h13, h5, h2⟩ := bitOf_resetFt s.platform
    exact ⟨rfl, rfl, rfl, rfl, rfl, rfl, rfl, rfl, rfl, rfl, rfl, rfl, rfl, rfl, rfl, rfl, rfl, rfl, rfl, h13, h5, h2, rfl,
      fun _ g r => ⟨identity_page g r, identity_page g r⟩, fun _ k => Vector.getElem_replicate k.isLt⟩
  · simp only [step, hreset, Bool.true_or, if_true]
  · rw [State.finish, hresetting]
    rfl
  · rw [arriveInConsole, hresetting]
    rfl

end Sys2Proof.Proofs
end

