-- ==== Sys2Proof/Proofs/Protection.lean ====
section
/-! PROOF. The check of one memory cycle: where it goes, and exactly when the F9451, the F9452 or the memory system objects
(48_mmu_bpu.md R584 to R606, 20_memory.md R85 to R88). -/

namespace Sys2Proof.Proofs

open Sys2Proof.Machine

/-! ## Addresses as numbers -/

theorem toNat_append_eq {m n : Nat} (x : BitVec m) (y : BitVec n) : (x ++ y).toNat = x.toNat * 2 ^ n + y.toNat := by
  rw [BitVec.toNat_append, ← Nat.shiftLeft_add_eq_or_of_lt y.isLt, Nat.shiftLeft_eq]

theorem index4_eq (f : BitVec 4) : index4 f = Fin.ofNat 16 f.toNat :=
  Fin.ext (Nat.mod_eq_of_lt f.isLt).symm

theorem pageOf_eq (addr : Word) : pageOf addr = Fin.ofNat 16 (addr.toNat / 4096) := by
  refine Fin.ext ?_
  simp only [pageOf, Fin.ofNat, BitVec.extractLsb'_toNat, Nat.shiftRight_eq_div_pow]

theorem pageRegister_eq (s : State) (kind : CycleKind) (as : BitVec 4) (addr : Word) :
    s.pageRegister kind as addr =
      if kind = .fetch then (s.ipr[(Fin.ofNat 16 as.toNat).val])[(Fin.ofNat 16 (addr.toNat / 4096)).val]
      else (s.opr[(Fin.ofNat 16 as.toNat).val])[(Fin.ofNat 16 (addr.toNat / 4096)).val] := by
  simp only [← index4_eq, ← pageOf_eq]
  cases kind with
  | fetch => rfl
  | read => rfl
  | write => rfl

theorem dataLine_toNat (s : State) (kind : CycleKind) :
    (s.dataLine kind).toNat = if s.platform.diDecoded = true ∧ kind ≠ .fetch then 1 else 0 := by
  rw [State.dataLine]
  cases s.platform.diDecoded
  case false => simp
  case true =>
    cases kind with
    | fetch => rfl
    | read => rfl
    | write => rfl

theorem bpuAddress_toNat (s : State) (p : Phys) :
    (s.bpuAddress p).toNat = p.toNat % (if bitOf s.scr 0 then 2 ^ 20 else 2 ^ 16) := by
  rw [State.bpuAddress]
  split
  · simp only [BitVec.extractLsb'_toNat, Nat.shiftRight_zero]
  · simp only [toNat_append_eq, BitVec.extractLsb'_toNat, Nat.shiftRight_zero, BitVec.ofNat_eq_ofNat, BitVec.toNat_ofNat,
      Nat.zero_mod, Nat.zero_mul, Nat.zero_add]

/-! ## Objections -/

theorem memFlawAt_iff (p : Platform) (flaw : MemoryFlaw) (addr : Phys) : memFlawAt p flaw addr = true ↔
    ∃ r ∈ p.memFaults, r.flaw = flaw ∧ r.first.toNat ≤ addr.toNat ∧ addr.toNat ≤ r.last.toNat := by
  simp only [memFlawAt, List.any_eq_true, Bool.and_eq_true, decide_eq_true_eq, and_assoc]

/-- R604, R606: the bit of the protect table, by the number of the 1 K block that the F9452 sees. -/
theorem bpuViolation_block (s : State) (dma : Bool) (a : BitVec 20) {n : Nat} (hn : a.toNat / 2 ^ 10 = n) :
    s.bpuViolation dma a = true ↔ bitOf s.scr 1 = true ∧ s.globprt = false ∧
      bitOf s.bpuRam[(Fin.ofNat 128 (n / 16 + if dma then 64 else 0)).val] (n % 16) = true := by
  have ha := a.isLt
  have hbit : (a.extractLsb' 10 4).toNat = n % 16 := by
    rw [BitVec.extractLsb'_toNat, Nat.shiftRight_eq_div_pow, hn]
  have hword : (if dma then 64 else 0) + (a.extractLsb' 14 6).toNat =
      (Fin.ofNat 128 (n / 16 + if dma then 64 else 0)).val := by
    simp only [BitVec.extractLsb'_toNat, Nat.shiftRight_eq_div_pow, Fin.ofNat]
    split <;> omega
  simp only [State.bpuViolation, State.bpuPresent, Bool.and_eq_true, Bool.not_eq_true', hbit, hword, and_assoc]

theorem bpuViolation_iff (s : State) (dma : Bool) (p : Phys) {n : Nat}
    (hn : p.toNat % (if bitOf s.scr 0 then 2 ^ 20 else 2 ^ 16) / 2 ^ 10 = n) : s.bpuViolation dma (s.bpuAddress p) = true ↔
    bitOf s.scr 1 = true ∧ s.globprt = false ∧
      bitOf s.bpuRam[(Fin.ofNat 128 (n / 16 + if dma then 64 else 0)).val] (n % 16) = true :=
  bpuViolation_block s dma (s.bpuAddress p) (by rw [bpuAddress_toNat, hn])

/-- R590. -/
theorem keyOk_iff (k : BitVec 4) (page : Word) : keyOk k (page.extractLsb' 12 4) = true ↔
    page.toNat / 2 ^ 12 = 15 ∨ k = 0 ∨ k.toNat = page.toNat / 2 ^ 12 := by
  have hpage := page.isLt
  have hlock : (page.extractLsb' 12 4).toNat = page.toNat / 2 ^ 12 := by
    rw [BitVec.extractLsb'_toNat, Nat.shiftRight_eq_div_pow]
    omega
  have hopen : page.extractLsb' 12 4 = 0xF ↔ page.toNat / 2 ^ 12 = 15 := by
    rw [← BitVec.toNat_inj, hlock]
    rfl
  have hsame : k = page.extractLsb' 12 4 ↔ k.toNat = page.toNat / 2 ^ 12 := by rw [← BitVec.toNat_inj, hlock]
  rw [keyOk, Bool.or_eq_true, Bool.or_eq_true, decide_eq_true_eq, decide_eq_true_eq, decide_eq_true_eq, hopen, hsame, or_assoc]

/-- R593. -/
theorem mmuViolation_iff (s : State) (kind : CycleKind) (as : BitVec 4) (key : Option (BitVec 4)) (addr : Word) :
    s.mmuViolation kind as key addr = true ↔ (bitOf s.scr 0 = true ∧ s.platform.mmuAttached = true) ∧
      ((∃ k, key = some k ∧ ¬ ((s.pageRegister kind as addr).toNat / 2 ^ 12 = 15 ∨ k = 0 ∨
          k.toNat = (s.pageRegister kind as addr).toNat / 2 ^ 12)) ∨
        (kind = .fetch ∧ bitOf (s.pageRegister kind as addr) 4 = true) ∨
        (kind = .write ∧ bitOf (s.pageRegister kind as addr) 4 = true)) := by
  generalize hpage : s.pageRegister kind as addr = page
  have hkind : (kind != .read && bitOf page 4) = true ↔
      (kind = .fetch ∧ bitOf page 4 = true) ∨ (kind = .write ∧ bitOf page 4 = true) := by
    cases kind with
    | fetch => simp
    | read => simp
    | write => simp
  simp only [State.mmuViolation, State.mmuPresent, hpage, Bool.and_eq_true, Bool.or_eq_true] at hkind ⊢
  rw [hkind]
  cases key with
  | none => simp
  | some k => simp only [Bool.not_eq_true', ← keyOk_iff, Option.some.injEq, exists_eq_left', Bool.not_eq_true]

/-- Settles O54. -/
theorem memoryCheck : Obligations.MemoryCheck := by
  intro s kind as key addr
  dsimp only
  simp only [← pageRegister_eq, ← dataLine_toNat]
  have haddr := addr.isLt
  refine ⟨fun hmmu hppa => ?_, fun hmmu hppa => ?_, fun hscr hmmu => ?_, fun hscr => ?_, ?_, memFlawAt_iff _ _ _,
    memFlawAt_iff _ _ _⟩
  · have hpresent : s.mmuPresent = true := by simp [State.mmuPresent, hmmu]
    simp only [State.cycle, State.physical, hpresent, hppa, if_true, Bool.false_eq_true, if_false, toNat_append_eq,
      BitVec.extractLsb'_toNat, Nat.shiftRight_zero, BitVec.ofNat_eq_ofNat, BitVec.toNat_ofNat, Nat.zero_mod, Nat.zero_mul,
      Nat.zero_add]
  · have hpresent : s.mmuPresent = true := by simp [State.mmuPresent, hmmu]
    simp only [State.cycle, State.physical, hpresent, hppa, if_true, toNat_append_eq, BitVec.extractLsb'_toNat,
      Nat.shiftRight_zero]
    omega
  · have hpresent : s.mmuPresent = false := by simp [State.mmuPresent, hmmu]
    simp only [State.cycle, State.physical, hpresent, hscr, if_true, Bool.false_eq_true, if_false, toNat_append_eq,
      BitVec.ofNat_eq_ofNat, BitVec.toNat_ofNat, Nat.zero_mod, Nat.zero_mul, Nat.zero_add]
    split
    · simp
    · simp
      omega
  · have hpresent : s.mmuPresent = false := by simp [State.mmuPresent, hscr]
    simp only [State.cycle, State.physical, hpresent, hscr, Bool.false_eq_true, if_false, toNat_append_eq,
      BitVec.ofNat_eq_ofNat, BitVec.toNat_ofNat, Nat.zero_mod, Nat.zero_mul, Nat.zero_add]
  · have hbpu := bpuViolation_iff s false (s.physical kind as addr) rfl
    simp only [Bool.false_eq_true, if_false, Nat.add_zero] at hbpu
    simp only [State.cycle, Bool.or_eq_true, Bool.and_eq_true, decide_eq_true_eq, mmuViolation_iff, hbpu]

end Sys2Proof.Proofs
end

