-- ==== Sys2Proof/Proofs/Outside.lean ====
section
/-! PROOF. What comes from outside, input by input: the timers, the interrupt pins, the fault inputs, other masters' writes, and a
turn of the others (10_state.md R38, R39, 60_exceptions.md R665, R674, 20_memory.md R101). -/

namespace Sys2Proof.Proofs

open Sys2Proof.Machine

/-! ## The timers -/

theorem tick_one (s : State) : s.tick 1 = { s with
    ta := if s.taRun then s.ta + 1 else s.ta
    tb := if s.tbRun ∧ s.tbPhase = 9 then s.tb + 1 else s.tb
    tbPhase := s.tbPhase + 1
    pir := s.pir ||| pendingIf (s.taRun && decide (s.ta = 0xFFFF)) 7 |||
      pendingIf (s.tbRun && decide (s.tbPhase = 9) && decide (s.tb = 0xFFFF)) 9 } := by
  have hta := s.ta.isLt
  have htb := s.tb.isLt
  have hphase := s.tbPhase.isLt
  have hrollA : 2 ^ 16 ≤ s.ta.toNat + 1 ↔ s.ta = 0xFFFF := by
    rw [← BitVec.toNat_inj]
    simp only [BitVec.ofNat_eq_ofNat, BitVec.toNat_ofNat]
    omega
  have hnine : s.tbPhase = 9 ↔ s.tbPhase.val = 9 := Fin.ext_iff
  have hcarry : (s.tbPhase.val + 1) / 10 = if s.tbPhase = 9 then 1 else 0 := by
    split <;> omega
  have hrollB : 2 ^ 16 ≤ s.tb.toNat + (s.tbPhase.val + 1) / 10 ↔ s.tbPhase = 9 ∧ s.tb = 0xFFFF := by
    rw [hcarry, ← BitVec.toNat_inj]
    simp only [BitVec.ofNat_eq_ofNat, BitVec.toNat_ofNat]
    split
    next h => simp only [h, true_and]; omega
    next h => simp only [h, false_and, iff_false]; omega
  have hcount : s.tb + BitVec.ofNat 16 ((s.tbPhase.val + 1) / 10) = if s.tbPhase = 9 then s.tb + 1 else s.tb := by
    rw [hcarry]
    split
    · rfl
    · exact BitVec.add_zero s.tb
  have hnext : Fin.ofNat 10 (s.tbPhase.val + 1) = s.tbPhase + 1 := by
    refine Fin.ext ?_
    simp [Fin.ofNat, Fin.val_add]
  have hif : (if s.tbRun = true then (if s.tbPhase = 9 then s.tb + 1 else s.tb) else s.tb) =
      if s.tbRun = true ∧ s.tbPhase = 9 then s.tb + 1 else s.tb := by
    by_cases h : s.tbRun = true <;> simp [h]
  simp only [State.tick, hrollA, hrollB, hcount, hnext, hif, pendingIf, Bool.and_assoc, Bool.decide_and]
  rfl

/-- A roll-over in `m` periods or in the `n` after them is a roll-over in all. -/
theorem rollover_add (w : Word) (m n : Nat) : (2 ^ 16 ≤ w.toNat + (m + n)) ↔
    (2 ^ 16 ≤ w.toNat + m ∨ 2 ^ 16 ≤ (w + BitVec.ofNat 16 m).toNat + n) := by
  have hw := w.isLt
  rw [BitVec.toNat_add, BitVec.toNat_ofNat]
  omega

/-- A timer word, its roll-over and the phase of Timer B after `m + n` periods. -/
theorem tick_add (s : State) (m n : Nat) : s.tick (m + n) = (s.tick m).tick n := by
  have hphase := s.tbPhase.isLt
  have hcarry : (s.tbPhase.val + (m + n)) / 10 =
      (s.tbPhase.val + m) / 10 + ((Fin.ofNat 10 (s.tbPhase.val + m)).val + n) / 10 := by
    simp only [Fin.ofNat]
    omega
  have hnext : Fin.ofNat 10 (s.tbPhase.val + (m + n)) = Fin.ofNat 10 ((Fin.ofNat 10 (s.tbPhase.val + m)).val + n) := by
    refine Fin.ext ?_
    simp only [Fin.ofNat]
    omega
  have hmask : (s.pir ||| (if (s.taRun && decide (2 ^ 16 ≤ s.ta.toNat + (m + n))) = true then oneBit 7 else 0) |||
        if (s.tbRun && decide (2 ^ 16 ≤ s.tb.toNat + (s.tbPhase.val + (m + n)) / 10)) = true then oneBit 9 else 0) =
      (s.tick m).pir ||| (if (s.taRun && decide (2 ^ 16 ≤ (s.tick m).ta.toNat + n)) = true then oneBit 7 else 0) |||
        if (s.tbRun && decide (2 ^ 16 ≤ (s.tick m).tb.toNat + ((s.tick m).tbPhase.val + n) / 10)) = true then oneBit 9 else 0 := by
    have hA := rollover_add s.ta m n
    have hB := rollover_add s.tb ((s.tbPhase.val + m) / 10) (((Fin.ofNat 10 (s.tbPhase.val + m)).val + n) / 10)
    rw [← hcarry] at hB
    have hcomm : ∀ a b c d : Word, s.pir ||| (a ||| b) ||| (c ||| d) = s.pir ||| a ||| c ||| b ||| d := fun a b c d => by
      simp only [BitVec.or_assoc]
      rw [← BitVec.or_assoc b c d, BitVec.or_comm b c, BitVec.or_assoc c b d]
    change s.pir ||| pendingIf _ 7 ||| pendingIf _ 9 = (s.pir ||| pendingIf _ 7 ||| pendingIf _ 9) ||| pendingIf _ 7 ||| pendingIf _ 9
    rw [← hcomm, ← pendingIf_or, ← pendingIf_or]
    cases hrunA : s.taRun
    · cases hrunB : s.tbRun
      · rfl
      · simp only [hA, hB, State.tick, hrunB, Bool.true_and, Bool.false_and, Bool.or_self, Bool.decide_or, if_true]
    · cases hrunB : s.tbRun
      · simp only [hA, State.tick, hrunA, Bool.true_and, Bool.false_and, Bool.or_self, Bool.decide_or, if_true]
      · simp only [hA, hB, State.tick, hrunA, hrunB, Bool.true_and, Bool.decide_or, if_true]
  have hta : (if s.taRun = true then s.ta + BitVec.ofNat 16 (m + n) else s.ta) =
      if s.taRun = true then (s.tick m).ta + BitVec.ofNat 16 n else (s.tick m).ta := by
    cases h : s.taRun
    · simp [State.tick, h]
    · simp [State.tick, h, BitVec.ofNat_add, BitVec.add_assoc]
  have htb : (if s.tbRun = true then s.tb + BitVec.ofNat 16 ((s.tbPhase.val + (m + n)) / 10) else s.tb) =
      if s.tbRun = true then (s.tick m).tb + BitVec.ofNat 16 (((s.tick m).tbPhase.val + n) / 10) else (s.tick m).tb := by
    rw [hcarry]
    cases h : s.tbRun
    · simp [State.tick, h]
    · simp [State.tick, h, BitVec.ofNat_add, BitVec.add_assoc]
  rw [State.tick, hnext, hmask, hta, htb]
  rfl

/-! ## Pins and fault inputs -/

/-- R674. -/
theorem bitOf_samplePins (s : State) (pins : Word) {n : Nat} (hn : n < 16) :
    bitOf (s.samplePins pins).pir n = (bitOf s.pir n ||
      (if n ∈ [0, 2, 8, 10, 11, 13, 15] then bitOf pins n && (bitOf s.scr 4 || !bitOf s.pinPrev n)
       else decide (n ∈ [12, 14]) && bitOf pins n)) := by
  have hnot : bitOf (~~~ s.pinPrev) n = !bitOf s.pinPrev n := by
    simp only [bitOf, BitVec.getLsbD_not]
    rw [decide_eq_true (by omega : 15 - n < 16), Bool.true_and]
  have hedge : ∀ n < 16, bitOf 0xA0B5 n = decide (n ∈ [0, 2, 8, 10, 11, 13, 15]) := by decide
  have hlevel : ∀ n < 16, bitOf 0x000A n = decide (n ∈ [12, 14]) := by decide
  have hapart : ∀ n < 16, n ∈ [0, 2, 8, 10, 11, 13, 15] → decide (n ∈ [12, 14]) = false := by decide
  simp only [State.samplePins, bitOf_or, bitOf_and, hedge n hn, hlevel n hn]
  by_cases hmem : n ∈ [0, 2, 8, 10, 11, 13, 15]
  · rw [if_pos hmem, decide_eq_true hmem, hapart n hn hmem, Bool.and_true, Bool.and_false, Bool.or_false]
    cases bitOf s.scr 4
    · rw [if_neg Bool.false_ne_true, bitOf_and, hnot, Bool.false_or]
    · rw [if_pos rfl, Bool.true_or, Bool.and_true]
  · rw [if_neg hmem, decide_eq_false hmem, Bool.and_false, Bool.or_false, Bool.and_comm]

/-- The FT bits of the fault inputs (R665), and that only no input at all gives none. -/
theorem outsideFaults_eq (f : FaultInputs) :
    (∀ ft : Word, ft ||| outsideFaults f = ft ||| pendingIf f.busProtect 1 ||| pendingIf f.busParity 2 |||
      pendingIf f.sysflt0 7 ||| pendingIf f.sysflt1 13 ||| pendingIf f.sysflt1 15) ∧
    (outsideFaults f = 0 ↔ f = FaultInputs.none) := by
  obtain ⟨f0, f1, p, b⟩ := f
  have hbits : outsideFaults ⟨f0, f1, p, b⟩ = pendingIf p 1 ||| pendingIf b 2 ||| pendingIf f0 7 ||| pendingIf f1 13 |||
      pendingIf f1 15 := by
    revert f0 f1 p b
    decide
  refine ⟨fun ft => ?_, ?_⟩
  · rw [hbits]
    simp only [BitVec.or_assoc]
  · revert f0 f1 p b
    decide

theorem externalFaults_eq (s : State) (f : FaultInputs) : s.externalFaults (outsideFaults f) =
    if f = FaultInputs.none then s
    else { s with
      ft := s.ft ||| pendingIf f.busProtect 1 ||| pendingIf f.busParity 2 ||| pendingIf f.sysflt0 7 |||
        pendingIf f.sysflt1 13 ||| pendingIf f.sysflt1 15
      pir := s.pir ||| oneBit 1 } := by
  obtain ⟨hft, hnone⟩ := outsideFaults_eq f
  have hpir : oneBit 1 = 0x4000 := by decide
  rw [State.externalFaults, ← hft, hpir]
  by_cases h : f = FaultInputs.none
  · rw [if_pos (hnone.mpr h), if_pos h]
  · rw [if_neg fun hz => h (hnone.mp hz), if_neg h]
    rfl

/-! ## Other masters -/

/-- The faults of another master's write (R665). -/
theorem masterFaults_eq (s : State) (c : Cycle) : s.externalFaults c.masterBits = { s with
    ft := s.ft ||| pendingIf c.protect 1 ||| pendingIf c.parity 2
    pir := s.pir ||| pendingIf (c.protect || c.parity) 1 } := by
  have hpir : oneBit 1 = 0x4000 := by decide
  have hbits : c.masterBits = pendingIf c.protect 1 ||| pendingIf c.parity 2 := by
    rw [Cycle.masterBits]
    generalize c.protect = p
    generalize c.parity = q
    revert p q
    decide
  by_cases h : c.masterBits = 0
  · have hnone : c.protect = false ∧ c.parity = false := by
      rw [Cycle.masterBits] at h
      generalize c.protect = p at h
      generalize c.parity = q at h
      revert p q
      decide
    rw [State.externalFaults, if_pos h, hnone.1, hnone.2]
    have hft : s.ft ||| pendingIf false 1 ||| pendingIf false 2 = s.ft := by simp [pendingIf]
    have hpir' : s.pir ||| pendingIf (false || false) 1 = s.pir := by simp [pendingIf]
    rw [hft, hpir']
  · have hsome : (c.protect || c.parity) = true := by
      rw [Cycle.masterBits] at h
      generalize c.protect = p at h
      generalize c.parity = q at h
      revert p q
      decide
    rw [State.externalFaults, if_neg h, hsome, BitVec.or_assoc, ← hbits, State.raise, pendingIf, if_pos rfl, hpir]
    rfl

theorem masterWrite_waits {s : State} {w : MasterWrite} (h : w.dma = true ∧ s.dmaen = false) : s.masterWrite w = s := by
  rw [State.masterWrite, h.1, h.2]
  rfl

/-- Another master's write that may use the bus. -/
theorem masterWrite_eq {s : State} {w : MasterWrite} (h : ¬ (w.dma = true ∧ s.dmaen = false)) : s.masterWrite w =
    if s.lands (s.masterCycle w) then
      (s.externalFaults (s.masterCycle w).masterBits).setMem (s.mem.writeWord (s.masterCycle w).phys w.data)
    else s.externalFaults (s.masterCycle w).masterBits := by
  have hmay : (w.dma && !s.dmaen) = false := by simpa using h
  have hmem : (s.externalFaults (s.masterCycle w).masterBits).mem = s.mem := by rw [masterFaults_eq]
  rw [State.masterWrite, hmay, if_neg Bool.false_ne_true]
  dsimp only
  rw [hmem]

theorem lands_iff (s : State) (c : Cycle) : s.lands c = true ↔ c.protect = false ∧ c.absent = false ∧ s.writesBlocked = false := by
  simp only [State.lands, Bool.and_eq_true, Bool.not_eq_true', and_assoc]

/-- Which of the other masters' cycles an F9451 serves (R585, R597). -/
theorem translatesMasters_iff (s : State) (w : MasterWrite) : s.translatesMasters w = true ↔
    w.dma = false ∧ s.platform.mastersTranslated = true ∧ bitOf s.scr 0 = true ∧ s.platform.mmuAttached = true := by
  simp only [State.translatesMasters, State.mmuPresent, Bool.and_eq_true, Bool.not_eq_true', and_assoc]

/-- Where another master's write goes, and when it draws MEM PRT ER. -/
theorem masterCycle_eq (s : State) (w : MasterWrite) :
    let c := s.masterCycle w
    (s.translatesMasters w = false → c.phys = w.addr ∧ c.protect = s.bpuViolation w.dma (s.bpuAddress c.phys)) ∧
    (s.translatesMasters w = true → c.phys = s.physical .write w.as (w.addr.extractLsb' 0 16) ∧
      c.protect = (s.mmuViolation .write w.as (some w.key) (w.addr.extractLsb' 0 16) ||
        s.bpuViolation w.dma (s.bpuAddress c.phys))) := by
  refine ⟨fun h => ?_, fun h => ?_⟩
  · simp only [State.masterCycle, h, Bool.false_eq_true, if_false, Bool.false_and, Bool.false_or, and_self]
  · simp only [State.masterCycle, h, if_true, Bool.true_and, and_self]

/-- A turn of the others: its faults, its writes, its RESET (20_memory.md R101). -/
theorem turn_eq {s : State} {t : Turn} {rest : List Turn} (h : s.turns = t :: rest) :
    s.turn = { ({ s with turns := rest }.externalFaults (outsideFaults t.faults)).masters t.writes with
      resetting := s.resetting || t.reset } := by
  obtain ⟨_, _, _, hfaults⟩ := State.externalFaults_frame { s with turns := rest } (outsideFaults t.faults)
  obtain ⟨_, _, _, _, hwrites⟩ := State.masters_frame
    ({ s with turns := rest }.externalFaults (outsideFaults t.faults)) t.writes
  have hreset : (({ s with turns := rest }.externalFaults (outsideFaults t.faults)).masters t.writes).resetting = s.resetting := by
    rw [hwrites, hfaults]
  rw [State.turn, h]
  dsimp only
  rw [hreset]

/-- Settles O49. -/
theorem outsideInputs : Obligations.OutsideInputs := by
  intro s
  refine ⟨tick_one s, tick_add s, fun pins n hn => ⟨bitOf_samplePins s pins hn, rfl⟩, externalFaults_eq s, fun w => ?_,
    fun hturns => ?_, fun t rest hturns => ?_⟩
  · intro c raised
    have hraised : s.externalFaults c.masterBits = raised := masterFaults_eq s c
    obtain ⟨hdirect, htranslates⟩ := masterCycle_eq s w
    refine ⟨masterWrite_waits, fun hmay => ⟨fun hrefused => ?_, fun hprotect habsent hblocked hwf => ?_⟩, ?_, ?_, memFlawAt_iff _ _ _,
      memFlawAt_iff _ _ _⟩
    · have hlands : ¬ s.lands (s.masterCycle w) = true := by
        rw [lands_iff]
        rintro ⟨hp, ha, hb⟩
        rcases hrefused with h | h | h
        · exact Bool.noConfusion (hp.symm.trans h)
        · exact Bool.noConfusion (ha.symm.trans h)
        · exact Bool.noConfusion (hb.symm.trans h)
      rw [masterWrite_eq hmay, if_neg hlands]
      exact hraised
    · refine ⟨raised.setMem (s.mem.writeWord c.phys w.data), ?_, rfl, Memory.wf_writeWord _ _ hwf, Memory.stored_writeWord _ _ hwf⟩
      rw [masterWrite_eq hmay, if_pos ((lands_iff s _).mpr ⟨hprotect, habsent, hblocked⟩)]
      exact congrArg (State.setMem · (s.mem.writeWord c.phys w.data)) hraised
    · intro hnot
      rw [← translatesMasters_iff, Bool.not_eq_true] at hnot
      obtain ⟨hphys, hprotect⟩ := hdirect hnot
      exact ⟨hphys, by rw [hprotect]; exact bpuViolation_iff s w.dma _ rfl⟩
    · intro hyes
      have hmmu : bitOf s.scr 0 = true ∧ s.platform.mmuAttached = true := hyes.2.2
      rw [← translatesMasters_iff] at hyes
      obtain ⟨hphys, hprotect⟩ := htranslates hyes
      refine ⟨hphys, ?_⟩
      have hpage : s.pageRegister .write w.as (w.addr.extractLsb' 0 16) =
          (s.opr[(Fin.ofNat 16 w.as.toNat).val])[(Fin.ofNat 16 (w.addr.toNat % 2 ^ 16 / 2 ^ 12)).val] := by
        rw [pageRegister_eq, if_neg (by decide)]
        simp only [BitVec.extractLsb'_toNat, Nat.shiftRight_zero]
        rfl
      rw [hprotect, Bool.or_eq_true, mmuViolation_iff, hpage, bpuViolation_iff s w.dma _ rfl]
      simp only [hmmu, true_and, and_self, Option.some.injEq, exists_eq_left', reduceCtorEq, false_and, false_or]
      rw [or_comm, or_comm (a := ¬ _)]
  · exact State.turn_alone (by simp [State.alone, hturns])
  · exact ⟨_, rfl, turn_eq hturns⟩

end Sys2Proof.Proofs
end

