-- ==== Sys2Proof/Proofs/Shifts.lean ====
section
/-! PROOF. The shifts by a count in a register (43_shift.md R350 to R354, R364 to R369). -/

namespace Sys2Proof.Proofs

open Sys2Proof.Machine

/-! ## Overflow of an arithmetic shift to the left -/

theorem fits_iff (w : Nat) (v : Int) : fits w v = true ↔ -2 ^ (w - 1) ≤ v ∧ v < 2 ^ (w - 1) := by
  simp only [fits, Bool.and_eq_true, decide_eq_true_eq]

/-- One step to the left keeps the sign exactly where the doubled number fits, which the shifted word then is (R354). -/
theorem shiftLeft_one {w : Nat} (hw : 0 < w) (u : BitVec w) :
    ((u <<< 1).msb = u.msb ↔ fits w (2 * u.toInt) = true) ∧ (fits w (2 * u.toInt) = true → (u <<< 1).toInt = 2 * u.toInt) := by
  obtain ⟨k, rfl⟩ : ∃ k, w = k + 1 := ⟨w - 1, by omega⟩
  have hpow : 2 ^ (k + 1) = 2 * 2 ^ k := by rw [Nat.pow_succ, Nat.mul_comm]
  have hu : u.toNat < 2 * 2 ^ k := hpow ▸ u.isLt
  have hpowInt : (2 : Int) ^ k = ((2 ^ k : Nat) : Int) := by push_cast; rfl
  have hshift : (u <<< 1).toNat = if u.toNat < 2 ^ k then 2 * u.toNat else 2 * u.toNat - 2 * 2 ^ k := by
    rw [BitVec.toNat_shiftLeft, Nat.shiftLeft_eq, Nat.pow_one, Nat.mul_comm, hpow]
    split
    · exact Nat.mod_eq_of_lt (by omega)
    · rw [Nat.mod_eq_sub_mod (by omega), Nat.mod_eq_of_lt (by omega)]
  rw [fits_iff, BitVec.msb_eq_decide, BitVec.msb_eq_decide, decide_eq_decide, BitVec.toInt_eq_toNat_cond, BitVec.toInt_eq_toNat_cond,
    hshift, Nat.add_sub_cancel, hpowInt, hpow]
  clear hshift hpowInt hpow
  generalize 2 ^ k = p at *
  constructor
  · split <;> split <;> omega
  · split <;> split <;> split <;> omega

/-- The sign changes on the way exactly where the exact result does not fit. -/
theorem signChanges_iff {w : Nat} (hw : 0 < w) (v : BitVec w) (n : Nat) :
    (signChanges v n = !fits w (v.toInt * 2 ^ n)) ∧ (fits w (v.toInt * 2 ^ n) = true → (v <<< n).toInt = v.toInt * 2 ^ n) := by
  induction n with
  | zero =>
    have hfits : fits w (v.toInt * 2 ^ 0) = true := by
      rw [Int.pow_zero, Int.mul_one]
      exact fits_toInt v hw
    refine ⟨by rw [hfits]; rfl, fun _ => ?_⟩
    rw [Int.pow_zero, Int.mul_one, BitVec.shiftLeft_zero]
  | succ n ih =>
    obtain ⟨hsign, hvalue⟩ := ih
    have hsucc : signChanges v (n + 1) = (signChanges v n || ((v <<< n) <<< 1).msb != (v <<< n).msb) := by
      rw [signChanges, List.range_succ, List.any_append, ← BitVec.shiftLeft_add]
      simp [signChanges]
    have hdouble : v.toInt * 2 ^ (n + 1) = 2 * (v.toInt * 2 ^ n) := by ring
    obtain ⟨hkeep, hstep⟩ := shiftLeft_one hw (v <<< n)
    rw [hsucc, hsign, hdouble, BitVec.shiftLeft_add]
    cases hfits : fits w (v.toInt * 2 ^ n)
    case true =>
      rw [hvalue hfits] at hkeep hstep
      refine ⟨?_, hstep⟩
      rw [Bool.not_true, Bool.false_or, Bool.eq_iff_iff, bne_iff_ne, Bool.not_eq_true', ne_eq, hkeep, Bool.not_eq_true]
    case false =>
      have hmore : fits w (2 * (v.toInt * 2 ^ n)) = false := by
        rw [← Bool.not_eq_true, fits_iff] at hfits ⊢
        have : (0 : Int) < 2 ^ (w - 1) := by positivity
        omega
      rw [hmore]
      exact ⟨rfl, fun h => nomatch h⟩

/-! ## Both directions -/

/-- To the left the arithmetic shift is the logical one. -/
theorem shiftedBit_left {w : Nat} (v : BitVec w) (n k : Nat) :
    Shape.shiftedBit .logical v n k = Shape.shiftedBit .arithmetic v n k := by
  have hpos : 0 ≤ (k : Int) + n := by omega
  have hneg : ¬ (k : Int) + n < 0 := by omega
  simp only [Shape.shiftedBit, hpos, hneg, decide_true, Bool.true_and, if_false]

/-- A cyclic shift to the right is one to the left by what is missing to the width. -/
theorem getMsbD_src {w n k : Nat} (v : BitVec w) (hn : n ≤ w) (hk : k < w) :
    (src v n).getMsbD k = Shape.shiftedBit .cyclic v (-n) k := by
  have hcount : (w - n) % w ≤ w := (Nat.mod_lt _ (by omega)).le
  have hround : ((k : Int) + ((w - n) % w : Nat)) % w = (k + -n) % w := by
    have hcast : (((w - n) % w : Nat) : Int) = ((w : Int) - n) % w := by
      rw [Int.natCast_emod, Int.natCast_sub hn]
    rw [hcast, Int.add_emod_emod, show (k : Int) + (w - n) = k + -n + w by ring, Int.add_emod_right]
  rw [src, getMsbD_slc v hcount hk]
  simp only [Shape.shiftedBit, hround]

theorem shiftedBit_zero {w : Nat} (kind : Shape.Shift) (v : BitVec w) {k : Nat} (hk : k < w) :
    Shape.shiftedBit kind v 0 k = v.getMsbD k := by
  have hmod : ((k : Int) + 0) % w = k := Int.emod_eq_of_lt (by omega) (by omega)
  cases kind with
  | logical => simp [Shape.shiftedBit]
  | arithmetic => simp [Shape.shiftedBit]
  | cyclic => simp only [Shape.shiftedBit, hmod, Int.toNat_natCast]

/-- A shift by a signed count in range: every bit of the result, and overflow. -/
theorem shiftBy_bits {w : Nat} (hw : 0 < w) {kind : Shape.Shift} {left right : BitVec w → Nat → BitVec w} (arithmetic : Bool)
    (v : BitVec w) {c : Int} (hlow : -(w : Int) ≤ c) (hhigh : c ≤ w)
    (hleft : ∀ n ≤ w, ∀ k < w, (left v n).getMsbD k = Shape.shiftedBit kind v n k)
    (hright : ∀ n ≤ w, ∀ k < w, (right v n).getMsbD k = Shape.shiftedBit kind v (-n) k) :
    (∀ k < w, (shiftBy left right arithmetic v c).1.getMsbD k = Shape.shiftedBit kind v c k) ∧
      (shiftBy left right arithmetic v c).2 = (arithmetic && !fits w (v.toInt * 2 ^ c.toNat)) := by
  have hrange : ¬ (c > w ∨ c < -(w : Int)) := by omega
  have hnone : c ≤ 0 → fits w (v.toInt * 2 ^ c.toNat) = true := fun h => by
    rw [show c.toNat = 0 by omega, Int.pow_zero, Int.mul_one]
    exact fits_toInt v hw
  simp only [shiftBy, Bool.or_eq_true, decide_eq_true_eq, hrange, if_false]
  rcases Int.lt_trichotomy c 0 with hneg | hzero | hpos
  · rw [if_neg (by omega), if_pos hneg, hnone (by omega)]
    refine ⟨fun k hk => ?_, by simp⟩
    rw [hright _ (by omega) k hk, show -(((-c).toNat : Nat) : Int) = c by omega]
  · rw [if_neg (by omega), if_neg (by omega), hnone (by omega), hzero]
    exact ⟨fun k hk => (shiftedBit_zero kind v hk).symm, by simp⟩
  · rw [if_pos hpos, (signChanges_iff hw v c.toNat).1]
    refine ⟨fun k hk => ?_, rfl⟩
    rw [hleft _ (by omega) k hk, show ((c.toNat : Nat) : Int) = c by omega]

/-- A count out of range leaves the operand. -/
theorem shiftBy_outside {w : Nat} {left right : BitVec w → Nat → BitVec w} (arithmetic : Bool) (v : BitVec w) {c : Int}
    (h : c < -(w : Int) ∨ w < c) : shiftBy left right arithmetic v c = (v, true) := by
  have hout : (c > w ∨ c < -(w : Int)) := by omega
  simp only [shiftBy, Bool.or_eq_true, decide_eq_true_eq, hout, if_true]

theorem setPair_self (s : State) (q : Reg) : s.setPair q (s.pair q) = s := by
  rw [State.setPair, State.pair, highWord_append, lowWord_append, setReg_self, setReg_self]

theorem shiftReg_bits {kind : Shape.Shift} {left right : Word → Nat → Word} (arithmetic : Bool) (ra rb : Reg) (s : State)
    (hleft : ∀ v : Word, ∀ n ≤ 16, ∀ k < 16, (left v n).getMsbD k = Shape.shiftedBit kind v n k)
    (hright : ∀ v : Word, ∀ n ≤ 16, ∀ k < 16, (right v n).getMsbD k = Shape.shiftedBit kind v (-n) k) :
    let c := (s.reg rb).toInt
    ((c < -16 ∨ 16 < c) → shiftReg left right arithmetic ra rb s = .next (s.ends (signCs (s.reg ra).toInt) (oneBit 4) 1)) ∧
    (-16 ≤ c → c ≤ 16 → ∃ v : Word, (∀ k < 16, v.getMsbD k = Shape.shiftedBit kind (s.reg ra) c k) ∧
      shiftReg left right arithmetic ra rb s = .next ((s.setReg ra v).ends (signCs v.toInt)
        (pendingIf (arithmetic && !fits 16 ((s.reg ra).toInt * 2 ^ c.toNat)) 4) 1)) := by
  refine ⟨fun h => ?_, fun hlow hhigh => ?_⟩
  · rw [shiftReg_eq, shiftBy_outside arithmetic (s.reg ra) h]
    dsimp only
    rw [setReg_self]
    rfl
  · obtain ⟨hbits, hover⟩ := shiftBy_bits (by omega) arithmetic (s.reg ra) hlow hhigh (hleft _) (hright _)
    exact ⟨_, hbits, by rw [shiftReg_eq, ← hover]⟩

theorem shiftReg2_bits {kind : Shape.Shift} {left right : Long → Nat → Long} (arithmetic : Bool) (ra rb : Reg) (s : State)
    (hleft : ∀ v : Long, ∀ n ≤ 32, ∀ k < 32, (left v n).getMsbD k = Shape.shiftedBit kind v n k)
    (hright : ∀ v : Long, ∀ n ≤ 32, ∀ k < 32, (right v n).getMsbD k = Shape.shiftedBit kind v (-n) k) :
    let c := (s.reg rb).toInt
    ((c < -32 ∨ 32 < c) → shiftReg2 left right arithmetic ra rb s = .next (s.ends (signCs (s.pair ra).toInt) (oneBit 4) 1)) ∧
    (-32 ≤ c → c ≤ 32 → ∃ v : Long, (∀ k < 32, v.getMsbD k = Shape.shiftedBit kind (s.pair ra) c k) ∧
      shiftReg2 left right arithmetic ra rb s = .next ((s.setPair ra v).ends (signCs v.toInt)
        (pendingIf (arithmetic && !fits 32 ((s.pair ra).toInt * 2 ^ c.toNat)) 4) 1)) := by
  refine ⟨fun h => ?_, fun hlow hhigh => ?_⟩
  · rw [shiftReg2_eq, shiftBy_outside arithmetic (s.pair ra) h]
    dsimp only
    rw [setPair_self]
    rfl
  · obtain ⟨hbits, hover⟩ := shiftBy_bits (by omega) arithmetic (s.pair ra) hlow hhigh (hleft _) (hright _)
    exact ⟨_, hbits, by rw [shiftReg2_eq, ← hover]⟩

/-- Settles O15. -/
theorem shiftByRegister : Obligations.ShiftByRegister := by
  intro ra rb s
  refine ⟨fun i kind arithmetic hmem => ?_, fun i kind arithmetic hmem => ?_⟩
  · simp only [List.mem_cons, Prod.mk.injEq, List.not_mem_nil, or_false] at hmem
    obtain ⟨rfl, rfl, rfl⟩ | ⟨rfl, rfl, rfl⟩ | ⟨rfl, rfl, rfl⟩ := hmem
    · exact shiftReg_bits false ra rb s (fun v n _ k _ => getMsbD_sll v n k) fun v n _ k hk => getMsbD_srl v hk
    · exact shiftReg_bits true ra rb s (fun v n _ k _ => (getMsbD_sll v n k).trans (shiftedBit_left v n k))
        fun v n _ k hk => getMsbD_sra v hk
    · exact shiftReg_bits false ra rb s (fun v n hn k hk => getMsbD_slc v hn hk) fun v n hn k hk => getMsbD_src v hn hk
  · simp only [List.mem_cons, Prod.mk.injEq, List.not_mem_nil, or_false] at hmem
    obtain ⟨rfl, rfl, rfl⟩ | ⟨rfl, rfl, rfl⟩ | ⟨rfl, rfl, rfl⟩ := hmem
    · exact shiftReg2_bits false ra rb s (fun v n _ k _ => getMsbD_sll v n k) fun v n _ k hk => getMsbD_srl v hk
    · exact shiftReg2_bits true ra rb s (fun v n _ k _ => (getMsbD_sll v n k).trans (shiftedBit_left v n k))
        fun v n _ k hk => getMsbD_sra v hk
    · exact shiftReg2_bits false ra rb s (fun v n hn k hk => getMsbD_slc v hn hk) fun v n hn k hk => getMsbD_src v hn hk

end Sys2Proof.Proofs
end

