-- ==== Sys2Proof/Proofs/FloatInstructions.lean ====
section
/-! PROOF. The floating-point instructions over the functions of 41_float.md: operands with a stated result, operands whose result
is open, and the compares by value (R262 to R264, R268). -/

namespace Sys2Proof.Proofs

open Sys2Proof.Machine

/-! ## Operands with a stated result -/

theorem acceptsFloat_both {s : State} {w : Nat} {x y : FloatNum}
    (h : s.platform.unnormalizedByRtl = true ∨ (x.valid w = true ∧ y.valid w = true)) :
    (s.acceptsFloat w x && s.acceptsFloat w y) = true := by
  rcases h with h | ⟨hx, hy⟩
  · simp [State.acceptsFloat, h]
  · simp [State.acceptsFloat, hx, hy]

/-- Settles O33. -/
theorem floatArithmetic : Obligations.FloatArithmetic := by
  refine ⟨fun i s f ra o len h hready hvalid => ?_, fun i s f ra o len h hready hvalid => ?_⟩
  · rw [exec_float h, operandLong_ready hready, float32]
    dsimp only
    rw [State.given_run, State.given_val, State.start_s, if_pos (acceptsFloat_both hvalid)]
    exact State.settle_float s ra _ len
  · rw [exec_extended h, operandTriple_ready hready, float48]
    dsimp only
    rw [State.given_run, State.given_val, State.start_s, if_pos (acceptsFloat_both hvalid)]
    exact State.settle_extended s ra _ len

/-! ## Operands whose result is open -/

theorem acceptsFloat_open {s : State} {w : Nat} {x y : FloatNum} (hopen : s.platform.unnormalizedByRtl = false)
    (h : x.valid w = false ∨ y.valid w = false) : ¬ (s.acceptsFloat w x && s.acceptsFloat w y) = true := by
  rcases h with h | h
  · simp [State.acceptsFloat, hopen, h]
  · simp [State.acceptsFloat, hopen, h]

theorem acceptsFloat_open_one {s : State} {w : Nat} {x : FloatNum} (hopen : s.platform.unnormalizedByRtl = false)
    (h : x.valid w = false) : s.acceptsFloat w x = false := by
  simp [State.acceptsFloat, hopen, h]

theorem openCs_ends (s : State) (len : Word) :
    s.openCs.past len = (s.ends ((Config.freeWord s.free).extractLsb' 0 4) 0 len).useFree 1 := by
  have hpir : s.pir ||| 0 = s.pir := BitVec.or_zero
  rw [State.ends, hpir]
  rfl

/-- Settles O34. -/
theorem floatOpenOperands : Obligations.FloatOpenOperands := by
  intro s hopen
  refine ⟨fun i f ra o len h hready hinvalid => ?_, fun i f ra o len h hready hinvalid => ?_,
    fun i ra o len h hready hinvalid => ?_, fun i ra o len h hready hinvalid => ?_, fun ra rb =>
    ⟨fun hinvalid i hi => ?_, fun hinvalid => ?_, fun hinvalid => ?_⟩⟩
  · refine ⟨Config.freeWord s.free ++ Config.freeWord (s.free + 1), (Config.freeWord (s.free + 2)).extractLsb' 0 4,
      Config.freeWord (s.free + 3), ?_⟩
    rw [exec_float h, operandLong_ready hready, float32]
    rw [State.given_run, State.given_val, State.start_s, if_neg (acceptsFloat_open hopen hinvalid)]
    rfl
  · refine ⟨Config.freeWord s.free ++ Config.freeWord (s.free + 1) ++ Config.freeWord (s.free + 2),
      (Config.freeWord (s.free + 3)).extractLsb' 0 4, Config.freeWord (s.free + 4), ?_⟩
    rw [exec_extended h, operandTriple_ready hready, float48]
    rw [State.given_run, State.given_val, State.start_s, if_neg (acceptsFloat_open hopen hinvalid)]
    rfl
  · refine ⟨(Config.freeWord s.free).extractLsb' 0 4, ?_⟩
    rw [exec_compareFloat h, operandLong_ready hready, compareFloat32]
    rw [State.given_run, State.given_val, State.start_s, if_neg (acceptsFloat_open hopen hinvalid)]
    exact congrArg Host.Outcome.next (openCs_ends s len)
  · refine ⟨(Config.freeWord s.free).extractLsb' 0 4, ?_⟩
    rw [exec_compareExtended h, operandTriple_ready hready, compareFloat48]
    rw [State.given_run, State.given_val, State.start_s, if_neg (acceptsFloat_open hopen hinvalid)]
    exact congrArg Host.Outcome.next (openCs_ends s len)
  · have hunary : ∃ f, exec i s = floatUnary f ra rb s := by
      simp only [List.mem_cons, List.not_mem_nil, or_false] at hi
      rcases hi with rfl | rfl
      · exact ⟨fabs, rfl⟩
      · exact ⟨fneg, rfl⟩
    obtain ⟨f, hf⟩ := hunary
    refine ⟨Config.freeWord s.free ++ Config.freeWord (s.free + 1), (Config.freeWord (s.free + 2)).extractLsb' 0 4,
      Config.freeWord (s.free + 3), ?_⟩
    rw [hf, floatUnary, acceptsFloat_open_one hopen hinvalid]
    rfl
  · refine ⟨Config.freeWord s.free, (Config.freeWord (s.free + 1)).extractLsb' 0 4, Config.freeWord (s.free + 2), ?_⟩
    have harm : exec (.fix ra rb) s = execFix ra rb s := rfl
    rw [harm, execFix, acceptsFloat_open_one hopen hinvalid]
    rfl
  · refine ⟨Config.freeWord s.free ++ Config.freeWord (s.free + 1), (Config.freeWord (s.free + 2)).extractLsb' 0 4,
      Config.freeWord (s.free + 3), ?_⟩
    have harm : exec (.efix ra rb) s = execEfix ra rb s := rfl
    rw [harm, execEfix, acceptsFloat_open_one hopen hinvalid]
    rfl

/-! ## Values -/

/-- An exponent in its field. -/
theorem unpackF_exponent (v : Long) : -128 ≤ (unpackF v).e ∧ (unpackF v).e ≤ 127 := by
  have hlow := BitVec.le_two_mul_toInt (x := v.extractLsb' 0 8)
  have hhigh := BitVec.two_mul_toInt_lt (x := v.extractLsb' 0 8)
  simp only [unpackF]
  omega

theorem unpackX_exponent (v : Triple) : -128 ≤ (unpackX v).e ∧ (unpackX v).e ≤ 127 := by
  have hlow := BitVec.le_two_mul_toInt (x := v.extractLsb' 16 8)
  have hhigh := BitVec.two_mul_toInt_lt (x := v.extractLsb' 16 8)
  simp only [unpackX]
  omega

/-- The value of a number over the unit of the least exponent is an integer (R260, D14). -/
theorem value_eq_scaled (w : Nat) {x : FloatNum} (h : -128 ≤ x.e) :
    Shape.value w x = (scaled x : Rat) * 2 ^ (-128 - (w - 1 : Int)) := by
  have hexponent : x.e - (w - 1 : Int) = ((x.e + 128).toNat : Int) + (-128 - (w - 1 : Int)) := by omega
  rw [Shape.value, scaled, hexponent, zpow_add₀ (by norm_num), zpow_natCast]
  push_cast
  ring

/-- A compare of stored numbers is one of their values (R268). -/
theorem floatOrder_eq (w : Nat) {x y : FloatNum} (hx : -128 ≤ x.e) (hy : -128 ≤ y.e) : floatOrder x y =
    if Shape.value w x = Shape.value w y then 0b0010 else if Shape.value w x < Shape.value w y then 0b0001 else 0b0100 := by
  have hunit : (0 : Rat) < 2 ^ (-128 - (w - 1 : Int)) := by positivity
  rw [value_eq_scaled w hx, value_eq_scaled w hy, floatOrder, order]
  simp only [mul_left_inj' hunit.ne', mul_lt_mul_iff_left₀ hunit, Int.cast_inj, Int.cast_lt]

/-- Settles O37. -/
theorem floatCompare : Obligations.FloatCompare := by
  refine ⟨fun s i r o len h hready hx hy => ?_, fun s i r o len h hready hx hy => ?_⟩
  · rw [exec_compareFloat h, operandLong_ready hready, compareFloat32_valid s r _ len hx hy,
      floatOrder_eq 24 (unpackF_exponent _).1 (unpackF_exponent _).1]
  · rw [exec_compareExtended h, operandTriple_ready hready, compareFloat48_valid s r _ len hx hy,
      floatOrder_eq 40 (unpackX_exponent _).1 (unpackX_exponent _).1]

end Sys2Proof.Proofs
end

