-- ==== Sys2Proof/Proofs/FloatFunctions.lean ====
section
/-! PROOF. The floating-point functions as functions of exact numbers, for every mantissa width: normalization and its value, the
results that are too small, and that every result is again a stored number (41_float.md R260 to R267). -/

namespace Sys2Proof.Proofs

open Sys2Proof.Machine

variable {w : Nat}

/-! ## Mantissas -/

theorem normalized_iff (w : Nat) (m : Int) : normalized w m = true ↔ 2 ^ (w - 2) ≤ m ∨ m < -2 ^ (w - 2) := by
  simp only [normalized, Bool.or_eq_true, decide_eq_true_eq]

/-- The mantissas of a width: from -1.0 up to below 1.0, in units of half of it. -/
theorem half_mantissa (hw : 2 ≤ w) : (2 : Int) ^ (w - 1) = 2 * 2 ^ (w - 2) ∧ (1 : Int) ≤ 2 ^ (w - 2) := by
  obtain ⟨k, rfl⟩ : ∃ k, w = k + 2 := ⟨w - 2, by omega⟩
  refine ⟨?_, ?_⟩
  · rw [show k + 2 - 1 = k + 1 by omega, show k + 2 - 2 = k by omega, pow_succ, mul_comm]
  · exact Int.pow_pos (by decide)

/-- A normalized number of width `w`, whose exponent may be outside its field. -/
def Normal (w : Nat) (x : FloatNum) : Prop := normalized w x.m = true ∧ fits w x.m = true

/-- A mantissa that fits and is not 0 is normalized by some number of steps to the left (R262). -/
theorem normalizeSteps_eq (hw : 2 ≤ w) (fuel : Nat) (m e : Int) (hfits : fits w m = true)
    (hfuel : 2 ^ (w - 2) < |m| * 2 ^ fuel) :
    ∃ k ≤ fuel, normalizeSteps w fuel m e = ⟨m * 2 ^ k, e - k⟩ ∧ Normal w ⟨m * 2 ^ k, e - k⟩ := by
  obtain ⟨hhalf, hone⟩ := half_mantissa hw
  induction fuel generalizing m e with
  | zero =>
    rw [pow_zero, mul_one] at hfuel
    have hnormal : normalized w m = true := by
      rw [normalized_iff]
      rcases abs_cases m with ⟨h, _⟩ | ⟨h, _⟩ <;> omega
    exact ⟨0, le_rfl, by simp [normalizeSteps], by simpa [Normal] using ⟨hnormal, hfits⟩⟩
  | succ fuel ih =>
    by_cases hnormal : normalized w m = true
    · exact ⟨0, Nat.zero_le _, by simp [normalizeSteps, hnormal], by simpa [Normal] using ⟨hnormal, hfits⟩⟩
    · have hfits' : fits w (2 * m) = true := by
        rw [normalized_iff] at hnormal
        rw [fits_iff, hhalf]
        omega
      have hfuel' : 2 ^ (w - 2) < |2 * m| * 2 ^ fuel := by
        rw [abs_mul, abs_two]
        calc (2 : Int) ^ (w - 2) < |m| * 2 ^ (fuel + 1) := hfuel
          _ = 2 * |m| * 2 ^ fuel := by ring
      obtain ⟨k, hk, hsteps, hres⟩ := ih (2 * m) (e - 1) hfits' hfuel'
      have hm : 2 * m * 2 ^ k = m * 2 ^ (k + 1) := by ring
      have he : e - 1 - (k : Int) = e - ((k + 1 : Nat) : Int) := by push_cast; ring
      rw [hm, he] at hsteps hres
      exact ⟨k + 1, by omega, by simpa [normalizeSteps, hnormal] using hsteps, hres⟩

theorem normalize_eq (hw : 2 ≤ w) {m : Int} (e : Int) (hm : m ≠ 0) (hfits : fits w m = true) :
    ∃ k ≤ w, normalize w m e = ⟨m * 2 ^ k, e - k⟩ ∧ Normal w ⟨m * 2 ^ k, e - k⟩ := by
  have habs : (1 : Int) ≤ |m| := Int.one_le_abs hm
  have hpow : (2 : Int) ^ (w - 2) < 2 ^ w := pow_lt_pow_right₀ (by norm_num) (by omega)
  have hfuel : 2 ^ (w - 2) < |m| * 2 ^ w := by
    calc (2 : Int) ^ (w - 2) < 2 ^ w := hpow
      _ ≤ |m| * 2 ^ w := le_mul_of_one_le_left (by positivity) habs
  rw [Machine.normalize, if_neg hm]
  exact normalizeSteps_eq hw w m e hfits hfuel

/-- The outcome of a normalization: the zero number or a normalized one, of the same value, its exponent no greater. -/
theorem normalize_value (hw : 2 ≤ w) (m e : Int) (hfits : fits w m = true) :
    (normalize w m e = ⟨0, 0⟩ ∨ Normal w (normalize w m e) ∧ (normalize w m e).e ≤ e ∧ e - w ≤ (normalize w m e).e) ∧
      Shape.value w (normalize w m e) = m * 2 ^ (e - (w - 1 : Int)) := by
  by_cases hm : m = 0
  · subst hm
    have hzero : normalize w 0 e = ⟨0, 0⟩ := by rw [Machine.normalize, if_pos rfl]
    exact ⟨.inl hzero, by simp [hzero, Shape.value]⟩
  · obtain ⟨k, hk, heq, hnormal⟩ := normalize_eq hw e hm hfits
    rw [heq]
    refine ⟨.inr ⟨hnormal, by simp, by simp; omega⟩, ?_⟩
    have hexponent : e - (w - 1 : Int) = (e - k - (w - 1 : Int)) + (k : Int) := by ring
    rw [Shape.value, hexponent, zpow_add₀ (by norm_num), zpow_natCast]
    push_cast
    ring

/-! ## Results that are too small -/

/-- Not 0, and too small for a normalized number. -/
def Tiny (v : Rat) : Prop := v ≠ 0 ∧ -2 ^ (-129 : Int) ≤ v ∧ v < 2 ^ (-129 : Int)

/-- A normalized number is too small exactly where its exponent is below -128. -/
theorem tiny_iff (hw : 2 ≤ w) {x : FloatNum} (h : Normal w x) : Tiny (Shape.value w x) ↔ x.e < -128 := by
  obtain ⟨hnormal, hfits⟩ := h
  obtain ⟨hhalf, hone⟩ := half_mantissa hw
  rw [normalized_iff] at hnormal
  rw [fits_iff, hhalf] at hfits
  have hunit : (0 : Rat) < 2 ^ (x.e - (w - 1 : Int)) := by positivity
  have hexponent : (2 : Rat) ^ (x.e - 1) = ((2 ^ (w - 2) : Int) : Rat) * 2 ^ (x.e - (w - 1 : Int)) := by
    push_cast
    rw [← zpow_natCast, ← zpow_add₀ (by norm_num)]
    congr 1
    omega
  have hdouble : (2 : Rat) ^ x.e = 2 * 2 ^ (x.e - 1) := by
    rw [← zpow_one_add₀ (by norm_num)]
    congr 1
    ring
  generalize (2 : Int) ^ (w - 2) = half at *
  rw [Shape.value]
  generalize (2 : Rat) ^ (x.e - (w - 1 : Int)) = unit at *
  have hcast : (1 : Rat) ≤ half := by exact_mod_cast hone
  constructor
  · rintro ⟨-, hlow, hhigh⟩
    by_contra hlt
    have hbig : (2 : Rat) ^ (-129 : Int) ≤ 2 ^ (x.e - 1) := zpow_le_zpow_right₀ (by norm_num) (by omega)
    rcases hnormal with hm | hm
    · have hm' : (half : Rat) ≤ x.m := by exact_mod_cast hm
      nlinarith
    · have hm' : (x.m : Rat) < -half := by exact_mod_cast hm
      nlinarith
  · intro he
    have hsmall : (2 : Rat) ^ x.e ≤ 2 ^ (-129 : Int) := zpow_le_zpow_right₀ (by norm_num) (by omega)
    have hlow : -(2 * (half : Rat)) ≤ x.m := by exact_mod_cast hfits.1
    have hhigh : (x.m : Rat) < 2 * half := by exact_mod_cast hfits.2
    have hne : (x.m : Rat) ≠ 0 := by
      rcases hnormal with hm | hm
      · exact_mod_cast (by omega : x.m ≠ 0)
      · exact_mod_cast (by omega : x.m ≠ 0)
    refine ⟨mul_ne_zero hne hunit.ne', ?_, ?_⟩
    · nlinarith
    · nlinarith

/-! ## Stored results -/

theorem stored_iff (w : Nat) (x : FloatNum) : Shape.stored w x = true ↔
    fits w x.m = true ∧ (-128 ≤ x.e ∧ x.e < 128) ∧ (x.m = 0 ∧ x.e = 0 ∨ normalized w x.m = true) := by
  simp only [Shape.stored, FloatNum.valid, Bool.and_eq_true, Bool.or_eq_true, decide_eq_true_eq, fits_iff 8, and_assoc]
  norm_num

theorem stored_zero (hw : 2 ≤ w) : Shape.stored w ⟨0, 0⟩ = true := by
  obtain ⟨hhalf, hone⟩ := half_mantissa hw
  rw [stored_iff, fits_iff, hhalf]
  dsimp only
  exact ⟨by constructor <;> omega, by decide, .inl ⟨rfl, rfl⟩⟩

/-- The number of a result. -/
def resultNum (r : FloatResult) : FloatNum := { m := r.m, e := r.e }

theorem stored_overflowed (hw : 2 ≤ w) (positive : Bool) : Shape.stored w (resultNum (overflowed w positive)) = true := by
  obtain ⟨hhalf, hone⟩ := half_mantissa hw
  rw [stored_iff, fits_iff, normalized_iff]
  cases positive
  · simp only [resultNum, overflowed, Bool.false_eq_true, if_false]
    omega
  · simp only [resultNum, overflowed, if_true]
    omega

/-- The number a normalization can leave, with an exponent that is not too great. -/
def Finished (w : Nat) (x : FloatNum) : Prop := x = ⟨0, 0⟩ ∨ Normal w x ∧ x.e ≤ 127

theorem stored_finishNormal (hw : 2 ≤ w) {x : FloatNum} (h : Finished w x) :
    Shape.stored w (resultNum (finishNormal x)) = true := by
  rw [finishNormal]
  rcases h with rfl | ⟨⟨hnormal, hfits⟩, he⟩
  · exact stored_zero hw
  · split
    · exact stored_zero hw
    · exact (stored_iff w _).mpr ⟨hfits, ⟨by simp only [resultNum, exactly]; omega, by simp only [resultNum, exactly]; omega⟩,
        .inr hnormal⟩

theorem delivers_underflow {v : Rat} {r : FloatResult} (hv : Tiny v) (h : r = Shape.underflowResult) :
    Shape.Delivers w v r := by
  unfold Shape.Delivers
  exact (if_pos hv).mpr h

theorem delivers_exactly {v : Rat} {r : FloatResult} (hv : ¬ Tiny v)
    (h : r.overflow = false ∧ r.underflow = false ∧ Shape.value w (resultNum r) = v) : Shape.Delivers w v r := by
  unfold Shape.Delivers
  exact (if_neg hv).mpr h

/-- The result is the number, or underflow where it is too small. -/
theorem delivers_finishNormal (hw : 2 ≤ w) {x : FloatNum} (h : Finished w x) :
    Shape.Delivers w (Shape.value w x) (finishNormal x) := by
  rw [finishNormal]
  rcases h with rfl | ⟨hnormal, he⟩
  · have hnot : ¬ Tiny (Shape.value w ⟨0, 0⟩) := fun ht => ht.1 (by simp [Shape.value])
    exact delivers_exactly hnot ⟨rfl, rfl, rfl⟩
  · have htiny := tiny_iff hw hnormal
    by_cases hlow : x.e < -128
    · rw [if_pos hlow]
      exact delivers_underflow (htiny.mpr hlow) rfl
    · rw [if_neg hlow]
      exact delivers_exactly (fun ht => hlow (htiny.mp ht)) ⟨rfl, rfl, rfl⟩

theorem finished_normalize (hw : 2 ≤ w) {m e : Int} (hfits : fits w m = true) (he : e ≤ 127) :
    Finished w (normalize w m e) := by
  rcases (normalize_value hw m e hfits).1 with h | ⟨hnormal, hle, _⟩
  · exact .inl h
  · exact .inr ⟨hnormal, hle.trans he⟩

/-- A mantissa that fits, finished: its value, and a stored number. -/
theorem finish_delivers (hw : 2 ≤ w) {m e : Int} (hfits : fits w m = true) (he : e ≤ 127) :
    Shape.Delivers w (m * 2 ^ (e - (w - 1 : Int))) (finish w m e) := by
  rw [finish, if_neg (by omega), ← (normalize_value hw m e hfits).2]
  exact delivers_finishNormal hw (finished_normalize hw hfits he)

theorem stored_finish (hw : 2 ≤ w) {m e : Int} (hfits : fits w m = true) :
    Shape.stored w (resultNum (finish w m e)) = true := by
  rw [finish]
  split
  · exact stored_overflowed hw _
  · exact stored_finishNormal hw (finished_normalize hw hfits (by omega))

/-! ## Sums and differences -/

/-- A mantissa taken down to the unit of an exponent that is no smaller (R265, D12). -/
theorem floor_value (w : Nat) (x : FloatNum) {e : Int} (he : x.e ≤ e) :
    ⌊Shape.value w x / 2 ^ (e - (w - 1 : Int))⌋ = asr x.m (e - x.e).toNat := by
  have hexponent : x.e - (w - 1 : Int) = (e - (w - 1 : Int)) + -((e - x.e).toNat : Int) := by omega
  have hunit : (2 : Rat) ^ (e - (w - 1 : Int)) ≠ 0 := by positivity
  have hquotient : Shape.value w x / 2 ^ (e - (w - 1 : Int)) = (x.m : Rat) / ((2 ^ (e - x.e).toNat : Nat) : Rat) := by
    rw [Shape.value, hexponent, zpow_add₀ (by norm_num), zpow_neg, zpow_natCast]
    push_cast
    field_simp
  rw [hquotient, Rat.floor_intCast_div_natCast, asr]
  push_cast
  rfl

theorem floor_value_zero (w : Nat) {x : FloatNum} (e : Int) (hx : x.m = 0) :
    ⌊Shape.value w x / 2 ^ (e - (w - 1 : Int))⌋ = 0 := by
  simp [Shape.value, hx]

/-- Shifting a mantissa that fits to the right leaves one that fits. -/
theorem fits_asr (hw : 2 ≤ w) {m : Int} (k : Nat) (h : fits w m = true) : fits w (asr m k) = true := by
  obtain ⟨hhalf, hone⟩ := half_mantissa hw
  rw [fits_iff] at h ⊢
  have hpow : (1 : Int) ≤ 2 ^ k := Int.pow_pos (by decide)
  have hdiv := Int.ediv_mul_le m (show (2 : Int) ^ k ≠ 0 by omega)
  have hlt := Int.lt_ediv_add_one_mul_self m (show (0 : Int) < 2 ^ k by omega)
  rw [asr]
  constructor
  · rw [Int.le_ediv_iff_mul_le (by omega)]
    nlinarith
  · rw [Int.ediv_lt_iff_lt_mul (by omega)]
    nlinarith

/-- The exponent of a sum: the greater one of the operands that are not 0. -/
def sumExponent (a o : FloatNum) : Int := if a.m = 0 then o.e else if o.m = 0 then a.e else max a.e o.e

/-- The sum or difference of the aligned mantissas. -/
def alignedSum (w : Nat) (subtract : Bool) (a o : FloatNum) : Int :=
  let x := ⌊Shape.value w a / 2 ^ (sumExponent a o - (w - 1 : Int))⌋
  let y := ⌊Shape.value w o / 2 ^ (sumExponent a o - (w - 1 : Int))⌋
  if subtract then x - y else x + y

theorem asr_zero (m : Int) : asr m 0 = m := by simp [asr]

theorem fadd_eq (subtract : Bool) {a o : FloatNum} :
    fadd w subtract a o = sumMantissas w (alignedSum w subtract a o) (sumExponent a o) := by
  unfold fadd alignedSum
  dsimp only
  by_cases ha : a.m = 0
  · have he : sumExponent a o = o.e := by simp [sumExponent, ha]
    rw [if_pos ha, he, floor_value_zero w _ ha, floor_value w o le_rfl, Int.sub_self, Int.toNat_zero, asr_zero, ha]
  · rw [if_neg ha]
    by_cases ho : o.m = 0
    · have he : sumExponent a o = a.e := by simp [sumExponent, ha, ho]
      have hshift : ∀ k, asr 0 k = 0 := fun k => by simp [asr]
      rw [he, floor_value_zero w _ ho, floor_value w a le_rfl, Int.sub_self, Int.toNat_zero, asr_zero, ho, hshift]
      simp
    · have he : sumExponent a o = max a.e o.e := by simp [sumExponent, ha, ho]
      rw [he, floor_value w a (le_max_left _ _), floor_value w o (le_max_right _ _)]
      rcases lt_trichotomy a.e o.e with hlt | heq | hgt
      · have hne : (o.m != 0) = true := by simpa using ho
        rw [max_eq_right hlt.le, Int.sub_self, Int.toNat_zero, asr_zero, if_neg (by omega), hne, decide_eq_true (by omega),
          Bool.and_self, if_pos rfl, Int.neg_sub]
      · rw [heq, max_self, Int.sub_self, Int.toNat_zero, asr_zero, asr_zero]
        simp
      · rw [max_eq_left hgt.le, Int.sub_self, Int.toNat_zero, asr_zero, if_pos (by omega)]

/-- The aligned sum needs at most one more bit. -/
theorem alignedSum_bounds (hw : 2 ≤ w) (subtract : Bool) {a o : FloatNum} (ha : fits w a.m = true) (ho : fits w o.m = true) :
    -(2 * 2 ^ (w - 1)) ≤ alignedSum w subtract a o ∧ alignedSum w subtract a o < 2 * 2 ^ (w - 1) := by
  have hzero : fits w 0 = true := by
    obtain ⟨hhalf, hone⟩ := half_mantissa hw
    rw [fits_iff]
    omega
  have haligned : ∀ x : FloatNum, fits w x.m = true → (x.m = 0 ∨ x.e ≤ sumExponent a o) →
      fits w ⌊Shape.value w x / 2 ^ (sumExponent a o - (w - 1 : Int))⌋ = true := by
    rintro x hx (h | h)
    · rw [floor_value_zero w _ h]
      exact hzero
    · rw [floor_value w x h]
      exact fits_asr hw _ hx
  have hexponent : (a.m = 0 ∨ a.e ≤ sumExponent a o) ∧ (o.m = 0 ∨ o.e ≤ sumExponent a o) := by
    rw [sumExponent]
    split
    next h => exact ⟨.inl h, .inr le_rfl⟩
    next h =>
      split
      next h' => exact ⟨.inr le_rfl, .inl h'⟩
      next h' => exact ⟨.inr (le_max_left _ _), .inr (le_max_right _ _)⟩
  have hx := haligned a ha hexponent.1
  have hy := haligned o ho hexponent.2
  rw [fits_iff] at hx hy
  unfold alignedSum
  dsimp only
  split <;> omega

theorem sumMantissas_fitting {sum e : Int} (h : fits w sum = true) : sumMantissas w sum e = finish w sum e := by
  rw [fits_iff] at h
  rw [sumMantissas, if_neg (by simp only [Bool.or_eq_true, decide_eq_true_eq]; omega)]

theorem sumMantissas_wide {sum e : Int} (h : fits w sum = false) : sumMantissas w sum e = finish w (asr sum 1) (e + 1) := by
  rw [← Bool.not_eq_true, fits_iff] at h
  rw [sumMantissas, if_pos (by simp only [Bool.or_eq_true, decide_eq_true_eq]; omega)]

theorem fits_half {sum : Int} (h : -(2 * 2 ^ (w - 1)) ≤ sum ∧ sum < 2 * 2 ^ (w - 1)) : fits w (asr sum 1) = true := by
  rw [fits_iff, asr]
  omega

theorem stored_fadd (hw : 2 ≤ w) (subtract : Bool) {a o : FloatNum} (ha : fits w a.m = true) (ho : fits w o.m = true) :
    Shape.stored w (resultNum (fadd w subtract a o)) = true := by
  rw [fadd_eq]
  cases hfits : fits w (alignedSum w subtract a o)
  · rw [sumMantissas_wide hfits]
    exact stored_finish hw (fits_half (alignedSum_bounds hw subtract ha ho))
  · rw [sumMantissas_fitting hfits]
    exact stored_finish hw hfits

end Sys2Proof.Proofs
end

