-- ==== Sys2Proof/Proofs/FloatProducts.lean ====
section
/-! PROOF. The product and the quotient of two stored numbers, with their values (41_float.md R266, R267). -/

namespace Sys2Proof.Proofs

open Sys2Proof.Machine

variable {w : Nat} {a o : FloatNum}

/-! ## Products -/

/-- The doubled product of two mantissas has twice their width, but for that of -1.0 and -1.0. -/
theorem product_bounds (hw : 2 ≤ w) (ha : fits w a.m = true) (ho : fits w o.m = true) :
    -2 ^ (2 * w - 1) ≤ 2 * (a.m * o.m) ∧ 2 * (a.m * o.m) ≤ 2 ^ (2 * w - 1) ∧
      (2 * (a.m * o.m) = 2 ^ (2 * w - 1) ↔ a.m = -2 ^ (w - 1) ∧ o.m = -2 ^ (w - 1)) := by
  have hpow : (2 : Int) ^ (2 * w - 1) = 2 * (2 ^ (w - 1) * 2 ^ (w - 1)) := by
    rw [← pow_add, ← pow_succ']
    congr 1
    omega
  rw [fits_iff] at ha ho
  have hone : (1 : Int) ≤ 2 ^ (w - 1) := Int.pow_pos (by decide)
  rw [hpow]
  generalize (2 : Int) ^ (w - 1) = unit at *
  obtain ⟨halow, hahigh⟩ := ha
  obtain ⟨holow, hohigh⟩ := ho
  refine ⟨by nlinarith, by nlinarith, fun h => ?_, fun ⟨h1, h2⟩ => by rw [h1, h2]; ring⟩
  have hproduct : a.m * o.m = unit * unit := by omega
  have hneg : a.m = -unit := by
    by_contra hne
    have hlow : -unit + 1 ≤ a.m := by omega
    nlinarith
  refine ⟨hneg, ?_⟩
  rw [hneg] at hproduct
  have hunit : unit * (o.m + unit) = 0 := by linarith
  rcases mul_eq_zero.mp hunit with h | h
  · omega
  · omega

/-- The doubled product, halved where it is that of -1.0 and -1.0. -/
def productMantissa (w : Nat) (a o : FloatNum) : Int :=
  if 2 * (a.m * o.m) = 2 ^ (2 * w - 1) then 2 ^ (2 * w - 2) else 2 * (a.m * o.m)

/-- Its exponent. -/
def productExponent (w : Nat) (a o : FloatNum) : Int :=
  if 2 * (a.m * o.m) = 2 ^ (2 * w - 1) then a.e + o.e + 1 else a.e + o.e

/-- The product in twice the width. -/
def product (w : Nat) (a o : FloatNum) : FloatNum := normalize (2 * w) (productMantissa w a o) (productExponent w a o)

/-- A number of twice the width taken down to the width. -/
def upperHalf (w : Nat) (x : FloatNum) : FloatNum := { m := asr x.m w, e := x.e }

theorem fmul_eq (hlow : -128 ≤ a.e + o.e) (hhigh : a.e + o.e ≤ 127) : fmul w a o =
    if productExponent w a o > 127 then overflowed w (productMantissa w a o ≥ 0)
    else finishNormal (upperHalf w (product w a o)) := by
  unfold fmul
  dsimp only
  rw [if_neg (by omega), if_neg (by omega)]
  rfl

theorem fits_productMantissa (hw : 2 ≤ w) (ha : fits w a.m = true) (ho : fits w o.m = true) :
    fits (2 * w) (productMantissa w a o) = true := by
  obtain ⟨hlow, hhigh, _⟩ := product_bounds hw ha ho
  obtain ⟨hhalf, hone⟩ := half_mantissa (w := 2 * w) (by omega)
  rw [fits_iff, productMantissa]
  split <;> omega

/-- The product is exact. -/
theorem value_product (hw : 2 ≤ w) (ha : fits w a.m = true) (ho : fits w o.m = true) :
    Shape.value (2 * w) (product w a o) = Shape.value w a * Shape.value w o := by
  rw [product, (normalize_value (w := 2 * w) (by omega) _ _ (fits_productMantissa hw ha ho)).2]
  have hexact : Shape.value w a * Shape.value w o = ((2 * (a.m * o.m) : Int) : Rat) * 2 ^ (a.e + o.e - (2 * w - 1 : Int)) := by
    have hexponent : (2 : Rat) ^ (a.e - (w - 1 : Int)) * 2 ^ (o.e - (w - 1 : Int)) = 2 * 2 ^ (a.e + o.e - (2 * w - 1 : Int)) := by
      rw [← zpow_add₀ (by norm_num), ← zpow_one_add₀ (by norm_num)]
      congr 1
      ring
    rw [Shape.value, Shape.value, mul_mul_mul_comm, hexponent]
    push_cast
    ring
  rw [hexact, productMantissa, productExponent]
  split
  next h =>
    have hdouble : ((2 * (a.m * o.m) : Int) : Rat) = 2 * ((2 ^ (2 * w - 2) : Int) : Rat) := by
      rw [h, show 2 * w - 1 = (2 * w - 2) + 1 by omega, pow_succ]
      push_cast
      ring
    have hexponent : (2 : Rat) ^ (a.e + o.e + 1 - (2 * w - 1 : Int)) = 2 * 2 ^ (a.e + o.e - (2 * w - 1 : Int)) := by
      rw [← zpow_one_add₀ (by norm_num)]
      congr 1
      ring
    rw [hdouble]
    push_cast
    rw [hexponent]
    ring
  next => push_cast; rfl

/-- Taking a normalized number down to half its width leaves it normalized. -/
theorem normal_upperHalf (hw : 2 ≤ w) {x : FloatNum} (h : Normal (2 * w) x) : Normal w (upperHalf w x) := by
  obtain ⟨hnormal, hfits⟩ := h
  rw [normalized_iff] at hnormal
  rw [fits_iff] at hfits
  have hpow : (2 : Int) ^ (2 * w - 2) = 2 ^ (w - 2) * 2 ^ w ∧ (2 : Int) ^ (2 * w - 1) = 2 ^ (w - 1) * 2 ^ w := by
    constructor
    · rw [← pow_add]
      congr 1
      omega
    · rw [← pow_add]
      congr 1
      omega
  rw [hpow.1] at hnormal
  rw [hpow.2] at hfits
  have hpos : (0 : Int) < 2 ^ w := by positivity
  constructor
  · rw [normalized_iff]
    simp only [upperHalf, asr]
    rcases hnormal with h | h
    · exact .inl ((Int.le_ediv_iff_mul_le hpos).mpr h)
    · refine .inr ((Int.ediv_lt_iff_lt_mul hpos).mpr ?_)
      rw [Int.neg_mul]
      exact h
  · rw [fits_iff]
    simp only [upperHalf, asr]
    refine ⟨(Int.le_ediv_iff_mul_le hpos).mpr ?_, (Int.ediv_lt_iff_lt_mul hpos).mpr hfits.2⟩
    rw [Int.neg_mul]
    exact hfits.1

/-- It goes down by less than a unit of the half. -/
theorem value_upperHalf (w : Nat) (x : FloatNum) : Shape.value w (upperHalf w x) ≤ Shape.value (2 * w) x ∧
    Shape.value (2 * w) x < Shape.value w { m := (upperHalf w x).m + 1, e := (upperHalf w x).e } := by
  have hunit : (0 : Rat) < 2 ^ (x.e - (2 * w - 1 : Int)) := by positivity
  have hexponent : (2 : Rat) ^ (x.e - (w - 1 : Int)) = 2 ^ w * 2 ^ (x.e - (2 * w - 1 : Int)) := by
    rw [← zpow_natCast, ← zpow_add₀ (by norm_num)]
    congr 1
    ring
  have hpos : (0 : Int) < 2 ^ w := by positivity
  have hfloor : ((asr x.m w : Int) : Rat) * 2 ^ w ≤ x.m ∧ (x.m : Rat) < ((asr x.m w : Int) + 1 : Rat) * 2 ^ w := by
    constructor
    · exact_mod_cast Int.ediv_mul_le x.m hpos.ne'
    · exact_mod_cast Int.lt_ediv_add_one_mul_self x.m hpos
  obtain ⟨hlow, hhigh⟩ := hfloor
  simp only [Shape.value, upperHalf]
  push_cast
  rw [hexponent, ← mul_assoc, ← mul_assoc]
  exact ⟨mul_le_mul_of_nonneg_right hlow hunit.le, mul_lt_mul_of_pos_right hhigh hunit⟩

/-- What normalization leaves of the product, where its exponent is not too great. -/
theorem finished_product (hw : 2 ≤ w) (ha : fits w a.m = true) (ho : fits w o.m = true) (he : productExponent w a o ≤ 127) :
    Finished (2 * w) (product w a o) :=
  finished_normalize (by omega) (fits_productMantissa hw ha ho) he

theorem finished_upperHalf (hw : 2 ≤ w) {x : FloatNum} (h : Finished (2 * w) x) : Finished w (upperHalf w x) := by
  rcases h with rfl | ⟨hnormal, he⟩
  · exact .inl (by simp [upperHalf, asr])
  · exact .inr ⟨normal_upperHalf hw hnormal, he⟩

theorem stored_fmul (hw : 2 ≤ w) (ha : fits w a.m = true) (ho : fits w o.m = true) :
    Shape.stored w (resultNum (fmul w a o)) = true := by
  by_cases hhigh : a.e + o.e > 127
  · rw [fmul, if_pos hhigh]
    exact stored_overflowed hw _
  · by_cases hlow : a.e + o.e < -128
    · rw [fmul, if_neg hhigh, if_pos hlow]
      exact stored_zero hw
    · rw [fmul_eq (by omega) (by omega)]
      split
      · exact stored_overflowed hw _
      · exact stored_finishNormal hw (finished_upperHalf hw (finished_product hw ha ho (by omega)))

end Sys2Proof.Proofs
end

