-- ==== Sys2Proof/Proofs/FloatValues.lean ====
section
/-! PROOF. The quotient of two stored numbers (41_float.md R267), and the two obligations about the floating-point functions. -/

namespace Sys2Proof.Proofs

open Sys2Proof.Machine

variable {w : Nat} {a o : FloatNum}

/-! ## Quotients -/

/-- Division toward minus infinity is the floor of the quotient. -/
theorem floor_fdiv (m d : Int) (hd : d ≠ 0) : ⌊(m : Rat) / d⌋ = Int.fdiv m d := by
  rcases lt_or_gt_of_ne hd with hneg | hpos
  · have hflip : (m : Rat) / d = ((-m : Int) : Rat) / ((-d).toNat : Nat) := by
      have hcast : (((-d).toNat : Nat) : Rat) = ((-d : Int) : Rat) := by exact_mod_cast Int.toNat_of_nonneg (by omega)
      rw [hcast]
      push_cast
      rw [neg_div_neg_eq]
    rw [hflip, Rat.floor_intCast_div_natCast, Int.toNat_of_nonneg (by omega), ← Int.fdiv_eq_ediv_of_nonneg _ (by omega),
      Int.neg_fdiv_neg]
  · have hcast : (m : Rat) / d = (m : Rat) / (d.toNat : Nat) := by
      have : ((d.toNat : Nat) : Rat) = (d : Rat) := by exact_mod_cast Int.toNat_of_nonneg hpos.le
      rw [this]
    rw [hcast, Rat.floor_intCast_div_natCast, Int.toNat_of_nonneg hpos.le, Int.fdiv_eq_ediv_of_nonneg _ hpos.le]

/-- The quotient of the mantissas, halved where it is 1 or more. -/
def fraction (a o : FloatNum) : Rat := if |o.m| ≤ |a.m| then (a.m : Rat) / o.m / 2 else (a.m : Rat) / o.m

/-- It is a fraction: from -1 up to below 1. -/
theorem fraction_bounds (hw : 2 ≤ w) (ha : fits w a.m = true) (ho : fits w o.m = true) (hnormal : normalized w o.m = true) :
    -1 ≤ fraction a o ∧ fraction a o < 1 := by
  obtain ⟨hhalf, hone⟩ := half_mantissa hw
  rw [fits_iff, hhalf] at ha ho
  rw [normalized_iff] at hnormal
  generalize (2 : Int) ^ (w - 2) = half at *
  have hdouble : |o.m| ≤ |a.m| → (0 < o.m → -(2 * o.m) ≤ a.m ∧ a.m < 2 * o.m) ∧ (o.m < 0 → a.m ≤ -(2 * o.m) ∧ 2 * o.m < a.m) :=
    fun _ => ⟨fun h => by omega, fun h => by omega⟩
  have hsingle : ¬ |o.m| ≤ |a.m| → (0 < o.m → -o.m ≤ a.m ∧ a.m < o.m) ∧ (o.m < 0 → a.m ≤ -o.m ∧ o.m < a.m) := fun h => by
    rcases abs_cases a.m with ⟨h1, _⟩ | ⟨h1, _⟩ <;> rcases abs_cases o.m with ⟨h2, _⟩ | ⟨h2, _⟩ <;> omega
  have hquotient : ∀ m d : Int, (0 < d → -d ≤ m ∧ m < d) ∧ (d < 0 → m ≤ -d ∧ d < m) → d ≠ 0 →
      -1 ≤ (m : Rat) / d ∧ (m : Rat) / d < 1 := fun m d ⟨hpos, hneg⟩ hd => by
    rcases lt_or_gt_of_ne hd with h | h
    · have hd' : (d : Rat) < 0 := by exact_mod_cast h
      obtain ⟨h1, h2⟩ := hneg h
      rw [le_div_iff_of_neg hd', div_lt_iff_of_neg hd']
      constructor
      · rw [neg_one_mul]
        exact_mod_cast h1
      · rw [one_mul]
        exact_mod_cast h2
    · have hd' : (0 : Rat) < d := by exact_mod_cast h
      obtain ⟨h1, h2⟩ := hpos h
      rw [le_div_iff₀ hd', div_lt_iff₀ hd']
      constructor
      · rw [neg_one_mul]
        exact_mod_cast h1
      · rw [one_mul]
        exact_mod_cast h2
  have ho0 : o.m ≠ 0 := by omega
  rw [fraction]
  split
  next h =>
    have htwo : (a.m : Rat) / o.m / 2 = (a.m : Rat) / ((2 * o.m : Int) : Rat) := by
      push_cast
      rw [div_div, mul_comm]
    rw [htwo]
    obtain ⟨hpos, hneg⟩ := hdouble h
    exact hquotient a.m (2 * o.m) ⟨fun h => by have := hpos (by omega); omega, fun h => by have := hneg (by omega); omega⟩ (by omega)
  next h => exact hquotient a.m o.m (hsingle h) ho0

/-- A number that fits a word is what the word reads as. -/
theorem toInt_ofInt_of_fits (hw : 0 < w) {v : Int} (h : fits w v = true) : (BitVec.ofInt w v).toInt = v := by
  obtain ⟨k, rfl⟩ : ∃ k, w = k + 1 := ⟨w - 1, by omega⟩
  rw [fits_iff, Nat.add_sub_cancel] at h
  have hpow : 2 ^ (k + 1) = 2 * 2 ^ k := by rw [pow_succ, mul_comm]
  have hcast : ((2 ^ k : Nat) : Int) = 2 ^ k := by push_cast; rfl
  rw [BitVec.toInt_ofInt, hpow]
  exact Int.bmod_eq_of_le (by omega) (by omega)

theorem natAbs_ge_iff : a.m.natAbs ≥ o.m.natAbs ↔ |o.m| ≤ |a.m| := by
  rw [ge_iff_le, ← Int.natCast_natAbs, ← Int.natCast_natAbs, Int.ofNat_le]

/-- The mantissa of the quotient: the fraction, taken down to the width (D13). -/
theorem quotientMantissa_eq (hw : 2 ≤ w) (ha : fits w a.m = true) (ho : fits w o.m = true)
    (hnormal : normalized w o.m = true) :
    quotientMantissa w a.m o.m = ⌊fraction a o * 2 ^ (w - 1)⌋ ∧ fits w (quotientMantissa w a.m o.m) = true := by
  obtain ⟨hhalf, hone⟩ := half_mantissa hw
  obtain ⟨hlow, hhigh⟩ := fraction_bounds hw ha ho hnormal
  have ho0 : o.m ≠ 0 := by
    rw [normalized_iff] at hnormal
    omega
  have hunit : (0 : Rat) < 2 ^ (w - 1) := by positivity
  have hfits : fits w ⌊fraction a o * 2 ^ (w - 1)⌋ = true := by
    rw [fits_iff, Int.le_floor, Int.floor_lt]
    push_cast
    constructor
    · nlinarith
    · nlinarith
  have hdivide : Int.fdiv (a.m * 2 ^ (w - 1)) (if a.m.natAbs ≥ o.m.natAbs then 2 * o.m else o.m) =
      ⌊fraction a o * 2 ^ (w - 1)⌋ := by
    rw [← floor_fdiv _ _ (by split <;> omega), fraction]
    simp only [natAbs_ge_iff]
    congr 1
    split
    · push_cast
      rw [div_div, div_mul_eq_mul_div, mul_comm (2 : Rat)]
    · push_cast
      rw [div_mul_eq_mul_div]
  have hkeep : (BitVec.ofInt w ⌊fraction a o * 2 ^ (w - 1)⌋).toInt = ⌊fraction a o * 2 ^ (w - 1)⌋ :=
    toInt_ofInt_of_fits (by omega) hfits
  rw [quotientMantissa, hdivide, hkeep]
  exact ⟨rfl, hfits⟩

/-- The difference of the exponents. -/
def quotientDifference (a o : FloatNum) : Int := if a.m = 0 then 0 else a.e - o.e

/-- The exponent of the quotient before normalization. -/
def quotientExponent (a o : FloatNum) : Int :=
  if |o.m| ≤ |a.m| then quotientDifference a o + 1 else quotientDifference a o

theorem fdiv_eq (ho : o.m ≠ 0) (hlow : -128 ≤ quotientDifference a o) (hhigh : quotientDifference a o ≤ 127) : fdiv w a o =
    if quotientExponent a o > 127 then overflowed w (quotientMantissa w a.m o.m ≥ 0)
    else finishNormal (normalize w (quotientMantissa w a.m o.m) (quotientExponent a o)) := by
  unfold fdiv
  dsimp only
  rw [quotientDifference] at hlow hhigh
  simp only [natAbs_ge_iff]
  rw [if_neg (by simp only [Bool.or_eq_true, decide_eq_true_eq]; omega), if_neg (by omega)]
  rfl

theorem fdiv_over (h : o.m = 0 ∨ 127 < quotientDifference a o) :
    fdiv w a o = overflowed w (decide (a.m < 0) == decide (o.m < 0)) := by
  unfold fdiv
  dsimp only
  rw [quotientDifference] at h
  rw [if_pos (by simp only [Bool.or_eq_true, decide_eq_true_eq]; omega)]

theorem fdiv_under (ho : o.m ≠ 0) (h : quotientDifference a o < -128) : fdiv w a o = underflowed := by
  unfold fdiv
  dsimp only
  rw [quotientDifference] at h
  rw [if_neg (by simp only [Bool.or_eq_true, decide_eq_true_eq]; omega), if_pos h]

theorem stored_fdiv (hw : 2 ≤ w) (ha : fits w a.m = true) (ho : Shape.stored w o = true) :
    Shape.stored w (resultNum (fdiv w a o)) = true := by
  obtain ⟨hofits, _, hovalid⟩ := (stored_iff w o).mp ho
  by_cases hover : o.m = 0 ∨ 127 < quotientDifference a o
  · rw [fdiv_over hover]
    exact stored_overflowed hw _
  · rw [not_or] at hover
    have hnormal : normalized w o.m = true := hovalid.resolve_left fun h => hover.1 h.1
    by_cases hlow : quotientDifference a o < -128
    · rw [fdiv_under hover.1 hlow]
      exact stored_zero hw
    · rw [fdiv_eq hover.1 (by omega) (by omega)]
      split
      · exact stored_overflowed hw _
      · exact stored_finishNormal hw (finished_normalize hw (quotientMantissa_eq hw ha hofits hnormal).2 (by omega))

/-- Settles O35. -/
theorem floatResultsValid : Obligations.FloatResultsValid := by
  intro w f a o hwidth hf ha ho
  have hw : 2 ≤ w := by omega
  have hafits := ((stored_iff w a).mp ha).1
  have hofits := ((stored_iff w o).mp ho).1
  simp only [List.mem_cons, List.not_mem_nil, or_false] at hf
  rcases hf with rfl | rfl | rfl | rfl
  · exact stored_fadd hw false hafits hofits
  · exact stored_fadd hw true hafits hofits
  · exact stored_fmul hw hafits hofits
  · exact stored_fdiv hw hafits ho

/-! ## Values -/

/-- The product clause of the values. -/
theorem fmul_values (hw : 2 ≤ w) (ha : fits w a.m = true) (ho : fits w o.m = true) :
    (127 < a.e + o.e ∨ (a.e + o.e = 127 ∧ a.m = -2 ^ (w - 1) ∧ o.m = -2 ^ (w - 1)) →
      fmul w a o = Shape.overflowResult w (decide (a.m < 0) == decide (o.m < 0))) ∧
    (¬ (127 < a.e + o.e ∨ (a.e + o.e = 127 ∧ a.m = -2 ^ (w - 1) ∧ o.m = -2 ^ (w - 1))) →
      (a.e + o.e < -128 ∨ Tiny (Shape.value w a * Shape.value w o) → fmul w a o = Shape.underflowResult) ∧
      (¬ (a.e + o.e < -128 ∨ Tiny (Shape.value w a * Shape.value w o)) →
        (fmul w a o).overflow = false ∧ (fmul w a o).underflow = false ∧
          Shape.value w { m := (fmul w a o).m, e := (fmul w a o).e } ≤ Shape.value w a * Shape.value w o ∧
          Shape.value w a * Shape.value w o < Shape.value w { m := (fmul w a o).m + 1, e := (fmul w a o).e })) := by
  obtain ⟨_, _, hgreatest⟩ := product_bounds hw ha ho
  refine ⟨fun hover => ?_, fun hover => ?_⟩
  · by_cases hhigh : 127 < a.e + o.e
    · rw [fmul, if_pos hhigh]
      rfl
    · obtain ⟨hn, ham, hom⟩ := hover.resolve_left hhigh
      have hmax := hgreatest.mpr ⟨ham, hom⟩
      have hneg : a.m < 0 ∧ o.m < 0 := by
        have : (0 : Int) < 2 ^ (w - 1) := by positivity
        omega
      have hpos : (0 : Int) ≤ 2 ^ (2 * w - 2) := by positivity
      rw [fmul_eq (by omega) (by omega), productExponent, productMantissa, if_pos hmax, if_pos hmax, if_pos (by omega),
        decide_eq_true hneg.1, decide_eq_true hneg.2, decide_eq_true hpos]
      rfl
  · rw [not_or] at hover
    by_cases hunder : a.e + o.e < -128
    · refine ⟨fun _ => ?_, fun h => absurd (.inl hunder) h⟩
      rw [fmul, if_neg (by omega), if_pos hunder]
      rfl
    · have hk : productExponent w a o ≤ 127 := by
        rw [productExponent]
        split
        next h =>
          have hlarge := fun h' => hover.2 ⟨h', hgreatest.mp h⟩
          omega
        next => omega
      have hfinished := finished_product hw ha ho hk
      have hvalue := value_product hw ha ho
      rw [fmul_eq (by omega) (by omega), if_neg (by omega), ← hvalue]
      simp only [hunder, false_or]
      generalize product w a o = x at hfinished
      rcases hfinished with rfl | ⟨hnormal, he⟩
      · have hnot : ¬ Tiny (Shape.value (2 * w) ⟨0, 0⟩) := fun ht => ht.1 (by simp [Shape.value])
        exact ⟨fun ht => absurd ht hnot, fun _ => ⟨rfl, rfl, value_upperHalf w ⟨0, 0⟩⟩⟩
      · rw [tiny_iff (by omega) hnormal]
        refine ⟨fun hlow => ?_, fun hlow => ?_⟩
        · rw [finishNormal, if_pos (show (upperHalf w x).e < -128 from hlow)]
          rfl
        · rw [finishNormal, if_neg (show ¬ (upperHalf w x).e < -128 from hlow)]
          exact ⟨rfl, rfl, value_upperHalf w x⟩

/-- The sum clause. -/
theorem fadd_values (hw : 2 ≤ w) (subtract : Bool) (ha : fits w a.m = true) (ho : fits w o.m = true)
    (he : sumExponent a o ≤ 127) :
    let sum := alignedSum w subtract a o
    let unit : Rat := 2 ^ (sumExponent a o - (w - 1 : Int))
    (fits w sum = false → sumExponent a o = 127 → fadd w subtract a o = Shape.overflowResult w (decide (0 ≤ sum))) ∧
    (fits w sum = false → sumExponent a o ≠ 127 →
      Shape.Delivers w (⌊(sum : Rat) / 2⌋ * (2 * unit)) (fadd w subtract a o)) ∧
    (fits w sum = true → Shape.Delivers w (sum * unit) (fadd w subtract a o)) := by
  have hbounds := alignedSum_bounds hw subtract ha ho
  rw [fadd_eq]
  refine ⟨fun hwide hlast => ?_, fun hwide hlast => ?_, fun hfits => ?_⟩
  · have hsign : decide (asr (alignedSum w subtract a o) 1 ≥ 0) = decide (0 ≤ alignedSum w subtract a o) := by
      rw [decide_eq_decide, asr]
      omega
    rw [sumMantissas_wide hwide, finish, if_pos (by omega), hsign]
    rfl
  · have hhalf : ⌊(alignedSum w subtract a o : Rat) / 2⌋ = asr (alignedSum w subtract a o) 1 := by
      have h := Rat.floor_intCast_div_natCast (alignedSum w subtract a o) 2
      rw [asr, pow_one]
      exact_mod_cast h
    have hunit : (2 : Rat) * 2 ^ (sumExponent a o - (w - 1 : Int)) = 2 ^ (sumExponent a o + 1 - (w - 1 : Int)) := by
      rw [← zpow_one_add₀ (by norm_num)]
      congr 1
      ring
    rw [sumMantissas_wide hwide, hhalf, hunit]
    exact finish_delivers hw (fits_half hbounds) (by omega)
  · rw [sumMantissas_fitting hfits]
    exact finish_delivers hw hfits he

/-- The sign of a quotient that is not small (R267). -/
theorem quotient_sign (hw : 2 ≤ w) (ha : fits w a.m = true) (ho : fits w o.m = true) (hnormal : normalized w o.m = true)
    (hle : |o.m| ≤ |a.m|) : decide (quotientMantissa w a.m o.m ≥ 0) = (decide (a.m < 0) == decide (o.m < 0)) := by
  have hone := (half_mantissa hw).2
  have ho0 : o.m ≠ 0 := by
    rw [normalized_iff] at hnormal
    omega
  have ha0 : a.m ≠ 0 := fun h => by
    rw [h, abs_zero] at hle
    exact ho0 (abs_nonpos_iff.mp hle)
  have hunit : (0 : Rat) < 2 ^ (w - 1) := by positivity
  have hsign : 0 ≤ fraction a o ↔ 0 ≤ (a.m : Rat) / o.m := by
    rw [fraction, if_pos hle]
    constructor
    · intro h
      linarith
    · intro h
      linarith
  have hfloor : quotientMantissa w a.m o.m ≥ 0 ↔ 0 ≤ (a.m : Rat) / o.m := by
    rw [(quotientMantissa_eq hw ha ho hnormal).1, ge_iff_le, Int.floor_nonneg, ← hsign]
    exact ⟨fun h => nonneg_of_mul_nonneg_left h hunit, fun h => mul_nonneg h hunit.le⟩
  rw [decide_eq_decide.mpr hfloor]
  rcases lt_or_gt_of_ne ha0 with ham | ham <;> rcases lt_or_gt_of_ne ho0 with hom | hom
  · have hq : 0 ≤ (a.m : Rat) / o.m := div_nonneg_of_nonpos (by exact_mod_cast ham.le) (by exact_mod_cast hom.le)
    rw [decide_eq_true hq, decide_eq_true ham, decide_eq_true hom]
    rfl
  · have hq : ¬ 0 ≤ (a.m : Rat) / o.m := not_le.mpr (div_neg_of_neg_of_pos (by exact_mod_cast ham) (by exact_mod_cast hom))
    rw [decide_eq_false hq, decide_eq_true ham, decide_eq_false (by omega)]
    rfl
  · have hq : ¬ 0 ≤ (a.m : Rat) / o.m := not_le.mpr (div_neg_of_pos_of_neg (by exact_mod_cast ham) (by exact_mod_cast hom))
    rw [decide_eq_false hq, decide_eq_false (by omega), decide_eq_true hom]
    rfl
  · have hq : 0 ≤ (a.m : Rat) / o.m := div_nonneg (by exact_mod_cast ham.le) (by exact_mod_cast hom.le)
    rw [decide_eq_true hq, decide_eq_false (by omega), decide_eq_false (by omega)]
    rfl

/-- The quotient clause. -/
theorem fdiv_values (hw : 2 ≤ w) (ha : fits w a.m = true) (ho : Shape.stored w o = true) :
    (o.m = 0 ∨ 127 < quotientExponent a o →
      fdiv w a o = Shape.overflowResult w (decide (a.m < 0) == decide (o.m < 0))) ∧
    (¬ (o.m = 0 ∨ 127 < quotientExponent a o) →
      (quotientDifference a o < -128 → fdiv w a o = Shape.underflowResult) ∧
      (¬ quotientDifference a o < -128 → Shape.Delivers w
        (⌊fraction a o * 2 ^ (w - 1)⌋ * 2 ^ (quotientExponent a o - (w - 1 : Int))) (fdiv w a o))) := by
  obtain ⟨hofits, _, hovalid⟩ := (stored_iff w o).mp ho
  have hexponent : quotientDifference a o ≤ quotientExponent a o ∧
      (quotientDifference a o < quotientExponent a o → |o.m| ≤ |a.m|) ∧ quotientExponent a o ≤ quotientDifference a o + 1 := by
    rw [quotientExponent]
    split
    next h => exact ⟨by omega, fun _ => h, le_rfl⟩
    next => exact ⟨le_rfl, fun h => absurd h (lt_irrefl _), by omega⟩
  obtain ⟨hle, hhalved, hle'⟩ := hexponent
  refine ⟨fun hover => ?_, fun hover => ?_⟩
  · by_cases hdirect : o.m = 0 ∨ 127 < quotientDifference a o
    · rw [fdiv_over hdirect]
      rfl
    · rw [not_or] at hdirect
      have hnormal : normalized w o.m = true := hovalid.resolve_left fun h => hdirect.1 h.1
      have hk := hover.resolve_left hdirect.1
      rw [fdiv_eq hdirect.1 (by omega) (by omega), if_pos hk, quotient_sign hw ha hofits hnormal (hhalved (by omega))]
      rfl
  · rw [not_or] at hover
    have hnormal : normalized w o.m = true := hovalid.resolve_left fun h => hover.1 h.1
    refine ⟨fun hlow => fdiv_under hover.1 hlow, fun hlow => ?_⟩
    obtain ⟨hfloor, hfits⟩ := quotientMantissa_eq hw ha hofits hnormal
    rw [fdiv_eq hover.1 (by omega) (by omega), if_neg (by omega), ← hfloor, ← (normalize_value hw _ _ hfits).2]
    exact delivers_finishNormal hw (finished_normalize hw hfits (by omega))

/-- Settles O36. -/
theorem floatValues : Obligations.FloatValues := by
  intro w a o hwidth ha ho
  have hw : 2 ≤ w := by omega
  obtain ⟨hafits, hae, havalid⟩ := (stored_iff w a).mp ha
  obtain ⟨hofits, hoe, hovalid⟩ := (stored_iff w o).mp ho
  refine ⟨?_, fun subtract => ?_, ?_⟩
  · obtain ⟨hover, hrest⟩ := fmul_values hw hafits hofits
    by_cases h : 127 < a.e + o.e ∨ (a.e + o.e = 127 ∧ a.m = -2 ^ (w - 1) ∧ o.m = -2 ^ (w - 1))
    · exact (if_pos h).mpr (hover h)
    · by_cases h' : a.e + o.e < -128 ∨ Tiny (Shape.value w a * Shape.value w o)
      · exact (if_neg h).mpr ((if_pos h').mpr ((hrest h).1 h'))
      · exact (if_neg h).mpr ((if_neg h').mpr ((hrest h).2 h'))
  · have he : sumExponent a o ≤ 127 := by
      rw [sumExponent]
      split
      · omega
      · split <;> omega
    obtain ⟨hover, hwide, hfits⟩ := fadd_values hw subtract hafits hofits he
    by_cases h : fits w (alignedSum w subtract a o) = false
    · by_cases hlast : sumExponent a o = 127
      · exact (if_pos ⟨h, hlast⟩).mpr (hover h hlast)
      · exact (if_neg fun h' => hlast h'.2).mpr ((if_pos h).mpr (hwide h hlast))
    · exact (if_neg fun h' => h h'.1).mpr ((if_neg h).mpr (hfits (by simpa using h)))
  · obtain ⟨hover, hrest⟩ := fdiv_values hw hafits ho
    by_cases h : o.m = 0 ∨ 127 < quotientExponent a o
    · exact (if_pos h).mpr (hover h)
    · by_cases h' : quotientDifference a o < -128
      · exact (if_neg h).mpr ((if_pos h').mpr ((hrest h).1 h'))
      · exact (if_neg h).mpr ((if_neg h').mpr ((hrest h).2 h'))

end Sys2Proof.Proofs
end

