-- ==== Sys2Proof/Proofs/FloatConversions.lean ====
section
/-! PROOF. FABS and FNEG, and the conversions between floating-point numbers and integers (41_float.md R276, R283, R302 to R305). -/

namespace Sys2Proof.Proofs

open Sys2Proof.Machine

/-! ## Numbers in their fields -/

theorem unpackF_mantissa (v : Long) : fits 24 (unpackF v).m = true := fits_toInt _ (by omega)

theorem unpackX_mantissa (v : Triple) : fits 40 (unpackX v).m = true := fits_toInt _ (by omega)

theorem stored_unpackF {v : Long} (h : (unpackF v).valid 24 = true) : Shape.stored 24 (unpackF v) = true := by
  have he := unpackF_exponent v
  have hfits : fits 8 (unpackF v).e = true := (fits_iff 8 _).mpr (by norm_num; omega)
  rw [Shape.stored, unpackF_mantissa, hfits, h]
  rfl

/-! ## Absolute value and negative -/

/-- A stored number is below 2^127, and no negative one is above -2^-129. -/
theorem stored_bounds {w : Nat} (hw : 2 ≤ w) {x : FloatNum} (h : Shape.stored w x = true) :
    Shape.value w x < 2 ^ (127 : Int) ∧ ¬ (-2 ^ (-129 : Int) ≤ Shape.value w x ∧ Shape.value w x < 0) := by
  obtain ⟨hfits, ⟨hlow, hhigh⟩, hvalid⟩ := (stored_iff w x).mp h
  constructor
  · have hunit : (0 : Rat) < 2 ^ (x.e - (w - 1 : Int)) := by positivity
    have hm : (x.m : Rat) < 2 ^ (w - 1) := by exact_mod_cast ((fits_iff w x.m).mp hfits).2
    calc Shape.value w x < 2 ^ (w - 1) * 2 ^ (x.e - (w - 1 : Int)) := mul_lt_mul_of_pos_right hm hunit
      _ = 2 ^ x.e := by
        rw [← zpow_natCast, ← zpow_add₀ (by norm_num)]
        congr 1
        omega
      _ ≤ 2 ^ (127 : Int) := zpow_le_zpow_right₀ (by norm_num) (by omega)
  · rintro ⟨hsmall, hneg⟩
    have htiny : Tiny (Shape.value w x) := ⟨hneg.ne, hsmall, hneg.trans (by positivity)⟩
    rcases hvalid with ⟨hm, _⟩ | hnormal
    · exact htiny.1 (by simp [Shape.value, hm])
    · have := (tiny_iff hw ⟨hnormal, hfits⟩).mp htiny
      omega

/-- What a sign operation answers: the exact value, or one of the two values that cannot be stored. -/
def SignResult (exact : Rat) (r : FloatResult) : Prop :=
  Shape.stored 24 (resultNum r) = true ∧
    ((exact < 2 ^ (127 : Int) ∧ ¬ (-2 ^ (-129 : Int) ≤ exact ∧ exact < 0) ∧ Shape.value 24 (resultNum r) = exact ∧
        r.overflow = false ∧ r.underflow = false) ∨
     (exact = 2 ^ (127 : Int) ∧ resultNum r = ⟨2 ^ 23 - 1, 127⟩ ∧ r.overflow = true ∧ r.underflow = false) ∨
     (exact = -2 ^ (-129 : Int) ∧ resultNum r = ⟨0, 0⟩ ∧ r.overflow = false ∧ r.underflow = true))

theorem signResult_exactly {m e : Int} {exact : Rat} (hstored : Shape.stored 24 ⟨m, e⟩ = true)
    (hvalue : Shape.value 24 ⟨m, e⟩ = exact) : SignResult exact (exactly m e) := by
  obtain ⟨hhigh, hlow⟩ := stored_bounds (by omega) hstored
  rw [hvalue] at hhigh hlow
  exact ⟨hstored, .inl ⟨hhigh, hlow, hvalue, rfl, rfl⟩⟩

theorem signResult_overflowed {exact : Rat} (h : exact = 2 ^ (127 : Int)) : SignResult exact (overflowed 24 true) :=
  ⟨stored_overflowed (by omega) true, .inr (.inl ⟨h, rfl, rfl, rfl⟩)⟩

/-- The mantissa one step down, with the exponent one up, and the other way. -/
theorem value_step (m e : Int) : Shape.value 24 ⟨m, e + 1⟩ = Shape.value 24 ⟨2 * m, e⟩ := by
  have hexponent : (2 : Rat) ^ (e + 1 - ((24 : Nat) - 1 : Int)) = 2 * 2 ^ (e - ((24 : Nat) - 1 : Int)) := by
    rw [← zpow_one_add₀ (by norm_num)]
    congr 1
    ring
  simp only [Shape.value]
  rw [hexponent]
  push_cast
  ring

theorem value_neg (m e : Int) : Shape.value 24 ⟨-m, e⟩ = -Shape.value 24 ⟨m, e⟩ := by
  simp only [Shape.value]
  push_cast
  ring

/-- The mantissa -1.0 is minus the exponent's power of two. -/
theorem value_least (e : Int) : Shape.value 24 ⟨-2 ^ 23, e⟩ = -2 ^ e := by
  have hexponent : (2 : Rat) ^ (23 : Nat) * 2 ^ (e - ((24 : Nat) - 1 : Int)) = 2 ^ e := by
    rw [← zpow_natCast, ← zpow_add₀ (by norm_num)]
    congr 1
    push_cast
    ring
  rw [value_neg, ← hexponent]
  simp only [Shape.value]
  push_cast
  rfl

theorem stored_single (m e : Int) : Shape.stored 24 ⟨m, e⟩ = true ↔
    (-8388608 ≤ m ∧ m < 8388608) ∧ (-128 ≤ e ∧ e < 128) ∧ (m = 0 ∧ e = 0 ∨ 4194304 ≤ m ∨ m < -4194304) := by
  rw [stored_iff, fits_iff, normalized_iff]
  norm_num

/-- The negative of a stored number. -/
theorem signResult_fneg {x : FloatNum} (h : Shape.stored 24 x = true) : SignResult (-Shape.value 24 x) (fneg x) := by
  obtain ⟨m, e⟩ := x
  have hx := (stored_single m e).mp h
  rw [fneg]
  dsimp only
  split
  next hcase =>
    simp only [Bool.and_eq_true, decide_eq_true_eq] at hcase
    obtain ⟨rfl, rfl⟩ := hcase
    exact signResult_overflowed (by rw [value_least, neg_neg])
  next hcase =>
    simp only [Bool.and_eq_true, decide_eq_true_eq] at hcase
    split
    next hcase' =>
      simp only [Bool.and_eq_true, decide_eq_true_eq] at hcase'
      obtain ⟨rfl, rfl⟩ := hcase'
      refine ⟨stored_zero (by omega), .inr (.inr ⟨?_, rfl, rfl, rfl⟩)⟩
      simp only [Shape.value]
      norm_num
    next hcase' =>
      simp only [Bool.and_eq_true, decide_eq_true_eq] at hcase'
      split
      next hm =>
        subst hm
        refine signResult_exactly ((stored_single _ _).mpr (by norm_num at *; omega)) ?_
        rw [value_step, ← value_neg]
        norm_num
      next hm =>
        split
        next hm' =>
          subst hm'
          refine signResult_exactly ((stored_single _ _).mpr (by norm_num at *; omega)) ?_
          have hstep := value_step (-2 ^ 22) (e - 1)
          rw [sub_add_cancel] at hstep
          rw [← value_neg, hstep]
          norm_num
        next hm' =>
          exact signResult_exactly ((stored_single _ _).mpr (by norm_num at *; omega)) (value_neg m e)

/-- The absolute value of a stored number. -/
theorem signResult_fabs {x : FloatNum} (h : Shape.stored 24 x = true) : SignResult |Shape.value 24 x| (fabs x) := by
  obtain ⟨m, e⟩ := x
  have hx := (stored_single m e).mp h
  have hunit : (0 : Rat) < 2 ^ (e - ((24 : Nat) - 1 : Int)) := by positivity
  have hnegative : m < 0 → |Shape.value 24 ⟨m, e⟩| = -Shape.value 24 ⟨m, e⟩ := fun hm =>
    abs_of_neg (mul_neg_of_neg_of_pos (by exact_mod_cast hm) hunit)
  rw [fabs]
  dsimp only
  split
  next hm =>
    subst hm
    rw [hnegative (by norm_num)]
    split
    next he =>
      obtain rfl : e = 127 := by omega
      exact signResult_overflowed (by rw [value_least, neg_neg])
    next he =>
      refine signResult_exactly ((stored_single _ _).mpr (by norm_num at *; omega)) ?_
      rw [value_step, ← value_neg]
      norm_num
  next hm =>
    split
    next hneg =>
      rw [hnegative hneg]
      exact signResult_exactly ((stored_single _ _).mpr (by norm_num at *; omega)) (value_neg m e)
    next hneg =>
      have hvalue : |Shape.value 24 ⟨m, e⟩| = Shape.value 24 ⟨m, e⟩ :=
        abs_of_nonneg (mul_nonneg (by exact_mod_cast (by omega : 0 ≤ m)) hunit.le)
      exact signResult_exactly h hvalue.symm

/-- FABS and FNEG from what they compute. -/
theorem floatUnary_sign {f : FloatNum → FloatResult} {ra rb : Reg} {s : State} {exact : Rat}
    (hvalid : (unpackF (s.pair rb)).valid 24 = true) (h : SignResult exact (f (unpackF (s.pair rb)))) :
    ∃ r : FloatNum, Shape.stored 24 r = true ∧
      ((exact < 2 ^ (127 : Int) ∧ ¬ (-2 ^ (-129 : Int) ≤ exact ∧ exact < 0) ∧ Shape.value 24 r = exact ∧
          floatUnary f ra rb s = .next ((s.setPair ra (packF r.m r.e)).ends (signCs r.m) 0 1)) ∨
       (exact = 2 ^ (127 : Int) ∧ r = ⟨2 ^ 23 - 1, 127⟩ ∧
          floatUnary f ra rb s = .next ((s.setPair ra (packF r.m r.e)).ends (signCs r.m) (oneBit 3) 1)) ∨
       (exact = -2 ^ (-129 : Int) ∧ r = ⟨0, 0⟩ ∧
          floatUnary f ra rb s = .next ((s.setPair ra (packF r.m r.e)).ends (signCs r.m) (oneBit 6) 1))) := by
  have hexec := floatUnary_valid s f ra rb hvalid
  dsimp only at hexec
  generalize f (unpackF (s.pair rb)) = x at h hexec
  obtain ⟨hstored, hcases⟩ := h
  have hpending : pendingIf false 3 ||| pendingIf false 6 = 0 ∧ pendingIf true 3 ||| pendingIf false 6 = oneBit 3 ∧
      pendingIf false 3 ||| pendingIf true 6 = oneBit 6 := by decide
  obtain ⟨hnone, hover, hunder⟩ := hpending
  refine ⟨resultNum x, hstored, ?_⟩
  rcases hcases with ⟨hhigh, hlow, hvalue, ho, hu⟩ | ⟨hvalue, hnum, ho, hu⟩ | ⟨hvalue, hnum, ho, hu⟩
  · rw [ho, hu, hnone] at hexec
    exact .inl ⟨hhigh, hlow, hvalue, hexec⟩
  · rw [ho, hu, hover] at hexec
    exact .inr (.inl ⟨hvalue, hnum, hexec⟩)
  · rw [ho, hu, hunder] at hexec
    exact .inr (.inr ⟨hvalue, hnum, hexec⟩)

/-- Settles O38. -/
theorem floatSign : Obligations.FloatSign := by
  intro ra rb s hvalid x i exact hi
  have hstored := stored_unpackF hvalid
  simp only [List.mem_cons, Prod.mk.injEq, List.not_mem_nil, or_false] at hi
  rcases hi with ⟨rfl, rfl⟩ | ⟨rfl, rfl⟩
  · exact floatUnary_sign hvalid (signResult_fabs hstored)
  · exact floatUnary_sign hvalid (signResult_fneg hstored)

/-! ## To an integer -/

/-- Truncation toward zero, by the sign. -/
theorem tdiv_by_sign (m d : Int) : m.tdiv d = if 0 ≤ m then m / d else -(-m / d) := by
  split
  next h => exact Int.tdiv_eq_ediv_of_nonneg h
  next h => rw [← Int.tdiv_eq_ediv_of_nonneg (by omega), Int.neg_tdiv, Int.neg_neg]

/-- The integer part, as the statement has it, and in the field of `k + 1` bits where the exponent is at most `k` (R302). -/
theorem integerPart_eq {k : Nat} {x : FloatNum} (hm : fits (k + 9) x.m = true) (he : x.e ≤ k) :
    integerPart (k + 9) x = (if x.e < 0 then 0 else (x.m * 2 ^ x.e.toNat).tdiv (2 ^ (k + 8))) ∧
      fits (k + 1) (integerPart (k + 9) x) = true := by
  rw [fits_iff, show k + 9 - 1 = k + 8 by omega] at hm
  have hwidth : ((k + 9 : Nat) : Int) - 1 = (k : Int) + 8 := by push_cast; ring
  have hpart : integerPart (k + 9) x = x.m.tdiv (2 ^ ((k : Int) + 8 - x.e).toNat) := by
    rw [integerPart, hwidth, if_neg (by omega)]
  have hpow : (2 : Int) ^ (k + 8) = 2 ^ k * 256 := by rw [pow_add]; norm_num
  have hbig : (256 : Int) ≤ 2 ^ ((k : Int) + 8 - x.e).toNat := by
    calc (256 : Int) = 2 ^ 8 := by norm_num
      _ ≤ 2 ^ ((k : Int) + 8 - x.e).toNat := pow_le_pow_right₀ (by norm_num) (by omega)
  constructor
  · rw [hpart]
    split
    next hneg =>
      have hlarge : (2 : Int) ^ (k + 8) < 2 ^ ((k : Int) + 8 - x.e).toNat :=
        pow_lt_pow_right₀ (by norm_num) (by omega)
      rw [tdiv_by_sign]
      split
      · exact Int.ediv_eq_zero_of_lt (by omega) (by omega)
      · rw [Int.ediv_eq_zero_of_lt (by omega) (by omega), neg_zero]
    next hpos =>
      have hsplit : (2 : Int) ^ (k + 8) = 2 ^ ((k : Int) + 8 - x.e).toNat * 2 ^ x.e.toNat := by
        rw [← pow_add]
        congr 1
        omega
      rw [hsplit, Int.mul_tdiv_mul_of_pos_left _ _ (by positivity)]
  · rw [hpart, fits_iff, Nat.add_sub_cancel]
    rw [hpow] at hm
    generalize (2 : Int) ^ ((k : Int) + 8 - x.e).toNat = d at *
    have hpositive : (0 : Int) < 2 ^ k := by positivity
    generalize (2 : Int) ^ k = unit at *
    have hnone : ∀ n : Int, 0 ≤ n → 0 ≤ n / d := fun n hn => Int.ediv_nonneg hn (by omega)
    have hbound : ∀ n c : Int, 0 ≤ c → n < c * 256 → n / d < c := fun n c hc hn =>
      (Int.ediv_lt_iff_lt_mul (by omega)).mpr (by nlinarith)
    rw [tdiv_by_sign]
    split
    next h =>
      have h1 := hnone x.m h
      have h2 := hbound x.m unit (by omega) (by omega)
      omega
    next h =>
      have h1 := hnone (-x.m) (by omega)
      have h2 := hbound (-x.m) (unit + 1) (by omega) (by omega)
      omega

/-- An instruction that sets CS and pends a level, and leaves its destination. -/
theorem settle_pend (s : State) (cs : BitVec 4) (n : Nat) (len : Word) :
    ((s.start.pendIf true n).setCs cs).next len = .next (s.ends cs (oneBit n) len) := by
  rw [State.start_pendIf]
  rfl

theorem execFix_eq {ra rb : Reg} {s : State} (h : (unpackF (s.pair rb)).valid 24 = true) : execFix ra rb s =
    if (unpackF (s.pair rb)).e > 15 then .next (s.ends (signCs (s.reg ra).toInt) (oneBit 4) 1)
    else .next ((s.setReg ra (BitVec.ofInt 16 (integerPart 24 (unpackF (s.pair rb))))).ends
      (signCs (BitVec.ofInt 16 (integerPart 24 (unpackF (s.pair rb)))).toInt) 0 1) := by
  have haccepts : s.acceptsFloat 24 (unpackF (s.pair rb)) = true := by simp [State.acceptsFloat, h]
  unfold execFix
  dsimp only
  rw [haccepts, Bool.not_true, if_neg Bool.false_ne_true, settle_pend, State.start_setReg, State.settle_cs, pzn_eq, pzn_eq]

theorem execEfix_eq {ra rb : Reg} {s : State} (h : (unpackX (s.triple rb)).valid 40 = true) : execEfix ra rb s =
    if (unpackX (s.triple rb)).e > 31 then .next (s.ends (signCs (s.pair ra).toInt) (oneBit 4) 1)
    else .next ((s.setPair ra (BitVec.ofInt 32 (integerPart 40 (unpackX (s.triple rb))))).ends
      (signCs (BitVec.ofInt 32 (integerPart 40 (unpackX (s.triple rb)))).toInt) 0 1) := by
  have haccepts : s.acceptsFloat 40 (unpackX (s.triple rb)) = true := by simp [State.acceptsFloat, h]
  unfold execEfix
  dsimp only
  rw [haccepts, Bool.not_true, if_neg Bool.false_ne_true, settle_pend, State.start_setPair, State.settle_cs, pzn_eq, pzn_eq]

/-- Settles O39. -/
theorem floatToInteger : Obligations.FloatToInteger := by
  intro ra rb s
  have hfix : exec (.fix ra rb) s = execFix ra rb s := rfl
  have hefix : exec (.efix ra rb) s = execEfix ra rb s := rfl
  rw [hfix, hefix]
  refine ⟨fun hvalid => ?_, fun hvalid => ?_⟩
  · rw [execFix_eq hvalid]
    refine ⟨fun he => if_pos he, fun he => ?_⟩
    obtain ⟨hpart, hfits⟩ := integerPart_eq (k := 15) (unpackF_mantissa (s.pair rb)) he
    refine ⟨BitVec.ofInt 16 (integerPart 24 (unpackF (s.pair rb))), ?_, if_neg (not_lt.mpr he)⟩
    rw [toInt_ofInt_of_fits (by omega) hfits]
    exact hpart
  · rw [execEfix_eq hvalid]
    refine ⟨fun he => if_pos he, fun he => ?_⟩
    obtain ⟨hpart, hfits⟩ := integerPart_eq (k := 31) (unpackX_mantissa (s.triple rb)) he
    refine ⟨BitVec.ofInt 32 (integerPart 40 (unpackX (s.triple rb))), ?_, if_neg (not_lt.mpr he)⟩
    rw [toInt_ofInt_of_fits (by omega) hfits]
    exact hpart

/-! ## From an integer -/

/-- An integer of `k + 1` bits as a normalized number of `k + 9`. -/
theorem floatOf_eq {k : Nat} (hk : k ≤ 118) {v : Int} (h : fits (k + 1) v = true) :
    Shape.stored (k + 9) (floatOf (k + 9) v k) = true ∧ Shape.value (k + 9) (floatOf (k + 9) v k) = v ∧
      signCs (floatOf (k + 9) v k).m = signCs v := by
  have hfits : fits (k + 9) (v * 2 ^ 8) = true := by
    rw [fits_iff, Nat.add_sub_cancel] at h
    rw [fits_iff, show k + 9 - 1 = k + 8 by omega, pow_add]
    norm_num
    omega
  obtain ⟨hform, hvalue⟩ := normalize_value (w := k + 9) (by omega) (v * 2 ^ 8) k hfits
  have hvalue' : Shape.value (k + 9) (floatOf (k + 9) v k) = v := by
    rw [floatOf, hvalue]
    have hexponent : (2 : Rat) ^ ((k : Int) - (((k + 9 : Nat) : Int) - 1)) = 1 / 2 ^ 8 := by
      rw [show (k : Int) - (((k + 9 : Nat) : Int) - 1) = -8 by push_cast; ring]
      norm_num
    rw [hexponent]
    push_cast
    ring
  refine ⟨?_, hvalue', ?_⟩
  · rcases hform with hzero | ⟨⟨hnormal, hfits'⟩, hle, hge⟩
    · rw [floatOf, hzero]
      exact stored_zero (by omega)
    · rw [stored_iff]
      exact ⟨hfits', ⟨by rw [floatOf]; omega, by rw [floatOf]; omega⟩, .inr hnormal⟩
  · have hunit : (0 : Rat) < 2 ^ ((floatOf (k + 9) v k).e - (((k + 9 : Nat) : Int) - 1)) := by positivity
    rw [Shape.value] at hvalue'
    have hzero : (floatOf (k + 9) v k).m = 0 ↔ v = 0 := by
      rw [← Int.cast_eq_zero (α := Rat), ← Int.cast_eq_zero (α := Rat) (n := v), ← hvalue', mul_eq_zero,
        or_iff_left hunit.ne']
    have hneg : (floatOf (k + 9) v k).m < 0 ↔ v < 0 := by
      rw [← Int.cast_lt_zero (R := Rat), ← Int.cast_lt_zero (R := Rat) (n := v), ← hvalue']
      exact ⟨fun h => mul_neg_of_neg_of_pos h hunit, fun h => neg_of_mul_neg_left h hunit.le⟩
    simp only [signCs, hzero, hneg]

/-- Settles O40. -/
theorem integerToFloat : Obligations.IntegerToFloat := by
  intro ra rb s
  have hnone : pendingIf false 3 ||| pendingIf false 6 = 0 := by decide
  refine ⟨?_, ?_⟩
  · have harm : exec (.flt ra rb) s = execFlt ra rb s := rfl
    obtain ⟨hstored, hvalue, hsign⟩ := floatOf_eq (k := 15) (by omega) (fits_toInt (s.reg rb) (by omega))
    refine ⟨floatOf 24 (s.reg rb).toInt 15, hstored, hvalue, ?_⟩
    rw [harm, execFlt, State.settle_float, ← hsign]
    simp only [exactly, hnone]
    rfl
  · have harm : exec (.eflt ra rb) s = execEflt ra rb s := rfl
    obtain ⟨hstored, hvalue, hsign⟩ := floatOf_eq (k := 31) (by omega) (fits_toInt (s.pair rb) (by omega))
    refine ⟨floatOf 40 (s.pair rb).toInt 31, hstored, hvalue, ?_⟩
    rw [harm, execEflt, State.settle_extended, ← hsign]
    simp only [exactly, hnone]
    rfl

end Sys2Proof.Proofs
end

