-- ==== Sys2Proof/Proofs/InputOutput.lean ====
section
/-! PROOF. XIO with AK = 0: the output commands, the input commands, and those of the F9451 and F9452 (47_io.md R500 to R550). -/

namespace Sys2Proof.Proofs

open Sys2Proof.Machine

/-! ## XIO -/

theorem exec_xio_output {ra rx : Reg} {data : Word} {s : State} (hak : akField s.sw = 0) (h : bitOf (s.indexed data rx) 0 = false) :
    exec (.xio ra rx data) s = (s.start.output (s.indexed data rx) (s.reg ra)).next 2 := by
  have hpriv : s.privileged = true := decide_eq_true hak
  have harm : exec (.xio ra rx data) s = execXio ra rx data s := rfl
  rw [harm, execXio, if_pos hpriv]
  dsimp only
  rw [isInput, h, if_neg Bool.false_ne_true]

theorem exec_xio_input {ra rx : Reg} {data : Word} {s : State} (hak : akField s.sw = 0) (h : bitOf (s.indexed data rx) 0 = true) :
    exec (.xio ra rx data) s =
      ((s.start.input (s.indexed data rx)).run.setReg ra (s.start.input (s.indexed data rx)).val).next 2 := by
  have hpriv : s.privileged = true := decide_eq_true hak
  have harm : exec (.xio ra rx data) s = execXio ra rx data s := rfl
  rw [harm, execXio, if_pos hpriv]
  dsimp only
  rw [isInput, h, if_pos rfl]

/-- An I/O write cycle of an instruction, which the chips see too. -/
theorem start_ioWrite_eq (s : State) (addr data : Word) :
    s.start.ioWrite addr data = (Shape.ioWritten (s.chipWrite addr data) addr data).start := by
  rw [← ioWrite_eq]
  rfl

/-- One whose data is not stated. -/
theorem start_ioWriteOpen_eq (s : State) (addr : Word) : s.start.ioWriteOpen addr =
    ((Shape.ioWritten (s.chipWrite addr (Config.freeWord s.free)) addr (Config.freeWord s.free)).useFree 1).start := by
  rw [← ioWrite_eq]
  rfl

/-- The commands that the F9450 or the latch of the F9452 knows (R567). -/
def knownCommands : List Word :=
  [0x2000, 0x2001, 0x2002, 0x2003, 0x2004, 0x2005, 0x200A, 0x200E, 0x4000, 0x4003, 0x4006, 0x4007, 0x4008, 0x4009, 0x400A, 0x400B,
    0x400C, 0x400D, 0x400E, 0xA000, 0xA004, 0xA00E, 0xA00F, 0xC00A, 0xC00E]

/-- Any other only goes to the bus. -/
theorem ioCommand_external {cmd : Word} (h : cmd ∉ knownCommands) :
    ioCommand cmd = if bitOf cmd 0 then .busInput else .busOutput := by
  have hcmd : BitVec.ofNat 16 cmd.toNat = cmd := by simp
  unfold ioCommand
  split
  case h_26 => rfl
  all_goals
    rename_i hnumber
    rw [hnumber] at hcmd
    rw [← hcmd] at h
    exact absurd (by decide) h

/-! ## Output commands -/

/-- R507 by the number in the low four bits. -/
theorem resetPending_eq (s : State) (d : Word) : s.resetPending d =
    { s with pir := s.pir &&& ~~~ oneBit (d.toNat % 16), ft := if d.toNat % 16 = 1 then 0 else s.ft } := by
  have hcode : (d.extractLsb' 0 4).toNat = d.toNat % 16 := by
    rw [BitVec.extractLsb'_toNat, Nat.shiftRight_zero]
  have hone : d.extractLsb' 0 4 = 1 ↔ d.toNat % 16 = 1 := by
    rw [← BitVec.toNat_inj, hcode]
    rfl
  simp only [State.resetPending, hcode, hone]

/-- R509. -/
theorem enableLater_eq (s : State) : s.enableLater = { s with enbl := if s.enbl = .due then .due else .armed } := by
  unfold State.enableLater
  cases h : s.enbl
  · rfl
  · rfl
  · rfl

/-- MPEN drops the latch of a present F9452. -/
theorem chipWrite_enableProtection (s : State) (d : Word) :
    s.chipWrite 0x4003 d = { s with globprt := s.globprt && !bitOf s.scr 1 } := by
  have harm : s.chipWrite 0x4003 d = if s.bpuPresent then { s with globprt := false } else s := rfl
  rw [harm, State.bpuPresent]
  cases bitOf s.scr 1
  · rw [Bool.not_false, Bool.and_true]
    rfl
  · rw [Bool.not_true, Bool.and_false]
    rfl

/-- The commands that carry their data word. -/
theorem output_stated {s t : State} {cmd d : Word} (h : (cmd, t, true) ∈ Shape.outputs s d) :
    bitOf cmd 0 = false ∧ s.start.output cmd d = (Shape.ioWritten t cmd d).start := by
  simp only [Shape.outputs, List.mem_cons, Prod.mk.injEq, reduceCtorEq, and_false, and_true, List.not_mem_nil, or_false, false_or] at h
  rcases h with ⟨rfl, rfl⟩ | ⟨rfl, rfl⟩ | ⟨rfl, rfl⟩ | ⟨rfl, rfl⟩ | ⟨rfl, rfl⟩
  · exact ⟨rfl, start_ioWrite_eq (s.setMask d) _ d⟩
  · refine ⟨rfl, ?_⟩
    rw [← resetPending_eq]
    exact start_ioWrite_eq (s.resetPending d) _ d
  · exact ⟨rfl, start_ioWrite_eq (s.setPending d) _ d⟩
  · exact ⟨rfl, start_ioWrite_eq { s with ta := d, taRun := true } _ d⟩
  · exact ⟨rfl, start_ioWrite_eq { s with tb := d, tbRun := true } _ d⟩

/-- The commands without data put an open word on the bus. -/
theorem output_open {s t : State} {cmd d : Word} (h : (cmd, t, false) ∈ Shape.outputs s d) :
    bitOf cmd 0 = false ∧ s.start.output cmd d = ((Shape.ioWritten t cmd (Config.freeWord s.free)).useFree 1).start := by
  simp only [Shape.outputs, List.mem_cons, Prod.mk.injEq, reduceCtorEq, and_false, and_true, List.not_mem_nil, or_false, false_or] at h
  rcases h with ⟨rfl, rfl⟩ | ⟨rfl, rfl⟩ | ⟨rfl, rfl⟩ | ⟨rfl, rfl⟩ | ⟨rfl, rfl⟩ | ⟨rfl, rfl⟩ | ⟨rfl, rfl⟩ | ⟨rfl, rfl⟩ | ⟨rfl, rfl⟩ |
    ⟨rfl, rfl⟩ | ⟨rfl, rfl⟩ | ⟨rfl, rfl⟩
  · exact ⟨rfl, start_ioWriteOpen_eq s.clearRequests _⟩
  · refine ⟨rfl, ?_⟩
    rw [← enableLater_eq]
    exact start_ioWriteOpen_eq s.enableLater _
  · exact ⟨rfl, start_ioWriteOpen_eq s.disable _⟩
  · exact ⟨rfl, start_ioWriteOpen_eq { s with nmlpwrup := false } _⟩
  · refine ⟨rfl, ?_⟩
    rw [← chipWrite_enableProtection s (Config.freeWord s.free), ← ioWrite_eq]
    rfl
  · exact ⟨rfl, start_ioWriteOpen_eq { s with dmaen := true } _⟩
  · exact ⟨rfl, start_ioWriteOpen_eq { s with dmaen := false } _⟩
  · exact ⟨rfl, start_ioWriteOpen_eq { s with taRun := true } _⟩
  · exact ⟨rfl, start_ioWriteOpen_eq { s with taRun := false } _⟩
  · exact ⟨rfl, start_ioWriteOpen_eq (s.emit .trigoRst) _⟩
  · exact ⟨rfl, start_ioWriteOpen_eq { s with tbRun := true } _⟩
  · exact ⟨rfl, start_ioWriteOpen_eq { s with tbRun := false } _⟩

/-! ## External commands -/

/-- The commands of the statement's list of outputs. -/
def outputCommands : List Word :=
  [0x2000, 0x2001, 0x2002, 0x2003, 0x2004, 0x2005, 0x200A, 0x4003, 0x4006, 0x4007, 0x4008, 0x4009, 0x400A, 0x400B, 0x400C, 0x400D,
    0x400E]

theorem outputs_commands (s : State) (d : Word) : (Shape.outputs s d).map Prod.fst = outputCommands := rfl

theorem inputs_commands (s : State) : (Shape.inputs s).map Prod.fst = [0xA000, 0xA004, 0xA00E, 0xC00A, 0xC00E] := rfl

/-- A command in none of a list's entries is not among its numbers. -/
theorem not_mem_of_ne {α : Type} {l : List (Word × α)} {cmd : Word} (h : ∀ p ∈ l, cmd ≠ p.1) : cmd ∉ l.map Prod.fst := by
  intro hmem
  obtain ⟨p, hp, hcmd⟩ := List.mem_map.mp hmem
  exact h p hp hcmd.symm

/-- An output that is none of those of the statement is none of the known commands. -/
theorem not_known_of_output {s : State} {cmd : Word} (hin : bitOf cmd 0 = false) (hwsw : cmd ≠ 0x200E) (hco : cmd ≠ 0x4000)
    (h : ∀ p ∈ Shape.outputs s 0, cmd ≠ p.1) : cmd ∉ knownCommands := by
  have hlist : ∀ c ∈ knownCommands, c ∈ outputCommands ∨ c = 0x200E ∨ c = 0x4000 ∨ bitOf c 0 = true := by
    simp [knownCommands, outputCommands, bitOf]
  have hnot := not_mem_of_ne h
  rw [outputs_commands] at hnot
  intro hmem
  rcases hlist cmd hmem with hout | hcmd | hcmd | hbit
  · exact hnot hout
  · exact hwsw hcmd
  · exact hco hcmd
  · exact Bool.noConfusion (hin.symm.trans hbit)

/-- An input that is none of those of the statement is none of the known commands. -/
theorem not_known_of_input {s : State} {cmd : Word} (hin : bitOf cmd 0 = true) (hrcfr : cmd ≠ 0xA00F)
    (h : ∀ p ∈ Shape.inputs s, cmd ≠ p.1) : cmd ∉ knownCommands := by
  have hlist : ∀ c ∈ knownCommands, c ∈ [0xA000, 0xA004, 0xA00E, 0xC00A, 0xC00E] ∨ c = 0xA00F ∨ bitOf c 0 = false := by
    simp [knownCommands, bitOf]
  have hnot := not_mem_of_ne h
  rw [inputs_commands] at hnot
  intro hmem
  rcases hlist cmd hmem with hinput | hcmd | hbit
  · exact hnot hinput
  · exact hrcfr hcmd
  · exact Bool.noConfusion (hbit.symm.trans hin)

theorem output_external {cmd d : Word} (h : cmd ∉ knownCommands) (hin : bitOf cmd 0 = false) (r : Run) :
    r.output cmd d = r.ioWrite cmd d := by
  rw [Run.output, ioCommand_external h, hin]
  rfl

theorem input_external {cmd : Word} (h : cmd ∉ knownCommands) (hin : bitOf cmd 0 = true) (r : Run) :
    r.input cmd = r.ioRead cmd := by
  rw [Run.input, ioCommand_external h, hin]
  rfl

/-- The upper byte of a command. -/
theorem upper_toNat (cmd : Word) : (cmd.extractLsb' 8 8).toNat = cmd.toNat / 256 := by
  have hcmd := cmd.isLt
  rw [BitVec.extractLsb'_toNat, Nat.shiftRight_eq_div_pow]
  omega

/-- A chip that is not there, or is not addressed, takes no notice of an output. -/
theorem chipWrite_external {s : State} {cmd d : Word} (h : Shape.externalOutput s cmd) : s.chipWrite cmd d = s := by
  obtain ⟨_, _, _, hlist, hbpu, hmmu⟩ := h
  have hmpen : cmd ≠ 0x4003 := by
    have hnot := not_mem_of_ne hlist
    rw [outputs_commands] at hnot
    rintro rfl
    exact hnot (by simp [outputCommands])
  rw [← upper_toNat] at hbpu hmmu
  unfold State.chipWrite
  split
  next => rw [decide_eq_false hmpen, Bool.false_and, if_neg Bool.false_ne_true]
  next heq =>
    rw [if_neg]
    intro hp
    exact hbpu ⟨heq, hp⟩
  next heq =>
    rw [if_neg]
    intro hp
    simp only [State.mmuPresent, Bool.and_eq_true] at hp
    exact hmmu ⟨by rw [heq]; decide, hp⟩
  next heq =>
    rw [if_neg]
    intro hp
    simp only [State.mmuPresent, Bool.and_eq_true] at hp
    exact hmmu ⟨by rw [heq]; decide, hp⟩
  next => rfl

theorem chipRead_external {s : State} {cmd : Word} (h : Shape.externalInput s cmd) : s.chipRead cmd = none := by
  obtain ⟨_, _, _, _, hbpu, hmmu⟩ := h
  rw [← upper_toNat] at hbpu hmmu
  unfold State.chipRead
  split
  next heq =>
    rw [if_neg]
    intro hp
    exact hbpu ⟨heq, hp⟩
  next heq =>
    rw [if_neg]
    intro hp
    simp only [State.mmuPresent, Bool.and_eq_true] at hp
    exact hmmu ⟨by rw [heq]; decide, hp⟩
  next heq =>
    rw [if_neg]
    intro hp
    simp only [State.mmuPresent, Bool.and_eq_true] at hp
    exact hmmu ⟨by rw [heq]; decide, hp⟩
  next => rfl

theorem outputs_free {s t : State} {cmd d : Word} {stated : Bool} (h : (cmd, t, stated) ∈ Shape.outputs s d) : t.free = s.free := by
  have hall : ∀ p ∈ Shape.outputs s d, p.2.1.free = s.free := by simp [Shape.outputs]
  exact hall _ h

/-- R511: WSW loads SW unless its address state is refused. -/
theorem writeStatus_eq (s : State) (d : Word) : s.start.writeStatus 0x200E d =
    (if bitOf s.scr 0 = false ∧ asField d ≠ 0 then s.addressStateFault else Shape.ioWritten (s.setSw d) 0x200E d).start := by
  have hrefused := refusesStatus_iff s d
  rw [Run.writeStatus, State.start_aborted, Bool.not_false, Bool.true_and]
  by_cases h : bitOf s.scr 0 = false ∧ asField d ≠ 0
  · rw [if_pos h, State.start_s, if_pos (hrefused.mpr h)]
    rfl
  · rw [if_neg h, State.start_s, if_neg fun h' => h (hrefused.mp h')]
    exact start_ioWrite_eq (s.setSw d) 0x200E d

/-- Settles O41. -/
theorem xioOutput : Obligations.XioOutput := by
  intro ra rx data s cmd d hak
  refine ⟨fun t ht => ?_, fun t ht => ⟨Config.freeWord s.free, ?_⟩, fun hcmd => ?_, fun hcmd => ?_, fun hexternal => ?_⟩
  · obtain ⟨hin, hout⟩ := output_stated ht
    rw [exec_xio_output hak hin, hout]
    rfl
  · obtain ⟨hin, hout⟩ := output_open ht
    rw [exec_xio_output hak hin, hout, ← outputs_free ht]
    rfl
  · have hin : bitOf cmd 0 = false := by rw [hcmd]; rfl
    have hout : s.start.output cmd d = s.start.writeStatus 0x200E d := by rw [hcmd]; rfl
    rw [exec_xio_output hak hin, hout, writeStatus_eq]
    by_cases h : bitOf s.scr 0 = false ∧ asField d ≠ 0
    · rw [if_pos h, if_pos h, addressStateFault_eq]
      rfl
    · rw [if_neg h, if_neg h, hcmd]
      rfl
  · have hin : bitOf cmd 0 = false := by rw [hcmd]; rfl
    have hout : s.start.output cmd d = if bitOf s.scr 2 then s.start.ioWrite cmd d else s.start := by rw [hcmd]; rfl
    have hchip : s.chipWrite cmd d = s := by rw [hcmd]; rfl
    rw [exec_xio_output hak hin, hout, start_ioWrite_eq, hchip]
    cases bitOf s.scr 2
    · rfl
    · rfl
  · obtain ⟨hin, hwsw, hco, hlist, _, _⟩ := id hexternal
    rw [exec_xio_output hak hin, output_external (not_known_of_output hin hwsw hco hlist) hin, start_ioWrite_eq,
      chipWrite_external hexternal]
    rfl

/-! ## Input commands -/

/-- The internal inputs: the value, echoed. -/
theorem input_stated {s : State} {cmd v : Word} (h : (cmd, v) ∈ Shape.inputs s) : bitOf cmd 0 = true ∧
    s.start.input cmd = { val := v, run := (Shape.ioWritten s cmd v).start } := by
  simp only [Shape.inputs, List.mem_cons, Prod.mk.injEq, List.not_mem_nil, or_false] at h
  have hecho : ∀ c x : Word, offChips c → s.start.echo c x = { val := x, run := (Shape.ioWritten s c x).start } :=
    fun c x hoff => by rw [Run.echo, start_ioWrite_off s c x hoff]
  rcases h with ⟨rfl, rfl⟩ | ⟨rfl, rfl⟩ | ⟨rfl, rfl⟩ | ⟨rfl, rfl⟩ | ⟨rfl, rfl⟩
  · exact ⟨rfl, hecho 0xA000 s.mask ⟨by decide, by decide, by decide, by decide⟩⟩
  · exact ⟨rfl, hecho 0xA004 s.pir ⟨by decide, by decide, by decide, by decide⟩⟩
  · exact ⟨rfl, hecho 0xA00E s.sw ⟨by decide, by decide, by decide, by decide⟩⟩
  · exact ⟨rfl, hecho 0xC00A s.ta ⟨by decide, by decide, by decide, by decide⟩⟩
  · exact ⟨rfl, hecho 0xC00E s.tb ⟨by decide, by decide, by decide, by decide⟩⟩

/-- A read that the bus answers, at a legal address (R500). -/
theorem start_ioRead_answered {s t : State} {cmd v : Word} (hlegal : ioFlawAt s.platform .illegal cmd = false)
    (hanswer : s.ioAnswer cmd = (v, t)) : s.start.ioRead cmd =
      { val := v
        run := State.start { t with
          ft := t.ft ||| pendingIf (ioFlawAt t.platform .parity cmd) 2
          pir := t.pir ||| pendingIf (ioFlawAt t.platform .parity cmd) 1
          trace := .ioRead cmd v :: t.trace } } := by
  rw [start_ioRead_legal hlegal, hanswer, ioParity_eq]
  rfl

theorem ioAnswer_external {s : State} {cmd : Word} (h : Shape.externalInput s cmd) :
    (∀ v rest, s.ioIn = v :: rest → s.ioAnswer cmd = (v, { s with ioIn := rest })) ∧
      (s.ioIn = [] → s.ioAnswer cmd = (Config.freeWord s.free, s.useFree 1)) := by
  have hchip := chipRead_external h
  obtain ⟨_, hconfig, _⟩ := h
  refine ⟨fun v rest hin => ?_, fun hin => ?_⟩
  · rw [State.ioAnswer, if_neg hconfig, hchip, hin]
  · rw [State.ioAnswer, if_neg hconfig, hchip, hin]

theorem clear_pending (p : Word) (b : Bool) : (p ||| pendingIf b 1) &&& ~~~ oneBit 1 = p &&& ~~~ oneBit 1 := by
  have hnone : ~~~ oneBit 1 &&& pendingIf b 1 = 0 := by revert b; decide
  rw [BitVec.and_comm, BitVec.and_or_distrib_left, hnone, BitVec.and_comm]
  exact BitVec.or_zero

/-- Settles O42. -/
theorem xioInput : Obligations.XioInput := by
  intro ra rx data s cmd parity read hak
  refine ⟨fun v hv => ?_, fun hcmd => ?_, fun hlegal => ⟨fun hcmd => ?_, fun v rest hin hexternal => ?_, fun hin hexternal => ?_⟩,
    fun hillegal hin hrcfr hlist => ?_⟩
  · obtain ⟨hin, hinput⟩ := input_stated hv
    rw [exec_xio_input hak hin, hinput]
    rfl
  · have hin : bitOf cmd 0 = true := by rw [hcmd]; rfl
    have hinput : s.start.input cmd =
        { val := s.ft, run := (Shape.ioWritten s cmd s.ft).clearFaults.start } := by
      have hecho : s.start.ioWrite 0xA00F s.ft = (Shape.ioWritten s 0xA00F s.ft).start :=
        start_ioWrite_off s _ _ ⟨by decide, by decide, by decide, by decide⟩
      have harm : s.start.input 0xA00F =
          { val := s.ft, run := (s.start.ioWrite 0xA00F s.ft).update State.clearFaults } := rfl
      rw [hcmd, harm, hecho]
      rfl
    have hclear : (Shape.ioWritten s cmd s.ft).clearFaults =
        { s with ft := 0, pir := s.pir &&& ~~~ oneBit 1, trace := .ioWrite cmd s.ft :: s.trace } :=
      congrArg (fun p => { s with ft := 0, pir := p, trace := .ioWrite cmd s.ft :: s.trace }) (clear_pending s.pir (s.ioFaulty cmd))
    rw [exec_xio_input hak hin, hinput, hclear]
    rfl
  · have hin : bitOf cmd 0 = true := by rw [hcmd]; rfl
    have hknown : cmd ∉ knownCommands := by rw [hcmd]; simp [knownCommands]
    have hanswer : s.ioAnswer cmd = (s.platform.scrValue, s) := by rw [hcmd]; rfl
    rw [exec_xio_input hak hin, input_external hknown hin, start_ioRead_answered hlegal hanswer]
    rfl
  · obtain ⟨hbit, _, hrcfr, hlist, _, _⟩ := id hexternal
    rw [exec_xio_input hak hbit, input_external (not_known_of_input hbit hrcfr hlist) hbit,
      start_ioRead_answered hlegal ((ioAnswer_external hexternal).1 v rest hin)]
    rfl
  · obtain ⟨hbit, _, hrcfr, hlist, _, _⟩ := id hexternal
    refine ⟨Config.freeWord s.free, ?_⟩
    rw [exec_xio_input hak hbit, input_external (not_known_of_input hbit hrcfr hlist) hbit,
      start_ioRead_answered hlegal ((ioAnswer_external hexternal).2 hin)]
    rfl
  · refine ⟨Config.freeWord s.free, ?_⟩
    have hft : oneBit 5 = 0x0400 := by decide
    have hpir : oneBit 1 = 0x4000 := by decide
    have hone : s.pir ||| oneBit 1 ||| pendingIf parity 1 = s.pir ||| oneBit 1 := pir_raised _ _
    rw [exec_xio_input hak hin, input_external (not_known_of_input hin hrcfr hlist) hin, start_ioRead_illegal hillegal, ioParity_eq,
      ← hone, hft, hpir]
    rfl

/-! ## The F9451 and F9452 -/

/-- The fields of a command for the chips. -/
theorem ramIndex_eq (cmd : Word) : ramIndex cmd = Fin.ofNat 128 cmd.toNat := by
  refine Fin.ext ?_
  simp only [ramIndex, Fin.ofNat, BitVec.extractLsb'_toNat, Nat.shiftRight_zero]

theorem groupIndex_eq (cmd : Word) : groupIndex cmd = Fin.ofNat 16 (cmd.toNat / 16) := by
  refine Fin.ext ?_
  simp only [groupIndex, index4, Fin.ofNat, BitVec.extractLsb'_toNat, Nat.shiftRight_eq_div_pow]

theorem registerIndex_eq (cmd : Word) : registerIndex cmd = Fin.ofNat 16 cmd.toNat := by
  refine Fin.ext ?_
  simp only [registerIndex, index4, Fin.ofNat, BitVec.extractLsb'_toNat, Nat.shiftRight_zero]

/-- A command on a page of the chips is none that the F9450 knows, and the page gives its direction. -/
theorem chip_command {cmd : Word} {page : Nat} (hpage : cmd.toNat / 256 = page) (hmem : page ∈ [0x50, 0x51, 0x52, 0xD0, 0xD1, 0xD2]) :
    cmd ∉ knownCommands ∧ bitOf cmd 0 = decide (0x80 ≤ page) := by
  have hother : ∀ c ∈ knownCommands, c.toNat / 256 ∉ [0x50, 0x51, 0x52, 0xD0, 0xD1, 0xD2] := by simp [knownCommands]
  have hcmd := cmd.isLt
  refine ⟨fun hknown => hother cmd hknown (by rw [hpage]; exact hmem), ?_⟩
  have hbit : bitOf cmd 0 = decide (2 ^ 15 ≤ cmd.toNat) := by
    rw [bitOf, ← BitVec.msb_eq_getLsbD_last, BitVec.msb_eq_decide]
  rw [hbit, decide_eq_decide]
  omega

/-- One register of the page registers replaced. -/
theorem pages_set (pages : Vector (Vector Word 16) 16) (g r : Fin 16) (d : Word) (g' r' : Fin 16) :
    ((pages.set g.val ((pages[g.val]).set r.val d))[g'.val])[r'.val] =
      if g' = g ∧ r' = r then d else (pages[g'.val])[r'.val] := by
  rw [Vector.getElem_set]
  by_cases hg : g' = g
  · subst hg
    rw [if_pos rfl, Vector.getElem_set]
    by_cases hr : r' = r
    · subst hr
      rw [if_pos rfl, if_pos ⟨rfl, rfl⟩]
    · rw [if_neg fun h => hr (Fin.ext h.symm), if_neg fun h => hr h.2]
  · rw [if_neg fun h => hg (Fin.ext h.symm), if_neg fun h => hg h.1]

/-- What the chips do with a write on their pages (R503, R540, R542, R543). -/
theorem chipWrite_page {s : State} {cmd : Word} (d : Word) :
    (cmd.toNat / 256 = 0x50 → bitOf s.scr 1 = true →
      s.chipWrite cmd d = { s with bpuRam := s.bpuRam.set (ramIndex cmd).val d }) ∧
    (cmd.toNat / 256 = 0x51 → s.mmuPresent = true → s.chipWrite cmd d = { s with
      ipr := s.ipr.set (groupIndex cmd).val ((s.ipr[(groupIndex cmd).val]).set (registerIndex cmd).val d) }) ∧
    (cmd.toNat / 256 = 0x52 → s.mmuPresent = true → s.chipWrite cmd d = { s with
      opr := s.opr.set (groupIndex cmd).val ((s.opr[(groupIndex cmd).val]).set (registerIndex cmd).val d) }) := by
  rw [← upper_toNat]
  refine ⟨fun hpage hbpu => ?_, fun hpage hmmu => ?_, fun hpage hmmu => ?_⟩
  · have hpresent : s.bpuPresent = true := hbpu
    simp only [State.chipWrite, hpage, hpresent, if_true]
  · simp only [State.chipWrite, hpage, hmmu, if_true]
  · simp only [State.chipWrite, hpage, hmmu, if_true]

/-- What they answer to a read (R541, R544, R545). -/
theorem chipRead_page {s : State} {cmd : Word} :
    (cmd.toNat / 256 = 0xD0 → bitOf s.scr 1 = true → s.chipRead cmd = some s.bpuRam[(ramIndex cmd).val]) ∧
    (cmd.toNat / 256 = 0xD1 → s.mmuPresent = true →
      s.chipRead cmd = some (s.ipr[(groupIndex cmd).val])[(registerIndex cmd).val]) ∧
    (cmd.toNat / 256 = 0xD2 → s.mmuPresent = true →
      s.chipRead cmd = some (s.opr[(groupIndex cmd).val])[(registerIndex cmd).val]) := by
  rw [← upper_toNat]
  refine ⟨fun hpage hbpu => ?_, fun hpage hmmu => ?_, fun hpage hmmu => ?_⟩
  · have hpresent : s.bpuPresent = true := hbpu
    simp only [State.chipRead, hpage, hpresent, if_true]
  · simp only [State.chipRead, hpage, hmmu, if_true]
  · simp only [State.chipRead, hpage, hmmu, if_true]

/-- XIO with an output on a page of the chips. -/
theorem exec_xio_chipWrite {ra rx : Reg} {data : Word} {s : State} {page : Nat} (hak : akField s.sw = 0)
    (hpage : (s.indexed data rx).toNat / 256 = page) (hmem : page ∈ [0x50, 0x51, 0x52]) :
    exec (.xio ra rx data) s =
      .next ((Shape.ioWritten (s.chipWrite (s.indexed data rx) (s.reg ra)) (s.indexed data rx) (s.reg ra)).past 2) := by
  obtain ⟨hknown, hbit⟩ := chip_command hpage (by simp only [List.mem_cons, List.not_mem_nil, or_false] at hmem ⊢; omega)
  have hin : bitOf (s.indexed data rx) 0 = false := by
    rw [hbit]
    simp only [List.mem_cons, List.not_mem_nil, or_false] at hmem
    exact decide_eq_false (by omega)
  rw [exec_xio_output hak hin, output_external hknown hin, start_ioWrite_eq]
  rfl

/-- XIO with an input that a chip answers. -/
theorem exec_xio_chipRead {ra rx : Reg} {data v : Word} {s : State} {page : Nat} (hak : akField s.sw = 0)
    (hpage : (s.indexed data rx).toNat / 256 = page) (hmem : page ∈ [0xD0, 0xD1, 0xD2])
    (hchip : s.chipRead (s.indexed data rx) = some v) (hlegal : ioFlawAt s.platform .illegal (s.indexed data rx) = false) :
    exec (.xio ra rx data) s = .next { s.setReg ra v with
      ft := s.ft ||| pendingIf (ioFlawAt s.platform .parity (s.indexed data rx)) 2
      pir := s.pir ||| pendingIf (ioFlawAt s.platform .parity (s.indexed data rx)) 1, ic := s.ic + 2
      trace := .ioRead (s.indexed data rx) v :: s.trace } := by
  obtain ⟨hknown, hbit⟩ := chip_command hpage (by simp only [List.mem_cons, List.not_mem_nil, or_false] at hmem ⊢; omega)
  have hin : bitOf (s.indexed data rx) 0 = true := by
    rw [hbit]
    simp only [List.mem_cons, List.not_mem_nil, or_false] at hmem
    exact decide_eq_true (by omega)
  have hconfig : s.indexed data rx ≠ 0x8410 := by
    intro h
    rw [h] at hpage
    subst hpage
    exact absurd hmem (by decide)
  have hanswer : s.ioAnswer (s.indexed data rx) = (v, s) := by rw [State.ioAnswer, if_neg hconfig, hchip]
  rw [exec_xio_input hak hin, input_external hknown hin, start_ioRead_answered hlegal hanswer]
  rfl

/-- Settles O43. -/
theorem companionCommands : Obligations.CompanionCommands := by
  intro ra rx data s cmd d word group page parity answered hak
  have hgroup : groupIndex cmd = group := groupIndex_eq cmd
  have hregister : registerIndex cmd = page := registerIndex_eq cmd
  refine ⟨fun hpage hbpu => ?_, fun hpage hbpu hlegal => ?_, fun hscr hmmu => ⟨fun hpage => ?_, fun hpage => ?_,
    fun hpage hlegal => ?_, fun hpage hlegal => ?_⟩⟩
  · rw [exec_xio_chipWrite hak hpage (by decide), (chipWrite_page d).1 hpage hbpu]
    simp only [ramIndex_eq]
    rfl
  · have hchip := chipRead_page.1 hpage hbpu
    simp only [ramIndex_eq] at hchip
    exact exec_xio_chipRead hak hpage (by decide) hchip hlegal
  · have hpresent : s.mmuPresent = true := by simp [State.mmuPresent, hscr, hmmu]
    rw [exec_xio_chipWrite hak hpage (by decide), (chipWrite_page d).2.1 hpage hpresent]
    refine ⟨_, rfl, rfl, fun g r => ?_⟩
    rw [← hgroup, ← hregister]
    exact pages_set s.ipr (groupIndex cmd) (registerIndex cmd) d g r
  · have hpresent : s.mmuPresent = true := by simp [State.mmuPresent, hscr, hmmu]
    rw [exec_xio_chipWrite hak hpage (by decide), (chipWrite_page d).2.2 hpage hpresent]
    refine ⟨_, rfl, rfl, fun g r => ?_⟩
    rw [← hgroup, ← hregister]
    exact pages_set s.opr (groupIndex cmd) (registerIndex cmd) d g r
  · have hpresent : s.mmuPresent = true := by simp [State.mmuPresent, hscr, hmmu]
    have hchip := chipRead_page.2.1 hpage hpresent
    simp only [groupIndex_eq, registerIndex_eq] at hchip
    exact exec_xio_chipRead hak hpage (by decide) hchip hlegal
  · have hpresent : s.mmuPresent = true := by simp [State.mmuPresent, hscr, hmmu]
    have hchip := chipRead_page.2.2 hpage hpresent
    simp only [groupIndex_eq, registerIndex_eq] at hchip
    exact exec_xio_chipRead hak hpage (by decide) hchip hlegal

end Sys2Proof.Proofs
end

