-- ==== Sys2Proof/Proofs/ConsoleCycles.lean ====
section
/-! PROOF. Console requests whose cycles draw no fault (49_console.md R620 to R643). -/

namespace Sys2Proof.Proofs

open Sys2Proof.Machine

/-! ## Cycles that draw no fault -/

theorem ioFaulty_false {s : State} {addr : Word} (h : s.ioFaulty addr = false) :
    ioFlawAt s.platform .illegal addr = false ∧ ioFlawAt s.platform .parity addr = false := by
  simpa only [State.ioFaulty, Bool.or_eq_false_iff] using h

/-- The bus answers off the chips with the next word from outside. -/
theorem ioAnswer_next {s : State} {addr v : Word} {rest : List Word} (hconfig : addr ≠ 0x8410) (hchip : s.chipRead addr = none)
    (hin : s.ioIn = v :: rest) : s.ioAnswer addr = (v, { s with ioIn := rest }) := by
  rw [State.ioAnswer, if_neg hconfig, hchip, hin]

theorem consoleTake_clean {s : State} {addr v : Word} {rest : List Word} (h : s.ioFaulty addr = false) (hconfig : addr ≠ 0x8410)
    (hchip : s.chipRead addr = none) (hin : s.ioIn = v :: rest) : s.start.consoleTake addr =
      { val := v, run := State.start { s with ioIn := rest, trace := .ioRead addr v :: s.trace } } := by
  obtain ⟨hlegal, hparity⟩ := ioFaulty_false h
  have hft : s.ft ||| pendingIf false 2 = s.ft := BitVec.or_zero
  have hpir : s.pir ||| pendingIf false 1 = s.pir := BitVec.or_zero
  have hread := start_ioRead_answered hlegal (ioAnswer_next hconfig hchip hin)
  dsimp only at hread
  rw [hparity, hft, hpir] at hread
  rw [Run.consoleTake, hread, State.start_s, h]
  rfl

theorem consolePut_clean {s : State} {addr v : Word} (h : s.ioFaulty addr = false) (hchip : s.chipWrite addr v = s) :
    s.start.consolePut addr v = (s.emit (.ioWrite addr v)).start := by
  obtain ⟨hlegal, hparity⟩ := ioFaulty_false h
  have hwrite : s.start.ioWrite addr v = (s.emit (.ioWrite addr v)).start := by
    rw [State.start_ioWrite s v hlegal hparity, hchip]
  rw [Run.consolePut, hwrite, State.start_s, h]
  rfl

theorem consoleShow_clean {s : State} {v : Word} (h : s.ioFaulty 0x0400 = false) :
    s.start.consoleShow v = (s.emit (.ioWrite 0x0400 v)).start :=
  consolePut_clean h rfl

theorem consoleLoad_clean {s : State} {addr : Word} (h : s.readable addr = true) :
    s.start.consoleLoad addr = s.given (s.loaded addr) := by
  have hclean : (s.ownCycle .read addr).clean = true := h
  rw [Run.consoleLoad, State.read_clean s h, State.start_s, hclean]
  rfl

/-- The state after a command has been read. -/
def told (s : State) (c : Word) (rest : List Word) : State := { s with ioIn := rest, trace := .ioRead 0x8400 c :: s.trace }

theorem console_clean {s : State} {c : Word} {rest : List Word} (held : Bool) (halone : s.alone = true)
    (h : s.ioFaulty 0x8400 = false) (hin : s.ioIn = c :: rest) :
    s.console held = consoleCommand c held (told s c rest).start := by
  have htake : s.start.consoleTake 0x8400 = { val := c, run := (told s c rest).start } :=
    consoleTake_clean h (by decide) rfl hin
  have hturn : (told s c rest).start.turn = (told s c rest).start := State.start_turn_alone halone
  rw [State.console, htake]
  dsimp only
  rw [hturn, State.start_aborted, if_neg Bool.false_ne_true]

/-! ## The register table -/

theorem number_toNat (c : Word) : (c.extractLsb' 0 6).toNat = c.toNat % 64 ∧ c.extractLsb' 0 6 = BitVec.ofNat 6 (c.toNat % 64) := by
  have h : (c.extractLsb' 0 6).toNat = c.toNat % 64 := by
    rw [BitVec.extractLsb'_toNat, Nat.shiftRight_zero]
  exact ⟨h, by rw [← h, BitVec.ofNat_toNat, BitVec.setWidth_eq]⟩

/-- Rn stands at `(n mod 2) * 10 + n div 2` (R626). -/
theorem consoleRegister_general (r : Reg) : consoleRegister (BitVec.ofNat 6 (r.val % 2 * 16 + r.val / 2)) = some (.general r) := by
  revert r
  decide

/-- The other registers that EXAMINE shows. -/
theorem consoleRegister_examined {s : State} {n : Nat} {v : Word} (h : (n, v) ∈ Shape.examined s) :
    ∃ q, consoleRegister (BitVec.ofNat 6 n) = some q ∧ s.examine q = v := by
  simp only [Shape.examined, List.mem_cons, Prod.mk.injEq, List.not_mem_nil, or_false] at h
  rcases h with ⟨rfl, rfl⟩ | ⟨rfl, rfl⟩ | ⟨rfl, rfl⟩ | ⟨rfl, rfl⟩ | ⟨rfl, rfl⟩ | ⟨rfl, rfl⟩ | ⟨rfl, rfl⟩ | ⟨rfl, rfl⟩ | ⟨rfl, rfl⟩ |
    ⟨rfl, rfl⟩ | ⟨rfl, rfl⟩ | ⟨rfl, rfl⟩ | ⟨rfl, rfl⟩
  all_goals exact ⟨_, rfl, rfl⟩

/-- The registers that DEPOSIT reaches besides the general ones. -/
theorem consoleRegister_deposited {s t : State} {n : Nat} {d : Word} {locks : Bool} (h : (n, t, locks) ∈ Shape.deposits s d) :
    ∃ q, consoleRegister (BitVec.ofNat 6 n) = some q ∧ q.depositable = true ∧ q.lockable = locks ∧ s.deposit q d = t := by
  simp only [Shape.deposits, List.mem_cons, Prod.mk.injEq, List.not_mem_nil, or_false] at h
  rcases h with ⟨rfl, rfl, rfl⟩ | ⟨rfl, rfl, rfl⟩ | ⟨rfl, rfl, rfl⟩ | ⟨rfl, rfl, rfl⟩ | ⟨rfl, rfl, rfl⟩ | ⟨rfl, rfl, rfl⟩ |
    ⟨rfl, rfl, rfl⟩ | ⟨rfl, rfl, rfl⟩ | ⟨rfl, rfl, rfl⟩ | ⟨rfl, rfl, rfl⟩ | ⟨rfl, rfl, rfl⟩
  all_goals exact ⟨_, rfl, rfl, rfl, rfl⟩

theorem consoleRegister_ir {n : Nat} (h : n ∈ [0x2C, 0x2D, 0x2E, 0x2F]) :
    ∃ low, consoleRegister (BitVec.ofNat 6 n) = some (.ir low) := by
  simp only [List.mem_cons, List.not_mem_nil, or_false] at h
  rcases h with rfl | rfl | rfl | rfl
  all_goals exact ⟨_, rfl⟩

/-- No register stands at any other address (log 30). -/
theorem consoleRegister_none {n : Nat} (hn : n < 64)
    (h : n ∈ [0x0F, 0x1C, 0x1D, 0x1F] ∨ (0x20 ≤ n ∧ n ∉ [0x25, 0x2C, 0x2D, 0x2E, 0x2F])) :
    consoleRegister (BitVec.ofNat 6 n) = none := by
  revert h
  revert n
  decide

/-- SW, IC and IR take no deposit. -/
theorem consoleRegister_fixed {n : Nat} (h : n ∈ [0x0D, 0x25, 0x2C, 0x2D, 0x2E, 0x2F]) :
    ∃ q, consoleRegister (BitVec.ofNat 6 n) = some q ∧ q.depositable = false := by
  simp only [List.mem_cons, List.not_mem_nil, or_false] at h
  rcases h with rfl | rfl | rfl | rfl | rfl | rfl
  all_goals exact ⟨_, rfl, rfl⟩

/-! ## Commands by their code -/

section Commands

variable {c : Word} (held : Bool) (r : Run)

theorem command_examine (h : c.toNat / 256 = 0x60) {q : ConsoleRegister}
    (hq : consoleRegister (BitVec.ofNat 6 (c.toNat % 64)) = some q) :
    consoleCommand c held r = .next (r.consoleShow (r.s.examine q)).s := by
  rw [← upper_toNat] at h
  rw [← (number_toNat c).2] at hq
  simp only [consoleCommand, h, hq]

theorem command_deposit (h : c.toNat / 256 = 0x61) {q : ConsoleRegister}
    (hq : consoleRegister (BitVec.ofNat 6 (c.toNat % 64)) = some q) :
    consoleCommand c held r = if q.depositable then .next (r.depositRegister q).s
      else .refused (.consoleRegister (BitVec.ofNat 6 (c.toNat % 64))) := by
  rw [← upper_toNat] at h
  rw [← (number_toNat c).2] at hq ⊢
  simp only [consoleCommand, h, hq]

theorem command_refused (h : c.toNat / 256 = 0x60 ∨ c.toNat / 256 = 0x61)
    (hq : consoleRegister (BitVec.ofNat 6 (c.toNat % 64)) = none) :
    consoleCommand c held r = .refused (.consoleRegister (BitVec.ofNat 6 (c.toNat % 64))) := by
  rw [← upper_toNat] at h
  rw [← (number_toNat c).2] at hq ⊢
  rcases h with h | h
  · simp only [consoleCommand, h, hq]
  · simp only [consoleCommand, h, hq]

/-- The commands that name no register. -/
theorem command_eq :
    (c.toNat / 256 = 0x74 → consoleCommand c held r = .next { r.s with consoleMode := false, waiting := true, depositLocked := false }) ∧
    (c.toNat / 256 = 0x75 → consoleCommand c held r = .next { r.s with consoleMode := held, depositLocked := false }) ∧
    (c.toNat / 256 = 0x62 →
      consoleCommand c held r = .next ((r.consoleShow r.s.ft).update fun s => { s with ft := 0 }).s) ∧
    (c.toNat / 256 = 0x63 → consoleCommand c held r = .next r.depositStatus.s) ∧
    (c.toNat / 256 = 0x66 → consoleCommand c held r = .next r.examineMemory.s) ∧
    (c.toNat / 256 = 0x67 → consoleCommand c held r = .next r.depositMemory.s) ∧
    (c.toNat / 256 = 0x6A → consoleCommand c held r = .next r.nextAddress.showMemory.s) ∧
    (c.toNat / 256 = 0x6B → consoleCommand c held r = .next r.nextAddress.depositMemory.s) ∧
    (c.toNat / 256 = 0x6C → consoleCommand c held r = .next r.showPort.s) ∧
    (c.toNat / 256 = 0x6D → consoleCommand c held r = .next r.depositPort.s) ∧
    (c.toNat / 256 = 0x6E → consoleCommand c held r = .next r.nextPort.showPort.s) ∧
    (c.toNat / 256 = 0x6F → consoleCommand c held r = .next r.nextPort.depositPort.s) := by
  rw [← upper_toNat]
  refine ⟨?_, ?_, ?_, ?_, ?_, ?_, ?_, ?_, ?_, ?_, ?_, ?_⟩
  all_goals
    intro h
    simp only [consoleCommand, h]

/-- Any other code is no command. -/
theorem command_none
    (h : c.toNat / 256 ∉ [0x60, 0x61, 0x62, 0x63, 0x66, 0x67, 0x6A, 0x6B, 0x6C, 0x6D, 0x6E, 0x6F, 0x74, 0x75]) :
    consoleCommand c held r = .next r.s := by
  rw [← upper_toNat] at h
  unfold consoleCommand
  split
  case h_15 => rfl
  all_goals
    rename_i hcode
    rw [hcode] at h
    exact absurd (by decide) h

end Commands

/-! ## What the commands do -/

/-- The state after the switches have been read too. -/
def taken (s : State) (c d : Word) (rest : List Word) : State :=
  { s with ioIn := rest, trace := .ioRead 0x8401 d :: .ioRead 0x8400 c :: s.trace }

section Clean

variable {s : State} {c d : Word} {rest : List Word}

theorem take_switches (h : s.ioFaulty 0x8401 = false) : (told s c (d :: rest)).start.consoleTake 0x8401 =
    { val := d, run := (taken s c d rest).start } :=
  consoleTake_clean (s := told s c (d :: rest)) h (by decide) rfl rfl

/-- The word at IC is shown. -/
theorem showMemory_clean {u : State} (halone : u.alone = true) (hshow : u.ioFaulty 0x0400 = false) (hread : u.readable u.ic = true) :
    u.start.showMemory = (u.emit (.ioWrite 0x0400 (u.loaded u.ic))).start := by
  have hload : u.start.consoleLoad u.start.s.ic = u.given (u.loaded u.ic) := consoleLoad_clean hread
  rw [Run.showMemory, hload]
  rw [State.given_run, State.given_val, State.start_turn_alone halone, consoleShow_clean hshow]

/-- The switches are stored at IC. -/
theorem depositMemory_clean {u v : State} (halone : v.alone = true) (htake : u.start.consoleTake 0x8401 = { val := d, run := v.start })
    (hwrite : v.writable v.ic = true) : u.start.depositMemory = (v.setMem (v.mem.writeWord (v.place v.ic) d)).start := by
  have hclean : (v.ownCycle .write v.ic).clean = true := (clean_of_writable hwrite).1
  rw [Run.depositMemory, htake]
  dsimp only
  rw [State.start_turn_alone halone, State.start_s, Run.consoleStore, State.write_clean v d hwrite, State.start_s, hclean]
  rfl

/-- The port A1 is read and shown. -/
theorem showPort_clean {u : State} {v : Word} {rest : List Word} (halone : u.alone = true) (hshow : u.ioFaulty 0x0400 = false)
    (hport : u.ioFaulty u.scratch.a1 = false) (hconfig : u.scratch.a1 ≠ 0x8410) (hchip : u.chipRead u.scratch.a1 = none)
    (hin : u.ioIn = v :: rest) : u.start.showPort =
      State.start { u with ioIn := rest, trace := .ioWrite 0x0400 v :: .ioRead u.scratch.a1 v :: u.trace } := by
  have htake : u.start.consoleTake u.start.s.scratch.a1 =
      { val := v, run := State.start { u with ioIn := rest, trace := .ioRead u.scratch.a1 v :: u.trace } } :=
    consoleTake_clean hport hconfig hchip hin
  have hturn := State.start_turn_alone (s := { u with ioIn := rest, trace := .ioRead u.scratch.a1 v :: u.trace }) halone
  rw [Run.showPort, htake]
  dsimp only
  rw [hturn]
  exact consoleShow_clean (s := { u with ioIn := rest, trace := .ioRead u.scratch.a1 v :: u.trace }) hshow

/-- The switches are written to the port A1. -/
theorem depositPort_clean {u v : State} (halone : v.alone = true) (htake : u.start.consoleTake 0x8401 = { val := d, run := v.start })
    (hport : v.ioFaulty v.scratch.a1 = false) (hchip : v.chipWrite v.scratch.a1 d = v) :
    u.start.depositPort = (v.emit (.ioWrite v.scratch.a1 d)).start := by
  rw [Run.depositPort, htake]
  dsimp only
  rw [State.start_turn_alone halone, State.start_s, consolePut_clean hport hchip]

/-- EXAMINE MEMORY: IC gets the switches. -/
theorem examineMemory_clean {u v : State} (halone : v.alone = true) (htake : u.start.consoleTake 0x8401 = { val := d, run := v.start })
    (hshow : v.ioFaulty 0x0400 = false) (hread : v.readable d = true) :
    u.start.examineMemory = ((v.setIc d).emit (.ioWrite 0x0400 (v.loaded d))).start := by
  rw [Run.examineMemory, htake]
  dsimp only
  rw [State.start_update, State.start_turn_alone (s := v.setIc d) halone]
  exact showMemory_clean (u := v.setIc d) halone hshow hread

/-- The chips look at nothing of the console's. -/
theorem chipWrite_console (s : State) (addr v : Word) (sc : Scratch) (inputs : List Word) (events : List BusEvent) :
    State.chipWrite { s with scratch := sc, ioIn := inputs, trace := events } addr v =
      { s.chipWrite addr v with scratch := sc, ioIn := inputs, trace := events } := by
  have hmmu : State.mmuPresent { s with scratch := sc, ioIn := inputs, trace := events } = s.mmuPresent := rfl
  have hbpu : State.bpuPresent { s with scratch := sc, ioIn := inputs, trace := events } = s.bpuPresent := rfl
  unfold State.chipWrite
  rw [hmmu, hbpu]
  repeat' split
  all_goals rfl

end Clean

end Sys2Proof.Proofs
end

