-- ==== Sys2Proof/Proofs/ConsoleFaults.lean ====
section
/-! PROOF. Console requests whose cycles draw faults (49_console.md R636). -/

namespace Sys2Proof.Proofs

open Sys2Proof.Machine

/-! ## What faulted cycles leave -/

/-- `v` is `u` after cycles that have drawn the FT bits `f` and have changed nothing else but what comes from outside. -/
def Draws (u : State) (f : Word) (v : State) : Prop :=
  ∃ inputs events n, v = { u with
    ft := u.ft ||| f
    pir := u.pir ||| pendingIf (decide (f ≠ 0)) 1
    depositLocked := u.depositLocked || decide (f ≠ 0)
    ioIn := inputs
    trace := events
    free := n }

/-- The same, with regard to the registers a console command leaves. -/
structure Drew (u : State) (f : Word) (v : State) : Prop where
  locked : v.depositLocked = (u.depositLocked || decide (f ≠ 0))
  regs : v.regs = u.regs
  sw : v.sw = u.sw
  ft : v.ft = u.ft ||| f
  pir : v.pir = u.pir ||| pendingIf (decide (f ≠ 0)) 1

theorem Draws.drew {u v : State} {f : Word} (h : Draws u f v) : Drew u f v := by
  obtain ⟨inputs, events, n, rfl⟩ := h
  exact ⟨rfl, rfl, rfl, rfl, rfl⟩

theorem or_ne_zero (f g : Word) : decide (f ||| g ≠ 0) = (decide (f ≠ 0) || decide (g ≠ 0)) := by
  have h : f ||| g = 0#16 ↔ f = 0#16 ∧ g = 0#16 := BitVec.or_eq_zero_iff
  rw [← Bool.decide_or, decide_eq_decide]
  exact (not_congr h).trans not_and_or

theorem Drew.trans {u v w : State} {f g : Word} (h : Drew u f v) (h' : Drew v g w) : Drew u (f ||| g) w where
  locked := by rw [h'.locked, h.locked, or_ne_zero, Bool.or_assoc]
  regs := h'.regs.trans h.regs
  sw := h'.sw.trans h.sw
  ft := by rw [h'.ft, h.ft, BitVec.or_assoc]
  pir := by rw [h'.pir, h.pir, or_ne_zero, pendingIf_or, BitVec.or_assoc]

/-! ## The cycles -/

section Cycles

variable {s : State} {addr : Word}

theorem ioFaults_ne_zero (s : State) (addr : Word) : decide (Shape.ioFaults s addr ≠ 0) = s.ioFaulty addr := by
  have hbits : ∀ illegal parity : Bool, decide (pendingIf illegal 5 ||| pendingIf parity 2 ≠ 0) = (illegal || parity) := by decide
  exact hbits _ _

theorem cycleFaults_ne_zero (c : Cycle) : decide (Shape.cycleFaults c ≠ 0) = !c.clean := by
  have hbits : ∀ protect parity absent : Bool, decide (pendingIf protect 0 ||| pendingIf parity 2 ||| pendingIf absent 8 ≠ 0) =
      !(!protect && !parity && !absent) := by decide
  exact hbits _ _ _

theorem ioFaults_illegal (h : ioFlawAt s.platform .illegal addr = true) :
    Shape.ioFaults s addr = 0x0400 ||| pendingIf (ioFlawAt s.platform .parity addr) 2 := by
  have hft : oneBit 5 = 0x0400 := by decide
  rw [Shape.ioFaults, h, pendingIf, if_pos rfl, hft]

theorem ioFaults_legal (h : ioFlawAt s.platform .illegal addr = false) :
    Shape.ioFaults s addr = pendingIf (ioFlawAt s.platform .parity addr) 2 := by
  rw [Shape.ioFaults, h]
  exact BitVec.zero_or

theorem take_illegal {r : Run} (hhalted : r.halted = false) (h : ioFlawAt r.s.platform .illegal addr = true) :
    (r.consoleTake addr).run =
      { s := { r.s with
          ft := r.s.ft ||| Shape.ioFaults r.s addr
          pir := r.s.pir ||| oneBit 1
          free := r.s.free + 1
          depositLocked := true
          trace := .majEr :: .ioRead addr (Config.freeWord r.s.free) :: r.s.trace }
        aborted := true
        halted := false } := by
  have hpir : oneBit 1 = 0x4000 := by decide
  have hfaulty : r.s.ioFaulty addr = true := by rw [State.ioFaulty, h, Bool.true_or]
  have hone := pir_raised r.s.pir (ioFlawAt r.s.platform .parity addr)
  rw [hpir] at hone
  rw [Run.consoleTake, Run.ioRead, hhalted, h, ioParity_eq, ioFaults_illegal h, ← BitVec.or_assoc, hpir, ← hone, hfaulty]
  rfl

theorem take_legal {r : Run} {v : Word} {t : State} (hhalted : r.halted = false)
    (h : ioFlawAt r.s.platform .illegal addr = false) (hanswer : r.s.ioAnswer addr = (v, t)) (hplatform : t.platform = r.s.platform) :
    r.consoleTake addr =
      { val := v
        run := Run.lockIf { r with s := { t with
          ft := t.ft ||| Shape.ioFaults r.s addr
          pir := t.pir ||| pendingIf (r.s.ioFaulty addr) 1
          trace := .ioRead addr v :: t.trace } } (r.s.ioFaulty addr) } := by
  have hfaulty : r.s.ioFaulty addr = ioFlawAt r.s.platform .parity addr := by rw [State.ioFaulty, h, Bool.false_or]
  simp only [Run.consoleTake, Run.ioRead, hhalted, h, Bool.false_eq_true, if_false]
  rw [hanswer, ioParity_eq, ioFaults_legal h, hfaulty]
  dsimp only [State.emit]
  rw [hplatform]

/-- The answer of the bus changes what comes from outside only. -/
theorem ioAnswer_outside (s : State) (addr : Word) : ∃ v inputs n, s.ioAnswer addr = (v, { s with ioIn := inputs, free := n }) := by
  unfold State.ioAnswer
  split
  · exact ⟨_, s.ioIn, s.free, rfl⟩
  · split
    · exact ⟨_, s.ioIn, s.free, rfl⟩
    · split
      · exact ⟨_, _, s.free, rfl⟩
      · exact ⟨_, s.ioIn, s.free + 1, rfl⟩

/-- A run that is not halted, and has drawn the FT bits `f` since `u`. -/
structure Drawn (u : State) (f : Word) (r : Run) : Prop where
  state : Draws u f r.s
  live : r.halted = false

theorem lockIf_draws {u v : State} {f : Word} {inputs : List Word} {events : List BusEvent} {n : Nat} {c aborted : Bool}
    (hc : c = decide (f ≠ 0)) (hv : v = { u with
      ft := u.ft ||| f, pir := u.pir ||| pendingIf c 1, ioIn := inputs, trace := events, free := n }) :
    Drawn u f (Run.lockIf { s := v, aborted := aborted, halted := false } c) := by
  subst hv hc
  cases hf : decide (f ≠ 0)
  · exact ⟨⟨inputs, events, n, by rw [hf, Bool.or_false]; rfl⟩, rfl⟩
  · exact ⟨⟨inputs, events, n, by rw [hf, Bool.or_true]; rfl⟩, rfl⟩

theorem take_draws {r : Run} (hhalted : r.halted = false) (addr : Word) :
    Drawn r.s (Shape.ioFaults r.s addr) (r.consoleTake addr).run := by
  cases h : ioFlawAt r.s.platform .illegal addr
  case false =>
    obtain ⟨v, inputs, n, hanswer⟩ := ioAnswer_outside r.s addr
    obtain ⟨rs, aborted, halted⟩ := r
    dsimp only at hhalted hanswer h ⊢
    subst hhalted
    rw [take_legal (r := ⟨rs, aborted, false⟩) rfl h hanswer rfl]
    exact lockIf_draws (inputs := inputs) (events := .ioRead addr v :: rs.trace) (n := n) (ioFaults_ne_zero rs addr).symm rfl
  case true =>
    have hfaults := ioFaults_ne_zero r.s addr
    rw [State.ioFaulty, h, Bool.true_or] at hfaults
    rw [take_illegal hhalted h]
    exact ⟨⟨r.s.ioIn, .majEr :: .ioRead addr (Config.freeWord r.s.free) :: r.s.trace, r.s.free + 1, by
      rw [hfaults, Bool.or_true]; rfl⟩, rfl⟩

theorem load_draws {r : Run} (hhalted : r.halted = false) (addr : Word) :
    Drawn r.s (Shape.cycleFaults (r.s.ownCycle .read addr)) (r.consoleLoad addr).run := by
  obtain ⟨rs, aborted, halted⟩ := r
  dsimp only at hhalted ⊢
  subst hhalted
  have hpir : oneBit 1 = 0x4000 := by decide
  unfold Run.consoleLoad Run.read
  dsimp only
  have hne := cycleFaults_ne_zero (rs.ownCycle .read addr)
  cases hclean : (rs.ownCycle .read addr).clean
  case true =>
    have hnone : rs.ft ||| 0 = rs.ft := BitVec.or_zero
    have hpend : rs.pir ||| pendingIf false 1 = rs.pir := BitVec.or_zero
    exact lockIf_draws (inputs := rs.ioIn) (events := rs.trace) (n := rs.free) (by rw [hne, hclean]) (by
      rw [cycleFaults_of_clean hclean, hnone]; exact congrArg (fun p => { rs with pir := p }) hpend.symm)
  case false =>
    exact lockIf_draws (inputs := rs.ioIn) (events := .majEr :: rs.trace) (n := rs.free + 1) (by rw [hne, hclean]) (by
      rw [← bits_eq_cycleFaults]; rfl)

theorem lockIf_drew {u v : State} {f : Word} {c aborted halted : Bool} (hc : c = decide (f ≠ 0))
    (hlocked : v.depositLocked = u.depositLocked) (hregs : v.regs = u.regs) (hsw : v.sw = u.sw) (hft : v.ft = u.ft ||| f)
    (hpir : v.pir = u.pir ||| pendingIf c 1) : Drew u f (Run.lockIf { s := v, aborted := aborted, halted := halted } c).s := by
  subst hc
  cases hf : decide (f ≠ 0)
  · rw [hf] at hpir
    exact ⟨by rw [hf, Bool.or_false]; exact hlocked, hregs, hsw, hft, by rw [hf]; exact hpir⟩
  · rw [hf] at hpir
    exact ⟨by rw [hf, Bool.or_true]; rfl, hregs, hsw, hft, by rw [hf]; exact hpir⟩

/-- A store of the console. -/
theorem store_drew {r : Run} (hhalted : r.halted = false) (addr v : Word) :
    Drew r.s (Shape.cycleFaults (r.s.ownCycle .write addr)) (r.consoleStore addr v).s := by
  rw [Run.consoleStore, run_write_eq hhalted]
  exact lockIf_drew (cycleFaults_ne_zero _).symm rfl rfl rfl rfl rfl

/-- A write of the companion chips changes their registers only. -/
theorem chipWrite_registers (s : State) (addr v : Word) :
    ∃ ipr opr ram latch, s.chipWrite addr v = { s with ipr := ipr, opr := opr, bpuRam := ram, globprt := latch } := by
  unfold State.chipWrite
  repeat' split
  all_goals exact ⟨_, _, _, _, rfl⟩

/-- A word that the console puts on the bus. -/
theorem put_drew {r : Run} (hhalted : r.halted = false) (addr v : Word) :
    Drew r.s (Shape.ioFaults r.s addr) (r.consolePut addr v).s := by
  have hft : r.s.ft ||| pendingIf (ioFlawAt r.s.platform .illegal addr) 5 ||| pendingIf (ioFlawAt r.s.platform .parity addr) 2 =
      r.s.ft ||| Shape.ioFaults r.s addr := by rw [Shape.ioFaults, BitVec.or_assoc]
  have hfaulty := (ioFaults_ne_zero r.s addr).symm
  obtain ⟨rs, aborted, halted⟩ := r
  dsimp only at hhalted hft hfaulty ⊢
  subst hhalted
  rw [Run.consolePut]
  cases aborted
  case true =>
    rw [ioWrite_aborted addr v rfl rfl]
    exact lockIf_drew hfaulty rfl rfl rfl hft rfl
  case false =>
    obtain ⟨ipr, opr, ram, latch, hchips⟩ := chipWrite_registers rs addr v
    have hwrite : Run.ioWrite { s := rs, aborted := false, halted := false } addr v =
        { s := Shape.ioWritten { rs with ipr := ipr, opr := opr, bpuRam := ram, globprt := latch } addr v
          aborted := false
          halted := false } := by
      rw [← ioWrite_eq, ← hchips]
      rfl
    rw [hwrite]
    exact lockIf_drew hfaulty rfl rfl rfl hft rfl

end Cycles

/-! ## The commands -/

section Commands

variable {u v : State} {f : Word} {r : Run}

theorem Draws.ioFaults (h : Draws u f v) (addr : Word) : Shape.ioFaults v addr = Shape.ioFaults u addr := by
  obtain ⟨_, _, _, rfl⟩ := h
  rfl

theorem Draws.ownCycle (h : Draws u f v) (kind : CycleKind) (addr : Word) : v.ownCycle kind addr = u.ownCycle kind addr := by
  obtain ⟨_, _, _, rfl⟩ := h
  rfl

theorem Draws.alone (h : Draws u f v) : v.alone = u.alone := by
  obtain ⟨_, _, _, rfl⟩ := h
  rfl

theorem Draws.ic (h : Draws u f v) : v.ic = u.ic := by
  obtain ⟨_, _, _, rfl⟩ := h
  rfl

theorem Draws.scratch (h : Draws u f v) : v.scratch = u.scratch := by
  obtain ⟨_, _, _, rfl⟩ := h
  rfl

theorem Drawn.turn (h : Drawn u f r) (halone : u.alone = true) : r.turn = r :=
  Run.turn_alone (h.state.alone.trans halone)

theorem showMemory_drew (hhalted : r.halted = false) (halone : r.s.alone = true) :
    Drew r.s (Shape.cycleFaults (r.s.ownCycle .read r.s.ic) ||| Shape.ioFaults r.s 0x0400) r.showMemory.s := by
  have hload := load_draws hhalted r.s.ic
  have hshow := put_drew hload.live 0x0400 (r.consoleLoad r.s.ic).val
  rw [hload.state.ioFaults] at hshow
  rw [Run.showMemory, hload.turn halone]
  exact hload.state.drew.trans hshow

theorem depositMemory_drew (hhalted : r.halted = false) (halone : r.s.alone = true) :
    Drew r.s (Shape.ioFaults r.s 0x8401 ||| Shape.cycleFaults (r.s.ownCycle .write r.s.ic)) r.depositMemory.s := by
  have htake := take_draws hhalted 0x8401
  have hstore := store_drew htake.live (r.consoleTake 0x8401).run.s.ic (r.consoleTake 0x8401).val
  rw [htake.state.ownCycle, htake.state.ic] at hstore
  rw [Run.depositMemory, htake.turn halone, htake.state.ic]
  exact htake.state.drew.trans hstore

theorem showPort_drew (hhalted : r.halted = false) (halone : r.s.alone = true) :
    Drew r.s (Shape.ioFaults r.s r.s.scratch.a1 ||| Shape.ioFaults r.s 0x0400) r.showPort.s := by
  have htake := take_draws hhalted r.s.scratch.a1
  have hshow := put_drew htake.live 0x0400 (r.consoleTake r.s.scratch.a1).val
  rw [htake.state.ioFaults] at hshow
  rw [Run.showPort, htake.turn halone]
  exact htake.state.drew.trans hshow

theorem depositPort_drew (hhalted : r.halted = false) (halone : r.s.alone = true) :
    Drew r.s (Shape.ioFaults r.s 0x8401 ||| Shape.ioFaults r.s r.s.scratch.a1) r.depositPort.s := by
  have htake := take_draws hhalted 0x8401
  have hput := put_drew htake.live (r.consoleTake 0x8401).run.s.scratch.a1 (r.consoleTake 0x8401).val
  rw [htake.state.ioFaults, htake.state.scratch] at hput
  rw [Run.depositPort, htake.turn halone, htake.state.scratch]
  exact htake.state.drew.trans hput

theorem update_going (hgo : r.aborted = false) (g : State → State) : r.update g = { r with s := g r.s } := by
  simp only [Run.update, hgo, Bool.false_eq_true, if_false]

/-- The same at another address. -/
theorem showMemory_setIc (hhalted : r.halted = false) (halone : r.s.alone = true) (x : Word) :
    Drew r.s (Shape.cycleFaults (r.s.ownCycle .read x) ||| Shape.ioFaults r.s 0x0400)
      (Run.showMemory { r with s := r.s.setIc x }).s := by
  have hshow : Drew (r.s.setIc x) (Shape.cycleFaults (r.s.ownCycle .read x) ||| Shape.ioFaults r.s 0x0400)
      (Run.showMemory { r with s := r.s.setIc x }).s := showMemory_drew (r := { r with s := r.s.setIc x }) hhalted halone
  exact ⟨hshow.locked, hshow.regs, hshow.sw, hshow.ft, hshow.pir⟩

theorem depositMemory_setIc (hhalted : r.halted = false) (halone : r.s.alone = true) (x : Word) :
    Drew r.s (Shape.ioFaults r.s 0x8401 ||| Shape.cycleFaults (r.s.ownCycle .write x))
      (Run.depositMemory { r with s := r.s.setIc x }).s := by
  have hstore : Drew (r.s.setIc x) (Shape.ioFaults r.s 0x8401 ||| Shape.cycleFaults (r.s.ownCycle .write x))
      (Run.depositMemory { r with s := r.s.setIc x }).s := depositMemory_drew (r := { r with s := r.s.setIc x }) hhalted halone
  exact ⟨hstore.locked, hstore.regs, hstore.sw, hstore.ft, hstore.pir⟩

theorem take_value {addr d : Word} {rest : List Word} (hhalted : r.halted = false)
    (h : ioFlawAt r.s.platform .illegal addr = false) (hconfig : addr ≠ 0x8410) (hchip : r.s.chipRead addr = none)
    (hin : r.s.ioIn = d :: rest) : (r.consoleTake addr).val = d ∧ (r.consoleTake addr).run.aborted = r.aborted ∧
      (r.consoleTake addr).run.s.ioIn = rest := by
  rw [take_legal hhalted h (ioAnswer_next hconfig hchip hin) rfl, Run.lockIf]
  split
  · exact ⟨rfl, rfl, rfl⟩
  · exact ⟨rfl, rfl, rfl⟩

/-- EXAMINE MEMORY reads at IC where the switches have not come. -/
theorem examineMemory_drew {d : Word} {rest : List Word} (hhalted : r.halted = false) (hgo : r.aborted = false)
    (halone : r.s.alone = true) (hin : r.s.ioIn = d :: rest) :
    Drew r.s (Shape.ioFaults r.s 0x8401 |||
        (Shape.cycleFaults (r.s.ownCycle .read (if ioFlawAt r.s.platform .illegal 0x8401 = false then d else r.s.ic)) |||
          Shape.ioFaults r.s 0x0400)) r.examineMemory.s := by
  have htake := take_draws hhalted 0x8401
  have halone' : (r.consoleTake 0x8401).run.s.alone = true := htake.state.alone.trans halone
  refine htake.state.drew.trans ?_
  rw [Run.examineMemory, ← htake.state.ownCycle, ← htake.state.ioFaults]
  cases hflaw : ioFlawAt r.s.platform .illegal 0x8401
  case true =>
    have habort : (r.consoleTake 0x8401).run.aborted = true := by rw [take_illegal hhalted hflaw]
    rw [Run.update, habort, if_pos rfl, htake.turn halone, if_neg (by simp), ← htake.state.ic]
    exact showMemory_drew htake.live halone'
  case false =>
    obtain ⟨hval, habort, -⟩ := take_value hhalted hflaw (by decide) rfl hin
    have hshow := showMemory_setIc htake.live halone' d
    rw [hval, if_pos rfl]
    generalize (r.consoleTake 0x8401).run = q at *
    rw [update_going (habort.trans hgo), Run.turn_alone (r := { q with s := q.s.setIc d }) halone']
    exact hshow

/-- The run with A1 at `p`. -/
def atPort (r : Run) (p : Word) : Run := { r with s := { r.s with scratch := { r.s.scratch with a1 := p } } }

theorem nextPort_eq (hgo : r.aborted = false) :
    r.nextPort = atPort r (if r.s.depositLocked = false then r.s.scratch.a1 + 1 else r.s.scratch.a1) := by
  rw [Run.nextPort, update_going hgo]
  by_cases hlocked : r.s.depositLocked = true
  · rw [if_pos hlocked, if_neg (by simp [hlocked])]
    rfl
  · rw [if_neg hlocked, if_pos (by simpa using hlocked)]
    rfl

theorem showPort_atPort (hhalted : r.halted = false) (halone : r.s.alone = true) (p : Word) :
    Drew r.s (Shape.ioFaults r.s p ||| Shape.ioFaults r.s 0x0400) (atPort r p).showPort.s := by
  have hshow : Drew (atPort r p).s (Shape.ioFaults r.s p ||| Shape.ioFaults r.s 0x0400) (atPort r p).showPort.s :=
    showPort_drew (r := atPort r p) hhalted halone
  exact ⟨hshow.locked, hshow.regs, hshow.sw, hshow.ft, hshow.pir⟩

theorem depositPort_atPort (hhalted : r.halted = false) (halone : r.s.alone = true) (p : Word) :
    Drew r.s (Shape.ioFaults r.s 0x8401 ||| Shape.ioFaults r.s p) (atPort r p).depositPort.s := by
  have hput : Drew (atPort r p).s (Shape.ioFaults r.s 0x8401 ||| Shape.ioFaults r.s p) (atPort r p).depositPort.s :=
    depositPort_drew (r := atPort r p) hhalted halone
  exact ⟨hput.locked, hput.regs, hput.sw, hput.ft, hput.pir⟩

end Commands

/-! ## One request -/

section Request

variable {s : State} {c d : Word} {rest : List Word}

/-- A command word that has come, and the run after it. -/
structure Commanded (s : State) (c d : Word) (rest : List Word) (held : Bool) (r : Run) : Prop where
  drawn : Drawn s (Shape.ioFaults s 0x8400) r
  going : r.aborted = false
  inputs : r.s.ioIn = d :: rest
  alone : r.s.alone = true
  result : s.console held = consoleCommand c held r

theorem commanded (held : Bool) (halone : s.alone = true) (hlegal : ioFlawAt s.platform .illegal 0x8400 = false)
    (hin : s.ioIn = c :: d :: rest) : Commanded s c d rest held (s.start.consoleTake 0x8400).run := by
  have htake := take_draws (r := s.start) rfl 0x8400
  obtain ⟨hval, habort, hinputs⟩ := take_value (r := s.start) rfl hlegal (by decide) rfl hin
  refine ⟨htake, habort, hinputs, htake.state.alone.trans halone, ?_⟩
  rw [State.console, htake.turn halone, habort, hval]
  rfl

variable {held : Bool} {r : Run} {t : State}

/-- The faults of a command, in the order of its cycles. -/
theorem consoleFaults_eq (s : State) (d : Word) :
    Shape.consoleFaults s 0x60 d = Shape.ioFaults s 0x8400 ||| Shape.ioFaults s 0x0400 ∧
    Shape.consoleFaults s 0x66 d = Shape.ioFaults s 0x8400 ||| (Shape.ioFaults s 0x8401 |||
      (Shape.cycleFaults (s.ownCycle .read (if ioFlawAt s.platform .illegal 0x8401 = false then d else s.ic)) |||
        Shape.ioFaults s 0x0400)) ∧
    Shape.consoleFaults s 0x67 d = Shape.ioFaults s 0x8400 ||| (Shape.ioFaults s 0x8401 |||
      Shape.cycleFaults (s.ownCycle .write s.ic)) ∧
    Shape.consoleFaults s 0x6A d = Shape.ioFaults s 0x8400 ||| (Shape.cycleFaults (s.ownCycle .read (s.ic + 1)) |||
      Shape.ioFaults s 0x0400) ∧
    Shape.consoleFaults s 0x6B d = Shape.ioFaults s 0x8400 ||| (Shape.ioFaults s 0x8401 |||
      Shape.cycleFaults (s.ownCycle .write (s.ic + 1))) ∧
    Shape.consoleFaults s 0x6C d = Shape.ioFaults s 0x8400 ||| (Shape.ioFaults s s.scratch.a1 ||| Shape.ioFaults s 0x0400) ∧
    Shape.consoleFaults s 0x6D d = Shape.ioFaults s 0x8400 ||| (Shape.ioFaults s 0x8401 ||| Shape.ioFaults s s.scratch.a1) ∧
    Shape.consoleFaults s 0x6E d = Shape.ioFaults s 0x8400 |||
      (Shape.ioFaults s (if (s.depositLocked || s.ioFaulty 0x8400) = false then s.scratch.a1 + 1 else s.scratch.a1) |||
        Shape.ioFaults s 0x0400) ∧
    Shape.consoleFaults s 0x6F d = Shape.ioFaults s 0x8400 ||| (Shape.ioFaults s 0x8401 |||
      Shape.ioFaults s (if (s.depositLocked || s.ioFaulty 0x8400) = false then s.scratch.a1 + 1 else s.scratch.a1)) := by
  refine ⟨?_, ?_, ?_, ?_, ?_, ?_, ?_, ?_, ?_⟩
  all_goals simp [Shape.consoleFaults, BitVec.or_assoc, BitVec.or_comm (Shape.ioFaults s 1024#16)]

/-- A request that names one of these codes draws the faults of its cycles. -/
theorem Commanded.drew (h : Commanded s c d rest held r)
    (hcode : c.toNat / 256 ∈ [0x60, 0x66, 0x67, 0x6A, 0x6B, 0x6C, 0x6D, 0x6E, 0x6F]) (ht : s.console held = .next t) :
    Drew s (Shape.consoleFaults s (c.toNat / 256) d) t := by
  obtain ⟨⟨hstate, hlive⟩, hgo, hinputs, halone, hresult⟩ := h
  obtain ⟨-, -, -, -, h66, h67, h6A, h6B, h6C, h6D, h6E, h6F⟩ := command_eq (c := c) held r
  have hlocked : r.s.depositLocked = (s.depositLocked || s.ioFaulty 0x8400) := by
    rw [hstate.drew.locked, ioFaults_ne_zero]
  rw [hresult] at ht
  have hrest : ∀ {f : Word} {v : State}, consoleCommand c held r = .next v → Drew r.s f v →
      Drew s (Shape.ioFaults s 0x8400 ||| f) t := by
    intro f v hv hdrew
    rw [hv] at ht
    obtain rfl := Host.Outcome.next.inj ht
    exact hstate.drew.trans hdrew
  have hplatform : r.s.platform = s.platform := by
    obtain ⟨_, _, _, hs⟩ := hstate
    rw [hs]
  obtain ⟨e60, e66, e67, e6A, e6B, e6C, e6D, e6E, e6F⟩ := consoleFaults_eq s d
  simp only [← hlocked, ← hstate.ownCycle, ← hstate.ic, ← hstate.scratch, ← hplatform] at e66 e67 e6A e6B e6C e6D e6E e6F
  have hnext := update_going hgo fun s => s.setIc (s.ic + 1)
  simp only [List.mem_cons, List.not_mem_nil, or_false] at hcode
  rcases hcode with hcode | hcode | hcode | hcode | hcode | hcode | hcode | hcode | hcode
  case inl =>
    rw [hcode, e60, ← hstate.ioFaults 0x0400]
    cases hq : consoleRegister (BitVec.ofNat 6 (c.toNat % 64)) with
    | none =>
      rw [command_refused held r (.inl hcode) hq] at ht
      cases ht
    | some q => exact hrest (command_examine held r hcode hq) (put_drew hlive 0x0400 (r.s.examine q))
  case inr.inl =>
    rw [hcode, e66, ← hstate.ioFaults 0x0400, ← hstate.ioFaults 0x8401]
    exact hrest (h66 hcode) (examineMemory_drew hlive hgo halone hinputs)
  case inr.inr.inl =>
    rw [hcode, e67, ← hstate.ioFaults 0x8401]
    exact hrest (h67 hcode) (depositMemory_drew hlive halone)
  case inr.inr.inr.inl =>
    rw [hcode, e6A, ← hstate.ioFaults 0x0400]
    exact hrest (h6A hcode) (by rw [Run.nextAddress, hnext]; exact showMemory_setIc hlive halone _)
  case inr.inr.inr.inr.inl =>
    rw [hcode, e6B, ← hstate.ioFaults 0x8401]
    exact hrest (h6B hcode) (by rw [Run.nextAddress, hnext]; exact depositMemory_setIc hlive halone _)
  case inr.inr.inr.inr.inr.inl =>
    rw [hcode, e6C, ← hstate.ioFaults 0x0400, ← hstate.ioFaults r.s.scratch.a1]
    exact hrest (h6C hcode) (showPort_drew hlive halone)
  case inr.inr.inr.inr.inr.inr.inl =>
    rw [hcode, e6D, ← hstate.ioFaults 0x8401, ← hstate.ioFaults r.s.scratch.a1]
    exact hrest (h6D hcode) (depositPort_drew hlive halone)
  case inr.inr.inr.inr.inr.inr.inr.inl =>
    rw [hcode, e6E, ← hstate.ioFaults 0x0400, ← hstate.ioFaults (if r.s.depositLocked = false then _ else _)]
    exact hrest (h6E hcode) (by rw [nextPort_eq hgo]; exact showPort_atPort hlive halone _)
  case inr.inr.inr.inr.inr.inr.inr.inr =>
    rw [hcode, e6F, ← hstate.ioFaults 0x8401, ← hstate.ioFaults (if r.s.depositLocked = false then _ else _)]
    exact hrest (h6F hcode) (by rw [nextPort_eq hgo]; exact depositPort_atPort hlive halone _)

/-- A register that a fault does not lock is no general one. -/
theorem deposit_keeps {q : ConsoleRegister} (h : q.lockable = false) (s : State) (d : Word) :
    (s.deposit q d).depositLocked = s.depositLocked ∧ (s.deposit q d).regs = s.regs ∧ (s.deposit q d).sw = s.sw := by
  cases q
  case general | a1 | a2 | q1 | q2 | do0 | do1 => cases h
  all_goals exact ⟨rfl, rfl, rfl⟩

theorem deposits_locked {q : ConsoleRegister} (hlive : r.halted = false)
    (hlocked : (r.s.depositLocked || r.s.ioFaulty 0x8401) = true) :
    (r.depositRegister q).s.depositLocked = true ∧ (r.depositRegister q).s.regs = r.s.regs ∧
      (r.depositRegister q).s.sw = r.s.sw := by
  have htake := (take_draws hlive 0x8401).state.drew
  have hnow : (r.consoleTake 0x8401).run.s.depositLocked = true := by rw [htake.locked, ioFaults_ne_zero, hlocked]
  rw [Run.depositRegister]
  cases hq : q.lockable
  case true =>
    rw [hnow, Bool.true_and, if_pos rfl]
    exact ⟨hnow, htake.regs, htake.sw⟩
  case false =>
    rw [Bool.and_false, if_neg Bool.false_ne_true, Run.update]
    split
    · exact ⟨hnow, htake.regs, htake.sw⟩
    · obtain ⟨h1, h2, h3⟩ := deposit_keeps hq (r.consoleTake 0x8401).run.s (r.consoleTake 0x8401).val
      exact ⟨h1.trans hnow, h2.trans htake.regs, h3.trans htake.sw⟩

theorem depositStatus_locked (hlive : r.halted = false) (hlocked : (r.s.depositLocked || r.s.ioFaulty 0x8401) = true) :
    r.depositStatus.s.depositLocked = true ∧ r.depositStatus.s.regs = r.s.regs := by
  have htake := (take_draws hlive 0x8401).state.drew
  have hnow : (r.consoleTake 0x8401).run.s.depositLocked = true := by rw [htake.locked, ioFaults_ne_zero, hlocked]
  rw [Run.depositStatus]
  split
  · exact ⟨hnow, htake.regs⟩
  · rw [Run.update]
    split
    · exact ⟨hnow, htake.regs⟩
    · exact ⟨hnow, htake.regs⟩

/-- A deposit whose switches have not come changes nothing but the faults. -/
theorem deposit_illegal (hlive : r.halted = false) (hflaw : ioFlawAt r.s.platform .illegal 0x8401 = true) :
    (∀ q, r.depositRegister q = (r.consoleTake 0x8401).run) ∧ r.depositStatus = (r.consoleTake 0x8401).run := by
  have habort : (r.consoleTake 0x8401).run.aborted = true := by rw [take_illegal hlive hflaw]
  refine ⟨fun q => ?_, ?_⟩
  · rw [Run.depositRegister, Run.update_aborted habort, ite_self]
  · rw [Run.depositStatus, Run.update_aborted habort, habort]
    rfl

/-- The faults of the commands that deposit registers, of the one that clears FT, and of those that are none. -/
theorem consoleFaults_deposit (s : State) (d : Word) {code : Nat} (h : code = 0x61 ∨ code = 0x63) :
    Shape.consoleFaults s code d = Shape.ioFaults s 0x8400 ||| Shape.ioFaults s 0x8401 := by
  rcases h with rfl | rfl
  · simp [Shape.consoleFaults]
  · simp [Shape.consoleFaults]

theorem consoleFaults_clear (s : State) (d : Word) :
    Shape.consoleFaults s 0x62 d = Shape.ioFaults s 0x8400 ||| Shape.ioFaults s 0x0400 := by
  simp [Shape.consoleFaults]

theorem consoleFaults_none (s : State) (d : Word) {code : Nat}
    (h : code ∉ [0x60, 0x61, 0x62, 0x63, 0x66, 0x67, 0x6A, 0x6B, 0x6C, 0x6D, 0x6E, 0x6F, 0x74, 0x75]) :
    Shape.consoleFaults s code d = Shape.ioFaults s 0x8400 := by
  simp only [List.mem_cons, List.not_mem_nil, or_false, not_or] at h
  obtain ⟨h60, h61, h62, h63, h66, h67, h6A, h6B, h6C, h6D, h6E, h6F, -, -⟩ := h
  simp [Shape.consoleFaults, h60, h61, h62, h63, h66, h67, h6A, h6B, h6C, h6D, h6E, h6F]

/-- What a fault leaves of the registers: they stay, and their deposits are locked. -/
def Locked (s t : State) : Prop := t.depositLocked = true ∧ t.regs = s.regs ∧ t.sw = s.sw

theorem Drew.isLocked {u v : State} {f : Word} (h : Drew u f v) (hf : f ≠ 0) : Locked u v := by
  refine ⟨?_, h.regs, h.sw⟩
  rw [h.locked, decide_eq_true hf, Bool.or_true]

/-- DEPOSIT REGISTER and DEPOSIT STATUS WORD after a fault. -/
theorem Commanded.deposit (h : Commanded s c d rest held r) (hcode : c.toNat / 256 = 0x61 ∨ c.toNat / 256 = 0x63)
    (hfaults : Shape.consoleFaults s (c.toNat / 256) d ≠ 0) (ht : s.console held = .next t) :
    t.depositLocked = true ∧ t.regs = s.regs ∧ (c.toNat / 256 = 0x61 → t.sw = s.sw) ∧
      (ioFlawAt s.platform .illegal 0x8401 = true → t = (r.consoleTake 0x8401).run.s) := by
  obtain ⟨⟨hstate, hlive⟩, -, -, -, hresult⟩ := h
  have hdrew := hstate.drew
  have hplatform : r.s.platform = s.platform := by
    obtain ⟨_, _, _, hs⟩ := hstate
    rw [hs]
  have hlocked : (r.s.depositLocked || r.s.ioFaulty 0x8401) = true := by
    rw [consoleFaults_deposit s d hcode] at hfaults
    have hany := decide_eq_true hfaults
    rw [or_ne_zero, ← hstate.ioFaults 0x8401, ioFaults_ne_zero r.s] at hany
    rw [hdrew.locked, Bool.or_assoc, hany, Bool.or_true]
  rw [hresult] at ht
  rcases hcode with hcode | hcode
  · cases hq : consoleRegister (BitVec.ofNat 6 (c.toNat % 64)) with
    | none =>
      rw [command_refused held r (.inr hcode) hq] at ht
      cases ht
    | some q =>
      rw [command_deposit held r hcode hq] at ht
      split at ht
      · obtain rfl := Host.Outcome.next.inj ht
        obtain ⟨h1, h2, h3⟩ := deposits_locked (q := q) hlive hlocked
        refine ⟨h1, h2.trans hdrew.regs, fun _ => h3.trans hdrew.sw, fun hflaw => ?_⟩
        rw [(deposit_illegal hlive (by rw [hplatform]; exact hflaw)).1 q]
      · cases ht
  · rw [(command_eq held r).2.2.2.1 hcode] at ht
    obtain rfl := Host.Outcome.next.inj ht
    obtain ⟨h1, h2⟩ := depositStatus_locked hlive hlocked
    refine ⟨h1, h2.trans hdrew.regs, fun h61 => absurd (hcode.symm.trans h61) (by decide), fun hflaw => ?_⟩
    rw [(deposit_illegal hlive (by rw [hplatform]; exact hflaw)).2]

/-- The other commands leave the registers, and lock their deposits. -/
theorem Commanded.other (h : Commanded s c d rest held r)
    (hcode : c.toNat / 256 ∉ [0x60, 0x61, 0x63, 0x66, 0x67, 0x6A, 0x6B, 0x6C, 0x6D, 0x6E, 0x6F, 0x74, 0x75])
    (hfaults : Shape.consoleFaults s (c.toNat / 256) d ≠ 0) (ht : s.console held = .next t) : Locked s t := by
  obtain ⟨⟨hstate, hlive⟩, -, -, -, hresult⟩ := h
  rw [hresult] at ht
  by_cases h62 : c.toNat / 256 = 0x62
  · rw [(command_eq held r).2.2.1 h62] at ht
    obtain rfl := Host.Outcome.next.inj ht
    rw [h62, consoleFaults_clear, ← hstate.ioFaults 0x0400] at hfaults
    have hlocked := (hstate.drew.trans (put_drew hlive 0x0400 r.s.ft)).isLocked hfaults
    rw [Run.consoleShow, Run.update]
    split
    · exact hlocked
    · exact hlocked
  · have hnone : c.toNat / 256 ∉ [0x60, 0x61, 0x62, 0x63, 0x66, 0x67, 0x6A, 0x6B, 0x6C, 0x6D, 0x6E, 0x6F, 0x74, 0x75] := by
      simp only [List.mem_cons, not_or] at hcode ⊢
      exact ⟨hcode.1, hcode.2.1, h62, hcode.2.2⟩
    rw [command_none held r hnone] at ht
    obtain rfl := Host.Outcome.next.inj ht
    rw [consoleFaults_none s d hnone] at hfaults
    exact hstate.drew.isLocked hfaults

/-- The whole state after a deposit whose switches have not come. -/
theorem deposit_illegal_state (hlegal : ioFlawAt s.platform .illegal 0x8400 = false) (hin : s.ioIn = c :: d :: rest)
    (hflaw : ioFlawAt s.platform .illegal 0x8401 = true) (hcode : c.toNat / 256 = 0x61 ∨ c.toNat / 256 = 0x63) :
    ∃ trace, ((s.start.consoleTake 0x8400).run.consoleTake 0x8401).run.s = { s with
      ioIn := d :: rest
      ft := s.ft ||| Shape.consoleFaults s (c.toNat / 256) d
      pir := s.pir ||| oneBit 1
      free := s.free + 1
      depositLocked := true
      trace := trace } := by
  have hpir := pir_raised s.pir (s.ioFaulty 0x8400)
  have hcomm : s.pir ||| pendingIf (s.ioFaulty 0x8400) 1 ||| oneBit 1 = s.pir ||| oneBit 1 := by
    rw [BitVec.or_assoc, BitVec.or_comm (pendingIf _ _), ← BitVec.or_assoc, hpir]
  have htake : (s.start.consoleTake 0x8400).run = Run.lockIf
      { s := { s with
          ioIn := d :: rest
          ft := s.ft ||| Shape.ioFaults s 0x8400
          pir := s.pir ||| pendingIf (s.ioFaulty 0x8400) 1
          trace := .ioRead 0x8400 c :: s.trace }
        aborted := false
        halted := false } (s.ioFaulty 0x8400) := by
    rw [take_legal (r := s.start) rfl hlegal (ioAnswer_next (by decide) rfl hin) rfl]
    rfl
  rw [consoleFaults_deposit s d hcode, ← BitVec.or_assoc, ← hcomm, htake, Run.lockIf]
  split
  · rw [take_illegal rfl hflaw]
    exact ⟨_, rfl⟩
  · rw [take_illegal rfl hflaw]
    exact ⟨_, rfl⟩

end Request

end Sys2Proof.Proofs
end

