-- ==== Sys2Proof/Proofs/Console.lean ====
section
/-! PROOF. Console mode (49_console.md R620 to R643). -/

namespace Sys2Proof.Proofs

open Sys2Proof.Machine

/-! ## Requests whose cycles draw no fault -/

/-- The state after a request that has left `s'` of the machine. -/
def requested (s' : State) (inputs : List Word) (events : List BusEvent) : State := { s' with ioIn := inputs, trace := events }

section Clean

variable {s : State} {c d : Word} {rest : List Word} (held : Bool)

theorem console_eq {result : Host.Outcome State Fault Refusal} (halone : s.alone = true) (h : s.ioFaulty 0x8400 = false)
    (hin : s.ioIn = c :: rest) (hcommand : consoleCommand c held (told s c rest).start = result) : s.console held = result :=
  (console_clean held halone h hin).trans hcommand

/-- EXAMINE REGISTER. -/
theorem examine_told (hshow : s.ioFaulty 0x0400 = false) (hcode : c.toNat / 256 = 0x60) {q : ConsoleRegister}
    (hq : consoleRegister (BitVec.ofNat 6 (c.toNat % 64)) = some q) :
    consoleCommand c held (told s c rest).start =
      .next (requested s rest (.ioWrite 0x0400 (s.examine q) :: .ioRead 0x8400 c :: s.trace)) := by
  have hsame : (told s c rest).examine q = s.examine q := by
    cases q
    all_goals rfl
  rw [command_examine held _ hcode hq, State.start_s, consoleShow_clean (s := told s c rest) hshow, hsame]
  rfl

/-- DEPOSIT REGISTER. -/
theorem deposit_told (htake : s.ioFaulty 0x8401 = false) (hcode : c.toNat / 256 = 0x61) {q : ConsoleRegister}
    (hq : consoleRegister (BitVec.ofNat 6 (c.toNat % 64)) = some q) (hdeposit : q.depositable = true) :
    consoleCommand c held (told s c (d :: rest)).start =
      .next (requested (if s.depositLocked && q.lockable then s else s.deposit q d) rest
        (.ioRead 0x8401 d :: .ioRead 0x8400 c :: s.trace)) := by
  have hsame : (taken s c d rest).deposit q d = requested (s.deposit q d) rest (.ioRead 0x8401 d :: .ioRead 0x8400 c :: s.trace) := by
    cases q
    all_goals rfl
  have hlocked : (taken s c d rest).start.s.depositLocked = s.depositLocked := rfl
  rw [command_deposit held _ hcode hq, hdeposit, if_pos rfl, Run.depositRegister, take_switches htake]
  dsimp only
  rw [hlocked]
  split
  · rfl
  · rw [State.start_update, hsame]
    rfl

/-- DEPOSIT STATUS WORD. -/
theorem depositStatus_told (htake : s.ioFaulty 0x8401 = false) (hcode : c.toNat / 256 = 0x63) :
    consoleCommand c held (told s c (d :: rest)).start = .next
      (if bitOf s.scr 0 = false ∧ asField d ≠ 0 then
        { s with
          ioIn := rest
          ft := s.ft ||| oneBit 11
          pir := s.pir ||| oneBit 1
          trace := .unrcvEr :: .ioRead 0x8401 d :: .ioRead 0x8400 c :: s.trace }
      else { s with ioIn := rest, trace := .ioRead 0x8401 d :: .ioRead 0x8400 c :: s.trace, sw := d &&& 0xF0FF }) := by
  have hft : oneBit 11 = 0x0010 := by decide
  have hpir : oneBit 1 = 0x4000 := by decide
  rw [(command_eq held _).2.2.2.1 hcode, Run.depositStatus, take_switches htake]
  dsimp only
  rw [State.start_aborted, Bool.not_false, Bool.true_and, State.start_s, hft, hpir]
  by_cases hrefused : bitOf s.scr 0 = false ∧ asField d ≠ 0
  · rw [if_pos hrefused, if_pos ((refusesStatus_iff (taken s c d rest) d).2 hrefused)]
    rfl
  · rw [if_neg hrefused, if_neg fun h => hrefused ((refusesStatus_iff (taken s c d rest) d).1 h)]
    rfl

/-- DEPOSIT MEMORY at IC and at the next address. -/
theorem depositMemory_told (halone : s.alone = true) (htake : s.ioFaulty 0x8401 = false) {next : Word}
    (hcommand : consoleCommand c held (told s c (d :: rest)).start =
      .next (Run.depositMemory (State.start ((told s c (d :: rest)).setIc next))).s)
    (hwf : s.mem.wf = true) (hwrite : s.writable next = true) :
    ∃ t, consoleCommand c held (told s c (d :: rest)).start = .next t ∧
      t = { s with
        ioIn := rest
        trace := .ioRead 0x8401 d :: .ioRead 0x8400 c :: s.trace
        ic := next
        mem := t.mem } ∧ t.mem.wf = true ∧ Stored s.mem t.mem [(s.place next, d)] := by
  have hswitches : (State.start ((told s c (d :: rest)).setIc next)).consoleTake 0x8401 =
      { val := d, run := ((taken s c d rest).setIc next).start } :=
    consoleTake_clean (s := (told s c (d :: rest)).setIc next) htake (by decide) rfl rfl
  have hrun := depositMemory_clean (u := (told s c (d :: rest)).setIc next) (v := (taken s c d rest).setIc next) halone hswitches
    hwrite
  refine ⟨_, hcommand.trans (congrArg (fun r : Run => Host.Outcome.next r.s) hrun), rfl, ?_, ?_⟩
  · exact Memory.wf_writeWord _ d hwf
  · exact Memory.stored_writeWord (s.place next) d hwf

/-- EXAMINE XIO at A1 and at the next port. -/
theorem showPort_told (halone : s.alone = true) (hshow : s.ioFaulty 0x0400 = false) {port : Word}
    (hcommand : consoleCommand c held (told s c (d :: rest)).start =
      .next (atPort (told s c (d :: rest)).start port).showPort.s)
    (hport : s.ioFaulty port = false) (hconfig : port ≠ 0x8410) (hchip : s.chipRead port = none) :
    consoleCommand c held (told s c (d :: rest)).start = .next { s with
      ioIn := rest
      trace := .ioWrite 0x0400 d :: .ioRead port d :: .ioRead 0x8400 c :: s.trace
      scratch := { s.scratch with a1 := port } } :=
  hcommand.trans (congrArg (fun r : Run => Host.Outcome.next r.s)
    (showPort_clean (u := (atPort (told s c (d :: rest)).start port).s) halone hshow hport hconfig hchip rfl))

/-- The next port, unless the temporary registers are locked. -/
theorem nextPort_told (hcode : c.toNat / 256 = 0x6E ∨ c.toNat / 256 = 0x6F) :
    (told s c rest).start.nextPort = atPort (told s c rest).start
      (if (c.toNat / 256 = 0x6E ∨ c.toNat / 256 = 0x6F) ∧ s.depositLocked = false then s.scratch.a1 + 1 else s.scratch.a1) := by
  have hlocked : (told s c rest).start.s.depositLocked = s.depositLocked := rfl
  rw [nextPort_eq rfl, hlocked]
  simp only [hcode, true_and]
  rfl

/-- DEPOSIT XIO at A1 and at the next port. -/
theorem depositPort_told (halone : s.alone = true) (htake : s.ioFaulty 0x8401 = false) {port : Word}
    (hcommand : consoleCommand c held (told s c (d :: rest)).start =
      .next (atPort (told s c (d :: rest)).start port).depositPort.s)
    (hport : s.ioFaulty port = false) (hchip : s.chipWrite port d = s) :
    consoleCommand c held (told s c (d :: rest)).start = .next { s with
      ioIn := rest
      trace := .ioWrite port d :: .ioRead 0x8401 d :: .ioRead 0x8400 c :: s.trace
      scratch := { s.scratch with a1 := port } } := by
  have hswitches : (atPort (told s c (d :: rest)).start port).consoleTake 0x8401 =
      { val := d, run := atPort (taken s c d rest).start port } :=
    consoleTake_clean (s := (atPort (told s c (d :: rest)).start port).s) htake (by decide) rfl rfl
  have hsame := chipWrite_console s port d { s.scratch with a1 := port } rest (.ioRead 0x8401 d :: .ioRead 0x8400 c :: s.trace)
  rw [hchip] at hsame
  exact hcommand.trans (congrArg (fun r : Run => Host.Outcome.next r.s)
    (depositPort_clean (u := (atPort (told s c (d :: rest)).start port).s) (v := (atPort (taken s c d rest).start port).s) halone
      hswitches hport hsame))

end Clean

/-! ## The step -/

section Step

variable {s : State}

theorem step_console (hmode : s.consoleMode = true) (hreset : s.outside.reset = false) (hresetting : s.resetting = false) :
    step s = if s.asked s.outside.conreq then arriveInConsole (s.console (s.asked s.outside.conreqHeld)) s.outside
      else .next (s.arrive s.outside false) := by
  simp only [step, hreset, hresetting, hmode, Bool.or_self, Bool.false_eq_true, if_false, if_true]

/-- A command word at an illegal address is no command (log 32). -/
theorem console_illegal (held : Bool) (halone : s.alone = true) (h : ioFlawAt s.platform .illegal 0x8400 = true) :
    s.console held = .next { s with
      ft := s.ft ||| Shape.ioFaults s 0x8400
      pir := s.pir ||| oneBit 1
      free := s.free + 1
      depositLocked := true
      trace := .majEr :: .ioRead 0x8400 (Config.freeWord s.free) :: s.trace } := by
  have htake := take_draws (r := s.start) rfl 0x8400
  rw [State.console, htake.turn halone, take_illegal (r := s.start) rfl h]
  rfl

end Step

/-- A request some of whose cycles draw faults. -/
theorem console_faulted {s t : State} {held : Bool} {c d : Word} {rest : List Word} (halone : s.alone = true)
    (hlegal : ioFlawAt s.platform .illegal 0x8400 = false) (hin : s.ioIn = c :: d :: rest) (h74 : c.toNat / 256 ≠ 0x74)
    (h75 : c.toNat / 256 ≠ 0x75) (hfaults : Shape.consoleFaults s (c.toNat / 256) d ≠ 0) (ht : s.console held = .next t) :
    t.depositLocked = true ∧ t.regs = s.regs ∧ t.sw = (if c.toNat / 256 = 0x63 then t.sw else s.sw) ∧
      (c.toNat / 256 ∈ [0x60, 0x66, 0x67, 0x6A, 0x6B, 0x6C, 0x6D, 0x6E, 0x6F] →
        t.ft = s.ft ||| Shape.consoleFaults s (c.toNat / 256) d ∧ t.pir = s.pir ||| oneBit 1) ∧
      (ioFlawAt s.platform .illegal 0x8401 = true → c.toNat / 256 = 0x61 ∨ c.toNat / 256 = 0x63 →
        ∃ trace, t = { s with
          ioIn := d :: rest
          ft := s.ft ||| Shape.consoleFaults s (c.toNat / 256) d
          pir := s.pir ||| oneBit 1
          free := s.free + 1
          depositLocked := true
          trace := trace }) := by
  have hc := commanded held halone hlegal hin
  generalize hr : (s.start.consoleTake 0x8400).run = r at hc
  by_cases hlist : c.toNat / 256 ∈ [0x60, 0x66, 0x67, 0x6A, 0x6B, 0x6C, 0x6D, 0x6E, 0x6F]
  · have hdrew := hc.drew hlist ht
    obtain ⟨hlocked, hregs, hsw⟩ := hdrew.isLocked hfaults
    have hpir := hdrew.pir
    rw [decide_eq_true hfaults] at hpir
    refine ⟨hlocked, hregs, ?_, fun _ => ⟨hdrew.ft, hpir⟩, fun _ hdeposit => ?_⟩
    · split
      · rfl
      · exact hsw
    · rcases hdeposit with h | h
      · rw [h] at hlist
        exact absurd hlist (by decide)
      · rw [h] at hlist
        exact absurd hlist (by decide)
  · by_cases hdeposit : c.toNat / 256 = 0x61 ∨ c.toNat / 256 = 0x63
    · obtain ⟨hlocked, hregs, hsw, hillegal⟩ := hc.deposit hdeposit hfaults ht
      refine ⟨hlocked, hregs, ?_, fun h => absurd h hlist, fun hflaw _ => ?_⟩
      · split
        · rfl
        · next h63 => exact hsw (hdeposit.resolve_right h63)
      · rw [hillegal hflaw, ← hr]
        exact deposit_illegal_state hlegal hin hflaw hdeposit
    · obtain ⟨hlocked, hregs, hsw⟩ := hc.other (by
        simp only [List.mem_cons, List.not_mem_nil, or_false, not_or] at hlist hdeposit ⊢
        exact ⟨hlist.1, hdeposit.1, hdeposit.2, hlist.2.1, hlist.2.2.1, hlist.2.2.2.1, hlist.2.2.2.2.1, hlist.2.2.2.2.2.1,
          hlist.2.2.2.2.2.2.1, hlist.2.2.2.2.2.2.2.1, hlist.2.2.2.2.2.2.2.2, h74, h75⟩) hfaults ht
      refine ⟨hlocked, hregs, ?_, fun h => absurd h hlist, fun _ h => absurd h hdeposit⟩
      split
      · rfl
      · exact hsw

/-- Settles O55. -/
theorem console : Obligations.Console := by
  intro s held c d rest
  refine ⟨fun hmode hreset hresetting => ⟨fun hasked => ?_, fun t hasked ht => ?_⟩, fun halone h => ⟨_, console_illegal held halone h⟩,
    fun halone hlegal hin h74 h75 hfaults t ht => ?_, fun halone hcommand hswitches hshow => ⟨fun hin => ?_, fun hin => ?_⟩⟩
  · have hno : s.asked s.outside.conreq = false := hasked
    rw [step_console hmode hreset hresetting, hno, if_neg Bool.false_ne_true]
  · have hyes : s.asked s.outside.conreq = true := hasked
    have hconsole : s.console (s.asked s.outside.conreqHeld) = .next t := ht
    rw [step_console hmode hreset hresetting, hyes, if_pos rfl, hconsole]
    rfl
  · exact console_faulted halone hlegal hin h74 h75 hfaults ht
  · have hconsole := fun result => console_eq (result := result) held halone hcommand hin
    obtain ⟨h74, h75, h62, -, -, -, h6A, -⟩ := command_eq (c := c) held (told s c rest).start
    refine ⟨fun hcode r hr => ?_, fun hcode v hv => ?_, fun hcode hnumber => ?_, fun hcode hnumber => ?_, fun hcode hnumber => ?_,
      fun hcode => ?_, fun hcode hread => ?_, fun hcode => ?_, fun hcode => ?_, fun hcode => ?_⟩
    · have hq := consoleRegister_general r
      rw [← hr] at hq
      exact hconsole _ (examine_told held hshow hcode hq)
    · obtain ⟨q, hq, rfl⟩ := consoleRegister_examined hv
      exact hconsole _ (examine_told held hshow hcode hq)
    · obtain ⟨low, hq⟩ := consoleRegister_ir hnumber
      exact ⟨_, hconsole _ (examine_told held hshow hcode hq)⟩
    · exact hconsole _ (command_refused held _ hcode (consoleRegister_none (Nat.mod_lt _ (by decide)) hnumber))
    · obtain ⟨q, hq, hfixed⟩ := consoleRegister_fixed hnumber
      have hcommand := command_deposit held (told s c rest).start hcode hq
      rw [hfixed, if_neg Bool.false_ne_true] at hcommand
      exact hconsole _ hcommand
    · refine hconsole _ ((h62 hcode).trans ?_)
      rw [consoleShow_clean (s := told s c rest) hshow]
      rfl
    · rw [if_pos (.inl hcode)] at hread ⊢
      refine hconsole _ ((h6A hcode).trans ?_)
      rw [Run.nextAddress, State.start_update, showMemory_clean (u := (told s c rest).setIc ((told s c rest).ic + 1)) halone hshow hread]
      rfl
    · exact hconsole _ (h74 hcode)
    · exact hconsole _ (h75 hcode)
    · exact hconsole _ (command_none held _ hcode)
  · have hconsole := fun result => console_eq (result := result) held halone hcommand hin
    obtain ⟨-, -, -, -, h66, h67, -, h6B, h6C, h6D, h6E, h6F⟩ := command_eq (c := c) held (told s c (d :: rest)).start
    refine ⟨fun hcode r hr => ?_, fun hcode t locks ht => ?_, fun hcode => ?_, fun hcode hread => ?_, fun hcode hwf hwrite => ?_,
      fun hcode hport hconfig hchip => ?_, fun hcode hport hchip => ?_⟩
    · have hq := consoleRegister_general r
      rw [← hr] at hq
      have hdeposit := deposit_told (d := d) (rest := rest) held hswitches hcode hq rfl
      rw [ConsoleRegister.lockable, Bool.and_true] at hdeposit
      exact hconsole _ hdeposit
    · obtain ⟨q, hq, hdepositable, rfl, rfl⟩ := consoleRegister_deposited ht
      exact hconsole _ (deposit_told held hswitches hcode hq hdepositable)
    · exact hconsole _ (depositStatus_told held hswitches hcode)
    · refine hconsole _ ((h66 hcode).trans ?_)
      rw [examineMemory_clean (v := taken s c d rest) halone (take_switches hswitches) hshow hread]
      rfl
    · have hcommand : consoleCommand c held (told s c (d :: rest)).start = .next (Run.depositMemory (State.start
          ((told s c (d :: rest)).setIc (if c.toNat / 256 = 0x6A ∨ c.toNat / 256 = 0x6B then s.ic + 1 else s.ic)))).s := by
        rcases hcode with hcode | hcode
        · rw [if_neg (by rw [hcode]; decide)]
          exact h67 hcode
        · rw [if_pos (.inr hcode)]
          exact h6B hcode
      obtain ⟨t, ht, hrest⟩ := depositMemory_told held halone hswitches hcommand hwf hwrite
      exact ⟨t, hconsole _ ht, hrest⟩
    · refine hconsole _ (showPort_told held halone hshow ?_ hport hconfig hchip)
      rcases hcode with hcode | hcode
      · rw [if_neg (by rw [hcode]; simp)]
        exact h6C hcode
      · rw [nextPort_told (.inl hcode)] at h6E
        exact h6E hcode
    · refine hconsole _ (depositPort_told held halone hswitches ?_ hport hchip)
      rcases hcode with hcode | hcode
      · rw [if_neg (by rw [hcode]; simp)]
        exact h6D hcode
      · rw [nextPort_told (.inr hcode)] at h6F
        exact h6F hcode

end Sys2Proof.Proofs
end

