-- ==== Sys2Proof/Proofs/IoElements.lean ====
section
/-! PROOF. What I/O commands leave of the program: registers, IC, memory and the turns to come (47_io.md R500 to R550). -/

namespace Sys2Proof.Proofs

open Sys2Proof.Machine

/-! ## Commands by their shape -/

/-- The state with other general registers. -/
def onRegs (g : Vector Word 16) (s : State) : State := { s with regs := g }

/-- A change of registers that no program sees but by its own I/O: it looks at no general register, and leaves them, IC,
memory, the turns to come and the platform. -/
structure Quiet (f : State → State) : Prop where
  onRegs : ∀ g s, f (onRegs g s) = Proofs.onRegs g (f s)
  regs : ∀ s, (f s).regs = s.regs
  ic : ∀ s, (f s).ic = s.ic
  turns : ∀ s, (f s).turns = s.turns
  mem : ∀ s, (f s).mem = s.mem
  platform : ∀ s, (f s).platform = s.platform

theorem quiet_of {f : State → State} (h : ∀ g s, f (onRegs g s) = onRegs g (f s)) (hregs : ∀ s, (f s).regs = s.regs := by exact fun _ => rfl)
    (hic : ∀ s, (f s).ic = s.ic := by exact fun _ => rfl) (hturns : ∀ s, (f s).turns = s.turns := by exact fun _ => rfl)
    (hmem : ∀ s, (f s).mem = s.mem := by exact fun _ => rfl) (hplatform : ∀ s, (f s).platform = s.platform := by exact fun _ => rfl) :
    Quiet f := ⟨h, hregs, hic, hturns, hmem, hplatform⟩

theorem update_id (r : Run) : r.update id = r := by
  unfold Run.update
  split
  · rfl
  · rfl

theorem update_id_ioWrite (cmd d : Word) : (fun r : Run => (r.update id).ioWrite cmd d) = fun r => r.ioWrite cmd d := by
  funext r
  rw [update_id]

theorem update_id_ioWriteOpen (cmd : Word) : (fun r : Run => (r.update id).ioWriteOpen cmd) = fun r => r.ioWriteOpen cmd := by
  funext r
  rw [update_id]

/-- An output command is a quiet change and then a bus cycle, but for WSW, CO and GO. -/
theorem output_shape {P : (Run → Run) → Prop} (cmd d : Word) (write : ∀ f, Quiet f → P fun r => (r.update f).ioWrite cmd d)
    (openWrite : ∀ f, Quiet f → P fun r => (r.update f).ioWriteOpen cmd) (status : P fun r => r.writeStatus cmd d)
    (console : P fun r => if bitOf r.s.scr 2 then r.ioWrite cmd d else r) (go : P fun r => r.goPulse.ioWriteOpen cmd) :
    P fun r => r.output cmd d := by
  have plain := write id (quiet_of fun _ _ => rfl)
  have plainOpen := openWrite id (quiet_of fun _ _ => rfl)
  rw [update_id_ioWrite] at plain
  rw [update_id_ioWriteOpen] at plainOpen
  unfold Run.output
  cases ioCommand cmd
  case smk | rpi | spi | ota | otb => exact write _ (quiet_of fun _ _ => rfl)
  case clir | enbl | dsbl | rns | dmae | dmad | tas | tah | tbs | tbh => exact openWrite _ (quiet_of fun _ _ => rfl)
  case wsw => exact status
  case co => exact console
  case go => exact go
  case mpen => exact plainOpen
  case rmk | rpir | rsw | rcfr | ita | itb | busInput | busOutput => exact plain

/-- An input command echoes a register, or reads the bus. -/
theorem input_shape {P : (Run → Got Word) → Prop} (cmd : Word)
    (echo : ∀ f : State → Word, (∀ g s, f (onRegs g s) = f s) → P fun r => r.echo cmd (f r.s))
    (clear : P fun r => { r.echo cmd r.s.ft with run := (r.ioWrite cmd r.s.ft).update State.clearFaults })
    (read : P fun r => r.ioRead cmd) : P fun r => r.input cmd := by
  unfold Run.input
  cases ioCommand cmd
  case rmk => exact echo State.mask fun _ _ => rfl
  case rpir => exact echo State.pir fun _ _ => rfl
  case rsw => exact echo State.sw fun _ _ => rfl
  case ita => exact echo State.ta fun _ _ => rfl
  case itb => exact echo State.tb fun _ _ => rfl
  case rcfr => exact clear
  all_goals exact read

/-! ## What a command leaves of the program -/

/-- The command has gone on as the program stood. -/
structure Attends (r r' : Run) : Prop where
  regs : r'.s.regs = r.s.regs
  ic : r'.s.ic = r.s.ic
  turns : r'.s.turns = r.s.turns
  mem : r'.s.mem = r.s.mem
  platform : r'.s.platform = r.s.platform
  aborted : r'.aborted = r.aborted
  halted : r'.halted = r.halted

section Attending

theorem Attends.refl (r : Run) : Attends r r := ⟨rfl, rfl, rfl, rfl, rfl, rfl, rfl⟩

theorem Attends.trans {q r t : Run} (h : Attends q r) (h' : Attends r t) : Attends q t :=
  ⟨h'.regs.trans h.regs, h'.ic.trans h.ic, h'.turns.trans h.turns, h'.mem.trans h.mem, h'.platform.trans h.platform,
    h'.aborted.trans h.aborted, h'.halted.trans h.halted⟩

theorem attends_update (r : Run) {f : State → State} (hf : Quiet f) : Attends r (r.update f) := by
  unfold Run.update
  split
  · exact .refl r
  · exact ⟨hf.regs r.s, hf.ic r.s, hf.turns r.s, hf.mem r.s, hf.platform r.s, rfl, rfl⟩

theorem attends_ioWrite (r : Run) (cmd d : Word) : Attends r (r.ioWrite cmd d) := by
  obtain ⟨ipr, opr, ram, latch, hchips⟩ := chipWrite_registers r.s cmd d
  unfold Run.ioWrite
  split
  · exact .refl r
  · split
    · rw [ioWrite_eq]
      exact ⟨rfl, rfl, rfl, rfl, rfl, rfl, rfl⟩
    · rw [State.busWrite, hchips, ioWrite_eq]
      exact ⟨rfl, rfl, rfl, rfl, rfl, rfl, rfl⟩

theorem attends_ioWriteOpen (r : Run) (cmd : Word) : Attends r (r.ioWriteOpen cmd) := by
  obtain ⟨ipr, opr, ram, latch, hchips⟩ := chipWrite_registers r.s cmd (Config.freeWord r.s.free)
  unfold Run.ioWriteOpen
  split
  · exact .refl r
  · split
    · rw [ioWrite_eq]
      exact ⟨rfl, rfl, rfl, rfl, rfl, rfl, rfl⟩
    · rw [State.busWrite, hchips, ioWrite_eq]
      exact ⟨rfl, rfl, rfl, rfl, rfl, rfl, rfl⟩

theorem attends_writeStatus (r : Run) (cmd d : Word) : Attends r (r.writeStatus cmd d) := by
  unfold Run.writeStatus
  split
  · exact ⟨rfl, rfl, rfl, rfl, rfl, rfl, rfl⟩
  · exact (attends_update r (quiet_of fun _ _ => rfl)).trans (attends_ioWrite _ cmd d)

theorem attends_goPulse (r : Run) : Attends r r.goPulse := by
  unfold Run.goPulse
  split
  · exact .refl r
  · exact ⟨rfl, rfl, rfl, rfl, rfl, rfl, rfl⟩

theorem attends_output (r : Run) (cmd d : Word) : Attends r (r.output cmd d) := by
  refine output_shape (P := fun f => ∀ r, Attends r (f r)) cmd d (fun f hf r => ?_) (fun f hf r => ?_) (fun r => ?_) (fun r => ?_)
    (fun r => ?_) r
  · exact (attends_update r hf).trans (attends_ioWrite _ cmd d)
  · exact (attends_update r hf).trans (attends_ioWriteOpen _ cmd)
  · exact attends_writeStatus r cmd d
  · dsimp only
    split
    · exact attends_ioWrite r cmd d
    · exact .refl r
  · exact (attends_goPulse r).trans (attends_ioWriteOpen _ cmd)

/-- A legal read. -/
theorem attends_ioRead (r : Run) {cmd : Word} (h : ioFlawAt r.s.platform .illegal cmd = false) : Attends r (r.ioRead cmd).run := by
  obtain ⟨v, inputs, n, hanswer⟩ := ioAnswer_outside r.s cmd
  unfold Run.ioRead
  rw [h, if_neg Bool.false_ne_true, hanswer]
  dsimp only
  rw [ioParity_eq]
  split
  · exact ⟨rfl, rfl, rfl, rfl, rfl, rfl, rfl⟩
  · exact ⟨rfl, rfl, rfl, rfl, rfl, rfl, rfl⟩

theorem attends_input (r : Run) {cmd : Word} (h : ioFlawAt r.s.platform .illegal cmd = false) : Attends r (r.input cmd).run := by
  refine input_shape (P := fun f => ∀ r : Run, ioFlawAt r.s.platform .illegal cmd = false → Attends r (f r).run) cmd
    (fun f _ r _ => ?_) (fun r _ => ?_) (fun r hr => ?_) r h
  · exact attends_ioWrite r cmd _
  · exact (attends_ioWrite r cmd _).trans (attends_update _ (quiet_of fun _ _ => rfl))
  · exact attends_ioRead r hr

end Attending

/-! ## The whole chain -/

/-- The registers, IC and the platform are as they were. -/
structure SameProgram (s t : State) : Prop where
  regs : t.regs = s.regs
  ic : t.ic = s.ic
  platform : t.platform = s.platform

theorem SameProgram.refl (s : State) : SameProgram s s := ⟨rfl, rfl, rfl⟩

theorem SameProgram.trans {s t u : State} (h : SameProgram s t) (h' : SameProgram t u) : SameProgram s u :=
  ⟨h'.regs.trans h.regs, h'.ic.trans h.ic, h'.platform.trans h.platform⟩

theorem Attends.same {r r' : Run} (h : Attends r r') : SameProgram r.s r'.s := ⟨h.regs, h.ic, h.platform⟩

/-- A state with those three of another. -/
theorem SameProgram.of_eq {s t u : State} (h : SameProgram s t) (hregs : u.regs = t.regs) (hic : u.ic = t.ic)
    (hplatform : u.platform = t.platform) : SameProgram s u := h.trans ⟨hregs, hic, hplatform⟩

section Same

variable {s : State} {r : Run}

theorem SameProgram.attends (h : SameProgram s r.s) {r' : Run} (ha : Attends r r') : SameProgram s r'.s :=
  h.trans ha.same

theorem SameProgram.turn (h : SameProgram s r.s) : SameProgram s r.turn.s := by
  obtain ⟨mem, ft, pir, trace, hturn⟩ := r.s.turn_frame
  unfold Run.turn
  split
  · exact h.of_eq rfl rfl rfl
  · rw [hturn]
    exact h.of_eq rfl rfl rfl

theorem SameProgram.read (h : SameProgram s r.s) (addr : Word) : SameProgram s (r.read addr).run.s := by
  unfold Run.read
  dsimp only
  split
  · exact h.of_eq rfl rfl rfl
  · split
    · exact h.of_eq rfl rfl rfl
    · exact h.of_eq rfl rfl rfl

theorem SameProgram.write (h : SameProgram s r.s) (addr v : Word) : SameProgram s (r.write addr v).s := by
  cases hhalted : r.halted
  case true =>
    rw [Run.write, hhalted, if_pos rfl]
    exact h.of_eq rfl rfl rfl
  case false =>
    rw [run_write_eq hhalted]
    exact h.of_eq rfl rfl rfl

theorem SameProgram.ioRead (h : SameProgram s r.s) (cmd : Word) : SameProgram s (r.ioRead cmd).run.s := by
  cases hlegal : ioFlawAt r.s.platform .illegal cmd
  case false => exact h.attends (attends_ioRead r hlegal)
  case true =>
    unfold Run.ioRead
    rw [hlegal, if_pos rfl, ioParity_eq]
    split
    · exact h.of_eq rfl rfl rfl
    · exact h.of_eq rfl rfl rfl

theorem SameProgram.ioWriteIgnored (h : SameProgram s r.s) (cmd : Word) (data : Option Word) :
    SameProgram s (r.ioWriteIgnored cmd data).s := by
  unfold Run.ioWriteIgnored
  rw [ioWrite_eq]
  split
  · split
    · exact h.of_eq rfl rfl rfl
    · rw [ioWrite_eq]
      exact h.of_eq rfl rfl rfl
  · exact h.of_eq rfl rfl rfl

theorem SameProgram.illegalElement (h : SameProgram s r.s) (cmd data : Word) :
    SameProgram s (r.illegalElement cmd data).run.s := by
  unfold Run.illegalElement
  split
  · exact h
  · split
    · exact h.ioRead cmd
    all_goals exact h.ioWriteIgnored cmd _

theorem SameProgram.element (h : SameProgram s r.s) (cmd addr : Word) : SameProgram s (r.element cmd addr).run.s := by
  unfold Run.element
  dsimp only
  split
  · cases hlegal : ioFlawAt r.turn.s.platform .illegal cmd
    case true => exact h.turn.illegalElement cmd 0
    case false => exact (h.turn.attends (attends_input r.turn hlegal)).turn.write addr _
  · have hread := (h.turn.read addr).turn
    split
    · exact hread.illegalElement cmd _
    · exact hread.attends (attends_output _ cmd _)

theorem SameProgram.chain (cmd stride sel : Word) (bits : List Nat) (addr : Word) (h : SameProgram s r.s) :
    SameProgram s (chain cmd stride sel bits addr r).s := by
  induction bits generalizing addr r with
  | nil => exact h
  | cons n bits ih =>
    have helement := h.element (cmd + BitVec.ofNat 16 n * stride) addr
    unfold Machine.chain
    split
    · dsimp only
      split
      · exact helement
      · exact ih (addr + 1) helement
    · exact ih addr h

end Same

end Sys2Proof.Proofs
end

