-- ==== Sys2Proof/Proofs/ChainElements.lean ====
section
/-! PROOF. The elements of a VIO chain on a machine that no other master disturbs (47_io.md R570). -/

namespace Sys2Proof.Proofs

open Sys2Proof.Machine

/-! ## One element -/

section Commands

variable {v : State} {cmd addr : Word}

theorem chipWrite_onRegs (g : Vector Word 16) (v : State) (cmd d : Word) :
    (onRegs g v).chipWrite cmd d = onRegs g (v.chipWrite cmd d) := by
  have hmmu : (onRegs g v).mmuPresent = v.mmuPresent := rfl
  have hbpu : (onRegs g v).bpuPresent = v.bpuPresent := rfl
  unfold State.chipWrite
  rw [hmmu, hbpu]
  repeat' split
  all_goals rfl

/-- A run with other general registers. -/
def runOnRegs (g : Vector Word 16) (r : Run) : Run := { r with s := onRegs g r.s }

theorem start_ioWrite_onRegs (g : Vector Word 16) (v : State) (cmd d : Word) :
    (onRegs g v).start.ioWrite cmd d = runOnRegs g (v.start.ioWrite cmd d) := by
  rw [start_ioWrite_eq, start_ioWrite_eq, chipWrite_onRegs]
  rfl

theorem start_ioWriteOpen_onRegs (g : Vector Word 16) (v : State) (cmd : Word) :
    (onRegs g v).start.ioWriteOpen cmd = runOnRegs g (v.start.ioWriteOpen cmd) := by
  rw [start_ioWriteOpen_eq, start_ioWriteOpen_eq, chipWrite_onRegs]
  rfl

/-- No output looks at the general registers. -/
theorem output_onRegs (g : Vector Word 16) (v : State) (cmd d : Word) :
    (onRegs g v).start.output cmd d = runOnRegs g (v.start.output cmd d) := by
  refine output_shape (P := fun f => ∀ v, f (onRegs g v).start = runOnRegs g (f v.start)) cmd d (fun f hf v => ?_) (fun f hf v => ?_)
    (fun v => ?_) (fun v => ?_) (fun v => ?_) v
  · dsimp only
    rw [State.start_update, State.start_update, hf.onRegs, start_ioWrite_onRegs]
  · dsimp only
    rw [State.start_update, State.start_update, hf.onRegs, start_ioWriteOpen_onRegs]
  · dsimp only
    have hrefuses : (onRegs g v).refusesStatus d = v.refusesStatus d := rfl
    unfold Run.writeStatus
    rw [State.start_s, State.start_s, State.start_aborted, State.start_aborted, hrefuses]
    split
    · rfl
    · exact start_ioWrite_onRegs g (v.setSw d) cmd d
  · dsimp only
    have hscr : (onRegs g v).start.s.scr = v.start.s.scr := rfl
    rw [hscr]
    split
    · exact start_ioWrite_onRegs g v cmd d
    · rfl
  · exact start_ioWriteOpen_onRegs g (v.emit .trigoRst) cmd

/-- A command that goes on leaves a run that goes on. -/
theorem Attends.start {r : Run} (h : Attends v.start r) : r = r.s.start := by
  obtain ⟨s, aborted, halted⟩ := r
  have haborted : aborted = false := h.aborted
  have hhalted : halted = false := h.halted
  rw [haborted, hhalted]
  rfl

theorem Attends.alone {r : Run} (h : Attends v.start r) (halone : v.alone = true) : r.s.alone = true := by
  have hturns : r.s.turns = v.turns := h.turns
  rw [State.alone, hturns]
  exact halone

theorem ioCommand_co (h : ioCommand cmd = .co) : cmd = 0x4000 := by
  have hcmd : BitVec.ofNat 16 cmd.toNat = cmd := by simp
  unfold ioCommand at h
  split at h
  case h_9 hnumber => exact hcmd.symm.trans (congrArg (BitVec.ofNat 16) hnumber)
  case h_26 => split at h <;> cases h
  all_goals cases h

theorem ioCommand_wsw (h : ioCommand cmd = .wsw) : cmd = 0x200E := by
  have hcmd : BitVec.ofNat 16 cmd.toNat = cmd := by simp
  unfold ioCommand at h
  split at h
  case h_8 hnumber => exact hcmd.symm.trans (congrArg (BitVec.ofNat 16) hnumber)
  case h_26 => split at h <;> cases h
  all_goals cases h

/-- A command that is to be carried out makes its cycle as the statements say. -/
theorem issues_eq (v : State) (cmd d : Word) : v.issues false cmd d = Shape.issues v cmd d := by
  by_cases hco : cmd = 0x4000
  · subst hco
    have hissues : v.issues false 0x4000 d = bitOf v.scr 2 := rfl
    have hshape : Shape.issues v 0x4000 d = ((false || bitOf v.scr 2) && true) := rfl
    rw [hissues, hshape, Bool.false_or, Bool.and_true]
  · by_cases hwsw : cmd = 0x200E
    · subst hwsw
      have hissues : v.issues false 0x200E d = (false || !v.refusesStatus d) := rfl
      have hshape : Shape.issues v 0x200E d = (true && (false || bitOf v.scr 0 || decide (asField d = 0))) := rfl
      have hzero : (asField d != 0) = !decide (asField d = 0) := rfl
      rw [hissues, hshape, State.refusesStatus, hzero]
      cases bitOf v.scr 0
      · cases decide (asField d = 0) <;> rfl
      · rfl
    · have hshape : Shape.issues v cmd d = true := by
        rw [Shape.issues, bne_iff_ne.mpr hco, bne_iff_ne.mpr hwsw]
        rfl
      rw [hshape, State.issues]
      cases hkind : ioCommand cmd
      case co => exact absurd (ioCommand_co hkind) hco
      case wsw => exact absurd (ioCommand_wsw hkind) hwsw
      all_goals rfl

/-- An output whose data word is read, and whose cycle is legal where it makes one. -/
theorem element_output (halone : v.alone = true) (hout : bitOf cmd 0 = false) (hread : v.readable addr = true)
    (hgo : (ioFlawAt v.platform .illegal cmd && Shape.issues v cmd (v.loaded addr)) = false) :
    v.start.element cmd addr = { run := v.start.output cmd (v.loaded addr), stopped := false } := by
  have hhalted := (attends_output v.start cmd (v.loaded addr)).halted
  unfold Run.element
  rw [isInput, hout, if_neg Bool.false_ne_true, State.start_turn_alone halone, State.read_clean v hread]
  dsimp only
  rw [State.given_run, State.given_val, State.start_turn_alone halone, State.start_s, State.start_aborted, issues_eq, hgo,
    if_neg Bool.false_ne_true, hhalted]
  rfl

/-- An input whose cycle is legal. -/
theorem element_input (halone : v.alone = true) (hin : bitOf cmd 0 = true) (hlegal : ioFlawAt v.platform .illegal cmd = false) :
    v.start.element cmd addr =
      { run := (v.start.input cmd).run.s.start.write addr (v.start.input cmd).val, stopped := false } := by
  have hattends := attends_input v.start (cmd := cmd) hlegal
  have hrun := hattends.start
  have halone' := hattends.alone halone
  have hhalted : ((v.start.input cmd).run.s.start.write addr (v.start.input cmd).val).halted = false := by rw [run_write_eq rfl]
  unfold Run.element
  rw [isInput, hin, if_pos rfl, State.start_turn_alone halone, State.start_s, hlegal, if_neg Bool.false_ne_true]
  dsimp only
  rw [hrun, State.start_turn_alone halone', State.start_s, hhalted]

theorem indexed_zero (v : State) (cmd : Word) : v.indexed cmd 0 = cmd := if_pos rfl

/-- XIO with the data word in R0. -/
theorem xio_output_state (d : Word) (hak : akField v.sw = 0) (hout : bitOf cmd 0 = false) : exec (.xio 0 0 cmd) (v.setReg 0 d) =
    .next ((onRegs (v.setReg 0 d).regs (v.start.output cmd d).s).past 2) := by
  have hstate : v.setReg 0 d = onRegs (v.setReg 0 d).regs v := rfl
  have hreg : (v.setReg 0 d).reg 0 = d := State.reg_setReg_same v 0 d
  rw [exec_xio_output (s := v.setReg 0 d) hak (by rw [indexed_zero]; exact hout), indexed_zero, hreg]
  conv_lhs => rw [hstate, output_onRegs]
  rfl

theorem xio_input_state (rb : Reg) (hak : akField v.sw = 0) (hin : bitOf cmd 0 = true)
    (hlegal : ioFlawAt v.platform .illegal cmd = false) :
    exec (.xio rb 0 cmd) v = .next (((v.start.input cmd).run.s.setReg rb (v.start.input cmd).val).past 2) := by
  rw [exec_xio_input hak (by rw [indexed_zero]; exact hin), indexed_zero, (attends_input v.start (cmd := cmd) hlegal).start]
  rfl

theorem SameProgram.restored {w : State} (h : SameProgram v w) : { w with regs := v.regs, ic := v.ic } = w := by
  rw [← h.regs, ← h.ic]

/-- A store that draws neither MEM PRT ER nor PAR ER. -/
theorem afterWrite_kept {w : State} {c : Cycle} (h : cycleAborts c = false) (d : Word) : afterWrite w c false d = { w with
    ft := w.ft ||| Shape.cycleFaults c
    pir := w.pir ||| pendingIf c.absent 1
    mem := if c.clean && !w.writesBlocked then w.mem.writeWord c.phys d else w.mem } := by
  obtain ⟨phys, protect, parity, absent⟩ := c
  obtain ⟨hprotect, hparity⟩ : protect = false ∧ parity = false := by simpa [cycleAborts] using h
  subst hprotect hparity
  cases absent
  · rfl
  · rfl

/-- Every input makes its cycle. -/
theorem issues_input (v : State) (d : Word) (hin : bitOf cmd 0 = true) : Shape.issues v cmd d = true := by
  have hco : cmd ≠ 0x4000 := by
    rintro rfl
    exact absurd hin (by decide)
  have hwsw : cmd ≠ 0x200E := by
    rintro rfl
    exact absurd hin (by decide)
  rw [Shape.issues, bne_iff_ne.mpr hco, bne_iff_ne.mpr hwsw]
  rfl

/-- The element of the statements is the element of the chain. -/
theorem element_some {v' : State} (halone : v.alone = true) (h : Shape.element v cmd addr = some v') :
    v.start.element cmd addr = { run := v'.start, stopped := false } ∧ v'.alone = true ∧ SameProgram v v' ∧
      (v.mem.wf = true → v'.mem.wf = true) := by
  unfold Shape.element at h
  dsimp only at h
  split at h
  · cases h
  next hgo =>
  obtain ⟨hak, hcycle⟩ := not_or.mp hgo
  have hak' : akField v.sw = 0 := Decidable.not_not.mp hak
  have hcycle' : (ioFlawAt v.platform .illegal cmd && Shape.issues v cmd (v.loaded addr)) = false := by simpa using hcycle
  split at h
  next hin =>
    have hlegal : ioFlawAt v.platform .illegal cmd = false := by
      rw [issues_input v _ hin, Bool.and_true] at hcycle'
      exact hcycle'
    have hattends := attends_input v.start (cmd := cmd) hlegal
    rw [xio_input_state 0 hak' hin hlegal] at h
    dsimp only at h
    split at h
    · cases h
    next hkept =>
    have hsame : SameProgram v (v.start.input cmd).run.s := hattends.same
    have halone' := hattends.alone halone
    have hmem : (v.start.input cmd).run.s.mem = v.mem := hattends.mem
    rw [element_input halone hin hlegal, run_write_eq rfl]
    generalize (v.start.input cmd).run.s = w at *
    have hkept' : cycleAborts (w.ownCycle .write addr) = false := by simpa [cycleAborts] using hkept
    have hv' : v' = afterWrite w (w.ownCycle .write addr) false (v.start.input cmd).val := by
      rw [afterWrite_kept hkept']
      have hreg : ((w.setReg 0 (v.start.input cmd).val).past 2).reg 0 = (v.start.input cmd).val := State.reg_setReg_same w 0 _
      refine (Option.some.inj h).symm.trans ?_
      rw [hreg, ← hsame.regs, ← hsame.ic]
      rfl
    rw [State.start_s, State.start_aborted, hkept', hv']
    refine ⟨rfl, halone', hsame.of_eq rfl rfl rfl, fun hwf => ?_⟩
    rw [afterWrite_kept hkept', ← hmem] at *
    dsimp only
    split
    · exact Memory.wf_writeWord _ _ hwf
    · exact hwf
  next hout =>
    split at h
    next hread =>
      have hattends := attends_output v.start cmd (v.loaded addr)
      have hsame : SameProgram v (v.start.output cmd (v.loaded addr)).s := hattends.same
      rw [xio_output_state _ hak' (by simpa using hout)] at h
      have hv' : v' = (v.start.output cmd (v.loaded addr)).s := (Option.some.inj h).symm.trans hsame.restored
      rw [element_output halone (by simpa using hout) hread hcycle', hattends.start, hv']
      exact ⟨rfl, hattends.alone halone, hsame, fun hwf => by rw [hattends.mem]; exact hwf⟩
    · cases h

end Commands

/-! ## The elements one after another -/

/-- The elements of the bits that are selected, from `addr` on. -/
def follow (base stride : Word) : List Nat → Word → Run → Run
  | [], _, r => r
  | n :: ns, addr, r =>
    let e := r.element (base + BitVec.ofNat 16 n * stride) addr
    if e.stopped then e.run else follow base stride ns (addr + 1) e.run

section Follow

variable {base stride sel : Word} {v v' : State}

theorem chain_eq_follow (bits : List Nat) (addr : Word) (r : Run) :
    chain base stride sel bits addr r = follow base stride (bits.filter fun n => bitOf sel n) addr r := by
  induction bits generalizing addr r with
  | nil => rfl
  | cons n bits ih =>
    unfold chain
    cases hbit : bitOf sel n
    case false =>
      rw [List.filter_cons_of_neg (by simp [hbit])]
      exact ih addr r
    case true =>
      rw [List.filter_cons_of_pos (by simp [hbit]), follow, if_pos rfl]
      dsimp only
      rw [ih]

/-- As far as no element faults the chain goes as the statements say. -/
theorem follow_elements (ns rest : List Nat) {addr : Word} (halone : v.alone = true)
    (h : Shape.elements base stride ns addr v = some v') :
    follow base stride (ns ++ rest) addr v.start = follow base stride rest (addr + BitVec.ofNat 16 ns.length) v'.start ∧
      v'.alone = true ∧ SameProgram v v' ∧ (v.mem.wf = true → v'.mem.wf = true) := by
  induction ns generalizing addr v with
  | nil =>
    obtain rfl := Option.some.inj h
    have hzero : addr + BitVec.ofNat 16 0 = addr := BitVec.add_zero addr
    rw [List.nil_append, List.length_nil, hzero]
    exact ⟨rfl, halone, .refl v, id⟩
  | cons n ns ih =>
    rw [Shape.elements, Option.bind_eq_some_iff] at h
    obtain ⟨w, hw, hrest⟩ := h
    obtain ⟨helement, halone', hsame, hwf⟩ := element_some halone hw
    obtain ⟨hfollow, halone'', hsame', hwf'⟩ := ih halone' hrest
    have haddr : addr + 1 + BitVec.ofNat 16 ns.length = addr + BitVec.ofNat 16 (ns.length + 1) := by
      rw [BitVec.add_assoc, BitVec.add_comm (1 : Word), BitVec.ofNat_add]
      rfl
    refine ⟨?_, halone'', hsame.trans hsame', hwf' ∘ hwf⟩
    rw [List.cons_append, follow, helement, List.length_cons, ← haddr]
    exact hfollow

/-- VIO as its chain. -/
theorem exec_vio (ra rx : Reg) (a : Word) {s : State} (hak : akField s.sw = 0) : exec (.vio ra rx a) s =
    (follow (s.start.read (s.indexed a rx)).val (s.reg ra)
      ((List.range 16).filter fun n => bitOf ((s.start.read (s.indexed a rx)).run.turn.read (s.indexed a rx + 1)).val n)
      (s.indexed a rx + 2) ((s.start.read (s.indexed a rx)).run.turn.read (s.indexed a rx + 1)).run).next 2 := by
  have harm : exec (.vio ra rx a) s = execVio ra rx a s := rfl
  have hpriv : s.privileged = true := decide_eq_true hak
  rw [harm, execVio, if_pos hpriv]
  dsimp only
  rw [chain_eq_follow]
  rfl

/-- The words of the table that can be read. -/
theorem readableSpan_two {s : State} {addr : Word} {n : Nat} (hn : 2 ≤ n) (h : s.readableSpan addr n = true) :
    s.alone = true ∧ ∀ k < n, s.readable (addr + BitVec.ofNat 16 k) = true := by
  rw [State.readableSpan, Bool.and_eq_true, List.all_eq_true] at h
  obtain ⟨hall, halone⟩ := h
  refine ⟨?_, fun k hk => hall k (List.mem_range.mpr hk)⟩
  rw [Bool.or_eq_true] at halone
  exact halone.resolve_left (by simp; omega)

theorem exec_vio_readable (ra rx : Reg) (a : Word) {s : State} {n : Nat} (hak : akField s.sw = 0) (hn : 2 ≤ n)
    (h : s.readableSpan (s.indexed a rx) n = true) : exec (.vio ra rx a) s =
    (follow (s.loaded (s.indexed a rx)) (s.reg ra)
      ((List.range 16).filter fun n => bitOf (s.loaded (s.indexed a rx + 1)) n) (s.indexed a rx + 2) s.start).next 2 := by
  obtain ⟨halone, hall⟩ := readableSpan_two hn h
  have hzero : s.indexed a rx + BitVec.ofNat 16 0 = s.indexed a rx := BitVec.add_zero _
  have hfirst := hall 0 (by omega)
  rw [hzero] at hfirst
  have hsecond : s.readable (s.indexed a rx + 1) = true := hall 1 (by omega)
  rw [exec_vio ra rx a hak, State.read_clean s hfirst, State.given_run, State.given_val, State.start_turn_alone halone,
    State.read_clean s hsecond, State.given_run, State.given_val]

end Follow

end Sys2Proof.Proofs
end

