-- ==== Sys2Proof/Proofs/ChainAborted.lean ====
section
/-! PROOF. A VIO chain that a memory cycle has aborted (47_io.md R570, 60_exceptions.md R664). -/

namespace Sys2Proof.Proofs

open Sys2Proof.Machine

/-! ## What an aborted chain leaves -/

/-- `s` with more in FT, PIR bit 1, and other values of what its cycles may change. -/
def spoil (s : State) (f : Word) (events : List BusEvent) (n : Nat) (m : Memory) (inputs : List Word) : State :=
  { s with ft := s.ft ||| f, pir := s.pir ||| oneBit 1, trace := events, free := n, mem := m, ioIn := inputs }

/-- The byte belongs to none of the sixteen words from `addr` on. -/
def Outside (s : State) (addr : Word) (b : Nat) : Prop :=
  ∀ k < 16, b ≠ 2 * (s.place (addr + BitVec.ofNat 16 k)).toNat ∧ b ≠ 2 * (s.place (addr + BitVec.ofNat 16 k)).toNat + 1

/-- A store at one of those words. -/
theorem readByte_outside {s : State} {addr : Word} {k b : Nat} {m : Memory} (hk : k < 16) (hwf : m.wf = true) (w : Word)
    (hb : Outside s addr b) : (m.writeWord (s.place (addr + BitVec.ofNat 16 k)) w).readByte b = m.readByte b := by
  obtain ⟨hlow, hhigh⟩ := hb k hk
  rw [Memory.readByte_writeWord _ w b hwf, if_neg hhigh, if_neg hlow]

/-- An aborted run that has changed, since `s`, FT, PIR bit 1, what is shown outside, and memory in those words only. -/
def Spoiled (s : State) (bits addr : Word) (r : Run) : Prop :=
  ∃ f events n m inputs, r = { s := spoil s (bits ||| f) events n m inputs, aborted := true, halted := false } ∧
    m.wf = true ∧ ∀ b, Outside s addr b → m.readByte b = s.mem.readByte b

section Cycles

variable {s : State} {bits addr : Word} {r : Run}

theorem Spoiled.turn (h : Spoiled s bits addr r) (halone : s.alone = true) : r.turn = r := by
  obtain ⟨f, events, n, m, inputs, rfl, -, -⟩ := h
  exact Run.turn_alone halone

theorem Spoiled.update (h : Spoiled s bits addr r) (g : State → State) : Spoiled s bits addr (r.update g) := by
  obtain ⟨f, events, n, m, inputs, rfl, -, -⟩ := id h
  exact h

/-- More faults. -/
theorem spoiled_more {f g p : Word} {events : List BusEvent} {n : Nat} {m : Memory} {inputs : List Word}
    (hp : s.pir ||| oneBit 1 ||| p = s.pir ||| oneBit 1) (hwf : m.wf = true)
    (hbytes : ∀ b, Outside s addr b → m.readByte b = s.mem.readByte b) : Spoiled s bits addr
      { s := { s with
          ft := s.ft ||| (bits ||| f) ||| g
          pir := s.pir ||| oneBit 1 ||| p
          trace := events
          free := n
          mem := m
          ioIn := inputs }
        aborted := true
        halted := false } := by
  refine ⟨f ||| g, events, n, m, inputs, ?_, hwf, hbytes⟩
  rw [hp, BitVec.or_assoc, BitVec.or_assoc]
  rfl

theorem Spoiled.ioWritten (h : Spoiled s bits addr r) (cmd d : Word) :
    Spoiled s bits addr { r with s := (Shape.ioWritten r.s cmd d).useFree 1 } := by
  obtain ⟨f, events, n, m, inputs, rfl, hwf, hbytes⟩ := h
  have hft : (spoil s (bits ||| f) events n m inputs).ft ||| pendingIf (ioFlawAt s.platform .illegal cmd) 5 |||
      pendingIf (ioFlawAt s.platform .parity cmd) 2 =
      s.ft ||| (bits ||| f) ||| (pendingIf (ioFlawAt s.platform .illegal cmd) 5 ||| pendingIf (ioFlawAt s.platform .parity cmd) 2) :=
    BitVec.or_assoc _ _ _
  have hmore := spoiled_more (s := s) (bits := bits) (addr := addr) (f := f)
    (g := pendingIf (ioFlawAt s.platform .illegal cmd) 5 ||| pendingIf (ioFlawAt s.platform .parity cmd) 2)
    (events := .ioWrite cmd d :: events) (n := n + 1) (inputs := inputs) (pir_raised s.pir (s.ioFaulty cmd)) hwf hbytes
  rw [← hft] at hmore
  exact hmore

theorem Spoiled.flags (h : Spoiled s bits addr r) : r.aborted = true ∧ r.halted = false := by
  obtain ⟨f, events, n, m, inputs, rfl, -, -⟩ := h
  exact ⟨rfl, rfl⟩

theorem Spoiled.ioWrite (h : Spoiled s bits addr r) (cmd d : Word) : Spoiled s bits addr (r.ioWrite cmd d) := by
  obtain ⟨haborted, hhalted⟩ := h.flags
  rw [ioWrite_aborted cmd d haborted hhalted]
  exact h.ioWritten cmd _

theorem Spoiled.ioWriteOpen (h : Spoiled s bits addr r) (cmd : Word) : Spoiled s bits addr (r.ioWriteOpen cmd) := by
  obtain ⟨haborted, hhalted⟩ := h.flags
  rw [Run.ioWriteOpen, hhalted, haborted, ioWrite_eq, if_neg Bool.false_ne_true, if_pos rfl]
  have hwritten := h.ioWritten cmd (Config.freeWord r.s.free)
  rw [hhalted, haborted] at hwritten
  exact hwritten

theorem Spoiled.goPulse (h : Spoiled s bits addr r) : Spoiled s bits addr r.goPulse := by
  obtain ⟨f, events, n, m, inputs, rfl, hwf, hbytes⟩ := h
  exact ⟨f, .trigoRst :: events, n, m, inputs, rfl, hwf, hbytes⟩

/-- The commands of an aborted chain change nothing. -/
theorem Spoiled.output (h : Spoiled s bits addr r) (cmd d : Word) : Spoiled s bits addr (r.output cmd d) := by
  refine output_shape (P := fun f => ∀ r, Spoiled s bits addr r → Spoiled s bits addr (f r)) cmd d (fun f _ r hr => ?_)
    (fun f _ r hr => ?_) (fun r hr => ?_) (fun r hr => ?_) (fun r hr => ?_) r h
  · exact (hr.update f).ioWrite cmd d
  · exact (hr.update f).ioWriteOpen cmd
  · dsimp only
    rw [Run.writeStatus, hr.flags.1, if_neg (by simp)]
    exact (hr.update _).ioWrite cmd d
  · dsimp only
    split
    · exact hr.ioWrite cmd d
    · exact hr
  · exact hr.goPulse.ioWriteOpen cmd

theorem Spoiled.ioRead (h : Spoiled s bits addr r) (cmd : Word) : Spoiled s bits addr (r.ioRead cmd).run := by
  obtain ⟨f, events, n, m, inputs, rfl, hwf, hbytes⟩ := h
  have hpir : oneBit 1 = 0x4000 := by decide
  cases hlegal : ioFlawAt s.platform .illegal cmd
  case false =>
    obtain ⟨v, inputs', n', hanswer⟩ := ioAnswer_outside (spoil s (bits ||| f) events n m inputs) cmd
    have hmore := spoiled_more (s := s) (bits := bits) (addr := addr) (f := f) (g := pendingIf (ioFlawAt s.platform .parity cmd) 2)
      (events := .ioRead cmd v :: events) (n := n') (inputs := inputs') (pir_raised s.pir (ioFlawAt s.platform .parity cmd)) hwf hbytes
    have hflaw : ioFlawAt (spoil s (bits ||| f) events n m inputs).platform .illegal cmd = false := hlegal
    rw [Run.ioRead, hflaw, if_neg Bool.false_ne_true, if_neg Bool.false_ne_true, hanswer]
    dsimp only
    rw [ioParity_eq]
    exact hmore
  case true =>
    have hflaw : ioFlawAt (spoil s (bits ||| f) events n m inputs).platform .illegal cmd = true := hlegal
    have hmore := spoiled_more (s := s) (bits := bits) (addr := addr) (f := f)
      (g := 0x0400 ||| pendingIf (ioFlawAt s.platform .parity cmd) 2) (p := 0x4000 ||| pendingIf (ioFlawAt s.platform .parity cmd) 1)
      (events := .majEr :: .ioRead cmd (Config.freeWord n) :: events) (n := n + 1) (inputs := inputs) (by
        rw [← hpir, ← BitVec.or_assoc, BitVec.or_assoc s.pir, BitVec.or_self, pir_raised]) hwf hbytes
    rw [← BitVec.or_assoc, ← BitVec.or_assoc (s.ft ||| (bits ||| f))] at hmore
    rw [Run.ioRead, hflaw, if_neg Bool.false_ne_true, if_pos rfl, ioParity_eq]
    exact hmore

theorem Spoiled.input (h : Spoiled s bits addr r) (cmd : Word) : Spoiled s bits addr (r.input cmd).run := by
  refine input_shape (P := fun f => ∀ r, Spoiled s bits addr r → Spoiled s bits addr (f r).run) cmd (fun f _ r hr => ?_)
    (fun r hr => ?_) (fun r hr => ?_) r h
  · exact hr.ioWrite cmd _
  · exact (hr.ioWrite cmd _).update _
  · exact hr.ioRead cmd

theorem Spoiled.ioWriteIgnored (h : Spoiled s bits addr r) (cmd : Word) (data : Option Word) :
    Spoiled s bits addr (r.ioWriteIgnored cmd data) := by
  have hwritten := h.ioWritten cmd (Config.freeWord r.s.free)
  rw [← ioWrite_eq] at hwritten
  unfold Run.ioWriteIgnored
  split
  · rw [h.flags.1, if_pos rfl]
    rw [h.flags.1] at hwritten
    exact hwritten
  · exact hwritten

theorem Spoiled.illegalElement (h : Spoiled s bits addr r) (cmd data : Word) :
    Spoiled s bits addr (r.illegalElement cmd data).run := by
  unfold Run.illegalElement
  rw [h.flags.2, if_neg Bool.false_ne_true]
  split
  · exact h.ioRead cmd
  all_goals exact h.ioWriteIgnored cmd _

theorem Spoiled.read (h : Spoiled s bits addr r) (a : Word) : Spoiled s bits addr (r.read a).run := by
  obtain ⟨f, events, n, m, inputs, rfl, hwf, hbytes⟩ := id h
  have hpir : oneBit 1 = 0x4000 := by decide
  have hmore := spoiled_more (s := s) (bits := bits) (addr := addr) (f := f) (g := (s.ownCycle .read a).bits) (p := 0x4000)
    (events := .majEr :: events) (n := n + 1) (inputs := inputs) (by rw [← hpir, BitVec.or_assoc, BitVec.or_self]) hwf hbytes
  unfold Run.read
  dsimp only
  split
  next hhalted => exact absurd hhalted Bool.false_ne_true
  split
  · exact h
  · exact hmore

/-- A store of an aborted chain. -/
theorem Spoiled.write (h : Spoiled s bits addr r) {k : Nat} (hk : k < 16) (d : Word) :
    Spoiled s bits addr (r.write (addr + BitVec.ofNat 16 k) d) := by
  obtain ⟨f, events, n, m, inputs, rfl, hwf, hbytes⟩ := h
  rw [run_write_eq rfl]
  have hplace : (s.ownCycle .write (addr + BitVec.ofNat 16 k)).phys = s.place (addr + BitVec.ofNat 16 k) := rfl
  have hcycle : (spoil s (bits ||| f) events n m inputs).ownCycle .write (addr + BitVec.ofNat 16 k) =
    s.ownCycle .write (addr + BitVec.ofNat 16 k) := rfl
  dsimp only
  rw [hcycle]
  generalize s.ownCycle .write (addr + BitVec.ofNat 16 k) = c at *
  have hstored : ∀ w : Word, (m.writeWord c.phys w).wf = true ∧
      ∀ b, Outside s addr b → (m.writeWord c.phys w).readByte b = s.mem.readByte b := fun w => by
    rw [hplace]
    exact ⟨Memory.wf_writeWord _ w hwf, fun b hb => (readByte_outside hk hwf w hb).trans (hbytes b hb)⟩
  unfold afterWrite
  dsimp only
  cases (spoil s (bits ||| f) events n m inputs).lands c
  case false => exact spoiled_more (pir_raised s.pir (!c.clean)) hwf hbytes
  case true => exact spoiled_more (pir_raised s.pir (!c.clean)) (hstored _).1 (hstored _).2

end Cycles

/-! ## The rest of the chain -/

section Rest

variable {s : State} {bits addr : Word} {r : Run}

/-- The command of an output, once its data word has been asked for. -/
theorem Spoiled.command (h : Spoiled s bits addr r) (illegal : Bool) (cmd d : Word) : Spoiled s bits addr
    (if illegal then r.illegalElement cmd d else { run := r.output cmd d, stopped := (r.output cmd d).halted }).run := by
  split
  · exact h.illegalElement cmd d
  · exact h.output cmd d

theorem Spoiled.element (h : Spoiled s bits addr r) (halone : s.alone = true) (cmd : Word) {k : Nat} (hk : k < 16) :
    Spoiled s bits addr (r.element cmd (addr + BitVec.ofNat 16 k)).run := by
  have hread := h.read (addr + BitVec.ofNat 16 k)
  unfold Run.element
  rw [h.turn halone]
  dsimp only
  split
  · split
    · exact h.illegalElement cmd 0
    · rw [(h.input cmd).turn halone]
      exact (h.input cmd).write hk _
  · rw [hread.turn halone]
    exact hread.command _ cmd _

theorem Spoiled.follow (halone : s.alone = true) (base stride : Word) (ns : List Nat) {k : Nat} (hk : k + ns.length ≤ 16)
    (h : Spoiled s bits addr r) : Spoiled s bits addr (follow base stride ns (addr + BitVec.ofNat 16 k) r) := by
  induction ns generalizing k r with
  | nil => exact h
  | cons n ns ih =>
    rw [List.length_cons] at hk
    have helement := h.element halone (base + BitVec.ofNat 16 n * stride) (k := k) (by omega)
    have haddr : addr + BitVec.ofNat 16 k + 1 = addr + BitVec.ofNat 16 (k + 1) := by
      rw [BitVec.add_assoc, BitVec.ofNat_add]
      rfl
    unfold Proofs.follow
    dsimp only
    split
    · exact helement
    · rw [haddr]
      exact ih (by omega) helement

/-- What the statements say of an aborted VIO. -/
theorem Spoiled.vioAborted (h : Spoiled s bits addr r) (len : Word) :
    ∃ t, r.next len = .next t ∧ Shape.VioAborted s bits addr t := by
  obtain ⟨f, events, n, m, inputs, rfl, hwf, hbytes⟩ := h
  have hft : (s.ft ||| (bits ||| f)) &&& (s.ft ||| bits) = s.ft ||| bits := by
    rw [← BitVec.or_assoc]
    apply BitVec.eq_of_getLsbD_eq
    intro i _
    simp only [BitVec.getLsbD_and, BitVec.getLsbD_or]
    cases s.ft.getLsbD i || bits.getLsbD i <;> simp
  exact ⟨_, rfl, rfl, rfl, rfl, rfl, rfl, rfl, rfl, rfl, rfl, rfl, rfl, rfl, rfl, rfl, rfl, rfl, hft, hbytes⟩

/-- A read that draws a fault begins an aborted chain. -/
theorem spoiled_read {a : Word} (addr : Word) (hwf : s.mem.wf = true) (h : s.readable a = false) :
    Spoiled s (Shape.cycleFaults (s.ownCycle .read a)) addr (s.start.read a).run := by
  have hpir : oneBit 1 = 0x4000 := by decide
  have hnone : Shape.cycleFaults (s.ownCycle .read a) ||| 0 = Shape.cycleFaults (s.ownCycle .read a) := BitVec.or_zero
  refine ⟨0, .majEr :: s.trace, s.free + 1, s.mem, s.ioIn, ?_, hwf, fun _ _ => rfl⟩
  rw [State.read_faulty s h, hnone, ← bits_eq_cycleFaults, spoil, hpir]
  rfl

/-- So does a store that draws MEM PRT ER or PAR ER. -/
theorem spoiled_write {k : Nat} (hk : k < 16) (hwf : s.mem.wf = true) (d : Word)
    (h : cycleAborts (s.ownCycle .write (addr + BitVec.ofNat 16 k)) = true) :
    Spoiled s (Shape.cycleFaults (s.ownCycle .write (addr + BitVec.ofNat 16 k))) addr
      (s.start.write (addr + BitVec.ofNat 16 k) d) := by
  have hplace : (s.ownCycle .write (addr + BitVec.ofNat 16 k)).phys = s.place (addr + BitVec.ofNat 16 k) := rfl
  rw [run_write_eq rfl, State.start_s, h, Bool.or_true]
  generalize s.ownCycle .write (addr + BitVec.ofNat 16 k) = c at *
  have hclean : c.clean = false := by
    cases hc : c.clean
    · rfl
    · rw [cycleAborts_of_clean hc] at h
      exact h.symm
  have hspoiled : ∀ (n : Nat) (m : Memory), m.wf = true → (∀ b, Outside s addr b → m.readByte b = s.mem.readByte b) →
      Spoiled s (Shape.cycleFaults c) addr
        { s := { faulted s c with free := n, mem := m }, aborted := true, halted := false } := fun n m hm hbytes => by
    have hnone : Shape.cycleFaults c ||| 0 = Shape.cycleFaults c := BitVec.or_zero
    refine ⟨0, abortPulse c ++ s.trace, n, m, s.ioIn, ?_, hm, hbytes⟩
    rw [hnone, faulted, hclean]
    rfl
  unfold afterWrite
  dsimp only
  cases s.lands c
  case false => exact hspoiled _ _ hwf fun _ _ => rfl
  case true =>
    refine hspoiled _ _ (Memory.wf_writeWord _ _ hwf) fun b hb => ?_
    rw [hplace]
    exact readByte_outside hk hwf _ hb

end Rest

end Sys2Proof.Proofs
end

