-- ==== Sys2Proof/Proofs/Vectored.lean ====
section
/-! PROOF. VIO with AK = 0 (47_io.md R570). -/

namespace Sys2Proof.Proofs

open Sys2Proof.Machine

/-! ## The selected elements -/

/-- One bit of the select word selects one element. -/
theorem chosen_oneBit (n : Fin 16) : ((List.range 16).filter fun k => bitOf (oneBit n.val) k) = [n.val] := by
  revert n
  decide

theorem chosen_zero : ((List.range 16).filter fun k => bitOf (0 : Word) k) = [] := by
  decide

section Chain

variable {s v : State} {cmd addr : Word}

/-! ## Inputs -/

/-- The chips decode no input from a write. -/
theorem chipWrite_input (s : State) (d : Word) (hin : bitOf cmd 0 = true) : s.chipWrite cmd d = s := by
  have hbyte : 0x80 ≤ cmd.toNat / 256 := by
    have hmsb : cmd.msb = true := by
      rw [BitVec.msb_eq_getLsbD_last]
      exact hin
    rw [BitVec.msb_eq_decide, decide_eq_true_eq] at hmsb
    omega
  rw [← upper_toNat] at hbyte
  unfold State.chipWrite
  split
  case h_5 => rfl
  all_goals
    rename_i hpage
    rw [hpage] at hbyte
    exact absurd hbyte (by decide)

theorem ioWrite_input_frame (v : State) (d : Word) (hin : bitOf cmd 0 = true) :
    ∃ ft pir events n inputs, (v.start.ioWrite cmd d).s = { v with ft := ft, pir := pir, trace := events, free := n, ioIn := inputs } := by
  rw [start_ioWrite_eq, chipWrite_input v d hin]
  exact ⟨_, _, _, _, v.ioIn, rfl⟩

/-- An input changes no register but FT and PIR. -/
theorem input_frame (v : State) (hin : bitOf cmd 0 = true) (hlegal : ioFlawAt v.platform .illegal cmd = false) :
    ∃ ft pir events n inputs,
      (v.start.input cmd).run.s = { v with ft := ft, pir := pir, trace := events, free := n, ioIn := inputs } := by
  refine input_shape (P := fun f => ∃ ft pir events n inputs,
    (f v.start).run.s = { v with ft := ft, pir := pir, trace := events, free := n, ioIn := inputs }) cmd (fun f _ => ?_) ?_ ?_
  · exact ioWrite_input_frame v _ hin
  · obtain ⟨ft, pir, events, n, inputs, hs⟩ := ioWrite_input_frame v v.ft hin
    have hstart := (attends_ioWrite v.start cmd v.ft).start
    refine ⟨0, pir &&& ~~~ oneBit 1, events, n, inputs, ?_⟩
    rw [hs] at hstart
    dsimp only
    rw [State.start_s, hstart]
    rfl
  · obtain ⟨x, inputs, n, hanswer⟩ := ioAnswer_outside v cmd
    dsimp only
    rw [start_ioRead_answered hlegal hanswer]
    exact ⟨_, _, _, _, _, rfl⟩

/-! ## Outputs that only go to the bus -/

theorem element_external (h : Shape.externalOutput v cmd) (hclean : v.ioFaulty cmd = false) (hak : akField v.sw = 0)
    (hread : v.readable addr = true) : Shape.element v cmd addr = some (v.emit (.ioWrite cmd (v.loaded addr))) := by
  obtain ⟨hlegal, hparity⟩ := ioFaulty_false hclean
  obtain ⟨hout, hwsw, hco, hne, -, -⟩ := id h
  have houtput : v.start.output cmd (v.loaded addr) = (v.emit (.ioWrite cmd (v.loaded addr))).start := by
    rw [output_external (not_known_of_output hout hwsw hco hne) hout, State.start_ioWrite v _ hlegal hparity, chipWrite_external h]
  unfold Shape.element
  dsimp only
  rw [if_neg (by simp [hak, hlegal]), hout, if_neg Bool.false_ne_true, if_pos hread, xio_output_state _ hak hout, houtput]
  rfl

/-- What is on the bus does not matter to that. -/
theorem externalOutput_trace (events : List BusEvent) (h : Shape.externalOutput v cmd) :
    Shape.externalOutput { v with trace := events } cmd := by
  obtain ⟨hout, hwsw, hco, hne, hbpu, hmmu⟩ := h
  refine ⟨hout, hwsw, hco, fun p hp heq => ?_, hbpu, hmmu⟩
  have hmem := List.mem_map_of_mem (f := Prod.fst) hp
  rw [outputs_commands, ← outputs_commands v 0] at hmem
  rw [heq] at hne
  exact not_mem_of_ne hne hmem

/-- The cycles of the elements that only go to the bus, latest first. -/
def busCycles (s : State) (base stride addr : Word) (ns : List Nat) (i : Nat) : List BusEvent :=
  ((ns.zipIdx i).map fun p => BusEvent.ioWrite (base + BitVec.ofNat 16 p.1 * stride) (s.loaded (addr + BitVec.ofNat 16 p.2))).reverse

theorem elements_external {base stride : Word} (hak : akField s.sw = 0) (ns : List Nat) (i : Nat) (events : List BusEvent)
    (hns : ∀ n ∈ ns, Shape.externalOutput s (base + BitVec.ofNat 16 n * stride) ∧ s.ioFaulty (base + BitVec.ofNat 16 n * stride) = false)
    (hread : ∀ k, i ≤ k → k < i + ns.length → s.readable (addr + BitVec.ofNat 16 k) = true) :
    Shape.elements base stride ns (addr + BitVec.ofNat 16 i) { s with trace := events } =
      some { s with trace := busCycles s base stride addr ns i ++ events } := by
  induction ns generalizing i events with
  | nil => rfl
  | cons n ns ih =>
    have haddr : addr + BitVec.ofNat 16 i + 1 = addr + BitVec.ofNat 16 (i + 1) := by
      rw [BitVec.add_assoc, BitVec.ofNat_add]
      rfl
    obtain ⟨hexternal, hclean⟩ := hns n (List.mem_cons_self ..)
    have helement := element_external (v := { s with trace := events }) (addr := addr + BitVec.ofNat 16 i)
      (externalOutput_trace events hexternal) hclean hak
      (hread i (Nat.le_refl i) (by rw [List.length_cons]; omega))
    have hrest := ih (i + 1) (.ioWrite (base + BitVec.ofNat 16 n * stride) (s.loaded (addr + BitVec.ofNat 16 i)) :: events)
      (fun m hm => hns m (List.mem_cons_of_mem n hm)) fun k hk hlt => hread k (by omega) (by rw [List.length_cons]; omega)
    have htrace : busCycles s base stride addr (n :: ns) i ++ events = busCycles s base stride addr ns (i + 1) ++
        .ioWrite (base + BitVec.ofNat 16 n * stride) (s.loaded (addr + BitVec.ofNat 16 i)) :: events := by
      simp [busCycles]
    rw [Shape.elements, helement, Option.bind_some, haddr, htrace]
    exact hrest

/-! ## Illegal elements -/

/-- The cycle of an illegal command is all it does (log 59). -/
theorem illegalElement_state (d : Word) (hflaw : ioFlawAt v.platform .illegal cmd = true) :
    (v.start.illegalElement cmd d).stopped = true ∧ ∃ n events, (v.start.illegalElement cmd d).run.s = { v with
      ft := v.ft ||| oneBit 5 ||| pendingIf (ioFlawAt v.platform .parity cmd) 2
      pir := v.pir ||| oneBit 1
      free := n
      trace := events } := by
  have hft : oneBit 5 = 0x0400 := by decide
  have hpir : oneBit 1 = 0x4000 := by decide
  have hone := pir_raised v.pir (ioFlawAt v.platform .parity cmd)
  have hread : ∃ n events, (v.start.ioRead cmd).run.s = { v with
      ft := v.ft ||| oneBit 5 ||| pendingIf (ioFlawAt v.platform .parity cmd) 2
      pir := v.pir ||| oneBit 1
      free := n
      trace := events } := by
    rw [start_ioRead_illegal hflaw, ioParity_eq, hft, ← hone, hpir]
    exact ⟨_, _, rfl⟩
  have hwrite : ∀ data, ∃ n events, (v.start.ioWriteIgnored cmd data).s = { v with
      ft := v.ft ||| oneBit 5 ||| pendingIf (ioFlawAt v.platform .parity cmd) 2
      pir := v.pir ||| oneBit 1
      free := n
      trace := events } := fun data => by
    cases data
    case none =>
      rw [Run.ioWriteIgnored, ioWrite_eq, State.start_s, Shape.ioWritten, State.ioFaulty, hflaw]
      exact ⟨_, _, rfl⟩
    case some x =>
      rw [Run.ioWriteIgnored, State.start_aborted, if_neg Bool.false_ne_true, ioWrite_eq, State.start_s, Shape.ioWritten,
        State.ioFaulty, hflaw]
      exact ⟨_, _, rfl⟩
  unfold Run.illegalElement
  rw [State.start_halted, if_neg Bool.false_ne_true]
  split
  · exact ⟨rfl, hread⟩
  all_goals exact ⟨rfl, hwrite _⟩

/-- An element whose cycle is illegal ends the chain. -/
theorem follow_illegal {base stride : Word} {n : Nat} (rest : List Nat) (halone : v.alone = true)
    (hflaw : ioFlawAt v.platform .illegal (base + BitVec.ofNat 16 n * stride) = true)
    (hissues : Shape.issues v (base + BitVec.ofNat 16 n * stride) (v.loaded addr) = true)
    (hdata : bitOf (base + BitVec.ofNat 16 n * stride) 0 = true ∨ v.readable addr = true) :
    ∃ k events, (follow base stride (n :: rest) addr v.start).s = { v with
      ft := v.ft ||| oneBit 5 ||| pendingIf (ioFlawAt v.platform .parity (base + BitVec.ofNat 16 n * stride)) 2
      pir := v.pir ||| oneBit 1
      free := k
      trace := events } := by
  rw [follow]
  generalize base + BitVec.ofNat 16 n * stride = cmd at *
  have helement : ∃ d, v.start.element cmd addr = v.start.illegalElement cmd d := by
    unfold Run.element
    rw [State.start_turn_alone halone, isInput]
    cases hin : bitOf cmd 0
    case true =>
      rw [if_pos rfl, State.start_s, hflaw, if_pos rfl]
      exact ⟨0, rfl⟩
    case false =>
      have hread := hdata.resolve_left (by simp [hin])
      rw [if_neg Bool.false_ne_true, State.read_clean v hread]
      dsimp only
      rw [State.given_run, State.given_val, State.start_turn_alone halone, State.start_s, State.start_aborted, issues_eq, hflaw, hissues]
      exact ⟨v.loaded addr, rfl⟩
  obtain ⟨d, hd⟩ := helement
  obtain ⟨hstopped, hstate⟩ := illegalElement_state (v := v) (cmd := cmd) d hflaw
  rw [hd, hstopped, if_pos rfl]
  exact hstate

/-- An output whose data word cannot be read. -/
theorem follow_unread {base stride : Word} {n j : Nat} (rest : List Nat) (halone : v.alone = true) (hwf : v.mem.wf = true)
    (hj : j + rest.length < 16) (hout : bitOf (base + BitVec.ofNat 16 n * stride) 0 = false)
    (hread : v.readable (addr + BitVec.ofNat 16 j) = false) :
    Spoiled v (Shape.cycleFaults (v.ownCycle .read (addr + BitVec.ofNat 16 j))) addr
      (follow base stride (n :: rest) (addr + BitVec.ofNat 16 j) v.start) := by
  have hspoiled := spoiled_read addr hwf hread
  have haddr : addr + BitVec.ofNat 16 j + 1 = addr + BitVec.ofNat 16 (j + 1) := by
    rw [BitVec.add_assoc, BitVec.ofNat_add]
    rfl
  have helement : Spoiled v (Shape.cycleFaults (v.ownCycle .read (addr + BitVec.ofNat 16 j))) addr
      (v.start.element (base + BitVec.ofNat 16 n * stride) (addr + BitVec.ofNat 16 j)).run := by
    unfold Run.element
    rw [State.start_turn_alone halone, isInput, hout, if_neg Bool.false_ne_true]
    dsimp only
    rw [hspoiled.turn halone]
    exact hspoiled.command _ _ _
  rw [follow]
  split
  · exact helement
  · rw [haddr]
    exact helement.follow halone base stride rest (by omega)

/-- An input whose store draws MEM PRT ER or PAR ER. -/
theorem follow_refused {base stride : Word} {n j : Nat} (rest : List Nat) (halone : v.alone = true) (hwf : v.mem.wf = true)
    (hj : j + rest.length < 16) (hin : bitOf (base + BitVec.ofNat 16 n * stride) 0 = true)
    (hlegal : ioFlawAt v.platform .illegal (base + BitVec.ofNat 16 n * stride) = false)
    (hbad : cycleAborts ((v.start.input (base + BitVec.ofNat 16 n * stride)).run.s.ownCycle .write (addr + BitVec.ofNat 16 j)) = true) :
    let w := (v.start.input (base + BitVec.ofNat 16 n * stride)).run.s
    Spoiled w (Shape.cycleFaults (w.ownCycle .write (addr + BitVec.ofNat 16 j))) addr
      (follow base stride (n :: rest) (addr + BitVec.ofNat 16 j) v.start) := by
  dsimp only
  have hattends := attends_input v.start hlegal
  have halone' := hattends.alone halone
  have hwf' : (v.start.input (base + BitVec.ofNat 16 n * stride)).run.s.mem.wf = true := by
    rw [hattends.mem]
    exact hwf
  have haddr : addr + BitVec.ofNat 16 j + 1 = addr + BitVec.ofNat 16 (j + 1) := by
    rw [BitVec.add_assoc, BitVec.ofNat_add]
    rfl
  have helement := spoiled_write (addr := addr) (k := j) (by omega) hwf' (v.start.input (base + BitVec.ofNat 16 n * stride)).val hbad
  rw [follow, element_input halone hin hlegal]
  dsimp only
  rw [if_neg Bool.false_ne_true, haddr]
  exact helement.follow halone' base stride rest (by omega)

end Chain

/-! ## The instruction -/

section Instruction

variable {s : State} {ra rx : Reg} {a : Word}

/-- VIO always ends, past itself and with the registers as they were. -/
theorem vio_ends (hak : akField s.sw = 0) :
    ∃ t, exec (.vio ra rx a) s = .next t ∧ t.ic = s.ic + 2 ∧ t.regs = s.regs := by
  have hstart : SameProgram s s.start.s := .refl s
  have hsame := ((hstart.read (s.indexed a rx)).turn.read (s.indexed a rx + 1)).chain
    (s.start.read (s.indexed a rx)).val (s.reg ra) ((s.start.read (s.indexed a rx)).run.turn.read (s.indexed a rx + 1)).val
    (List.range 16) (s.indexed a rx + 2)
  rw [exec_vio ra rx a hak, ← chain_eq_follow]
  exact ⟨_, rfl, congrArg (· + 2) hsame.ic, hsame.regs⟩

/-- A word of the table that cannot be read. -/
theorem vio_table_unread (hak : akField s.sw = 0) {k : Nat} (hk : k < 2) (halone : s.alone = true) (hwf : s.mem.wf = true)
    (hfirst : k = 0 ∨ s.readable (s.indexed a rx) = true) (hread : s.readable (s.indexed a rx + BitVec.ofNat 16 k) = false) :
    ∃ t, exec (.vio ra rx a) s = .next t ∧
      Shape.VioAborted s (Shape.cycleFaults (s.ownCycle .read (s.indexed a rx + BitVec.ofNat 16 k))) (s.indexed a rx + 2) t := by
  have hlength : ∀ sel : Word, 0 + ((List.range 16).filter fun n => bitOf sel n).length ≤ 16 := fun sel => by
    have hle := List.length_filter_le (fun n => bitOf sel n) (List.range 16)
    rw [List.length_range] at hle
    omega
  have htable : Spoiled s (Shape.cycleFaults (s.ownCycle .read (s.indexed a rx + BitVec.ofNat 16 k))) (s.indexed a rx + 2)
      ((s.start.read (s.indexed a rx)).run.turn.read (s.indexed a rx + 1)).run := by
    have hzero : s.indexed a rx + BitVec.ofNat 16 0 = s.indexed a rx := BitVec.add_zero _
    obtain rfl | rfl : k = 0 ∨ k = 1 := by omega
    · rw [hzero] at hread ⊢
      have hspoiled := spoiled_read (s.indexed a rx + 2) hwf hread
      rw [hspoiled.turn halone]
      exact hspoiled.read _
    · rw [State.read_clean s (hfirst.resolve_left (by decide)), State.given_run, State.start_turn_alone halone]
      exact spoiled_read _ hwf hread
  have hzero : s.indexed a rx + 2 + BitVec.ofNat 16 0 = s.indexed a rx + 2 := BitVec.add_zero _
  have hfollow := htable.follow halone (s.start.read (s.indexed a rx)).val (s.reg ra) _
    (hlength ((s.start.read (s.indexed a rx)).run.turn.read (s.indexed a rx + 1)).val)
  rw [hzero] at hfollow
  rw [exec_vio ra rx a hak]
  exact hfollow.vioAborted 2

/-- One output. -/
theorem vio_output {n : Fin 16} {u : State} (hak : akField s.sw = 0) (hspan : s.readableSpan (s.indexed a rx) 3 = true)
    (hsel : s.loaded (s.indexed a rx + 1) = oneBit n.val)
    (hlegal : ioFlawAt s.platform .illegal (s.loaded (s.indexed a rx) + BitVec.ofNat 16 n.val * s.reg ra) = false)
    (hout : bitOf (s.loaded (s.indexed a rx) + BitVec.ofNat 16 n.val * s.reg ra) 0 = false)
    (hu : exec (.xio 0 0 (s.loaded (s.indexed a rx) + BitVec.ofNat 16 n.val * s.reg ra))
      (s.setReg 0 (s.loaded (s.indexed a rx + 2))) = .next u) : exec (.vio ra rx a) s = .next { u with regs := s.regs } := by
  obtain ⟨halone, hall⟩ := readableSpan_two (by decide) hspan
  have hread : s.readable (s.indexed a rx + 2) = true := hall 2 (by decide)
  rw [exec_vio_readable ra rx a hak (by decide) hspan, hsel, chosen_oneBit, follow]
  generalize s.loaded (s.indexed a rx) + BitVec.ofNat 16 n.val * s.reg ra = cmd at *
  have hattends := attends_output s.start cmd (s.loaded (s.indexed a rx + 2))
  have hregs : (s.start.output cmd (s.loaded (s.indexed a rx + 2))).s.regs = s.regs := hattends.regs
  rw [xio_output_state _ hak hout] at hu
  obtain rfl := Host.Outcome.next.inj hu
  rw [element_output halone hout hread (by rw [hlegal, Bool.false_and]), ← hregs]
  rfl

/-- One input. -/
theorem vio_input {n : Fin 16} {rb : Reg} {u : State} (hak : akField s.sw = 0) (hwf : s.mem.wf = true)
    (hspan : s.readableSpan (s.indexed a rx) 2 = true) (hwrite : s.writable (s.indexed a rx + 2) = true)
    (hsel : s.loaded (s.indexed a rx + 1) = oneBit n.val)
    (hlegal : ioFlawAt s.platform .illegal (s.loaded (s.indexed a rx) + BitVec.ofNat 16 n.val * s.reg ra) = false)
    (hin : bitOf (s.loaded (s.indexed a rx) + BitVec.ofNat 16 n.val * s.reg ra) 0 = true)
    (hu : exec (.xio rb 0 (s.loaded (s.indexed a rx) + BitVec.ofNat 16 n.val * s.reg ra)) s = .next u) :
    ∃ t, exec (.vio ra rx a) s = .next t ∧ t = { u with regs := s.regs, mem := t.mem } ∧ t.mem.wf = true ∧
      Stored s.mem t.mem [(s.place (s.indexed a rx + 2), u.reg rb)] := by
  obtain ⟨halone, -⟩ := readableSpan_two (by decide) hspan
  rw [exec_vio_readable ra rx a hak (by decide) hspan, hsel, chosen_oneBit, follow]
  generalize s.loaded (s.indexed a rx) + BitVec.ofNat 16 n.val * s.reg ra = cmd at *
  obtain ⟨ft, pir, events, k, inputs, hstate⟩ := input_frame s hin hlegal
  rw [xio_input_state rb hak hin hlegal] at hu
  obtain rfl := Host.Outcome.next.inj hu
  have hreg : (((s.start.input cmd).run.s.setReg rb (s.start.input cmd).val).past 2).reg rb = (s.start.input cmd).val :=
    State.reg_setReg_same _ rb _
  rw [element_input halone hin hlegal, hreg, hstate, State.write_clean _ _ (by exact hwrite)]
  exact ⟨_, rfl, rfl, Memory.wf_writeWord _ _ hwf, Memory.stored_writeWord _ _ hwf⟩

/-- The elements, as far as none faults. -/
theorem vio_elements {ns rest : List Nat} {v : State} (hak : akField s.sw = 0) (hspan : s.readableSpan (s.indexed a rx) 2 = true)
    (hchosen : ((List.range 16).filter fun n => bitOf (s.loaded (s.indexed a rx + 1)) n) = ns ++ rest)
    (hv : Shape.elements (s.loaded (s.indexed a rx)) (s.reg ra) ns (s.indexed a rx + 2) s = some v) :
    exec (.vio ra rx a) s = (follow (s.loaded (s.indexed a rx)) (s.reg ra) rest
      (s.indexed a rx + 2 + BitVec.ofNat 16 ns.length) v.start).next 2 ∧
      v.alone = true ∧ SameProgram s v ∧ (s.mem.wf = true → v.mem.wf = true) ∧ ns.length + rest.length ≤ 16 := by
  obtain ⟨halone, -⟩ := readableSpan_two (by decide) hspan
  obtain ⟨hfollow, halone', hsame, hwf⟩ := follow_elements ns rest halone hv
  refine ⟨?_, halone', hsame, hwf, ?_⟩
  · rw [exec_vio_readable ra rx a hak (by decide) hspan, hchosen, hfollow]
  · have hle := List.length_filter_le (fun n => bitOf (s.loaded (s.indexed a rx + 1)) n) (List.range 16)
    rw [hchosen, List.length_append, List.length_range] at hle
    exact hle

/-- Elements that only go to the bus. -/
theorem vio_external (hak : akField s.sw = 0)
    (hspan : s.readableSpan (s.indexed a rx)
      (2 + ((List.range 16).filter fun n => bitOf (s.loaded (s.indexed a rx + 1)) n).length) = true)
    (hexternal : ∀ n ∈ (List.range 16).filter fun n => bitOf (s.loaded (s.indexed a rx + 1)) n,
      Shape.externalOutput s (s.loaded (s.indexed a rx) + BitVec.ofNat 16 n * s.reg ra) ∧
        s.ioFaulty (s.loaded (s.indexed a rx) + BitVec.ofNat 16 n * s.reg ra) = false) :
    exec (.vio ra rx a) s = .next { s with
      ic := s.ic + 2
      trace := busCycles s (s.loaded (s.indexed a rx)) (s.reg ra) (s.indexed a rx + 2)
        ((List.range 16).filter fun n => bitOf (s.loaded (s.indexed a rx + 1)) n) 0 ++ s.trace } := by
  rw [exec_vio_readable ra rx a hak (by omega) hspan]
  generalize ((List.range 16).filter fun n => bitOf (s.loaded (s.indexed a rx + 1)) n) = ns at *
  obtain ⟨halone, hall⟩ := readableSpan_two (by omega) hspan
  have hread : ∀ k, 0 ≤ k → k < 0 + ns.length → s.readable (s.indexed a rx + 2 + BitVec.ofNat 16 k) = true := fun k _ hk => by
    have haddr : s.indexed a rx + 2 + BitVec.ofNat 16 k = s.indexed a rx + BitVec.ofNat 16 (2 + k) := by
      rw [BitVec.add_assoc, BitVec.ofNat_add]
      rfl
    rw [haddr]
    exact hall (2 + k) (by omega)
  have helements := elements_external (addr := s.indexed a rx + 2) hak ns 0 s.trace hexternal hread
  have hzero : s.indexed a rx + 2 + BitVec.ofNat 16 0 = s.indexed a rx + 2 := BitVec.add_zero _
  rw [hzero] at helements
  have hfollow := (follow_elements ns [] halone helements).1
  rw [List.append_nil] at hfollow
  rw [hfollow]
  rfl

end Instruction

/-- Settles O44. -/
theorem vectoredIo : Obligations.VectoredIo := by
  intro ra rx a s hak
  refine ⟨vio_ends hak, fun hspan hsel => ?_, fun n u hspan hsel hlegal hout hu => vio_output hak hspan hsel hlegal hout hu,
    fun n rb u hwf hspan hwrite hsel hlegal hin hu => vio_input hak hwf hspan hwrite hsel hlegal hin hu, fun hspan t ht => ?_,
    fun hspan hexternal => ?_, fun hspan ns rest n v hchosen hv => ⟨fun hflaw hissues hdata => ?_, fun hwf hout hread => ?_,
      fun hwf hakv hin hlegal u hu hbad => ?_⟩,
    fun k hk halone hwf hfirst hread => vio_table_unread hak hk halone hwf hfirst hread⟩
  · rw [exec_vio_readable ra rx a hak (Nat.le_refl 2) hspan, show s.loaded (s.indexed a rx + 1) = 0 from hsel, chosen_zero]
    rfl
  · exact (vio_elements hak hspan (List.append_nil _).symm ht).1
  · exact vio_external hak hspan hexternal
  · obtain ⟨hexec, halone, hsame, -, -⟩ := vio_elements hak hspan hchosen hv
    rw [← hsame.platform] at hflaw ⊢
    obtain ⟨k, events, hstate⟩ := follow_illegal (base := s.loaded (s.indexed a rx)) (stride := s.reg ra) (n := n) rest halone
      hflaw hissues hdata
    refine ⟨_, hexec, ?_⟩
    rw [hstate, ← hsame.ic]
    rfl
  · obtain ⟨hexec, halone, -, hwfs, hlength⟩ := vio_elements hak hspan hchosen hv
    have hspoiled := follow_unread (base := s.loaded (s.indexed a rx)) (stride := s.reg ra) (n := n) rest halone (hwfs hwf)
      (by rw [List.length_cons] at hlength; omega) hout hread
    rw [hexec]
    exact hspoiled.vioAborted 2
  · obtain ⟨hexec, halone, hsame, hwfs, hlength⟩ := vio_elements hak hspan hchosen hv
    rw [← hsame.platform] at hlegal
    rw [xio_input_state 0 hakv hin hlegal] at hu
    obtain rfl := Host.Outcome.next.inj hu
    have hbad' : cycleAborts ((v.start.input (s.loaded (s.indexed a rx) + BitVec.ofNat 16 n * s.reg ra)).run.s.ownCycle .write
        (s.indexed a rx + 2 + BitVec.ofNat 16 ns.length)) = true := by
      rw [cycleAborts, Bool.or_eq_true]
      exact hbad
    have hspoiled := follow_refused (j := ns.length) rest halone (hwfs hwf) (by rw [List.length_cons] at hlength; omega) hin hlegal hbad'
    obtain ⟨t, ht, haborted⟩ := hspoiled.vioAborted 2
    exact ⟨t, hexec.trans ht, haborted⟩

end Sys2Proof.Proofs
end
